-- ==== Sys2Proof/Word.lean ====
section
/-!
DEFINITION. Word.lean: the two bit widths every file uses. Registers and host addresses are 32 bits wide
(10_state.md R100, 00_scope.md R6), host memory is made of bytes (20_memory.md R204).
-/

namespace Sys2Proof

/-- A register value, an operand or a host byte address (10_state.md R100, R130). -/
abbrev Word := BitVec 32

/-- One byte of host memory, of the stream or of the window (20_memory.md R204). -/
abbrev Byte := BitVec 8

end Sys2Proof
end

