-- ==== Sys2Proof/Config.lean ====
section
/-!
DEFINITION. Config.lean: what an implementation or its platform fixes, and the free values.

The parameters of 00_scope.md R6 stand in `Config.Platform`, which State carries in the field `plat` so that
a statement about every state is a statement about every platform (log 3). ADDR_W and DICT_LOG2_MIN are fixed by the
spec and stand with the format constants in Machine/Format.lean.

A value the spec leaves unspecified ('any value', 93_implementation_defined.md section 2) is one of the two opaque
constants below, applied to the number of the draw (State.draws), a slot that tells the fields of one draw apart, and an
index into a list. Neither has a body: nothing can evaluate one or prove a value of it (log 2).
-/

namespace Sys2Proof

/-- The four symbol classes of the adaptive codec (30_encoding.md R340). -/
inductive SymClass where
  /-- TYPE, SEL 0: literal, match or end of stream. -/
  | typ
  /-- LIT, SEL 1: a literal byte. -/
  | lit
  /-- LEN, SEL 2: the length bucket of a match. -/
  | len
  /-- DIST, SEL 3: the distance bucket of a match. -/
  | dist
deriving DecidableEq, Repr

namespace Config

/-- A host address range `[base, base + len)` the platform gives a property to. -/
structure Range where
  base : Nat
  len  : Nat
deriving DecidableEq, Repr

/-- The parameters a platform fixes (00_scope.md R6) and the two kinds of host memory that carry no meaning:
memory with read or write side effects (20_memory.md R208) and addresses whose accesses the bus rejects
(60_exceptions.md R822, `BUS_FAULT`). -/
structure Platform where
  /-- REG_BASE: the host address of register offset 0x00. -/
  regBase     : Nat
  /-- DICT_LOG2_MAX: the largest legal `dict_size_log2`. -/
  dictLog2Max : Nat
  /-- HELPER_MAX: the largest legal `max_helper_threads`. -/
  helperMax   : Nat
  /-- Ranges of memory with side effects, other instances' register blocks among them. -/
  devices     : List Range
  /-- Ranges whose accesses the platform's bus rejects. -/
  unmapped    : List Range
deriving DecidableEq, Repr

/-- The legal values of the parameters (00_scope.md R6). -/
def Platform.legal (p : Platform) : Bool :=
  p.regBase % 256 == 0 && decide (p.regBase + 256 ≤ 2 ^ 32) &&
    decide (15 ≤ p.dictLog2Max) && decide (p.dictLog2Max ≤ 30) && decide (p.helperMax ≤ 255)

/-- The reference values of 00_scope.md R6: DICT_LOG2_MAX 30, HELPER_MAX 64. R6 gives REG_BASE no default: 0x40000000 is
a DESIGN CHOICE (log 3), and so is that no range has side effects or is rejected. -/
def Platform.reference : Platform :=
  { regBase := 0x40000000, dictLog2Max := 30, helperMax := 64, devices := [], unmapped := [] }

/-- Free numbers: draw, slot, index (log 2). -/
opaque freeNat : Nat → Nat → Nat → Nat

/-- Free contents of a byte store, as a list of writes to it: draw, slot (log 2). -/
opaque freeBytes : Nat → Nat → List (Nat × BitVec 8)

end Config

end Sys2Proof
end

