-- ==== Sys2Proof/Syntax.lean ====
section
/-!
DEFINITION. Syntax.lean: the instructions, which on this block are the commands a host writes to CMD. One constructor
per row of spec/opcode_table.json (30_encoding.md R302). The command word carries only SEL, for the six table
commands, and FINAL, for COMPRESS (R304); every other operand is a register latched at the issue (R310).
-/

namespace Sys2Proof

/-- The 25 commands (30_encoding.md R302). -/
inductive Instr where
  /-- CINIT: initialise the context as a compressor (49_context.md R710). -/
  | cinit
  /-- DINIT: initialise the context as a decompressor (49_context.md R711). -/
  | dinit
  /-- REINIT: start a fresh stream (49_context.md R712). -/
  | reinit
  /-- CLOSE: release the context (49_context.md R713). -/
  | close
  /-- COMPRESS: compress one chunk; `final` is FINAL (47_parser_compress.md R640). -/
  | compress (final : Bool)
  /-- DECOMPRESS: decode one whole stream (48_decompress.md R660). -/
  | decompress
  /-- HBUILD: build a code for a frequency array (43_prefix_code.md R500). -/
  | hbuild
  /-- TRESET: set one table to its initial state (44_adaptive_codec.md R540). -/
  | treset (c : SymClass)
  /-- TENC: encode one symbol (44_adaptive_codec.md R541). -/
  | tenc (c : SymClass)
  /-- TDEC: decode one symbol (44_adaptive_codec.md R542). -/
  | tdec (c : SymClass)
  /-- TCOST: the code length of a symbol (44_adaptive_codec.md R543). -/
  | tcost (c : SymClass)
  /-- TREAD: one symbol's table entry (44_adaptive_codec.md R544). -/
  | tread (c : SymClass)
  /-- TSTAT: a table's size and schedule (44_adaptive_codec.md R545). -/
  | tstat (c : SymClass)
  /-- WSETUP: set up the write cursor (41_bitstream.md R445). -/
  | wsetup
  /-- PUTBITS: write n bits (41_bitstream.md R446). -/
  | putbits
  /-- WFLUSH: pad to a byte boundary (41_bitstream.md R447). -/
  | wflush
  /-- RSETUP: set up the read cursor (41_bitstream.md R448). -/
  | rsetup
  /-- GETBITS: read n bits (41_bitstream.md R449). -/
  | getbits
  /-- RALIGN: skip to the next byte boundary (41_bitstream.md R450). -/
  | ralign
  /-- WPUT: append one byte to the window (45_window.md R575). -/
  | wput
  /-- WGET: read one history byte (45_window.md R576). -/
  | wget
  /-- MFIND: find the best match for a lookahead (46_match_finder.md R600). -/
  | mfind
  /-- COST: evaluate the cost model (47_parser_compress.md R630). -/
  | cost
  /-- AINIT: restart the accumulator (42_checksum.md R470). -/
  | ainit
  /-- AUPDATE: fold a region into the accumulator (42_checksum.md R471). -/
  | aupdate
deriving DecidableEq, Repr

end Sys2Proof
end

