-- ==== Sys2Proof/WellFormed.lean ====
section
/-!
DEFINITION. WellFormed.lean: which command words are well-formed (30_encoding.md R301), said over the fields of a
word (R300). The typed commands of Syntax.lean cannot be ill-formed (SEL is a symbol class and FINAL a Bool where they may
be anything, and absent elsewhere); a raw word can, and these checks say how. Decode.lean reads words by itself; the
statements say that the two agree (Certificates/Slice0/Obligations.lean).
-/

namespace Sys2Proof

/-- Why a command word is ill-formed (30_encoding.md R301). Each of them completes with IllegalCommand. -/
inductive IllFormed where
  /-- OPC is not in the table of R302. -/
  | unknownOpcode
  /-- A bit of [31:11] is 1. -/
  | reservedBits
  /-- SEL is not 0 and the command is no table command. -/
  | selNotZero
  /-- FINAL is 1 and the command is not COMPRESS. -/
  | finalNotZero
deriving DecidableEq, Repr

/-- The fields of a command word (30_encoding.md R300). -/
structure CmdFields where
  opc      : BitVec 8
  sel      : BitVec 2
  final    : Bool
  reserved : BitVec 21
deriving DecidableEq, Repr

/-- The fields of a 32-bit word. -/
def CmdFields.ofWord (w : Word) : CmdFields :=
  { opc := w.extractLsb' 0 8, sel := w.extractLsb' 8 2, final := w.getLsbD 10, reserved := w.extractLsb' 11 21 }

/-- OPC is a row of the opcode map (30_encoding.md R302). -/
def CmdFields.opcKnown (f : CmdFields) : Bool :=
  [0x01#8, 0x02#8, 0x03#8, 0x04#8, 0x10#8, 0x11#8, 0x20#8, 0x21#8, 0x22#8, 0x23#8, 0x24#8, 0x25#8, 0x26#8,
    0x30#8, 0x31#8, 0x32#8, 0x33#8, 0x34#8, 0x35#8, 0x40#8, 0x41#8, 0x42#8, 0x43#8, 0x50#8, 0x51#8].contains f.opc

/-- Bits [31:11] are all 0. -/
def CmdFields.reservedOk (f : CmdFields) : Bool :=
  f.reserved == 0

/-- SEL is 0 unless the command is TRESET, TENC, TDEC, TCOST, TREAD or TSTAT. -/
def CmdFields.selOk (f : CmdFields) : Bool :=
  f.sel == 0 || [0x21#8, 0x22#8, 0x23#8, 0x24#8, 0x25#8, 0x26#8].contains f.opc

/-- FINAL is 0 unless the command is COMPRESS. -/
def CmdFields.finalOk (f : CmdFields) : Bool :=
  !f.final || f.opc == 0x10

/-- The word is not ill-formed (30_encoding.md R301). -/
def CmdFields.wellFormed (f : CmdFields) : Bool :=
  f.opcKnown && f.reservedOk && f.selOk && f.finalOk

/-- SEL of a symbol class (30_encoding.md R340). -/
def SymClass.selBits : SymClass → BitVec 2
  | .typ => 0
  | .lit => 1
  | .len => 2
  | .dist => 3

/-- The fields of the word that stands for a command (30_encoding.md R302). -/
def Instr.fields : Instr → CmdFields
  | .cinit => ⟨0x01, 0, false, 0⟩
  | .dinit => ⟨0x02, 0, false, 0⟩
  | .reinit => ⟨0x03, 0, false, 0⟩
  | .close => ⟨0x04, 0, false, 0⟩
  | .compress f => ⟨0x10, 0, f, 0⟩
  | .decompress => ⟨0x11, 0, false, 0⟩
  | .hbuild => ⟨0x20, 0, false, 0⟩
  | .treset c => ⟨0x21, c.selBits, false, 0⟩
  | .tenc c => ⟨0x22, c.selBits, false, 0⟩
  | .tdec c => ⟨0x23, c.selBits, false, 0⟩
  | .tcost c => ⟨0x24, c.selBits, false, 0⟩
  | .tread c => ⟨0x25, c.selBits, false, 0⟩
  | .tstat c => ⟨0x26, c.selBits, false, 0⟩
  | .wsetup => ⟨0x30, 0, false, 0⟩
  | .putbits => ⟨0x31, 0, false, 0⟩
  | .wflush => ⟨0x32, 0, false, 0⟩
  | .rsetup => ⟨0x33, 0, false, 0⟩
  | .getbits => ⟨0x34, 0, false, 0⟩
  | .ralign => ⟨0x35, 0, false, 0⟩
  | .wput => ⟨0x40, 0, false, 0⟩
  | .wget => ⟨0x41, 0, false, 0⟩
  | .mfind => ⟨0x42, 0, false, 0⟩
  | .cost => ⟨0x43, 0, false, 0⟩
  | .ainit => ⟨0x50, 0, false, 0⟩
  | .aupdate => ⟨0x51, 0, false, 0⟩

/-- A command is well-formed when the word that stands for it is. -/
def Instr.wellFormed (i : Instr) : Bool :=
  i.fields.wellFormed

end Sys2Proof
end

