-- ==== Sys2Proof/Decode.lean ====
section
/-!
DEFINITION. Decode.lean: from a 32-bit command word to a command, total, rejecting by name (30_encoding.md R301, R304),
and the encoder beside it (30_encoding.md R350: the word is `OPC | (SEL << 8) | (FINAL << 10)`).
-/

namespace Sys2Proof

/-- The symbol class a SEL value names; every value 0..3 is legal (30_encoding.md R300, R340). -/
def classOfSel (sel : BitVec 2) : SymClass :=
  if sel = 0 then .typ else if sel = 1 then .lit else if sel = 2 then .len else .dist

/-- The SEL value of a symbol class (30_encoding.md R340). -/
def selOfClass : SymClass → Nat
  | .typ => 0
  | .lit => 1
  | .len => 2
  | .dist => 3

/-- A command whose word has SEL 0 and FINAL 0 (30_encoding.md R301). -/
def decodePlain (sel : BitVec 2) (final : Bool) (i : Instr) : Except IllFormed Instr :=
  if sel ≠ 0 then .error .selNotZero else if final then .error .finalNotZero else .ok i

/-- A table command: any SEL, FINAL 0 (30_encoding.md R301). -/
def decodeClassed (sel : BitVec 2) (final : Bool) (mk : SymClass → Instr) : Except IllFormed Instr :=
  if final then .error .finalNotZero else .ok (mk (classOfSel sel))

/-- COMPRESS: SEL 0, either FINAL (30_encoding.md R301). -/
def decodeFinal (sel : BitVec 2) (final : Bool) (mk : Bool → Instr) : Except IllFormed Instr :=
  if sel ≠ 0 then .error .selNotZero else .ok (mk final)

/-- The row of the opcode map that OPC selects (30_encoding.md R302); every other OPC is reserved (R303). -/
def decodeOpcode (opc : Nat) (sel : BitVec 2) (final : Bool) : Except IllFormed Instr :=
  match opc with
  | 0x01 => decodePlain sel final .cinit
  | 0x02 => decodePlain sel final .dinit
  | 0x03 => decodePlain sel final .reinit
  | 0x04 => decodePlain sel final .close
  | 0x10 => decodeFinal sel final .compress
  | 0x11 => decodePlain sel final .decompress
  | 0x20 => decodePlain sel final .hbuild
  | 0x21 => decodeClassed sel final .treset
  | 0x22 => decodeClassed sel final .tenc
  | 0x23 => decodeClassed sel final .tdec
  | 0x24 => decodeClassed sel final .tcost
  | 0x25 => decodeClassed sel final .tread
  | 0x26 => decodeClassed sel final .tstat
  | 0x30 => decodePlain sel final .wsetup
  | 0x31 => decodePlain sel final .putbits
  | 0x32 => decodePlain sel final .wflush
  | 0x33 => decodePlain sel final .rsetup
  | 0x34 => decodePlain sel final .getbits
  | 0x35 => decodePlain sel final .ralign
  | 0x40 => decodePlain sel final .wput
  | 0x41 => decodePlain sel final .wget
  | 0x42 => decodePlain sel final .mfind
  | 0x43 => decodePlain sel final .cost
  | 0x50 => decodePlain sel final .ainit
  | 0x51 => decodePlain sel final .aupdate
  | _ => .error .unknownOpcode

/-- Decoding of a command word: `opc = w[7:0]`, `sel = w[9:8]`, `final = w[10]`, bits [31:11] zero
(30_encoding.md R304). -/
def decode (w : Word) : Except IllFormed Instr :=
  if w.extractLsb' 11 21 ≠ 0 then .error .reservedBits
  else decodeOpcode (w.extractLsb' 0 8).toNat (w.extractLsb' 8 2) (w.getLsbD 10)

/-- The word `OPC | (SEL << 8) | (FINAL << 10)` (30_encoding.md R350). -/
def commandWord (opc sel : Nat) (final : Bool) : Word :=
  BitVec.ofNat 32 (opc ||| (sel <<< 8) ||| (final.toNat <<< 10))

/-- The command word of a command (30_encoding.md R302). -/
def encode : Instr → Word
  | .cinit => commandWord 0x01 0 false
  | .dinit => commandWord 0x02 0 false
  | .reinit => commandWord 0x03 0 false
  | .close => commandWord 0x04 0 false
  | .compress f => commandWord 0x10 0 f
  | .decompress => commandWord 0x11 0 false
  | .hbuild => commandWord 0x20 0 false
  | .treset c => commandWord 0x21 (selOfClass c) false
  | .tenc c => commandWord 0x22 (selOfClass c) false
  | .tdec c => commandWord 0x23 (selOfClass c) false
  | .tcost c => commandWord 0x24 (selOfClass c) false
  | .tread c => commandWord 0x25 (selOfClass c) false
  | .tstat c => commandWord 0x26 (selOfClass c) false
  | .wsetup => commandWord 0x30 0 false
  | .putbits => commandWord 0x31 0 false
  | .wflush => commandWord 0x32 0 false
  | .rsetup => commandWord 0x33 0 false
  | .getbits => commandWord 0x34 0 false
  | .ralign => commandWord 0x35 0 false
  | .wput => commandWord 0x40 0 false
  | .wget => commandWord 0x41 0 false
  | .mfind => commandWord 0x42 0 false
  | .cost => commandWord 0x43 0 false
  | .ainit => commandWord 0x50 0 false
  | .aupdate => commandWord 0x51 0 false

/-- The word written to CMD for a table row of `nbits` bits: bit 0 is the least significant bit, the bits above `nbits`
are 0. A command is one 32-bit register value, so no byte order enters (20_memory.md R205 (c)). -/
def tableWord (nbits w : Nat) : Word :=
  BitVec.ofNat 32 (w % 2 ^ nbits)

/-- What the decoder reads from a table row's word. -/
def decodeTableWord (nbits w : Nat) : Option Instr :=
  match decode (tableWord nbits w) with
  | .ok i => some i
  | .error _ => none

end Sys2Proof
end

