-- ==== Sys2Proof/Machine/State.lean ====
section
/-!
DEFINITION. Machine/State.lean: the state of the block and of the host beside it (10_state.md), the reasons a step stops
without a next state, and the state after reset (10_state.md R160). Plain data throughout.
-/

namespace Sys2Proof.Machine

/-- The error codes of STATUS.ERR (60_exceptions.md R800). Codes 10..255 are never written and have no constructor. -/
inductive ErrCode where
  | ok
  | invalidConfig
  | truncatedStream
  | corruptStream
  | checksumMismatch
  | outputBufferTooSmall
  | useAfterClose
  | invalidState
  | illegalCommand
  | rangeError
deriving DecidableEq, Repr

/-- `ctx.state` (10_state.md R150). ACTIVE is no value of it: it is the STATUS view of READY while busy (R105). -/
inductive CtxState where
  | uninit
  | ready
  | closed
deriving DecidableEq, Repr

/-- `ctx.role` (10_state.md R150). -/
inductive Role where
  | none
  | comp
  | decomp
deriving DecidableEq, Repr

/-- The context (10_state.md R150). -/
structure Ctx where
  state   : CtxState
  role    : Role
  /-- The current stream has begun. -/
  started : Bool
  /-- The current stream is finished or broken and needs REINIT. -/
  done    : Bool
deriving DecidableEq, Repr

/-- The latched configuration `lcfg` (10_state.md R151). -/
structure LCfg where
  dict    : Nat
  level   : Nat
  rate    : Nat
  maxint  : Nat
  slow    : Nat
  helpers : Nat
  adlerEn : Bool
  unbuf   : Bool
deriving DecidableEq, Repr

/-- The configuration registers, each with its stored bits (10_state.md R120 to R126). -/
structure CfgRegs where
  dictLog2    : BitVec 8
  level       : BitVec 8
  updateRate  : BitVec 8
  maxInterval : BitVec 16
  slowRate    : BitVec 8
  helpers     : BitVec 8
  /-- Bit 0 ADLER_EN, bit 1 UNBUF. -/
  dflags      : BitVec 2
deriving DecidableEq, Repr

/-- The six operand registers (10_state.md R130 to R135). -/
structure OpRegs where
  srcAddr : Word
  srcLen  : Word
  dstAddr : Word
  dstCap  : Word
  arg0    : Word
  arg1    : Word
deriving DecidableEq, Repr

/-- The command latch `pend` (10_state.md R157, 40_command_model.md R402): the command word and the copies of the operand
and configuration registers taken at the issue. -/
structure Latch where
  cmd : Word
  ops : OpRegs
  cfg : CfgRegs
deriving DecidableEq, Repr

/-- The write cursor `wc` (10_state.md R152). -/
structure WCur where
  base : Word
  cap  : Word
  pos  : Nat
  acc  : Nat
  nacc : Nat
deriving DecidableEq, Repr

/-- The read cursor `rc` (10_state.md R153). -/
structure RCur where
  base : Word
  len  : Word
  pos  : Nat
  bit  : Nat
deriving DecidableEq, Repr

/-- One adaptive table (10_state.md R154). -/
structure Table where
  n         : Nat
  freq      : List Nat
  len       : List Nat
  code      : List Nat
  interval  : Nat
  countdown : Nat
deriving DecidableEq, Repr

/-- The four adaptive tables, one per symbol class (10_state.md R154). -/
structure Tabs where
  typ  : Table
  lit  : Table
  len  : Table
  dist : Table
deriving DecidableEq, Repr

/-- A byte store: addresses strictly rising, no listed byte equal to 0x00, which is what an unlisted address reads as
(log 4). Host memory is one (20_memory.md R204), and so is the window ring. -/
abbrev Mem := List Host.Cell

/-- The Dictionary Window (10_state.md R155): the ring, by slot number, and the append counter. -/
structure Win where
  ring  : Mem
  total : BitVec 64
deriving DecidableEq, Repr

/-- What happens next at the block's ports, in order (log 1). A register access carries the width the host uses, so that
an access of another shape than R101's can be written down and refused. -/
inductive Event where
  /-- The engine gets its turn: a command in flight completes (40_command_model.md R404). -/
  | engine
  /-- The host polls STATUS until BUSY = 0 (30_encoding.md R350, WAIT). -/
  | wait
  /-- The host reads a register: access width in bits, byte offset in the block (10_state.md R101). -/
  | read (bits : Nat) (offset : BitVec 8)
  /-- The host writes a register (10_state.md R101). -/
  | write (bits : Nat) (offset : BitVec 8) (value : Word)
  /-- A clearing write of IRQ_PEND and the completion of the command in flight fall in one access (10_state.md R107). -/
  | clearAtCompletion (value : Word)
  /-- The host reads a byte of its memory (20_memory.md R211). -/
  | memRead (addr : Word)
  /-- The host writes a byte of its memory (20_memory.md R211). -/
  | memWrite (addr : Word) (value : Byte)
deriving DecidableEq, Repr

/-- The registers of the block (10_state.md R100). -/
inductive Reg where
  | id | cmd | status | irqEn | irqPend | srst
  | cfgDictLog2 | cfgLevel | cfgUpdateRate | cfgMaxInterval | cfgSlowRate | cfgHelpers | cfgDflags
  | srcAddr | srcLen | dstAddr | dstCap | arg0 | arg1
  | result | res0 | res1 | adler
  | wcPos | wcNbits | wcAcc | rcPos | rcBit | winTotalLo | winTotalHi
deriving DecidableEq, Repr

/-- A host memory region `[base, base + len)` (20_memory.md R202). The bounds are naturals, so nothing wraps. -/
structure Region where
  base : Nat
  len  : Nat
deriving DecidableEq, Repr

/-- The whole machine: the block's registers and internal state (10_state.md), host memory, and the model's own fields. -/
structure State where
  /-- Host memory (20_memory.md R204). -/
  mem     : Mem
  /-- IRQ_EN (10_state.md R106): bit 0 DONE_EN, bit 1 LOST_EN. -/
  irqEn   : BitVec 2
  /-- IRQ_PEND (10_state.md R107): bit 0 DONE, bit 1 LOST. -/
  irqPend : BitVec 2
  /-- STATUS.ERR (10_state.md R105). -/
  err     : ErrCode
  /-- The configuration registers (10_state.md R120 to R126). -/
  cfg     : CfgRegs
  /-- The operand registers (10_state.md R130 to R135). -/
  ops     : OpRegs
  /-- RESULT (10_state.md R136). -/
  result  : Word
  /-- RES0 (10_state.md R137). -/
  res0    : Word
  /-- RES1 (10_state.md R138). -/
  res1    : Word
  /-- ADLER, the running value `adler` (10_state.md R139). -/
  adler   : Word
  /-- `ctx` (10_state.md R150). -/
  ctx     : Ctx
  /-- `lcfg` (10_state.md R151). -/
  lcfg    : LCfg
  /-- `wc` (10_state.md R152). -/
  wc      : WCur
  /-- `rc` (10_state.md R153). -/
  rc      : RCur
  /-- `tab` (10_state.md R154). -/
  tab     : Tabs
  /-- `win` (10_state.md R155). -/
  win     : Win
  /-- `busy`, the STATUS.BUSY bit (10_state.md R157). -/
  busy    : Bool
  /-- `pend` (10_state.md R157), meaningful only while busy. -/
  pend    : Latch
  /-- The platform's parameters (00_scope.md R6); never written (log 3). -/
  plat    : Config.Platform
  /-- The events not yet delivered, oldest first (the model's own; log 1). -/
  inputs  : List Event
  /-- What the host's last register read returned (the model's own; log 22). -/
  rdata   : Word
  /-- What the host's last memory read returned (the model's own; log 22). -/
  mdata   : Byte
  /-- How many free values have been drawn (the model's own; log 2). -/
  draws   : Nat
deriving DecidableEq, Repr

/-- Why the machine stops with a fault. -/
inductive Fault where
  /-- Raised by a primitive that accesses memory through a cursor whose region does not lie inside the 2^32-byte host
  memory (20_memory.md R200, R204). No run reaches such a cursor: WSETUP and RSETUP check the region (R202). Safe: the
  model stops where the spec says no such access happens (log 9). -/
  | outsideAddressSpace
deriving DecidableEq, Repr

/-- Why a step is given no meaning. -/
inductive Refusal where
  /-- Raised by an arm of `exec` that has no meaning yet. Safe. -/
  | notModelled (mnemonic : String)
  /-- Raised by the register port for an access that is not 32 bits wide at a multiple of 4, and by a host byte access
  to the register block's addresses (60_exceptions.md R820 (a)). Safe: the spec says the model refuses it. -/
  | registerAccessShape
  /-- Raised by a command that names or uses a non-empty region covering the register block (60_exceptions.md
  R820 (c)). Safe: the spec says the model refuses it. -/
  | regionOnRegisters
  /-- Raised by a command that names or uses a non-empty region covering memory with side effects (60_exceptions.md
  R820 (c)), and by a host byte access to such memory. Safe. -/
  | regionOnDevice
  /-- Raised by a command one of whose own accesses the platform's bus rejects, `BUS_FAULT` (60_exceptions.md R822), and
  by a host byte access to such an address (log 21). Safe: a model may treat the run as refused (log 7). -/
  | busFault
  /-- Raised by a host write to a byte of a region of the command in flight (60_exceptions.md R820 (b)). Safe: the spec
  says the model refuses it. -/
  | hostWriteInFlight
deriving DecidableEq, Repr

/-- A table before any INIT has set it (log 5). -/
def Table.blank : Table :=
  { n := 0, freq := [], len := [], code := [], interval := 0, countdown := 0 }

/-- The machine right after reset (10_state.md R160). Where R160 says 'unspecified' (the ring, the tables, `lcfg`,
`pend`) the value is a DESIGN CHOICE named in log 5; nothing reads it before an INIT or an issue writes it. The fields
from `plat` on are the model's own. -/
def State.reset : State :=
  { mem := []
    irqEn := 0
    irqPend := 0
    err := .ok
    cfg := { dictLog2 := 20, level := 2, updateRate := 8, maxInterval := 1024, slowRate := 24, helpers := 0,
             dflags := 0b01 }
    ops := { srcAddr := 0, srcLen := 0, dstAddr := 0, dstCap := 0, arg0 := 0, arg1 := 0 }
    result := 0
    res0 := 0
    res1 := 0
    adler := 0x00000001
    ctx := { state := .uninit, role := .none, started := false, done := false }
    lcfg := { dict := 0, level := 0, rate := 0, maxint := 0, slow := 0, helpers := 0, adlerEn := false,
              unbuf := false }
    wc := { base := 0, cap := 0, pos := 0, acc := 0, nacc := 0 }
    rc := { base := 0, len := 0, pos := 0, bit := 0 }
    tab := { typ := .blank, lit := .blank, len := .blank, dist := .blank }
    win := { ring := [], total := 0 }
    busy := false
    pend := { cmd := 0
              ops := { srcAddr := 0, srcLen := 0, dstAddr := 0, dstCap := 0, arg0 := 0, arg1 := 0 }
              cfg := { dictLog2 := 0, level := 0, updateRate := 0, maxInterval := 0, slowRate := 0, helpers := 0,
                       dflags := 0 } }
    plat := .reference
    inputs := []
    rdata := 0
    mdata := 0
    draws := 0 }

end Sys2Proof.Machine
end

