-- ==== Sys2Proof/Machine/Format.lean ====
section
/-!
DEFINITION. Machine/Format.lean: the constants of the compressed-stream format (00_scope.md R7), the encodings of the
status fields, the alphabets (30_encoding.md R340), value bucketing (R342) and the header (R330).
-/

namespace Sys2Proof.Machine

/-- The size of host memory, `2^ADDR_W` with ADDR_W = 32 (00_scope.md R6). -/
def addrSpace : Nat := 2 ^ 32

/-- The size in bytes of the register block (10_state.md R100). -/
def regBlockLen : Nat := 256

/-- DICT_LOG2_MIN (00_scope.md R6). -/
def dictLog2Min : Nat := 15

/-- LEVEL_MAX (00_scope.md R7). -/
def levelMax : Nat := 4

/-- MAX_CODE_LEN (43_prefix_code.md R480). -/
def maxCodeLen : Nat := 16

/-- MIN_MATCH (30_encoding.md R343). -/
def minMatch : Nat := 3

/-- MAX_MATCH (30_encoding.md R343). -/
def maxMatch : Nat := 258

/-- FREQ_SUM_LIMIT (44_adaptive_codec.md R526). -/
def freqSumLimit : Nat := 65536

/-- HB_MAX_SYMS (43_prefix_code.md R500). -/
def hbMaxSyms : Nat := 1024

/-- CHAIN_DEPTH (46_match_finder.md R592). -/
def chainDepth (level : Nat) : Nat :=
  [1, 4, 16, 64, 256].getD level 256

/-- The alphabet size of a symbol class (30_encoding.md R340). -/
def alphabetSize (c : SymClass) (dict : Nat) : Nat :=
  match c with
  | .typ => 3
  | .lit => 256
  | .len => 16
  | .dist => 2 * dict

/-- `bucket(v) = (sym, nx, x)` (30_encoding.md R342). -/
def bucket (v : Nat) : Nat × Nat × Nat :=
  if v < 4 then (v, 0, 0)
  else
    let k := Nat.log2 v
    (2 * k + ((v >>> (k - 1)) &&& 1), k - 1, v &&& (2 ^ (k - 1) - 1))

/-- `nextra(sym)` (30_encoding.md R342). -/
def nextra (sym : Nat) : Nat :=
  if sym < 4 then 0 else (sym >>> 1) - 1

/-- `unbucket(sym, x)` (30_encoding.md R342). -/
def unbucket (sym x : Nat) : Nat :=
  if sym < 4 then sym else ((2 ||| (sym &&& 1)) <<< ((sym >>> 1) - 1)) + x

/-- The eight header bytes (30_encoding.md R330, 47_parser_compress.md R640). -/
def header (lc : LCfg) : List Byte :=
  [0x50, 0x5A, 0x01, BitVec.ofNat 8 lc.dict, BitVec.ofNat 8 lc.rate, BitVec.ofNat 8 (lc.maxint >>> 8),
    BitVec.ofNat 8 (lc.maxint &&& 0xFF), BitVec.ofNat 8 lc.slow]

/-- The number of an error code (60_exceptions.md R800). -/
def ErrCode.code : ErrCode → Nat
  | .ok => 0
  | .invalidConfig => 1
  | .truncatedStream => 2
  | .corruptStream => 3
  | .checksumMismatch => 4
  | .outputBufferTooSmall => 5
  | .useAfterClose => 6
  | .invalidState => 7
  | .illegalCommand => 8
  | .rangeError => 9

/-- A little-endian value of a list of bytes (20_memory.md R205 (a)). -/
def leValue : List Byte → Nat
  | [] => 0
  | b :: bs => b.toNat + 256 * leValue bs

/-- A big-endian value of a list of bytes (20_memory.md R205 (b)). -/
def beValue (bs : List Byte) : Nat :=
  bs.foldl (fun v b => 256 * v + b.toNat) 0

end Sys2Proof.Machine
end

