-- ==== Sys2Proof/Machine/Ops.lean ====
section
/-!
DEFINITION. Machine/Ops.lean: the named operations every meaning is written over: host memory (20_memory.md R204), the
tables by class, completing a command with an error code (40_command_model.md R404, 60_exceptions.md R802), and the
free values of the points the spec leaves unspecified (93_implementation_defined.md section 2; log 2, log 10).
-/

namespace Sys2Proof.Machine

/-- The outcome of a meaning or of a step. -/
abbrev Result := Host.Outcome State Fault Refusal

/-! ## Memory (20_memory.md R204) -/

/-- `M[a]`. An unlisted address reads 0x00 (log 4). -/
def Mem.read (a : Nat) : Mem → Byte
  | [] => 0#8
  | c :: m => if a = c.1 then c.2 else Mem.read a m

/-- `M[a] <- b`, keeping the canonical form: writing 0x00 removes the entry. -/
def Mem.write (a : Nat) (b : Byte) : Mem → Mem
  | [] => if b = 0#8 then [] else [(a, b)]
  | c :: m =>
    if a < c.1 then (if b = 0#8 then c :: m else (a, b) :: c :: m)
    else if a = c.1 then (if b = 0#8 then m else (a, b) :: m)
    else c :: Mem.write a b m

/-- The canonical form: addresses strictly rising, no listed byte 0x00. -/
def Mem.wf : Mem → Bool
  | [] => true
  | [c] => c.2 != 0#8
  | c :: d :: m => decide (c.1 < d.1) && c.2 != 0#8 && Mem.wf (d :: m)

/-- Every listed address is below `n`. -/
def Mem.below (n : Nat) (m : Mem) : Bool :=
  m.all (fun c => decide (c.1 < n))

/-- `MemRead(addr, n)` (20_memory.md R204). -/
def Mem.readList (a n : Nat) (m : Mem) : List Byte :=
  (List.range n).map (fun i => Mem.read (a + i) m)

/-- `MemWrite(addr, len v, v)` (20_memory.md R204). -/
def Mem.writeList (a : Nat) : List Byte → Mem → Mem
  | [], m => m
  | b :: bs, m => Mem.writeList (a + 1) bs (Mem.write a b m)

/-- The writes of a list that fall inside a region, in order. -/
def Mem.writeInside (r : Region) : List (Nat × Byte) → Mem → Mem
  | [], m => m
  | c :: cs, m =>
    Mem.writeInside r cs
      (if decide (r.base ≤ c.1) && decide (c.1 < r.base + r.len) && decide (c.1 < addrSpace)
       then Mem.write c.1 c.2 m else m)

/-! ## Tables by class (10_state.md R154) -/

/-- `tab[c]`. -/
def Tabs.get (t : Tabs) : SymClass → Table
  | .typ => t.typ
  | .lit => t.lit
  | .len => t.len
  | .dist => t.dist

/-- `tab[c] <- x`. -/
def Tabs.set (t : Tabs) (c : SymClass) (x : Table) : Tabs :=
  match c with
  | .typ => { t with typ := x }
  | .lit => { t with lit := x }
  | .len => { t with len := x }
  | .dist => { t with dist := x }

/-! ## Completion, the block's one reporting mechanism -/

/-- The command in flight completes with a code: STATUS.ERR is written, IRQ_PEND[0] (DONE) is set and the engine is no
longer busy (40_command_model.md R404, 60_exceptions.md R802). Nothing is vectored and nothing is returned from
(R802): every error of R800 is reported through this one operation, and so is success. The latch `pend` keeps its
values: a DESIGN CHOICE, for while not busy it may hold any (93_implementation_defined.md U4; log 24). -/
def State.complete (e : ErrCode) (s : State) : State :=
  { s with err := e, irqPend := s.irqPend ||| 1, busy := false }

/-! ## Free values -/

/-- A free 32-bit value: draw, slot. -/
def freeWord (k slot : Nat) : Word :=
  BitVec.ofNat 32 (Config.freeNat k slot 0)

/-- A free bit: draw, slot. -/
def freeBit (k slot : Nat) : Bool :=
  decide (Config.freeNat k slot 0 % 2 = 1)

/-- A list of `n` free numbers in `lo .. lo + span - 1`: draw, slot. -/
def freeList (k slot n lo span : Nat) : List Nat :=
  (List.range n).map (fun i => lo + Config.freeNat k slot i % span)

/-- A free number in `lo .. lo + span - 1`: draw, slot. -/
def freeIn (k slot lo span : Nat) : Nat :=
  lo + Config.freeNat k slot 0 % span

/-- An unspecified table of a class: any values of the fields' ranges (10_state.md R154). -/
def freeTable (k slot n : Nat) : Table :=
  { n := n
    freq := freeList k slot n 1 (2 ^ 32 - 1)
    len := freeList k (slot + 1) n 1 maxCodeLen
    code := freeList k (slot + 2) n 0 (2 ^ 16)
    interval := freeIn k (slot + 3) 1 65535
    countdown := freeIn k (slot + 4) 1 65535 }

/-- Unspecified tables (10_state.md R154). -/
def freeTabs (k dict : Nat) : Tabs :=
  { typ := freeTable k 20 (alphabetSize .typ dict)
    lit := freeTable k 30 (alphabetSize .lit dict)
    len := freeTable k 40 (alphabetSize .len dict)
    dist := freeTable k 50 (alphabetSize .dist dict) }

/-- An unspecified write cursor: any values with the invariant of 10_state.md R152 over a legal region. -/
def freeWCur (k : Nat) : WCur :=
  let base := freeWord k 1
  let cap := BitVec.ofNat 32 (min (freeWord k 2).toNat (addrSpace - base.toNat))
  let nacc := freeIn k 4 0 8
  { base := base, cap := cap, pos := freeIn k 3 0 (cap.toNat + 1), acc := freeIn k 5 0 (2 ^ nacc), nacc := nacc }

/-- An unspecified read cursor: any values with the invariant of 10_state.md R153 over a legal region. -/
def freeRCur (k : Nat) : RCur :=
  let base := freeWord k 6
  let len := BitVec.ofNat 32 (min (freeWord k 7).toNat (addrSpace - base.toNat))
  let pos := freeIn k 8 0 (len.toNat + 1)
  { base := base, len := len, pos := pos, bit := if pos < len.toNat then freeIn k 9 0 8 else 0 }

/-- An unspecified window: any counter and any bytes in the `2^dict` slots (10_state.md R155). -/
def freeWin (k dict : Nat) : Win :=
  { ring := Mem.writeInside ⟨0, 2 ^ dict⟩ (Config.freeBytes k 1) []
    total := BitVec.ofNat 64 (Config.freeNat k 10 0) }

/-- An unspecified latched configuration: any values of the fields' ranges (10_state.md R151). -/
def freeLCfg (k : Nat) : LCfg :=
  { dict := freeIn k 11 15 16, level := freeIn k 12 0 5, rate := freeIn k 13 1 20, maxint := freeIn k 14 1 65535
    slow := freeIn k 15 16 240, helpers := freeIn k 16 0 256, adlerEn := freeBit k 17, unbuf := freeBit k 18 }

/-- Host memory with free bytes inside a region and every other byte as it was. -/
def freeRegion (k : Nat) (r : Region) (m : Mem) : Mem :=
  Mem.writeInside r (Config.freeBytes k 0) m

end Sys2Proof.Machine
end

