-- ==== Sys2Proof/Machine/Flags.lean ====
section
/-!
DEFINITION. Machine/Flags.lean: the status fields (10_state.md R105), the interrupt output (R158), and the state, role and
stream requirements of the commands (49_context.md R702). The block has no arithmetic condition codes.
-/

namespace Sys2Proof.Machine

/-- STATUS.STATE (10_state.md R105): 2 (ACTIVE) while busy and READY, else the encoding of `ctx.state`. -/
def State.stateField (s : State) : Nat :=
  match s.ctx.state with
  | .uninit => 0
  | .ready => if s.busy then 2 else 1
  | .closed => 3

/-- STATUS.ROLE (10_state.md R105). -/
def State.roleField (s : State) : Nat :=
  match s.ctx.role with
  | .none => 0
  | .comp => 1
  | .decomp => 2

/-- The STATUS word for given values of the STARTED and DONE bits (10_state.md R105): they read `ctx` when not busy and
any value while busy (70_reset_and_hazards.md R921). -/
def State.statusWith (started done : Bool) (s : State) : Word :=
  BitVec.ofNat 32
    (s.stateField + 4 * s.roleField + 16 * s.busy.toNat + 32 * (s.irqPend.getLsbD 1).toNat + 64 * started.toNat
      + 128 * done.toNat + 256 * s.err.code)

/-- The STATUS word read while BUSY = 0 (10_state.md R105). -/
def State.status (s : State) : Word :=
  s.statusWith s.ctx.started s.ctx.done

/-- The interrupt output `irq` (10_state.md R158, 60_exceptions.md R810). -/
def State.irq (s : State) : Bool :=
  (s.irqEn &&& s.irqPend &&& 0b11) != 0

/-- CINIT and DINIT need UNINIT (49_context.md R702). -/
def State.isUninit (s : State) : Bool :=
  decide (s.ctx.state = .uninit)

/-- REINIT and the primitives need READY in either role (49_context.md R702). -/
def State.isReady (s : State) : Bool :=
  decide (s.ctx.state = .ready) && (decide (s.ctx.role = .comp) || decide (s.ctx.role = .decomp))

/-- CLOSE needs UNINIT or READY (49_context.md R702). -/
def State.isOpen (s : State) : Bool :=
  decide (s.ctx.state = .uninit) || decide (s.ctx.state = .ready)

/-- MFIND needs READY and COMP (49_context.md R702). -/
def State.isComp (s : State) : Bool :=
  decide (s.ctx.state = .ready) && decide (s.ctx.role = .comp)

/-- COMPRESS needs READY, COMP and a stream that is not done (49_context.md R702). -/
def State.mayCompress (s : State) : Bool :=
  s.isComp && !s.ctx.done

/-- DECOMPRESS needs READY, DECOMP and a stream that has not started (49_context.md R702). -/
def State.mayDecompress (s : State) : Bool :=
  decide (s.ctx.state = .ready) && decide (s.ctx.role = .decomp) && !s.ctx.started

/-- Steps 2 and 3 of the check order (40_command_model.md R406): CLOSED is UseAfterClose, an unmet requirement is
InvalidState; otherwise the rest of the command. -/
def requireState (ok : Bool) (s : State) (body : Result) : Result :=
  if s.ctx.state = .closed then .next (s.complete .useAfterClose)
  else if ok then body
  else .next (s.complete .invalidState)

end Sys2Proof.Machine
end

