-- ==== Sys2Proof/Machine/Operands.lean ====
section
/-!
DEFINITION. Machine/Operands.lean: the latched operands (30_encoding.md R310, 40_command_model.md R402), the regions a
command names (40_command_model.md R406, 20_memory.md R201 to R203), the checks 4 and 5 of the check order, and
the two stops of a region or an access (20_memory.md R208, 60_exceptions.md R822).
-/

namespace Sys2Proof.Machine

/-- The latch taken at an issue: the word and the operand and configuration registers as they stand
(40_command_model.md R402). -/
def State.latch (w : Word) (s : State) : Latch :=
  { cmd := w, ops := s.ops, cfg := s.cfg }

/-- The empty region. -/
def noRegion : Region := ⟨0, 0⟩

/-- The source region of the command in flight: `[SRC_ADDR, SRC_ADDR + SRC_LEN)`, from the latch. -/
def State.srcRegion (s : State) : Region :=
  ⟨s.pend.ops.srcAddr.toNat, s.pend.ops.srcLen.toNat⟩

/-- The destination region of the command in flight: `[DST_ADDR, DST_ADDR + DST_CAP)`, from the latch. -/
def State.dstRegion (s : State) : Region :=
  ⟨s.pend.ops.dstAddr.toNat, s.pend.ops.dstCap.toNat⟩

/-- The region of the write cursor (41_bitstream.md R430). -/
def State.wcRegion (s : State) : Region :=
  ⟨s.wc.base.toNat, s.wc.cap.toNat⟩

/-- The region of the read cursor (10_state.md R153). -/
def State.rcRegion (s : State) : Region :=
  ⟨s.rc.base.toNat, s.rc.len.toNat⟩

/-- A region is legal when it ends at or before `2^ADDR_W`, computed without wrap; an empty region is always legal
(20_memory.md R202). -/
def Region.legal (r : Region) : Bool :=
  decide (r.len = 0) || decide (r.base + r.len ≤ addrSpace)

/-- Both regions are non-empty and share an address (20_memory.md R203). -/
def Region.overlaps (r t : Region) : Bool :=
  decide (0 < r.len) && decide (0 < t.len) && decide (r.base < t.base + t.len) && decide (t.base < r.base + r.len)

/-- An address lies in a region. -/
def Region.contains (r : Region) (a : Nat) : Bool :=
  decide (r.base ≤ a) && decide (a < r.base + r.len)

/-- A region shares an address with a range of the platform. -/
def Region.meets (r : Region) (g : Config.Range) : Bool :=
  r.overlaps ⟨g.base, g.len⟩

/-- A region over the register block or over memory with side effects is given no meaning (20_memory.md R208,
60_exceptions.md R820 (c)). -/
def sideEffectRefusal (p : Config.Platform) (r : Region) : Option Refusal :=
  if r.overlaps ⟨p.regBase, regBlockLen⟩ then some .regionOnRegisters
  else if p.devices.any r.meets then some .regionOnDevice
  else none

/-- The platform's bus rejects an access to some byte of a region. -/
def busRejects (p : Config.Platform) (r : Region) : Bool :=
  p.unmapped.any r.meets

/-- BUS_FAULT is open (60_exceptions.md R822): no outcome is given to a command one of whose own accesses the bus rejects.
The accesses are those of the command's rule, and no others (log 7). -/
def busRefusal (p : Config.Platform) (accesses : List Region) : Option Refusal :=
  if accesses.any (busRejects p) then some .busFault else none

/-- Step 4 of the check order: an operand out of range is IllegalCommand (30_encoding.md R310). -/
def requireOperand (ok : Bool) (s : State) (body : Result) : Result :=
  if ok then body else .next (s.complete .illegalCommand)

/-- Go on unless the platform objects. -/
def unlessRefused (r : Option Refusal) (body : Result) : Result :=
  match r with
  | some x => .refused x
  | none => body

/-- The rest of a command whose accesses to host memory are these: it has its outcome unless the bus rejects one of them
(60_exceptions.md R821, R822). -/
def afterAccesses (accesses : List Region) (s : State) (body : Result) : Result :=
  unlessRefused (busRefusal s.plat accesses) body

/-- Step 5 of the check order for a command that names one region (20_memory.md R202, R208). -/
def requireRegion (r : Region) (s : State) (body : Result) : Result :=
  if r.legal then unlessRefused (sideEffectRefusal s.plat r) body
  else .next (s.complete .rangeError)

/-- Step 5 for COMPRESS, DECOMPRESS and HBUILD: both regions legal and not overlapping (20_memory.md R202, R203, R208). -/
def requireRegions (src dst : Region) (s : State) (body : Result) : Result :=
  if src.legal && dst.legal && !src.overlaps dst then
    unlessRefused (sideEffectRefusal s.plat src) (unlessRefused (sideEffectRefusal s.plat dst) body)
  else .next (s.complete .rangeError)

/-- A primitive whose accesses through a cursor with region `r` are the bytes of `accessed`: without an access it goes on.
The cursor's region lies inside host memory in every state a run reaches (log 9). -/
def requireCursor (accessed r : Region) (s : State) (body : Result) : Result :=
  if accessed.len = 0 then body
  else if r.legal then unlessRefused (sideEffectRefusal s.plat r) (afterAccesses [accessed] s body)
  else .fault .outsideAddressSpace

/-- The source and destination regions a command names (40_command_model.md R406), or, for the bitstream primitives, the
regions of the cursors (20_memory.md R201). RALIGN, which accesses no memory, has none: the model's choice (log 25). -/
def regionsOf (i : Instr) (s : State) : Region × Region :=
  match i with
  | .compress _ => (s.srcRegion, s.dstRegion)
  | .decompress => (s.srcRegion, s.dstRegion)
  | .hbuild => (s.srcRegion, s.dstRegion)
  | .mfind => (s.srcRegion, noRegion)
  | .cost => (s.srcRegion, noRegion)
  | .aupdate => (s.srcRegion, noRegion)
  | .rsetup => (s.srcRegion, noRegion)
  | .wsetup => (noRegion, s.dstRegion)
  | .tenc _ => (noRegion, s.wcRegion)
  | .putbits => (noRegion, s.wcRegion)
  | .wflush => (noRegion, s.wcRegion)
  | .tdec _ => (s.rcRegion, noRegion)
  | .getbits => (s.rcRegion, noRegion)
  | .ralign => (noRegion, noRegion)
  | .cinit => (noRegion, noRegion)
  | .dinit => (noRegion, noRegion)
  | .reinit => (noRegion, noRegion)
  | .close => (noRegion, noRegion)
  | .treset _ => (noRegion, noRegion)
  | .tcost _ => (noRegion, noRegion)
  | .tread _ => (noRegion, noRegion)
  | .tstat _ => (noRegion, noRegion)
  | .wput => (noRegion, noRegion)
  | .wget => (noRegion, noRegion)
  | .ainit => (noRegion, noRegion)

/-- The regions of the command in flight; none for an ill-formed word. -/
def State.flightRegions (s : State) : Region × Region :=
  match decode s.pend.cmd with
  | .ok i => regionsOf i s
  | .error _ => (noRegion, noRegion)

end Sys2Proof.Machine
end

