-- ==== Sys2Proof/Machine/Bitstream.lean ====
section
/-!
DEFINITION. Machine/Bitstream.lean: the Bitstream Cursor (41_bitstream.md): writing and reading bits, most significant
first, and the commands WSETUP, PUTBITS, WFLUSH, RSETUP, GETBITS and RALIGN.
-/

namespace Sys2Proof.Machine

/-- What a write through the cursor can change: the cursor and host memory. -/
structure Sink where
  wc  : WCur
  mem : Mem
deriving DecidableEq, Repr

/-- The output does not fit: OutputBufferTooSmall, the one error of the write side (41_bitstream.md R431, R433), with the
number of bytes the cursor had stored by then. -/
structure Full where
  stored : Nat
deriving DecidableEq, Repr

/-- `room(n)` (41_bitstream.md R431). -/
def WCur.room (n : Nat) (w : WCur) : Bool :=
  decide (w.pos + (w.nacc + n) / 8 ≤ w.cap.toNat)

/-- `putbit(b)` (41_bitstream.md R432). -/
def putbit (b : Nat) (k : Sink) : Sink :=
  let acc := (k.wc.acc <<< 1) ||| b
  let nacc := k.wc.nacc + 1
  if nacc = 8 then
    { wc := { k.wc with pos := k.wc.pos + 1, acc := 0, nacc := 0 }
      mem := Mem.write (k.wc.base.toNat + k.wc.pos) (BitVec.ofNat 8 acc) k.mem }
  else { k with wc := { k.wc with acc := acc, nacc := nacc } }

/-- The loop of `putbits`: the bits n-1 down to 0 of v (41_bitstream.md R432). -/
def putbitsLoop : Nat → Nat → Sink → Sink
  | 0, _, k => k
  | n + 1, v, k => putbitsLoop n v (putbit ((v >>> n) &&& 1) k)

/-- `putbits(n, v)` (41_bitstream.md R432): the room is checked before any bit is written. -/
def putbits (n v : Nat) (k : Sink) : Except Full Sink :=
  if k.wc.room n then .ok (putbitsLoop n v k) else .error ⟨k.wc.pos⟩

/-- `flush()` (41_bitstream.md R433). -/
def flush (k : Sink) : Except Full Sink :=
  if k.wc.nacc > 0 then
    if k.wc.pos + 1 > k.wc.cap.toNat then .error ⟨k.wc.pos⟩
    else
      .ok { wc := { k.wc with pos := k.wc.pos + 1, acc := 0, nacc := 0 }
            mem := Mem.write (k.wc.base.toNat + k.wc.pos)
              (BitVec.ofNat 8 ((k.wc.acc <<< (8 - k.wc.nacc)) &&& 0xFF)) k.mem }
  else .ok k

/-- An error of the read side, with the cursor as it stood when the error was found, so that the bytes read by then are
known. What the command leaves in `rc` is the command's matter. -/
structure ReadStop where
  err   : ErrCode
  reach : RCur
deriving DecidableEq, Repr

/-- The bytes read while the cursor moved from `r` to `r'`: the byte at a position is read for each of its bits
(41_bitstream.md R440). -/
def RCur.readTo (r r' : RCur) : Region :=
  ⟨r.base.toNat + r.pos, if r' = r then 0 else r'.pos + (if r'.bit = 0 then 0 else 1) - r.pos⟩

/-- `unread`, the number of unread bits (10_state.md R153). -/
def RCur.unread (r : RCur) : Nat :=
  8 * (r.len.toNat - r.pos) - r.bit

/-- The step of `getbit()` once a bit is known to be unread (41_bitstream.md R440): the bit and the moved cursor. -/
def takeBit (m : Mem) (r : RCur) : Nat × RCur :=
  let byte := (Mem.read (r.base.toNat + r.pos) m).toNat
  let b := (byte >>> (7 - r.bit)) &&& 1
  if r.bit + 1 = 8 then (b, { r with bit := 0, pos := r.pos + 1 }) else (b, { r with bit := r.bit + 1 })

/-- `getbit()` (41_bitstream.md R440). -/
def getbit (m : Mem) (r : RCur) : Except ReadStop (Nat × RCur) :=
  if r.unread < 1 then .error ⟨.truncatedStream, r⟩ else .ok (takeBit m r)

/-- The loop of `getbits`: n more bits appended below the value so far (41_bitstream.md R440). -/
def getbitsLoop (m : Mem) : Nat → Nat → RCur → Nat × RCur
  | 0, v, r => (v, r)
  | n + 1, v, r => getbitsLoop m n ((v <<< 1) ||| (takeBit m r).1) (takeBit m r).2

/-- `getbits(n)` (41_bitstream.md R440): the bits are counted before any is consumed. -/
def getbits (m : Mem) (n : Nat) (r : RCur) : Except ReadStop (Nat × RCur) :=
  if r.unread < n then .error ⟨.truncatedStream, r⟩ else .ok (getbitsLoop m n 0 r)

/-- `align()` (41_bitstream.md R441): the number of bits skipped and the moved cursor. -/
def align (r : RCur) : Nat × RCur :=
  if r.bit = 0 then (0, r) else (8 - r.bit, { r with pos := r.pos + 1, bit := 0 })

/-! ## Commands -/

/-- The state after a write through the cursor. -/
def State.withSink (k : Sink) (s : State) : State :=
  { s with wc := k.wc, mem := k.mem }

/-- The end of a primitive that wrote through the cursor: on success its state, the bytes from the old position to the new
one having been stored; on an error, found before any store (41_bitstream.md R431), the report alone
(40_command_model.md R411). -/
def finishStore (r : Except Full State) (s : State) : Result :=
  match r with
  | .ok t =>
    requireCursor ⟨s.wc.base.toNat + s.wc.pos, t.wc.pos - s.wc.pos⟩ s.wcRegion s (.next (t.complete .ok))
  | .error _ => .next (s.complete .outputBufferTooSmall)

/-- The end of a primitive that read through the cursor: on success its state, on an error the report alone
(40_command_model.md R411, R412); either way the bytes up to where it came have been read. -/
def finishRead (r : Except ReadStop State) (s : State) : Result :=
  match r with
  | .ok t => requireCursor (s.rc.readTo t.rc) s.rcRegion s (.next (t.complete .ok))
  | .error e => requireCursor (s.rc.readTo e.reach) s.rcRegion s (.next (s.complete e.err))

/-- WSETUP (41_bitstream.md R445). -/
def execWsetup (s : State) : Result :=
  requireState s.isReady s <|
  requireRegion s.dstRegion s <|
  .next (State.complete .ok
    { s with wc := { base := s.pend.ops.dstAddr, cap := s.pend.ops.dstCap, pos := 0, acc := 0, nacc := 0 } })

/-- PUTBITS (41_bitstream.md R446): n = ARG0, at most 32; v = ARG1. -/
def execPutbits (s : State) : Result :=
  requireState s.isReady s <|
  requireOperand (decide (s.pend.ops.arg0.toNat ≤ 32)) s <|
  finishStore ((putbits s.pend.ops.arg0.toNat s.pend.ops.arg1.toNat ⟨s.wc, s.mem⟩).map (fun k => s.withSink k)) s

/-- WFLUSH (41_bitstream.md R447): RESULT is the number of bytes stored. -/
def execWflush (s : State) : Result :=
  requireState s.isReady s <|
  finishStore ((flush ⟨s.wc, s.mem⟩).map
    (fun k => { s.withSink k with result := BitVec.ofNat 32 k.wc.pos })) s

/-- RSETUP (41_bitstream.md R448). -/
def execRsetup (s : State) : Result :=
  requireState s.isReady s <|
  requireRegion s.srcRegion s <|
  .next (State.complete .ok
    { s with rc := { base := s.pend.ops.srcAddr, len := s.pend.ops.srcLen, pos := 0, bit := 0 } })

/-- GETBITS (41_bitstream.md R449): n = ARG0, at most 32; RES0 is the value read. -/
def execGetbits (s : State) : Result :=
  requireState s.isReady s <|
  requireOperand (decide (s.pend.ops.arg0.toNat ≤ 32)) s <|
  finishRead ((getbits s.mem s.pend.ops.arg0.toNat s.rc).map
    (fun p => { s with res0 := BitVec.ofNat 32 p.1, rc := p.2 })) s

/-- RALIGN (41_bitstream.md R450): RES0 is the number of bits skipped. -/
def execRalign (s : State) : Result :=
  requireState s.isReady s <|
  .next (State.complete .ok { s with res0 := BitVec.ofNat 32 (align s.rc).1, rc := (align s.rc).2 })

end Sys2Proof.Machine
end

