-- ==== Sys2Proof/Machine/PrefixCode.lean ====
section
/-!
DEFINITION. Machine/PrefixCode.lean: the Prefix Code Builder (43_prefix_code.md): code lengths by the two-queue method
(R482) limited by halving (R483), canonical codes (R485), decoding (R490), and the command HBUILD (R500).
-/

namespace Sys2Proof.Machine

/-- The tree `huff_once` builds (43_prefix_code.md R482). Only the leaves' depths leave the builder. -/
inductive HTree where
  | leaf (sym : Nat)
  | node (left right : HTree)
deriving DecidableEq, Repr

/-- A queue item: weight and tree. -/
abbrev HItem := Nat × HTree

/-- The order of the leaf queue: by weight, then by symbol id (43_prefix_code.md R482). -/
def leafBefore (p q : Nat × Nat) : Bool :=
  decide (p.1 < q.1) || (decide (p.1 = q.1) && decide (p.2 < q.2))

/-- Insertion into a list sorted by `leafBefore`. -/
def insertLeaf (p : Nat × Nat) : List (Nat × Nat) → List (Nat × Nat)
  | [] => [p]
  | q :: l => if leafBefore p q then p :: q :: l else q :: insertLeaf p l

/-- The present symbols with their weights, from symbol id `s` on (43_prefix_code.md R481). -/
def presentFrom : Nat → List Nat → List (Nat × Nat)
  | _, [] => []
  | s, w :: f => if w = 0 then presentFrom (s + 1) f else (w, s) :: presentFrom (s + 1) f

/-- The leaf queue P of `huff_once`: the present symbols sorted by weight, then by symbol id. -/
def leafQueue (f : List Nat) : List HItem :=
  ((presentFrom 0 f).foldr insertLeaf []).map (fun p => (p.1, HTree.leaf p.2))

/-- `take()`: the lightest head of the two queues and what remains; ties go to the leaf (43_prefix_code.md R482). -/
def takeLightest : List HItem → List HItem → Option (HItem × List HItem × List HItem)
  | [], [] => none
  | p :: ps, [] => some (p, ps, [])
  | [], q :: qs => some (q, [], qs)
  | p :: ps, q :: qs => if p.1 ≤ q.1 then some (p, ps, q :: qs) else some (q, p :: ps, qs)

/-- The merging loop: while two items are left, the two lightest become one node at the end of Q. The first argument
bounds the rounds; one round more than there are leaves is never needed (log 19). -/
def mergeLoop : Nat → List HItem → List HItem → Option HTree
  | 0, _, _ => none
  | n + 1, ps, qs =>
    match takeLightest ps qs with
    | none => none
    | some (a, ps1, qs1) =>
      match takeLightest ps1 qs1 with
      | none => some a.2
      | some (b, ps2, qs2) => mergeLoop n ps2 (qs2 ++ [(a.1 + b.1, HTree.node a.2 b.2)])

/-- The leaves of a tree whose root has depth `d`, each with its depth. -/
def HTree.depths : HTree → Nat → List (Nat × Nat)
  | .leaf s, d => [(s, d)]
  | .node l r, d => HTree.depths l (d + 1) ++ HTree.depths r (d + 1)

/-- `len[s]` from the list of leaf depths: 0 for an absent symbol. -/
def lengthsOf (n : Nat) (depths : List (Nat × Nat)) : List Nat :=
  (List.range n).map (fun s => (depths.lookup s).getD 0)

/-- `huff_once(f)` (43_prefix_code.md R482). -/
def huffOnce (f : List Nat) : List Nat :=
  match leafQueue f with
  | [] => lengthsOf f.length []
  | [p] => lengthsOf f.length (p.2.depths 1)
  | p :: q :: ps =>
    match mergeLoop (p :: q :: ps).length (p :: q :: ps) [] with
    | none => lengthsOf f.length []
    | some t => lengthsOf f.length (t.depths 0)

/-- The greatest element of a list, 0 for the empty list. -/
def maxOf (l : List Nat) : Nat :=
  l.foldl max 0

/-- `halve(x)` (43_prefix_code.md R483). -/
def halve (x : Nat) : Nat :=
  if x = 0 then 0 else max 1 (x >>> 1)

/-- The loop of `build_lengths` (43_prefix_code.md R483). The first argument bounds the halving passes (log 19). -/
def limitLoop : Nat → List Nat → Nat → List Nat × Nat
  | 0, g, passes => (huffOnce g, passes)
  | n + 1, g, passes =>
    let len := huffOnce g
    if maxOf len ≤ maxCodeLen then (len, passes) else limitLoop n (g.map halve) (passes + 1)

/-- `build_lengths(f)`: the lengths and the pass count (43_prefix_code.md R483). After `log2` of the largest weight, and
one pass more, every present weight is 1. -/
def buildLengths (f : List Nat) : List Nat × Nat :=
  limitLoop (Nat.log2 (maxOf f) + 1) f 0

/-- `bl_count[l]` (43_prefix_code.md R485); `bl_count[0] = 0`. -/
def blCount (len : List Nat) (l : Nat) : Nat :=
  if l = 0 then 0 else (len.filter (fun x => x == l)).length

/-- `first[l]`, the first code of length l (43_prefix_code.md R485). -/
def firstCode (len : List Nat) : Nat → Nat
  | 0 => 0
  | l + 1 => (firstCode len l + blCount len l) <<< 1

/-- The assignment loop of `canonical`: `next` holds the next code of each length (43_prefix_code.md R485). -/
def assignCodes : List Nat → List Nat → List Nat
  | [], _ => []
  | l :: ls, next =>
    if l > 0 then next.getD l 0 :: assignCodes ls (next.modify l (fun c => c + 1))
    else 0 :: assignCodes ls next

/-- `canonical(len).code` (43_prefix_code.md R485). -/
def canonical (len : List Nat) : List Nat :=
  assignCodes len ((List.range (maxCodeLen + 1)).map (firstCode len))

/-- The symbols of length `l` in increasing order, from symbol id `s` on. -/
def symbolsOfLength (l : Nat) : Nat → List Nat → List Nat
  | _, [] => []
  | s, x :: xs => if x = l then s :: symbolsOfLength l (s + 1) xs else symbolsOfLength l (s + 1) xs

/-- `sorted[index[l] + k]`: the k-th symbol, by id, among those of length l (43_prefix_code.md R490). -/
def sortedAt (len : List Nat) (l k : Nat) : Nat :=
  (symbolsOfLength l 0 len).getD k 0

/-- The loop of `decode_sym` (43_prefix_code.md R490): `n` lengths left, the next length, the code so far. -/
def decodeLoop (m : Mem) (len : List Nat) : Nat → Nat → Nat → RCur → Except ReadStop (Nat × RCur)
  | 0, _, _, r => .error ⟨.corruptStream, r⟩
  | n + 1, l, code, r =>
    match getbit m r with
    | .error e => .error e
    | .ok (b, r1) =>
      let code1 := (code <<< 1) ||| b
      if decide (firstCode len l ≤ code1) && decide (code1 < firstCode len l + blCount len l) then
        .ok (sortedAt len l (code1 - firstCode len l), r1)
      else decodeLoop m len n (l + 1) code1 r1

/-- `decode_sym(len)` (43_prefix_code.md R490). On an error the caller keeps the cursor it gave, so the cursor does not
move. -/
def decodeSym (m : Mem) (len : List Nat) (r : RCur) : Except ReadStop (Nat × RCur) :=
  decodeLoop m len maxCodeLen 1 0 r

/-! ## Command -/

/-- The frequency array: element i is the little-endian u32 at `addr + 4 i` (43_prefix_code.md R500). -/
def readFreqs (addr n : Nat) (m : Mem) : List Nat :=
  (List.range n).map (fun i => leValue (Mem.readList (addr + 4 * i) 4 m))

/-- The bytes of the record array: length, 0, code low, code high (43_prefix_code.md R500). -/
def recordBytes : List Nat → List Nat → List Byte
  | l :: ls, c :: cs =>
    BitVec.ofNat 8 l :: 0 :: BitVec.ofNat 8 (c &&& 0xFF) :: BitVec.ofNat 8 (c >>> 8) :: recordBytes ls cs
  | _, _ => []

/-- HBUILD (43_prefix_code.md R500): the first 4n bytes of each region are accessed, and none without room. -/
def execHbuild (s : State) : Result :=
  let n := s.pend.ops.arg0.toNat
  requireState s.isReady s <|
  requireOperand (decide (1 ≤ n) && decide (n ≤ hbMaxSyms) && decide (4 * n ≤ s.pend.ops.srcLen.toNat)) s <|
  requireRegions s.srcRegion s.dstRegion s <|
  if s.pend.ops.dstCap.toNat < 4 * n then .next (s.complete .outputBufferTooSmall)
  else
    let built := buildLengths (readFreqs s.pend.ops.srcAddr.toNat n s.mem)
    afterAccesses [⟨s.pend.ops.srcAddr.toNat, 4 * n⟩, ⟨s.pend.ops.dstAddr.toNat, 4 * n⟩] s <|
    .next (State.complete .ok
      { s with
        mem := Mem.writeList s.pend.ops.dstAddr.toNat (recordBytes built.1 (canonical built.1)) s.mem
        result := BitVec.ofNat 32 (4 * n)
        res0 := BitVec.ofNat 32 (maxOf built.1)
        res1 := BitVec.ofNat 32 built.2 })

end Sys2Proof.Machine
end

