-- ==== Sys2Proof/Machine/Codec.lean ====
section
/-!
DEFINITION. Machine/Codec.lean: the Adaptive Symbol Codec (44_adaptive_codec.md): initial tables, rebuild, decay, the update
schedule, coding one symbol, and the commands TRESET, TENC, TDEC, TCOST, TREAD and TSTAT.
-/

namespace Sys2Proof.Machine

/-- `rebuild(c)` (44_adaptive_codec.md R524). -/
def Table.rebuild (t : Table) : Table :=
  let len := (buildLengths t.freq).1
  { t with len := len, code := canonical len }

/-- `I0 = min(M, 4 * (21 - R))` (44_adaptive_codec.md R522). -/
def initialInterval (lc : LCfg) : Nat :=
  min lc.maxint (4 * (21 - lc.rate))

/-- `init_table(c)` for an alphabet of n symbols (44_adaptive_codec.md R521). -/
def initTable (lc : LCfg) (n : Nat) : Table :=
  Table.rebuild
    { n := n, freq := List.replicate n 1, len := [], code := []
      interval := initialInterval lc, countdown := initialInterval lc }

/-- The four initial tables (49_context.md R714). -/
def initTabs (lc : LCfg) : Tabs :=
  { typ := initTable lc (alphabetSize .typ lc.dict)
    lit := initTable lc (alphabetSize .lit lc.dict)
    len := initTable lc (alphabetSize .len lc.dict)
    dist := initTable lc (alphabetSize .dist lc.dict) }

/-- `decay(c)` on the frequencies (44_adaptive_codec.md R526). -/
def decayFreqs (f : List Nat) : List Nat :=
  if f.sum > freqSumLimit then f.map (fun x => max 1 (x >>> 1)) else f

/-- The next interval (44_adaptive_codec.md R527). -/
def grownInterval (lc : LCfg) (interval : Nat) : Nat :=
  min lc.maxint ((interval * lc.slow) >>> 4)

/-- `update(c, s)` (44_adaptive_codec.md R525). -/
def Table.update (lc : LCfg) (sym : Nat) (t : Table) : Table :=
  let t1 := { t with freq := t.freq.modify sym (fun x => x + 1), countdown := t.countdown - 1 }
  if t1.countdown = 0 then
    let t2 := Table.rebuild { t1 with freq := decayFreqs t1.freq }
    { t2 with interval := grownInterval lc t2.interval, countdown := grownInterval lc t2.interval }
  else t1

/-- What coding a symbol to the write cursor can change. -/
structure Enc where
  sink : Sink
  tab  : Tabs
deriving DecidableEq, Repr

/-- `enc(c, s)` (44_adaptive_codec.md R530): a failed write does not update. -/
def encSym (lc : LCfg) (c : SymClass) (sym : Nat) (e : Enc) : Except Full Enc :=
  let t := e.tab.get c
  match putbits (t.len.getD sym 0) (t.code.getD sym 0) e.sink with
  | .error x => .error x
  | .ok k => .ok { sink := k, tab := e.tab.set c (t.update lc sym) }

/-- What decoding a symbol from the read cursor can change. -/
structure Dec where
  rc  : RCur
  tab : Tabs
deriving DecidableEq, Repr

/-- `dec(c)` (44_adaptive_codec.md R531): a failed read does not update. -/
def decSym (m : Mem) (lc : LCfg) (c : SymClass) (d : Dec) : Except ReadStop (Nat × Dec) :=
  let t := d.tab.get c
  match decodeSym m t.len d.rc with
  | .error x => .error x
  | .ok (sym, r) => .ok (sym, { rc := r, tab := d.tab.set c (t.update lc sym) })

/-! ## Commands -/

/-- The operand check `sym < tab[SEL].n` (30_encoding.md R310). -/
def State.symOk (c : SymClass) (s : State) : Bool :=
  decide (s.pend.ops.arg0.toNat < (s.tab.get c).n)

/-- TRESET (44_adaptive_codec.md R540). -/
def execTreset (c : SymClass) (s : State) : Result :=
  requireState s.isReady s <|
  .next (State.complete .ok { s with tab := s.tab.set c (initTable s.lcfg (s.tab.get c).n) })

/-- TENC (44_adaptive_codec.md R541). -/
def execTenc (c : SymClass) (s : State) : Result :=
  requireState s.isReady s <|
  requireOperand (s.symOk c) s <|
  finishStore ((encSym s.lcfg c s.pend.ops.arg0.toNat ⟨⟨s.wc, s.mem⟩, s.tab⟩).map
    (fun e => { s.withSink e.sink with tab := e.tab })) s

/-- TDEC (44_adaptive_codec.md R542). -/
def execTdec (c : SymClass) (s : State) : Result :=
  requireState s.isReady s <|
  finishRead ((decSym s.mem s.lcfg c ⟨s.rc, s.tab⟩).map
    (fun p => { s with res0 := BitVec.ofNat 32 p.1, rc := p.2.rc, tab := p.2.tab })) s

/-- TCOST (44_adaptive_codec.md R543). -/
def execTcost (c : SymClass) (s : State) : Result :=
  requireState s.isReady s <|
  requireOperand (s.symOk c) s <|
  .next (State.complete .ok
    { s with res0 := BitVec.ofNat 32 ((s.tab.get c).len.getD s.pend.ops.arg0.toNat 0) })

/-- TREAD (44_adaptive_codec.md R544). -/
def execTread (c : SymClass) (s : State) : Result :=
  let t := s.tab.get c
  let sym := s.pend.ops.arg0.toNat
  requireState s.isReady s <|
  requireOperand (s.symOk c) s <|
  .next (State.complete .ok
    { s with
      res0 := BitVec.ofNat 32 (t.freq.getD sym 0)
      res1 := BitVec.ofNat 32 ((t.len.getD sym 0 <<< 16) ||| t.code.getD sym 0) })

/-- TSTAT (44_adaptive_codec.md R545). -/
def execTstat (c : SymClass) (s : State) : Result :=
  let t := s.tab.get c
  requireState s.isReady s <|
  .next (State.complete .ok
    { s with
      result := BitVec.ofNat 32 t.n
      res0 := BitVec.ofNat 32 t.interval
      res1 := BitVec.ofNat 32 t.countdown })

end Sys2Proof.Machine
end

