-- ==== Sys2Proof/Machine/Window.lean ====
section
/-!
DEFINITION. Machine/Window.lean: the Dictionary Window (45_window.md) and the commands WPUT and WGET. The ring holds its
bytes by slot number; a slot no append has written is never read (R572).
-/

namespace Sys2Proof.Machine

/-- `W = 2^lcfg.dict` (45_window.md R570). -/
def windowSize (lc : LCfg) : Nat :=
  2 ^ lc.dict

/-- `fill = min(win.total, W)` (45_window.md R570). -/
def Win.fill (w : Nat) (v : Win) : Nat :=
  min v.total.toNat w

/-- `append(b)` for a ring of w slots (45_window.md R571); the counter wraps modulo 2^64. -/
def Win.append (w : Nat) (b : Byte) (v : Win) : Win :=
  { ring := Mem.write (v.total.toNat % w) b v.ring, total := v.total + 1 }

/-- The appends of a list of bytes, in order. -/
def Win.appendList (w : Nat) : List Byte → Win → Win
  | [], v => v
  | b :: bs, v => Win.appendList w bs (Win.append w b v)

/-- `wread(d)`, defined for 1 <= d <= fill (45_window.md R572). -/
def Win.wread (w d : Nat) (v : Win) : Byte :=
  Mem.read ((v.total.toNat - d) % w) v.ring

/-- The empty window: the counter is 0; the ring bytes are never read before they are written (45_window.md R574). -/
def Win.clear (v : Win) : Win :=
  { v with total := 0 }

/-- WPUT (45_window.md R575): bits [31:8] of ARG0 are ignored. -/
def execWput (s : State) : Result :=
  requireState s.isReady s <|
  .next (State.complete .ok
    { s with win := s.win.append (windowSize s.lcfg) (s.pend.ops.arg0.setWidth 8) })

/-- WGET (45_window.md R576). -/
def execWget (s : State) : Result :=
  let d := s.pend.ops.arg0.toNat
  requireState s.isReady s <|
  requireOperand (decide (1 ≤ d) && decide (d ≤ s.win.fill (windowSize s.lcfg))) s <|
  .next (State.complete .ok { s with res0 := (s.win.wread (windowSize s.lcfg) d).setWidth 32 })

end Sys2Proof.Machine
end

