-- ==== Sys2Proof/Machine/Context.lean ====
section
/-!
DEFINITION. Machine/Context.lean: the Compressor/Decompressor Context (49_context.md): configuration validation, the fresh
stream, and the commands CINIT, DINIT, REINIT and CLOSE.
-/

namespace Sys2Proof.Machine

/-- The checks of 49_context.md R704 that both roles make: dict, rate, maxint, slow. -/
def sharedCfgOk (p : Config.Platform) (c : CfgRegs) : Bool :=
  decide (dictLog2Min ≤ c.dictLog2.toNat) && decide (c.dictLog2.toNat ≤ p.dictLog2Max) &&
    decide (1 ≤ c.updateRate.toNat) && decide (c.updateRate.toNat ≤ 20) &&
    decide (1 ≤ c.maxInterval.toNat) && decide (16 ≤ c.slowRate.toNat)

/-- The checks of CINIT (49_context.md R704): the shared ones, level and helpers. -/
def compCfgOk (p : Config.Platform) (c : CfgRegs) : Bool :=
  sharedCfgOk p c && decide (c.level.toNat ≤ levelMax) && decide (c.helpers.toNat ≤ p.helperMax)

/-- `lcfg` as CINIT latches it (49_context.md R710). -/
def compLCfg (c : CfgRegs) : LCfg :=
  { dict := c.dictLog2.toNat, level := c.level.toNat, rate := c.updateRate.toNat, maxint := c.maxInterval.toNat
    slow := c.slowRate.toNat, helpers := c.helpers.toNat, adlerEn := false, unbuf := false }

/-- `lcfg` as DINIT and a decompressor REINIT latch it (49_context.md R711, R712). -/
def decompLCfg (c : CfgRegs) : LCfg :=
  { dict := c.dictLog2.toNat, level := 0, rate := c.updateRate.toNat, maxint := c.maxInterval.toNat
    slow := c.slowRate.toNat, helpers := 0, adlerEn := c.dflags.getLsbD 0, unbuf := c.dflags.getLsbD 1 }

/-- `fresh_stream()` (49_context.md R714). -/
def State.freshStream (s : State) : State :=
  { s with
    tab := initTabs s.lcfg
    win := s.win.clear
    adler := 0x00000001
    wc := { base := 0, cap := 0, pos := 0, acc := 0, nacc := 0 }
    rc := { base := 0, len := 0, pos := 0, bit := 0 }
    ctx := { s.ctx with started := false, done := false } }

/-- Step 6 of the check order: a configuration value out of range is InvalidConfig (40_command_model.md R406). -/
def requireConfig (ok : Bool) (s : State) (body : Result) : Result :=
  if ok then body else .next (s.complete .invalidConfig)

/-- CINIT (49_context.md R710). -/
def execCinit (s : State) : Result :=
  requireState s.isUninit s <|
  requireConfig (compCfgOk s.plat s.pend.cfg) s <|
  .next (State.complete .ok (State.freshStream
    { s with lcfg := compLCfg s.pend.cfg, ctx := { s.ctx with state := .ready, role := .comp } }))

/-- DINIT (49_context.md R711). -/
def execDinit (s : State) : Result :=
  requireState s.isUninit s <|
  requireConfig (sharedCfgOk s.plat s.pend.cfg) s <|
  .next (State.complete .ok (State.freshStream
    { s with lcfg := decompLCfg s.pend.cfg, ctx := { s.ctx with state := .ready, role := .decomp } }))

/-- REINIT (49_context.md R712): a decompressor latches its configuration again, a compressor keeps it. -/
def execReinit (s : State) : Result :=
  requireState s.isReady s <|
  if s.ctx.role = .decomp then
    requireConfig (sharedCfgOk s.plat s.pend.cfg) s <|
    .next (State.complete .ok (State.freshStream { s with lcfg := decompLCfg s.pend.cfg }))
  else .next (State.complete .ok s.freshStream)

/-- CLOSE (49_context.md R713): `lcfg`, `tab`, `win`, `wc` and `rc` become free values (log 10). -/
def execClose (s : State) : Result :=
  requireState s.isOpen s <|
  .next (State.complete .ok
    { s with
      ctx := { state := .closed, role := .none, started := false, done := false }
      lcfg := freeLCfg s.draws
      tab := freeTabs s.draws (freeLCfg s.draws).dict
      win := freeWin s.draws (freeLCfg s.draws).dict
      wc := freeWCur s.draws
      rc := freeRCur s.draws
      draws := s.draws + 1 })

end Sys2Proof.Machine
end

