-- ==== Sys2Proof/Machine/Checksum.lean ====
section
/-!
DEFINITION. Machine/Checksum.lean: the Checksum Accumulator (42_checksum.md), the Adler-32 of R460, and the commands
AINIT and AUPDATE.
-/

namespace Sys2Proof.Machine

/-- The modulus of both sums (42_checksum.md R460). -/
def adlerMod : Nat := 65521

/-- One byte folded into the pair (A, B) (42_checksum.md R460). -/
def adlerStep (p : Nat × Nat) (b : Byte) : Nat × Nat :=
  let a := (p.1 + b.toNat) % adlerMod
  (a, (p.2 + a) % adlerMod)

/-- `adler_update(v, s)` (42_checksum.md R460): A in bits [15:0], B in bits [31:16]. -/
def adlerUpdate (v : Word) (bytes : List Byte) : Word :=
  let p := bytes.foldl adlerStep (v.toNat % 65536, v.toNat / 65536)
  BitVec.ofNat 32 (p.2 * 65536 + p.1)

/-- AINIT (42_checksum.md R470). -/
def execAinit (s : State) : Result :=
  requireState s.isReady s <|
  .next (State.complete .ok { s with adler := 0x00000001 })

/-- AUPDATE (42_checksum.md R471). -/
def execAupdate (s : State) : Result :=
  requireState s.isReady s <|
  requireRegion s.srcRegion s <|
  afterAccesses [s.srcRegion] s <|
  let bytes := Mem.readList s.pend.ops.srcAddr.toNat s.pend.ops.srcLen.toNat s.mem
  .next (State.complete .ok { s with adler := adlerUpdate s.adler bytes })

end Sys2Proof.Machine
end

