-- ==== Sys2Proof/Machine/MatchFinder.lean ====
section
/-!
DEFINITION. Machine/MatchFinder.lean: the Match Accelerator (46_match_finder.md). The result is defined over the window
contents alone (R591, R595), so no index is kept (log 17). The history is given by its fill and by the byte at each
distance, so that the parser's look at the next position (47_parser_compress.md R626) uses the same search.
-/

namespace Sys2Proof.Machine

/-- `H(q' + j)` for the candidate at distance d (46_match_finder.md R590): a window byte below q, a lookahead byte from q
on. -/
def sourceByte (back : Nat → Byte) (a : List Byte) (d j : Nat) : Byte :=
  if j < d then back (d - j) else a.getD (j - d) 0

/-- Position q - d is a candidate: its first three bytes equal the lookahead's (46_match_finder.md R590). -/
def isCandidate (back : Nat → Byte) (a : List Byte) (d : Nat) : Bool :=
  (List.range minMatch).all (fun j => sourceByte back a d j == a.getD j 0)

/-- The length of the candidate at distance d, counted from j on along the rest of the lookahead, at most MAX_MATCH
(46_match_finder.md R590). -/
def matchLenFrom (back : Nat → Byte) (a : List Byte) (d : Nat) : List Byte → Nat → Nat
  | [], j => j
  | b :: rest, j =>
    if decide (j < maxMatch) && sourceByte back a d j == b then matchLenFrom back a d rest (j + 1) else j

/-- The length of the candidate at distance d (46_match_finder.md R590). -/
def matchLen (back : Nat → Byte) (a : List Byte) (d : Nat) : Nat :=
  matchLenFrom back a d a 0

/-- The search of `find` (46_match_finder.md R591): distances left to look at, the next distance, the best (length,
distance) so far and the number of candidates seen. -/
def findLoop (back : Nat → Byte) (a : List Byte) (depth : Nat) : Nat → Nat → Nat × Nat → Nat → Nat × Nat
  | 0, _, best, _ => best
  | n + 1, d, best, seen =>
    if isCandidate back a d then
      let l := matchLen back a d
      let best1 := if l > best.1 then (l, d) else best
      if seen + 1 = depth then best1 else findLoop back a depth n (d + 1) best1 (seen + 1)
    else findLoop back a depth n (d + 1) best seen

/-- `find(q, a, limit)` with limit = the length of a (46_match_finder.md R591): (length, distance), (0, 0) for no match. -/
def findMatch (level fill : Nat) (back : Nat → Byte) (a : List Byte) : Nat × Nat :=
  if a.length < minMatch then (0, 0) else findLoop back a (chainDepth level) fill 1 (0, 0) 0

/-- `find` at the window's own position. -/
def findHere (lc : LCfg) (v : Win) (a : List Byte) : Nat × Nat :=
  findMatch lc.level (v.fill (windowSize lc)) (fun d => v.wread (windowSize lc) d) a

/-- `find` at the next stream position, as if `b` had already been appended (47_parser_compress.md R626). -/
def findNext (lc : LCfg) (v : Win) (b : Byte) (a : List Byte) : Nat × Nat :=
  findMatch lc.level (min (v.fill (windowSize lc) + 1) (windowSize lc))
    (fun d => if d = 1 then b else v.wread (windowSize lc) (d - 1)) a

/-- MFIND (46_match_finder.md R600): at most MAX_MATCH bytes of the lookahead are read. -/
def execMfind (s : State) : Result :=
  requireState s.isComp s <|
  requireRegion s.srcRegion s <|
  afterAccesses [⟨s.pend.ops.srcAddr.toNat, min s.pend.ops.srcLen.toNat maxMatch⟩] s <|
  let a := Mem.readList s.pend.ops.srcAddr.toNat (min s.pend.ops.srcLen.toNat maxMatch) s.mem
  let m := findHere s.lcfg s.win a
  .next (State.complete .ok { s with res0 := BitVec.ofNat 32 m.1, res1 := BitVec.ofNat 32 m.2 })

end Sys2Proof.Machine
end

