-- ==== Sys2Proof/Machine/Parser.lean ====
section
/-!
DEFINITION. Machine/Parser.lean: the cost evaluator, the Optimal Parser (47_parser_compress.md) and the commands COST and
COMPRESS.
-/

namespace Sys2Proof.Machine

/-! ## Costs (47_parser_compress.md R620) -/

/-- `cost_match(L, d)`. -/
def costMatch (t : Tabs) (length dist : Nat) : Nat :=
  let ls := bucket (length - minMatch)
  let ds := bucket (dist - 1)
  t.typ.len.getD 1 0 + t.len.len.getD ls.1 0 + ls.2.1 + t.dist.len.getD ds.1 0 + ds.2.1

/-- `cost_lits(s)`. -/
def costLits (t : Tabs) (bytes : List Byte) : Nat :=
  (bytes.map (fun b => t.typ.len.getD 0 0 + t.lit.len.getD b.toNat 0)).sum

/-! ## Token emission (47_parser_compress.md R627) -/

/-- Raw extra bits through the write cursor: no table, no frequency. -/
def emitRaw (n v : Nat) (e : Enc) : Except Full Enc :=
  (putbits n v e.sink).map (fun k => { e with sink := k })

/-- `emit_literal(b)`. -/
def emitLiteral (lc : LCfg) (b : Byte) (e : Enc) : Except Full Enc := do
  let e1 ← encSym lc .typ 0 e
  encSym lc .lit b.toNat e1

/-- `emit_match(L, d)`. -/
def emitMatch (lc : LCfg) (length dist : Nat) (e : Enc) : Except Full Enc := do
  let ls := bucket (length - minMatch)
  let ds := bucket (dist - 1)
  let e1 ← encSym lc .typ 1 e
  let e2 ← encSym lc .len ls.1 e1
  let e3 ← emitRaw ls.2.1 ls.2.2 e2
  let e4 ← encSym lc .dist ds.1 e3
  emitRaw ds.2.1 ds.2.2 e4

/-- `emit_eos()`. -/
def emitEos (lc : LCfg) (e : Enc) : Except Full Enc :=
  encSym lc .typ 2 e

/-! ## Parse (47_parser_compress.md R625, R626) -/

/-- What parsing a chunk can change. -/
structure Comp where
  enc : Enc
  win : Win
deriving DecidableEq, Repr

/-- `lazy_rejects` for a match of the given length at byte `b` with `rest` after it (47_parser_compress.md R626). -/
def lazyRejects (lc : LCfg) (v : Win) (length : Nat) (b : Byte) (rest : List Byte) : Bool :=
  decide (3 ≤ lc.level) && !rest.isEmpty && decide (length < (findNext lc v b rest).1)

/-- The match the parser considers at the head of the rest of the chunk: (0, 0) when there is none or lookahead rejects
it (47_parser_compress.md R625). -/
def considered (lc : LCfg) (v : Win) (b : Byte) (rest : List Byte) : Nat × Nat :=
  let m := findHere lc v (b :: rest)
  if decide (minMatch ≤ m.1) && lazyRejects lc v m.1 b rest then (0, 0) else m

/-- `parse` (47_parser_compress.md R625) over the rest of the chunk. The second argument counts bytes the last match
still covers; they were appended with it. -/
def parse (lc : LCfg) : List Byte → Nat → Comp → Except Full Comp
  | [], _, k => .ok k
  | _ :: rest, skip + 1, k => parse lc rest skip k
  | b :: rest, 0, k =>
    let m := considered lc k.win b rest
    if decide (minMatch ≤ m.1) && decide (costMatch k.enc.tab m.1 m.2 ≤ costLits k.enc.tab ((b :: rest).take m.1)) then
      match emitMatch lc m.1 m.2 k.enc with
      | .error e => .error e
      | .ok e => parse lc rest (m.1 - 1) ⟨e, k.win.appendList (windowSize lc) ((b :: rest).take m.1)⟩
    else
      match emitLiteral lc b k.enc with
      | .error e => .error e
      | .ok e => parse lc rest 0 ⟨e, k.win.append (windowSize lc) b⟩

/-! ## Commands -/

/-- COST (47_parser_compress.md R630): L = ARG0, d = ARG1, the replaced literals at SRC. -/
def execCost (s : State) : Result :=
  let length := s.pend.ops.arg0.toNat
  let dist := s.pend.ops.arg1.toNat
  requireState s.isReady s <|
  requireOperand (decide (minMatch ≤ length) && decide (length ≤ maxMatch) &&
    decide (length ≤ s.pend.ops.srcLen.toNat) && decide (1 ≤ dist) && decide (dist ≤ windowSize s.lcfg)) s <|
  requireRegion s.srcRegion s <|
  afterAccesses [⟨s.pend.ops.srcAddr.toNat, length⟩] s <|
  let cm := costMatch s.tab length dist
  let cl := costLits s.tab (Mem.readList s.pend.ops.srcAddr.toNat length s.mem)
  .next (State.complete .ok
    { s with
      res0 := BitVec.ofNat 32 cm
      res1 := BitVec.ofNat 32 cl
      result := if cm ≤ cl then 1 else 0 })

/-- A list of whole bytes through the write cursor, each by `putbits(8, b)`. -/
def putBytes : List Byte → Sink → Except Full Sink
  | [], k => .ok k
  | b :: bs, k =>
    match putbits 8 b.toNat k with
    | .error e => .error e
    | .ok k1 => putBytes bs k1

/-- What COMPRESS has before its chunk is parsed: the cursor set up on the destination, and, at the first chunk of a
stream, an empty window, a fresh accumulator and the header (47_parser_compress.md R640). -/
def compressStart (s : State) : Except Full (Comp × Word) :=
  let wc : WCur := { s.wc with base := s.pend.ops.dstAddr, cap := s.pend.ops.dstCap, pos := 0 }
  if s.ctx.started then .ok (⟨⟨⟨wc, s.mem⟩, s.tab⟩, s.win⟩, s.adler)
  else
    match putBytes (header s.lcfg) ⟨{ wc with acc := 0, nacc := 0 }, s.mem⟩ with
    | .error e => .error e
    | .ok k => .ok (⟨⟨k, s.tab⟩, s.win.clear⟩, 0x00000001)

/-- The trailer bytes, big-endian (30_encoding.md R336). -/
def trailer (v : Word) : List Byte :=
  [v.extractLsb' 24 8, v.extractLsb' 16 8, v.extractLsb' 8 8, v.extractLsb' 0 8]

/-- What FINAL adds: the end-of-stream token, the padding and the trailer (47_parser_compress.md R640). -/
def compressEnd (lc : LCfg) (adler : Word) (e : Enc) : Except Full Enc := do
  let e1 ← emitEos lc e
  let k ← flush e1.sink
  let k1 ← putBytes (trailer adler) k
  return { e1 with sink := k1 }

/-- The rest of COMPRESS (47_parser_compress.md R640), from what `compressStart` leaves: the whole new state before the
report. -/
def compressChunk (final : Bool) (s : State) (k : Comp) (adler0 : Word) : Except Full State := do
  let chunk := Mem.readList s.pend.ops.srcAddr.toNat s.pend.ops.srcLen.toNat s.mem
  let k1 ← parse s.lcfg chunk 0 k
  let adler := adlerUpdate adler0 chunk
  let e ← if final then compressEnd s.lcfg adler k1.enc else .ok k1.enc
  return { s with
    mem := e.sink.mem
    wc := e.sink.wc
    tab := e.tab
    win := k1.win
    adler := adler
    ctx := { s.ctx with started := true, done := s.ctx.done || final }
    result := BitVec.ofNat 32 e.sink.wc.pos }

/-- The state after a COMPRESS error at step 7 (47_parser_compress.md R642): the stream is broken; RESULT, the
destination bytes, `tab`, `win`, `wc` and `adler` are free values (log 10); everything else is as it was. -/
def compressBroken (s : State) : State :=
  { s with
    ctx := { s.ctx with started := true, done := true }
    result := freeWord s.draws 0
    mem := freeRegion s.draws s.dstRegion s.mem
    tab := freeTabs s.draws s.lcfg.dict
    win := freeWin s.draws s.lcfg.dict
    wc := freeWCur s.draws
    adler := freeWord s.draws 19
    draws := s.draws + 1 }

/-- What a COMPRESS that runs out of room answers (47_parser_compress.md R642), having read `read` and stored `f.stored`
bytes of its destination. -/
def compressFails (read : Region) (f : Full) (s : State) : Result :=
  afterAccesses [read, ⟨s.pend.ops.dstAddr.toNat, f.stored⟩] s <|
  .next ((compressBroken s).complete .outputBufferTooSmall)

/-- COMPRESS (47_parser_compress.md R640): the header is stored before the chunk is read, and the chunk is read whole. -/
def execCompress (final : Bool) (s : State) : Result :=
  requireState s.mayCompress s <|
  requireRegions s.srcRegion s.dstRegion s <|
  match compressStart s with
  | .error f => compressFails noRegion f s
  | .ok (k, adler0) =>
    match compressChunk final s k adler0 with
    | .error f => compressFails s.srcRegion f s
    | .ok t =>
      afterAccesses [s.srcRegion, ⟨s.pend.ops.dstAddr.toNat, t.wc.pos⟩] s <|
      .next (t.complete .ok)

end Sys2Proof.Machine
end

