-- ==== Sys2Proof/Machine/Decompress.lean ====
section
/-!
DEFINITION. Machine/Decompress.lean: the LZ Decompressor and DECOMPRESS (48_decompress.md).
-/

namespace Sys2Proof.Machine

/-- What decoding a stream can change: the read cursor and tables, memory (in unbuffered mode), the window, `adler`, the
count of bytes produced, and the bytes themselves, newest first (the staging of 48_decompress.md R661). -/
structure Unpack where
  dec      : Dec
  mem      : Mem
  win      : Win
  adler    : Word
  produced : Nat
  out      : List Byte
deriving DecidableEq, Repr

/-- `emit(b)` (48_decompress.md R660), for a destination address. -/
def emitByte (lc : LCfg) (dst : Nat) (b : Byte) (u : Unpack) : Unpack :=
  { u with
    mem := if lc.unbuf then Mem.write (dst + u.produced) b u.mem else u.mem
    win := u.win.append (windowSize lc) b
    adler := if lc.adlerEn then adlerUpdate u.adler [b] else u.adler
    produced := u.produced + 1
    out := b :: u.out }

/-- `repeat L times: emit(wread(d))` (48_decompress.md R660); each byte sees the ones before it. -/
def copyMatch (lc : LCfg) (dst : Nat) : Nat → Nat → Unpack → Unpack
  | 0, _, u => u
  | n + 1, d, u => copyMatch lc dst n d (emitByte lc dst (u.win.wread (windowSize lc) d) u)

/-- A symbol with its extra bits, unbucketed (30_encoding.md R344). -/
def decValue (m : Mem) (lc : LCfg) (c : SymClass) (d : Dec) : Except ReadStop (Nat × Dec) := do
  let (sym, d1) ← decSym m lc c d
  let (x, r) ← getbits m (nextra sym) d1.rc
  return (unbucket sym x, { d1 with rc := r })

/-- One token (48_decompress.md R660, R663): true with the state when it is the end of the stream. Every check comes
before the token's first byte (R664, R665), so an error leaves what was there before the token. -/
def unpackToken (lc : LCfg) (dst cap : Nat) (u : Unpack) : Except ReadStop (Bool × Unpack) := do
  let (t, d1) ← decSym u.mem lc .typ u.dec
  if t = 0 then
    let (b, d2) ← decSym u.mem lc .lit d1
    if u.produced = cap then .error ⟨.outputBufferTooSmall, d2.rc⟩
    else return (false, emitByte lc dst (BitVec.ofNat 8 b) { u with dec := d2 })
  else if t = 1 then
    let (lv, d2) ← decValue u.mem lc .len d1
    let (dv, d3) ← decValue u.mem lc .dist d2
    if dv + 1 > u.produced then .error ⟨.corruptStream, d3.rc⟩
    else if u.produced + (lv + minMatch) > cap then .error ⟨.outputBufferTooSmall, d3.rc⟩
    else return (false, copyMatch lc dst (lv + minMatch) (dv + 1) { u with dec := d3 })
  else return (true, { u with dec := d1 })

/-- The token loop (48_decompress.md R660). The first argument bounds the tokens: each reads at least one bit, so the
bound of one more than the bits of the source is never reached (log 19). -/
def unpackLoop (lc : LCfg) (dst cap : Nat) : Nat → Unpack → Except (ReadStop × Unpack) Unpack
  | 0, u => .error (⟨.truncatedStream, u.dec.rc⟩, u)
  | n + 1, u =>
    match unpackToken lc dst cap u with
    | .error e => .error (e, u)
    | .ok (true, u1) => .ok u1
    | .ok (false, u1) => unpackLoop lc dst cap n u1

/-- The padding check (48_decompress.md R668). -/
def checkPadding (m : Mem) (r : RCur) : Except ReadStop RCur :=
  if r.bit > 0 then
    match getbits m (8 - r.bit) r with
    | .error e => .error e
    | .ok (x, r1) => if x = 0 then .ok r1 else .error ⟨.corruptStream, r1⟩
  else .ok r

/-- The trailer checks (48_decompress.md R669, R670), once the cursor is at a byte boundary. -/
def checkTrailer (lc : LCfg) (m : Mem) (adler : Word) (r : RCur) : Except ReadStop RCur :=
  if r.len.toNat - r.pos < 4 then .error ⟨.truncatedStream, r⟩
  else if r.pos + 4 ≠ r.len.toNat then .error ⟨.corruptStream, { r with pos := r.pos + 4 }⟩
  else if lc.adlerEn && decide (beValue (Mem.readList (r.base.toNat + r.pos) 4 m) ≠ adler.toNat) then
    .error ⟨.checksumMismatch, { r with pos := r.pos + 4 }⟩
  else .ok { r with pos := r.pos + 4 }

/-- What follows the end-of-stream token: the padding, then the trailer (48_decompress.md R660). -/
def checkEnd (lc : LCfg) (u : Unpack) : Except ReadStop RCur :=
  match checkPadding u.mem u.dec.rc with
  | .error e => .error e
  | .ok r => checkTrailer lc u.mem u.adler r

/-- What DECOMPRESS starts from (48_decompress.md R660). -/
def unpackStart (s : State) : Unpack :=
  { dec := { rc := { base := s.pend.ops.srcAddr, len := s.pend.ops.srcLen, pos := 0, bit := 0 }, tab := s.tab }
    mem := s.mem, win := s.win.clear, adler := 0x00000001, produced := 0, out := [] }

/-- Decoding the whole stream (48_decompress.md R660, check order R673): an error comes with what stood before it. -/
def unpackStream (s : State) : Except (ReadStop × Unpack) Unpack :=
  let u := unpackStart s
  let src := s.pend.ops.srcAddr.toNat
  let srcLen := s.pend.ops.srcLen.toNat
  if srcLen < 8 then .error (⟨.truncatedStream, u.dec.rc⟩, u)
  else if Mem.readList src 8 s.mem ≠ header s.lcfg then .error (⟨.corruptStream, { u.dec.rc with pos := 8 }⟩, u)
  else
    match unpackLoop s.lcfg s.pend.ops.dstAddr.toNat s.pend.ops.dstCap.toNat (8 * srcLen + 1)
        { u with dec := { u.dec with rc := { u.dec.rc with pos := 8 } } } with
    | .error e => .error e
    | .ok u1 =>
      match checkEnd s.lcfg u1 with
      | .error e => .error (e, u1)
      | .ok r => .ok { u1 with dec := { u1.dec with rc := r } }

/-- The state after a successful DECOMPRESS (48_decompress.md R660, R671): in buffered mode the staged bytes are written
now (R661). -/
def decompressDone (s : State) (u : Unpack) : State :=
  { s with
    ctx := { s.ctx with started := true, done := true }
    rc := u.dec.rc
    tab := u.dec.tab
    win := u.win
    adler := u.adler
    mem := if s.lcfg.unbuf then u.mem else Mem.writeList s.pend.ops.dstAddr.toNat u.out.reverse u.mem
    result := BitVec.ofNat 32 u.produced
    res0 := s.pend.ops.srcLen }

/-- The state after a DECOMPRESS error at step 7 (48_decompress.md R672): RESULT and the destination bytes as R661 says;
RES0, `rc`, `tab`, `win` and `adler` are free values (log 10). -/
def decompressBroken (s : State) (u : Unpack) : State :=
  { s with
    ctx := { s.ctx with started := true, done := true }
    result := BitVec.ofNat 32 u.produced
    mem := u.mem
    res0 := freeWord s.draws 0
    rc := freeRCur s.draws
    tab := freeTabs s.draws s.lcfg.dict
    win := freeWin s.draws s.lcfg.dict
    adler := freeWord s.draws 19
    draws := s.draws + 1 }

/-- The bytes of the source read by the time the cursor stands at `reach`: the header and the stream are read in order. -/
def unpackRead (s : State) (reach : RCur) : Region :=
  (unpackStart s).dec.rc.readTo reach

/-- DECOMPRESS (48_decompress.md R660): after an error only unbuffered mode has stored the bytes produced (R661). -/
def execDecompress (s : State) : Result :=
  requireState s.mayDecompress s <|
  requireRegions s.srcRegion s.dstRegion s <|
  match unpackStream s with
  | .ok u =>
    afterAccesses [unpackRead s u.dec.rc, ⟨s.pend.ops.dstAddr.toNat, u.produced⟩] s <|
    .next ((decompressDone s u).complete .ok)
  | .error (x, u) =>
    afterAccesses [unpackRead s x.reach, ⟨s.pend.ops.dstAddr.toNat, if s.lcfg.unbuf then u.produced else 0⟩] s <|
    .next ((decompressBroken s u).complete x.err)

end Sys2Proof.Machine
end

