-- ==== Sys2Proof/Machine/Dispatch.lean ====
section
/-!
DEFINITION. Machine/Dispatch.lean: `exec`, one arm per command (30_encoding.md R302). `exec i s` is the completion of the
command i in flight in s (40_command_model.md R403, R404); its operands are in `s.pend`.
-/

namespace Sys2Proof.Machine

def exec (i : Instr) (s : State) : Host.Outcome State Fault Refusal :=
  match i with
  | .cinit => Sys2Proof.Machine.execCinit s
  | .dinit => Sys2Proof.Machine.execDinit s
  | .reinit => Sys2Proof.Machine.execReinit s
  | .close => Sys2Proof.Machine.execClose s
  | .compress final => Sys2Proof.Machine.execCompress final s
  | .decompress => Sys2Proof.Machine.execDecompress s
  | .hbuild => Sys2Proof.Machine.execHbuild s
  | .treset c => Sys2Proof.Machine.execTreset c s
  | .tenc c => Sys2Proof.Machine.execTenc c s
  | .tdec c => Sys2Proof.Machine.execTdec c s
  | .tcost c => Sys2Proof.Machine.execTcost c s
  | .tread c => Sys2Proof.Machine.execTread c s
  | .tstat c => Sys2Proof.Machine.execTstat c s
  | .wsetup => Sys2Proof.Machine.execWsetup s
  | .putbits => Sys2Proof.Machine.execPutbits s
  | .wflush => Sys2Proof.Machine.execWflush s
  | .rsetup => Sys2Proof.Machine.execRsetup s
  | .getbits => Sys2Proof.Machine.execGetbits s
  | .ralign => Sys2Proof.Machine.execRalign s
  | .wput => Sys2Proof.Machine.execWput s
  | .wget => Sys2Proof.Machine.execWget s
  | .mfind => Sys2Proof.Machine.execMfind s
  | .cost => Sys2Proof.Machine.execCost s
  | .ainit => Sys2Proof.Machine.execAinit s
  | .aupdate => Sys2Proof.Machine.execAupdate s

end Sys2Proof.Machine
end

