-- ==== Sys2Proof/Machine/Registers.lean ====
section
/-!
DEFINITION. Machine/Registers.lean: the register port (10_state.md R100 to R146): the offset of each register, what a host
read returns and what a host write does, the issue of a command (40_command_model.md R400 to R402) and the soft reset
(70_reset_and_hazards.md R902, R903).
-/

namespace Sys2Proof.Machine

/-- The register at an offset, none for a reserved one (10_state.md R100). -/
def regAt (offset : Nat) : Option Reg :=
  match offset with
  | 0x00 => some .id
  | 0x04 => some .cmd
  | 0x08 => some .status
  | 0x0C => some .irqEn
  | 0x10 => some .irqPend
  | 0x14 => some .srst
  | 0x20 => some .cfgDictLog2
  | 0x24 => some .cfgLevel
  | 0x28 => some .cfgUpdateRate
  | 0x2C => some .cfgMaxInterval
  | 0x30 => some .cfgSlowRate
  | 0x34 => some .cfgHelpers
  | 0x38 => some .cfgDflags
  | 0x40 => some .srcAddr
  | 0x44 => some .srcLen
  | 0x48 => some .dstAddr
  | 0x4C => some .dstCap
  | 0x50 => some .arg0
  | 0x54 => some .arg1
  | 0x60 => some .result
  | 0x64 => some .res0
  | 0x68 => some .res1
  | 0x6C => some .adler
  | 0x70 => some .wcPos
  | 0x74 => some .wcNbits
  | 0x78 => some .wcAcc
  | 0x7C => some .rcPos
  | 0x80 => some .rcBit
  | 0x84 => some .winTotalLo
  | 0x88 => some .winTotalHi
  | _ => none

/-- The width of a register's defined bits; the bits above read 0 (10_state.md R101). -/
def Reg.width : Reg → Nat
  | .id => 32
  | .cmd => 0
  | .status => 16
  | .irqEn => 2
  | .irqPend => 2
  | .srst => 0
  | .cfgDictLog2 => 8
  | .cfgLevel => 8
  | .cfgUpdateRate => 8
  | .cfgMaxInterval => 16
  | .cfgSlowRate => 8
  | .cfgHelpers => 8
  | .cfgDflags => 2
  | .srcAddr => 32
  | .srcLen => 32
  | .dstAddr => 32
  | .dstCap => 32
  | .arg0 => 32
  | .arg1 => 32
  | .result => 32
  | .res0 => 32
  | .res1 => 32
  | .adler => 32
  | .wcPos => 32
  | .wcNbits => 3
  | .wcAcc => 7
  | .rcPos => 32
  | .rcBit => 3
  | .winTotalLo => 32
  | .winTotalHi => 32

/-- A read while BUSY = 1 returns an unspecified value (70_reset_and_hazards.md R921); STATUS, of which only the STARTED
and DONE bits are unspecified, is not in this list. -/
def Reg.openWhileBusy : Reg → Bool
  | .result => true
  | .res0 => true
  | .res1 => true
  | .adler => true
  | .wcPos => true
  | .wcNbits => true
  | .wcAcc => true
  | .rcPos => true
  | .rcBit => true
  | .winTotalLo => true
  | .winTotalHi => true
  | .id => false
  | .cmd => false
  | .status => false
  | .irqEn => false
  | .irqPend => false
  | .srst => false
  | .cfgDictLog2 => false
  | .cfgLevel => false
  | .cfgUpdateRate => false
  | .cfgMaxInterval => false
  | .cfgSlowRate => false
  | .cfgHelpers => false
  | .cfgDflags => false
  | .srcAddr => false
  | .srcLen => false
  | .dstAddr => false
  | .dstCap => false
  | .arg0 => false
  | .arg1 => false

/-- The value a register holds for a read while BUSY = 0 (10_state.md R103 to R146); WO registers read 0 (R101). -/
def State.regValue (s : State) : Reg → Word
  | .id => 0x505A0001
  | .cmd => 0
  | .status => s.status
  | .irqEn => s.irqEn.setWidth 32
  | .irqPend => s.irqPend.setWidth 32
  | .srst => 0
  | .cfgDictLog2 => s.cfg.dictLog2.setWidth 32
  | .cfgLevel => s.cfg.level.setWidth 32
  | .cfgUpdateRate => s.cfg.updateRate.setWidth 32
  | .cfgMaxInterval => s.cfg.maxInterval.setWidth 32
  | .cfgSlowRate => s.cfg.slowRate.setWidth 32
  | .cfgHelpers => s.cfg.helpers.setWidth 32
  | .cfgDflags => s.cfg.dflags.setWidth 32
  | .srcAddr => s.ops.srcAddr
  | .srcLen => s.ops.srcLen
  | .dstAddr => s.ops.dstAddr
  | .dstCap => s.ops.dstCap
  | .arg0 => s.ops.arg0
  | .arg1 => s.ops.arg1
  | .result => s.result
  | .res0 => s.res0
  | .res1 => s.res1
  | .adler => s.adler
  | .wcPos => BitVec.ofNat 32 s.wc.pos
  | .wcNbits => BitVec.ofNat 32 (s.wc.nacc % 8)
  | .wcAcc => BitVec.ofNat 32 (s.wc.acc % 128)
  | .rcPos => BitVec.ofNat 32 s.rc.pos
  | .rcBit => BitVec.ofNat 32 (s.rc.bit % 8)
  | .winTotalLo => s.win.total.setWidth 32
  | .winTotalHi => (s.win.total >>> 32).setWidth 32

/-- A host read of a register (10_state.md R101): the value goes to `rdata`. While BUSY = 1 the registers of R921 return a
free value of their width, and STATUS free STARTED and DONE bits (log 12). -/
def State.readReg (r : Reg) (s : State) : State :=
  if s.busy then
    if r.openWhileBusy then
      { s with rdata := BitVec.ofNat 32 ((freeWord s.draws 0).toNat % 2 ^ r.width), draws := s.draws + 1 }
    else if r = .status then
      { s with rdata := s.statusWith (freeBit s.draws 0) (freeBit s.draws 1), draws := s.draws + 1 }
    else { s with rdata := s.regValue r }
  else { s with rdata := s.regValue r }

/-- A host read at an offset; a reserved offset reads 0 (10_state.md R101). -/
def State.readOffset (offset : Nat) (s : State) : State :=
  match regAt offset with
  | some r => s.readReg r
  | none => { s with rdata := 0 }

/-- Issue: the word and the operand and configuration registers are latched, and the engine is busy
(40_command_model.md R400, R402). -/
def State.issue (w : Word) (s : State) : State :=
  { s with busy := true, pend := s.latch w }

/-- The soft reset (70_reset_and_hazards.md R902): every piece of the block's state as after power-on. Host memory is
not touched, but for the destination bytes of a command it aborts, which become free values (R903; log 14). The host's
own fields and the platform stay. That it has this outcome also when the aborted command's region is one of 60_exceptions.md
R820 (c) or meets a range the bus rejects (R822), and nothing is refused then, is the model's choice (log 27). -/
def State.softReset (s : State) : State :=
  { State.reset with
    mem := if s.busy then freeRegion s.draws s.flightRegions.2 s.mem else s.mem
    plat := s.plat
    inputs := s.inputs
    rdata := s.rdata
    mdata := s.mdata
    draws := if s.busy then s.draws + 1 else s.draws }

/-- A write of 1 clears a bit of IRQ_PEND (10_state.md R107). -/
def State.clearPend (v : Word) (s : State) : State :=
  { s with irqPend := s.irqPend &&& ~~~ (v.setWidth 2) }

/-- A host write of a register (10_state.md R101, R104 to R108, R120 to R135): RO registers and undefined bits ignore it; a
write of CMD issues a command, or is dropped and sets LOST while busy (40_command_model.md R400, R401). -/
def State.writeReg (r : Reg) (v : Word) (s : State) : State :=
  match r with
  | .cmd => if s.busy then { s with irqPend := s.irqPend ||| 2 } else s.issue v
  | .irqEn => { s with irqEn := v.setWidth 2 }
  | .irqPend => s.clearPend v
  | .srst => if v.getLsbD 0 then s.softReset else s
  | .cfgDictLog2 => { s with cfg := { s.cfg with dictLog2 := v.setWidth 8 } }
  | .cfgLevel => { s with cfg := { s.cfg with level := v.setWidth 8 } }
  | .cfgUpdateRate => { s with cfg := { s.cfg with updateRate := v.setWidth 8 } }
  | .cfgMaxInterval => { s with cfg := { s.cfg with maxInterval := v.setWidth 16 } }
  | .cfgSlowRate => { s with cfg := { s.cfg with slowRate := v.setWidth 8 } }
  | .cfgHelpers => { s with cfg := { s.cfg with helpers := v.setWidth 8 } }
  | .cfgDflags => { s with cfg := { s.cfg with dflags := v.setWidth 2 } }
  | .srcAddr => { s with ops := { s.ops with srcAddr := v } }
  | .srcLen => { s with ops := { s.ops with srcLen := v } }
  | .dstAddr => { s with ops := { s.ops with dstAddr := v } }
  | .dstCap => { s with ops := { s.ops with dstCap := v } }
  | .arg0 => { s with ops := { s.ops with arg0 := v } }
  | .arg1 => { s with ops := { s.ops with arg1 := v } }
  | .id => s
  | .status => s
  | .result => s
  | .res0 => s
  | .res1 => s
  | .adler => s
  | .wcPos => s
  | .wcNbits => s
  | .wcAcc => s
  | .rcPos => s
  | .rcBit => s
  | .winTotalLo => s
  | .winTotalHi => s

/-- A host write at an offset; a reserved offset ignores it (10_state.md R101). -/
def State.writeOffset (offset : Nat) (v : Word) (s : State) : State :=
  match regAt offset with
  | some r => s.writeReg r v
  | none => s

/-- A register access has a meaning only when it is 32 bits wide at a multiple of 4 (10_state.md R101, 20_memory.md
R212). -/
def accessShapeOk (bits offset : Nat) : Bool :=
  decide (bits = 32) && decide (offset % 4 = 0)

end Sys2Proof.Machine
end

