-- ==== Sys2Proof/Machine/Engine.lean ====
section
/-!
DEFINITION. Machine/Engine.lean: one turn of the machine: the completion of the command in flight (40_command_model.md
R403, R404), and the host's accesses (10_state.md R101, 20_memory.md R211), in the order the events say (log 1).
-/

namespace Sys2Proof.Machine

/-- The command in flight completes: an ill-formed word with IllegalCommand (40_command_model.md R406 step 1), any other
as its meaning says. -/
def State.completion (s : State) : Result :=
  match decode s.pend.cmd with
  | .error _ => .next (s.complete .illegalCommand)
  | .ok i => exec i s

/-- What stops a host access to one byte of its memory: the register block's bytes are reached only by register accesses
(60_exceptions.md R820 (a)), and the platform may object (log 21). -/
def hostAccessRefusal (p : Config.Platform) (a : Nat) : Option Refusal :=
  if Region.contains ⟨p.regBase, regBlockLen⟩ a then some .registerAccessShape
  else (sideEffectRefusal p ⟨a, 1⟩).or (busRefusal p [⟨a, 1⟩])

/-- The byte at an address once the command in flight has completed; the byte as it is if it is refused
(the model's choice, log 27). -/
def State.byteAfter (s : State) (a : Nat) : Byte :=
  match s.completion with
  | .next t => Mem.read a t.mem
  | .fault _ => Mem.read a s.mem
  | .refused _ => Mem.read a s.mem

/-- A host read of a byte (20_memory.md R211): while busy a byte of the destination region reads the value before the
command or the value the command stores there, either one (R211 (c); log 13). -/
def State.hostRead (a : Nat) (s : State) : Result :=
  unlessRefused (hostAccessRefusal s.plat a) <|
  if s.busy && s.flightRegions.2.contains a then
    .next { s with mdata := if freeBit s.draws 0 then s.byteAfter a else Mem.read a s.mem, draws := s.draws + 1 }
  else .next { s with mdata := Mem.read a s.mem }

/-- A host write of a byte (20_memory.md R211): while busy a byte of the source or destination region of the command in
flight must not be written (R211 (d), 60_exceptions.md R820 (b); log 15). -/
def State.hostWrite (a : Nat) (b : Byte) (s : State) : Result :=
  unlessRefused (hostAccessRefusal s.plat a) <|
  if s.busy && (s.flightRegions.1.contains a || s.flightRegions.2.contains a) then .refused .hostWriteInFlight
  else .next { s with mem := Mem.write a b s.mem }

/-- The engine's turn: the command in flight completes, an idle engine does nothing. -/
def State.engineTurn (s : State) : Result :=
  if s.busy then s.completion else .next s

/-- One event, already taken from the list. -/
def State.deliver (e : Event) (s : State) : Result :=
  match e with
  | .engine => s.engineTurn
  | .wait => .next (s.readReg .status)
  | .read bits offset =>
    if accessShapeOk bits offset.toNat then .next (s.readOffset offset.toNat) else .refused .registerAccessShape
  | .write bits offset v =>
    if accessShapeOk bits offset.toNat then .next (s.writeOffset offset.toNat v) else .refused .registerAccessShape
  | .clearAtCompletion v => (s.clearPend v).engineTurn
  | .memRead a => s.hostRead a.toNat
  | .memWrite a b => s.hostWrite a.toNat b

/-- The next event, if it can be taken now: a host that waits for BUSY = 0 goes on only when the engine is idle, and its last
read of STATUS then stands in `rdata` (30_encoding.md R350; that the reads before it are no events is log 26). -/
def State.turn (s : State) : Result :=
  match s.inputs with
  | [] => s.engineTurn
  | .wait :: rest => if s.busy then s.completion else .next (State.readReg .status { s with inputs := rest })
  | e :: rest => State.deliver e { s with inputs := rest }

/-- The events that let the engine move first: none are needed when no event is waiting. -/
def engineFirst : List Event → List Event
  | [] => []
  | e :: es => .engine :: e :: es

/-- The command word `w` in flight, latched from the registers as they stand, and the engine to move next. -/
def State.withCommand (s : State) (w : Word) : State :=
  { s.issue w with inputs := engineFirst s.inputs }

end Sys2Proof.Machine
end

