-- ==== Sys2Proof/Machine/Step.lean ====
section
/-!
DEFINITION. Machine/Step.lean: the step of the machine, and a table row's word put where the step fetches it. The block
fetches nothing (20_memory.md R214): a command exists only as the value written to CMD, so the fetch is the latch of its
issue (40_command_model.md R402; log 1).
-/

namespace Sys2Proof.Machine

/-- One step: one event, or, when none is left, the engine's turn. -/
def step (s : State) : Host.Outcome State Fault Refusal :=
  s.turn

/-- `s` with the command of a table row in flight and the engine to move next. -/
def State.withFetchWord (s : State) (nbits w : Nat) : State :=
  s.withCommand (tableWord nbits w)

end Sys2Proof.Machine
end

