-- ==== Sys2Proof/Safety.lean ====
section
/-!
DEFINITION. Safety.lean: the words the statements are made of: the invariant of the machine (what 10_state.md and
44_adaptive_codec.md R528 say of every state at a command boundary), the tables of 49_context.md R702 and
60_exceptions.md R805, the conditions under which the platform lets a command run, and the bit strings the cursors stand for.
-/

namespace Sys2Proof.Safety

open Sys2Proof.Machine

/-! ## The invariant -/

/-- The write cursor's invariant (10_state.md R152) over a legal region (20_memory.md R202). -/
structure WCurOk (w : WCur) : Prop where
  nacc_lt : w.nacc < 8
  acc_lt  : w.acc < 2 ^ w.nacc
  pos_le  : w.pos ≤ w.cap.toNat
  legal   : w.base.toNat + w.cap.toNat ≤ addrSpace

/-- The read cursor's invariant (10_state.md R153) over a legal region (20_memory.md R202). -/
structure RCurOk (r : RCur) : Prop where
  place : (r.pos < r.len.toNat ∧ r.bit < 8) ∨ (r.pos = r.len.toNat ∧ r.bit = 0)
  legal : r.base.toNat + r.len.toNat ≤ addrSpace

/-- The legal ranges of the latched configuration (10_state.md R151, 49_context.md R704). -/
structure LCfgOk (p : Config.Platform) (lc : LCfg) : Prop where
  dict_ge   : dictLog2Min ≤ lc.dict
  dict_le   : lc.dict ≤ p.dictLog2Max
  level_le  : lc.level ≤ levelMax
  rate_ge   : 1 ≤ lc.rate
  rate_le   : lc.rate ≤ 20
  maxint_ge : 1 ≤ lc.maxint
  maxint_le : lc.maxint ≤ 65535
  slow_ge   : 16 ≤ lc.slow
  slow_le   : lc.slow ≤ 255

/-- What every table of an alphabet of n symbols has, whatever a failed stream left in it (10_state.md R154). -/
structure TableShape (n : Nat) (t : Table) : Prop where
  size         : t.n = n
  freq_length  : t.freq.length = n
  len_length   : t.len.length = n
  code_length  : t.code.length = n
  freq_pos     : ∀ x ∈ t.freq, 1 ≤ x
  interval_ge  : 1 ≤ t.interval
  countdown_ge : 1 ≤ t.countdown

/-- What R528 says of a table whose stream has not failed (44_adaptive_codec.md R528 (a), (c), (d), (e)). -/
structure TableSound (lc : LCfg) (n : Nat) (t : Table) : Prop where
  shape        : TableShape n t
  countdown_le : t.countdown ≤ t.interval
  interval_le  : t.interval ≤ lc.maxint
  freq_sum     : t.freq.sum ≤ 65535 + n + (t.interval - t.countdown)
  built        : ∃ g : List Nat, g.length = n ∧ (∀ x ∈ g, 1 ≤ x) ∧ t.len = (buildLengths g).1 ∧
                   t.code = canonical t.len

/-- The reachable combinations of `ctx` (49_context.md R700). -/
def ctxOk (c : Ctx) : Prop :=
  (c.state = .uninit ∧ c.role = .none ∧ c.started = false ∧ c.done = false) ∨
  (c.state = .closed ∧ c.role = .none ∧ c.started = false ∧ c.done = false) ∨
  (c.state = .ready ∧ (c.role = .comp ∨ c.role = .decomp) ∧ (c.done = true → c.started = true))

/-- The invariant of the machine: it holds at reset and every step keeps it. -/
structure Inv (s : State) : Prop where
  plat      : s.plat.legal = true
  mem_wf    : s.mem.wf = true
  mem_below : Mem.below addrSpace s.mem = true
  ctx       : ctxOk s.ctx
  wc        : WCurOk s.wc
  rc        : RCurOk s.rc
  ring_wf   : s.win.ring.wf = true
  ring_below : Mem.below (2 ^ 30) s.win.ring = true
  lcfg      : s.ctx.state = .ready → LCfgOk s.plat s.lcfg
  shape     : s.ctx.state = .ready → ∀ c, TableShape (alphabetSize c s.lcfg.dict) (s.tab.get c)
  sound     : s.ctx.state = .ready → s.ctx.done = false →
                ∀ c, TableSound s.lcfg (alphabetSize c s.lcfg.dict) (s.tab.get c)

/-! ## The spec's tables -/

/-- The state, role and stream requirement of each command (49_context.md R702). -/
def requirement (i : Instr) (s : State) : Bool :=
  match i with
  | .cinit => s.isUninit
  | .dinit => s.isUninit
  | .reinit => s.isReady
  | .close => s.isOpen
  | .compress _ => s.mayCompress
  | .decompress => s.mayDecompress
  | .hbuild => s.isReady
  | .treset _ => s.isReady
  | .tenc _ => s.isReady
  | .tdec _ => s.isReady
  | .tcost _ => s.isReady
  | .tread _ => s.isReady
  | .tstat _ => s.isReady
  | .wsetup => s.isReady
  | .putbits => s.isReady
  | .wflush => s.isReady
  | .rsetup => s.isReady
  | .getbits => s.isReady
  | .ralign => s.isReady
  | .wput => s.isReady
  | .wget => s.isReady
  | .mfind => s.isComp
  | .cost => s.isReady
  | .ainit => s.isReady
  | .aupdate => s.isReady

/-- A primitive command (40_command_model.md R411). -/
def primitive : Instr → Bool
  | .cinit => false
  | .dinit => false
  | .reinit => false
  | .close => false
  | .compress _ => false
  | .decompress => false
  | .hbuild => true
  | .treset _ => true
  | .tenc _ => true
  | .tdec _ => true
  | .tcost _ => true
  | .tread _ => true
  | .tstat _ => true
  | .wsetup => true
  | .putbits => true
  | .wflush => true
  | .rsetup => true
  | .getbits => true
  | .ralign => true
  | .wput => true
  | .wget => true
  | .mfind => true
  | .cost => true
  | .ainit => true
  | .aupdate => true

/-- The codes a command can give beyond OK, UseAfterClose, InvalidState and, for an ill-formed word, IllegalCommand
(60_exceptions.md R805). -/
def furtherErrors : Instr → List ErrCode
  | .cinit => [.invalidConfig]
  | .dinit => [.invalidConfig]
  | .reinit => [.invalidConfig]
  | .close => []
  | .compress _ => [.rangeError, .outputBufferTooSmall]
  | .decompress => [.rangeError, .truncatedStream, .corruptStream, .outputBufferTooSmall, .checksumMismatch]
  | .hbuild => [.illegalCommand, .rangeError, .outputBufferTooSmall]
  | .treset _ => []
  | .tenc _ => [.illegalCommand, .outputBufferTooSmall]
  | .tdec _ => [.truncatedStream, .corruptStream]
  | .tcost _ => [.illegalCommand]
  | .tread _ => [.illegalCommand]
  | .tstat _ => []
  | .wsetup => [.rangeError]
  | .putbits => [.illegalCommand, .outputBufferTooSmall]
  | .wflush => [.outputBufferTooSmall]
  | .rsetup => [.rangeError]
  | .getbits => [.illegalCommand, .truncatedStream]
  | .ralign => []
  | .wput => []
  | .wget => [.illegalCommand]
  | .mfind => [.rangeError]
  | .cost => [.illegalCommand, .rangeError]
  | .ainit => []
  | .aupdate => [.rangeError]

/-- The codes only the check steps 1 to 6 give (40_command_model.md R406). -/
def earlyError : ErrCode → Bool
  | .ok => false
  | .invalidConfig => true
  | .truncatedStream => false
  | .corruptStream => false
  | .checksumMismatch => false
  | .outputBufferTooSmall => false
  | .useAfterClose => true
  | .invalidState => true
  | .illegalCommand => true
  | .rangeError => true

/-! ## When the platform lets a command run -/

/-- A region a command may name: legal, and without side effects (20_memory.md R202, R208). -/
def nameable (s : State) (r : Region) : Prop :=
  r.legal = true ∧ sideEffectRefusal s.plat r = none

/-- Both regions of COMPRESS, DECOMPRESS and HBUILD may be named and do not overlap (20_memory.md R203). -/
def bothNameable (s : State) : Prop :=
  nameable s s.srcRegion ∧ nameable s s.dstRegion ∧ s.srcRegion.overlaps s.dstRegion = false

/-- The bus rejects none of these accesses (60_exceptions.md R822). -/
def busAllows (s : State) (accesses : List Region) : Prop :=
  busRefusal s.plat accesses = none

/-- A primitive may make its access through a cursor with region `r`: it makes none, or the region has no side effects and
the bus does not reject the bytes accessed (20_memory.md R208, 60_exceptions.md R822). -/
def cursorAllows (s : State) (r accessed : Region) : Prop :=
  accessed.len = 0 ∨ (sideEffectRefusal s.plat r = none ∧ busAllows s [accessed])

/-- The bytes stored by a write of n bits through a cursor (41_bitstream.md R432). -/
def storedBytes (n : Nat) (w : WCur) : Region :=
  ⟨w.base.toNat + w.pos, (w.nacc + n) / 8⟩

/-- The bytes read by a read of n bits through a cursor (41_bitstream.md R440). -/
def readBytes (n : Nat) (r : RCur) : Region :=
  ⟨r.base.toNat + r.pos, if n = 0 then 0 else (r.bit + n + 7) / 8⟩

/-! ## Bit strings -/

/-- The n low bits of v, most significant first (41_bitstream.md R432). -/
def msbBits : Nat → Nat → List Bool
  | 0, _ => []
  | n + 1, v => v.testBit n :: msbBits n v

/-- The number a bit string stands for, first bit most significant (41_bitstream.md R440). -/
def bitsValue (bs : List Bool) : Nat :=
  bs.foldl (fun v b => 2 * v + b.toNat) 0

/-- The bits of a list of bytes, first byte first, bit 7 first (20_memory.md R206). -/
def bytesBits (bytes : List Byte) : List Bool :=
  bytes.flatMap (fun b => msbBits 8 b.toNat)

/-- Every bit written since the write cursor was set up: the stored bytes, then the pending bits (10_state.md R152). -/
def writtenBits (w : WCur) (m : Mem) : List Bool :=
  bytesBits (m.readList w.base.toNat w.pos) ++ msbBits w.nacc w.acc

/-- The unread bits of the read cursor, in the order they are read (10_state.md R153, 41_bitstream.md R440). -/
def unreadBits (r : RCur) (m : Mem) : List Bool :=
  (bytesBits (m.readList (r.base.toNat + r.pos) (r.len.toNat - r.pos))).drop r.bit

/-- The read cursor n bits further on (41_bitstream.md R440). -/
def advanceRead (n : Nat) (r : RCur) : RCur :=
  { r with pos := r.pos + (r.bit + n) / 8, bit := (r.bit + n) % 8 }

/-- A write through the cursor appended exactly these bits: the region stays, the position and the pending count move by
as many bits, the bits written so far are followed by the new ones, and no byte outside the newly stored ones
`[base + pos, base + pos')` changed (41_bitstream.md R432). -/
structure WroteBits (bits : List Bool) (w : WCur) (m : Mem) (w' : WCur) (m' : Mem) : Prop where
  base    : w'.base = w.base
  cap     : w'.cap = w.cap
  pos     : w'.pos = w.pos + (w.nacc + bits.length) / 8
  nacc    : w'.nacc = (w.nacc + bits.length) % 8
  written : writtenBits w' m' = writtenBits w m ++ bits
  outside : ∀ a, (a < w.base.toNat + w.pos ∨ w.base.toNat + w'.pos ≤ a) → m'.read a = m.read a

/-- The code of a symbol as bits (43_prefix_code.md R485). -/
def codeBits (len code : List Nat) (sym : Nat) : List Bool :=
  msbBits (len.getD sym 0) (code.getD sym 0)

/-- The number of present symbols of a frequency list (43_prefix_code.md R481). -/
def presentCount (f : List Nat) : Nat :=
  (f.filter (fun x => decide (0 < x))).length

/-! ## Configuration and reset -/

/-- The ranges of 49_context.md R704 that CINIT, DINIT and a decompressor REINIT check. -/
def sharedConfigLegal (p : Config.Platform) (c : CfgRegs) : Prop :=
  15 ≤ c.dictLog2.toNat ∧ c.dictLog2.toNat ≤ p.dictLog2Max ∧ 1 ≤ c.updateRate.toNat ∧ c.updateRate.toNat ≤ 20 ∧
    1 ≤ c.maxInterval.toNat ∧ 16 ≤ c.slowRate.toNat

/-- The ranges of 49_context.md R704 that CINIT checks. -/
def compConfigLegal (p : Config.Platform) (c : CfgRegs) : Prop :=
  sharedConfigLegal p c ∧ c.level.toNat ≤ 4 ∧ c.helpers.toNat ≤ p.helperMax

/-- Every value 10_state.md R160 gives for the time after a reset. What R160 calls unspecified (the ring, the tables, `lcfg`,
`pend`) is not mentioned. -/
structure ResetValues (s : State) : Prop where
  status  : s.status = 0
  irqEn   : s.irqEn = 0
  irqPend : s.irqPend = 0
  cfg     : s.cfg = { dictLog2 := 20, level := 2, updateRate := 8, maxInterval := 1024, slowRate := 24, helpers := 0,
                      dflags := 0b01 }
  ops     : s.ops = { srcAddr := 0, srcLen := 0, dstAddr := 0, dstCap := 0, arg0 := 0, arg1 := 0 }
  result  : s.result = 0
  res0    : s.res0 = 0
  res1    : s.res1 = 0
  adler   : s.adler = 0x00000001
  wc      : s.wc = { base := 0, cap := 0, pos := 0, acc := 0, nacc := 0 }
  rc      : s.rc = { base := 0, len := 0, pos := 0, bit := 0 }
  total   : s.win.total = 0
  ctx     : s.ctx = { state := .uninit, role := .none, started := false, done := false }
  busy    : s.busy = false
  irq     : s.irq = false

/-- The RW registers (10_state.md R100). -/
def writableRegs : List Reg :=
  [.irqEn, .cfgDictLog2, .cfgLevel, .cfgUpdateRate, .cfgMaxInterval, .cfgSlowRate, .cfgHelpers, .cfgDflags,
    .srcAddr, .srcLen, .dstAddr, .dstCap, .arg0, .arg1]

/-- The register block (10_state.md R100): offset and register. Every other offset is reserved. -/
def registerMap : List (Nat × Reg) :=
  [(0x00, .id), (0x04, .cmd), (0x08, .status), (0x0C, .irqEn), (0x10, .irqPend), (0x14, .srst),
    (0x20, .cfgDictLog2), (0x24, .cfgLevel), (0x28, .cfgUpdateRate), (0x2C, .cfgMaxInterval), (0x30, .cfgSlowRate),
    (0x34, .cfgHelpers), (0x38, .cfgDflags),
    (0x40, .srcAddr), (0x44, .srcLen), (0x48, .dstAddr), (0x4C, .dstCap), (0x50, .arg0), (0x54, .arg1),
    (0x60, .result), (0x64, .res0), (0x68, .res1), (0x6C, .adler),
    (0x70, .wcPos), (0x74, .wcNbits), (0x78, .wcAcc), (0x7C, .rcPos), (0x80, .rcBit),
    (0x84, .winTotalLo), (0x88, .winTotalHi)]

/-- The RO registers (10_state.md R100). -/
def readOnlyRegs : List Reg :=
  [.id, .status, .result, .res0, .res1, .adler, .wcPos, .wcNbits, .wcAcc, .rcPos, .rcBit, .winTotalLo, .winTotalHi]

/-! ## Matches -/

/-- Whether the position at distance d is a candidate (46_match_finder.md R590). -/
def candidate (fill : Nat) (back : Nat → Byte) (a : List Byte) (d : Nat) : Bool :=
  decide (1 ≤ d) && decide (d ≤ fill) && decide (3 ≤ a.length) &&
    sourceByte back a d 0 == a.getD 0 0 && sourceByte back a d 1 == a.getD 1 0 && sourceByte back a d 2 == a.getD 2 0

/-- l is the length of the candidate at distance d: the greatest one, at most MAX_MATCH and the lookahead
(46_match_finder.md R590). -/
def candidateLength (back : Nat → Byte) (a : List Byte) (d l : Nat) : Prop :=
  l ≤ min a.length 258 ∧ (∀ j < l, sourceByte back a d j = a.getD j 0) ∧
    (l < min a.length 258 → sourceByte back a d l ≠ a.getD l 0)

/-- The candidate at distance d is among the ones the search examines: fewer than CHAIN_DEPTH candidates are nearer
(46_match_finder.md R591). -/
def examined (level fill : Nat) (back : Nat → Byte) (a : List Byte) (d : Nat) : Prop :=
  candidate fill back a d = true ∧ ((List.range d).filter (candidate fill back a)).length < [1, 4, 16, 64, 256].getD level 256

/-- (L, d) is what `find` returns (46_match_finder.md R593 (a) to (c)): (0, 0) when there is no candidate; else the
examined candidate of the greatest length, and among those of that length the nearest. -/
def bestMatch (level fill : Nat) (back : Nat → Byte) (a : List Byte) (l d : Nat) : Prop :=
  (l = 0 ∧ d = 0 ∧ ∀ e, candidate fill back a e = false) ∨
  (examined level fill back a d ∧ candidateLength back a d l ∧
    ∀ e m, examined level fill back a e → candidateLength back a e m → m ≤ l ∧ (m = l → d ≤ e))

/-! ## Tokens -/

/-- A token of the stream but for its end (30_encoding.md R341). -/
inductive Token where
  | lit (b : Byte)
  | copy (length dist : Nat)
deriving DecidableEq, Repr

/-- `n` bytes, each the one `d` before the end of what stands there by then (48_decompress.md R660). -/
def copyBack : Nat → Nat → List Byte → List Byte
  | 0, _, out => out
  | n + 1, d, out => copyBack n d (out ++ [out.getD (out.length - d) 0])

/-- What stands after a token, given what stands before it; none for a match outside the ranges of 30_encoding.md R343 or
with a distance past the beginning (47_parser_compress.md R628). -/
def Token.expand (dict : Nat) (out : List Byte) : Token → Option (List Byte)
  | .lit b => some (out ++ [b])
  | .copy length dist =>
    if 3 ≤ length ∧ length ≤ 258 ∧ 1 ≤ dist ∧ dist ≤ min out.length (2 ^ dict) then some (copyBack length dist out)
    else none

/-- What stands after a list of tokens. -/
def expandTokens (dict : Nat) : List Token → List Byte → Option (List Byte)
  | [], out => some out
  | k :: ks, out => (k.expand dict out).bind (expandTokens dict ks)

/-- One symbol coded (44_adaptive_codec.md R525, R530): its code's bits after the bits so far, and its table updated. -/
def codeSymbol (lc : LCfg) (c : SymClass) (sym : Nat) (p : List Bool × Tabs) : List Bool × Tabs :=
  (p.1 ++ codeBits (p.2.get c).len (p.2.get c).code sym, p.2.set c ((p.2.get c).update lc sym))

/-- A value coded as its symbol and its extra bits (30_encoding.md R341, R342). -/
def codeValue (lc : LCfg) (c : SymClass) (v : Nat) (p : List Bool × Tabs) : List Bool × Tabs :=
  ((codeSymbol lc c (bucket v).1 p).1 ++ msbBits (bucket v).2.1 (bucket v).2.2, (codeSymbol lc c (bucket v).1 p).2)

/-- One token coded (30_encoding.md R341). -/
def codeToken (lc : LCfg) (p : List Bool × Tabs) : Token → List Bool × Tabs
  | .lit b => codeSymbol lc .lit b.toNat (codeSymbol lc .typ 0 p)
  | .copy length dist => codeValue lc .dist (dist - 1) (codeValue lc .len (length - 3) (codeSymbol lc .typ 1 p))

/-- The bits and the tables after a list of tokens. -/
def codeTokens (lc : LCfg) (toks : List Token) (p : List Bool × Tabs) : List Bool × Tabs :=
  toks.foldl (codeToken lc) p

/-- The bits and the tables after the end-of-stream token. -/
def codeEos (lc : LCfg) (p : List Bool × Tabs) : List Bool × Tabs :=
  codeSymbol lc .typ 2 p

/-- Zero bits up to a byte boundary (30_encoding.md R332). -/
def padding (bits : List Bool) : List Bool :=
  List.replicate ((8 - bits.length % 8) % 8) false

/-- The bytes a window of w slots holds, oldest first (45_window.md R570, R572). -/
def windowBytes (w : Nat) (v : Win) : List Byte :=
  (List.range (min v.total.toNat w)).map (fun i => v.wread w (min v.total.toNat w - i))

/-! ## Streams -/

/-- A context at the start of a stream with its tables as INIT or REINIT left them (49_context.md R714). -/
def atStreamStart (s : State) : Prop :=
  s.ctx.started = false ∧ s.ctx.done = false ∧ s.tab = initTabs s.lcfg

/-- Two latched configurations with the same header (48_decompress.md R662). -/
def sameFormat (a b : LCfg) : Prop :=
  a.dict = b.dict ∧ a.rate = b.rate ∧ a.maxint = b.maxint ∧ a.slow = b.slow

/-- The bytes of the source region in flight. -/
def chunkOf (s : State) : List Byte :=
  Mem.readList s.pend.ops.srcAddr.toNat s.pend.ops.srcLen.toNat s.mem

/-- The bytes a COMPRESS stored at its destination: RESULT of them (47_parser_compress.md R640). -/
def storedChunk (c t : State) : List Byte :=
  Mem.readList c.pend.ops.dstAddr.toNat t.result.toNat t.mem

/-- A compressor takes up the stream another chunk left: everything of the stream but the cursor's region is as it was left.
The host may have changed its memory and its registers between the two. -/
def continues (t c : State) : Prop :=
  c.ctx = t.ctx ∧ c.lcfg = t.lcfg ∧ c.tab = t.tab ∧ c.win = t.win ∧ c.adler = t.adler ∧ c.wc.acc = t.wc.acc ∧
    c.wc.nacc = t.wc.nacc

/-- A stream of one or more chunks (47_parser_compress.md R641): COMPRESS at each of the given states in turn, without FINAL but
for the last, all successful; with the input, the bytes stored, and the state after the last chunk. -/
def compressesTo : State → List State → List Byte → List Byte → State → Prop
  | c, [], input, stream, t =>
    Inv c ∧ exec (.compress true) c = .next t ∧ t.err = .ok ∧ input = chunkOf c ∧ stream = storedChunk c t
  | c, c' :: rest, input, stream, t =>
    Inv c ∧ ∃ (u : State) (input' stream' : List Byte), exec (.compress false) c = .next u ∧ u.err = .ok ∧
      continues u c' ∧ compressesTo c' rest input' stream' t ∧ input = chunkOf c ++ input' ∧
      stream = storedChunk c u ++ stream'

/-- A state with another number of helper threads latched (46_match_finder.md R606). -/
def withHelpers (h : Nat) (s : State) : State :=
  { s with lcfg := { s.lcfg with helpers := h } }

/-- An outcome with its next state changed by a function. -/
def mapNext (f : State → State) : Result → Result
  | .next s => .next (f s)
  | .fault e => .fault e
  | .refused r => .refused r

end Sys2Proof.Safety
end

