-- ==== Sys2Proof/Certificates/Slice0/Obligations.lean ====
section
/-!
DEFINITION. Certificates/Slice0/Obligations.lean: the statements about the model. Each docstring names the rules of spec/ it
formalises. A statement about a free value holds for every value of the constants of Config.
-/

open Sys2Proof Sys2Proof.Machine Sys2Proof.Safety

/-! ## The command word -/

/-- 30_encoding.md R304, R350: a word decodes to a command exactly when it is the word the encoder writes for it, for
every SEL and FINAL. -/
def Obligations.DecodeInvertsEncode : Prop :=
  ∀ (w : Word) (i : Instr), decode w = .ok i ↔ w = encode i

/-- 30_encoding.md R301: the ill-formed words are those that no command decodes from, and one in flight completes with
IllegalCommand and no other effect. -/
def Obligations.IllFormedWordIsIllegalCommand : Prop :=
  (∀ w : Word, (CmdFields.ofWord w).wellFormed = true ↔ ∃ i, decode w = .ok i) ∧
  ∀ s : State, s.busy = true → s.inputs = [] → (CmdFields.ofWord s.pend.cmd).wellFormed = false →
    step s = .next (s.complete .illegalCommand)

/-- 30_encoding.md R302: words of each family written out. -/
def Obligations.SampleWordsDecode : Prop :=
  decode 0x00000001#32 = .ok .cinit ∧ decode 0x00000004#32 = .ok .close ∧
  decode 0x00000010#32 = .ok (.compress false) ∧ decode 0x00000410#32 = .ok (.compress true) ∧
  decode 0x00000011#32 = .ok .decompress ∧ decode 0x00000020#32 = .ok .hbuild ∧
  decode 0x00000322#32 = .ok (.tenc .dist) ∧ decode 0x00000123#32 = .ok (.tdec .lit) ∧
  decode 0x00000031#32 = .ok .putbits ∧ decode 0x00000041#32 = .ok .wget ∧
  decode 0x00000042#32 = .ok .mfind ∧ decode 0x00000051#32 = .ok .aupdate ∧
  decode 0x00000000#32 = .error .unknownOpcode ∧ decode 0x000000FF#32 = .error .unknownOpcode ∧
  decode 0x00000801#32 = .error .reservedBits ∧ decode 0x00000110#32 = .error .selNotZero ∧
  decode 0x00000422#32 = .error .finalNotZero

/-! ## Issue, step and completion -/

/-- 40_command_model.md R403, R404; the events and when the engine moves are the model's choice, log 1: with a decoded
command in flight, the engine's turn (with no event left, at an engine event, or while the host waits) is `exec` of
that command, an engine event being taken from the list first; and a table row's word stored by `withFetchWord` runs
next on the latched registers. -/
def Obligations.StepRunsDecodedCommand : Prop :=
  (∀ (s : State) (i : Instr), s.busy = true → decode s.pend.cmd = .ok i →
    (s.inputs = [] → step s = exec i s) ∧
    (∀ rest, s.inputs = .engine :: rest → step s = exec i { s with inputs := rest }) ∧
    (∀ rest, s.inputs = .wait :: rest → step s = exec i s)) ∧
  ∀ (s : State) (nbits w : Nat) (i : Instr), decode (tableWord nbits w) = .ok i →
    step (s.withFetchWord nbits w) =
      exec i { s with busy := true, pend := { cmd := tableWord nbits w, ops := s.ops, cfg := s.cfg } }

/-- 40_command_model.md R400, R401: a CMD write while idle latches the word and the registers and makes the engine busy,
which STATUS shows; a CMD write while busy sets LOST and does nothing else. -/
def Obligations.CmdWriteIssuesOrIsLost : Prop :=
  ∀ (s : State) (w : Word) (rest : List Event), s.inputs = .write 32 0x04#8 w :: rest →
    (s.busy = false → ∃ t, step s = .next t ∧
      t = { s with inputs := rest, busy := true, pend := { cmd := w, ops := s.ops, cfg := s.cfg } } ∧
      ∀ started done, (t.statusWith started done).getLsbD 4 = true ∧
        (s.ctx.state = .ready → (t.statusWith started done).extractLsb' 0 2 = 2#2)) ∧
    (s.busy = true → step s = .next { s with inputs := rest, irqPend := s.irqPend ||| 0b10#2 })

/-- 40_command_model.md R402, 70_reset_and_hazards.md R911: a command works on the latched copies alone (other values in
the operand and configuration registers change nothing but themselves), and no register write but a soft reset changes
the latch of the command in flight. -/
def Obligations.CommandsReadTheLatchOnly : Prop :=
  (∀ (i : Instr) (s : State) (ops : OpRegs) (cfg : CfgRegs),
    exec i { s with ops := ops, cfg := cfg } =
      mapNext (fun t => { t with ops := ops, cfg := cfg }) (exec i s)) ∧
  ∀ (s : State) (offset : Nat) (v : Word), s.busy = true → offset ≠ 0x14 → (s.writeOffset offset v).pend = s.pend

/-- 40_command_model.md R404, 60_exceptions.md R802: whatever its code, a completion clears BUSY, sets DONE, keeps LOST, and
leaves the operand, configuration and interrupt enable registers, the latch and the platform as they were. That the latch
keeps its values when the engine is no longer busy is the model's choice (log 24). -/
def Obligations.CompletionReports : Prop :=
  ∀ (i : Instr) (s t : State), exec i s = .next t →
    t.busy = false ∧ t.irqPend = s.irqPend ||| 0b01#2 ∧ t.irqEn = s.irqEn ∧ t.ops = s.ops ∧ t.cfg = s.cfg ∧
      t.pend = s.pend ∧ t.plat = s.plat ∧ t.inputs = s.inputs ∧ t.rdata = s.rdata ∧ t.mdata = s.mdata

/-- 40_command_model.md R410, 60_exceptions.md R821, R822: in every state that meets the invariant, every command word in
flight over regions without side effects completes, whatever its operands, and the engine is then idle, unless the bus
rejects a byte of one of its regions; and no step of such a state ends in a fault. That the model refuses a rejected access,
and when, is its choice (log 7, log 8), as is the fault (log 9). -/
def Obligations.EveryCommandCompletes : Prop :=
  (∀ s : State, Inv s → s.busy = true → sideEffectRefusal s.plat s.flightRegions.1 = none →
    sideEffectRefusal s.plat s.flightRegions.2 = none →
    (∃ t, s.completion = .next t ∧ t.busy = false) ∨
    (s.completion = .refused .busFault ∧ ∃ a : Nat,
      (s.flightRegions.1.contains a = true ∨ s.flightRegions.2.contains a = true) ∧
      busRejects s.plat ⟨a, 1⟩ = true)) ∧
  ∀ (s : State) (f : Fault), Inv s → step s ≠ .fault f

/-! ## The order of the checks -/

/-- 49_context.md R715, 70_reset_and_hazards.md R905: in CLOSED every command gives UseAfterClose and changes nothing else, and
only a soft reset leaves CLOSED. -/
def Obligations.ClosedUntilReset : Prop :=
  (∀ (i : Instr) (s : State), s.ctx.state = .closed → exec i s = .next (s.complete .useAfterClose)) ∧
  ∀ s t : State, s.ctx.state = .closed → step s = .next t →
    t.ctx.state = .closed ∨
      ∃ v rest, s.inputs = .write 32 0x14#8 v :: rest ∧ v.getLsbD 0 = true ∧ t.ctx.state = .uninit

/-- 49_context.md R702: a command whose state, role or stream requirement fails gives InvalidState, in CLOSED UseAfterClose,
and changes nothing else. -/
def Obligations.UnmetRequirementIsInvalidState : Prop :=
  ∀ (i : Instr) (s : State), requirement i s = false →
    (s.ctx.state ≠ .closed → exec i s = .next (s.complete .invalidState)) ∧
    (s.ctx.state = .closed → exec i s = .next (s.complete .useAfterClose))

/-- 30_encoding.md R310: the operand checks, each an IllegalCommand that changes nothing else. -/
def Obligations.OperandChecks : Prop :=
  ∀ (s : State) (c : SymClass), s.isReady = true →
    ((s.pend.ops.arg0.toNat < 1 ∨ 1024 < s.pend.ops.arg0.toNat ∨
        s.pend.ops.srcLen.toNat < 4 * s.pend.ops.arg0.toNat) →
      exec .hbuild s = .next (s.complete .illegalCommand)) ∧
    ((s.tab.get c).n ≤ s.pend.ops.arg0.toNat →
      exec (.tenc c) s = .next (s.complete .illegalCommand) ∧
      exec (.tcost c) s = .next (s.complete .illegalCommand) ∧
      exec (.tread c) s = .next (s.complete .illegalCommand)) ∧
    (32 < s.pend.ops.arg0.toNat →
      exec .putbits s = .next (s.complete .illegalCommand) ∧ exec .getbits s = .next (s.complete .illegalCommand)) ∧
    ((s.pend.ops.arg0.toNat = 0 ∨ min s.win.total.toNat (2 ^ s.lcfg.dict) < s.pend.ops.arg0.toNat) →
      exec .wget s = .next (s.complete .illegalCommand)) ∧
    ((s.pend.ops.arg0.toNat < 3 ∨ 258 < s.pend.ops.arg0.toNat ∨
        s.pend.ops.srcLen.toNat < s.pend.ops.arg0.toNat ∨
        s.pend.ops.arg1.toNat = 0 ∨ 2 ^ s.lcfg.dict < s.pend.ops.arg1.toNat) →
      exec .cost s = .next (s.complete .illegalCommand))

/-- 20_memory.md R202, R203: a command that names a region past the end of host memory, and a COMPRESS, DECOMPRESS or
HBUILD whose non-empty regions share an address, gives RangeError and changes nothing else. -/
def Obligations.RegionChecks : Prop :=
  (∀ s : State, s.isReady = true → 0 < s.pend.ops.srcLen.toNat →
    2 ^ 32 < s.pend.ops.srcAddr.toNat + s.pend.ops.srcLen.toNat →
    exec .rsetup s = .next (s.complete .rangeError) ∧ exec .aupdate s = .next (s.complete .rangeError) ∧
    (s.isComp = true → exec .mfind s = .next (s.complete .rangeError)) ∧
    (3 ≤ s.pend.ops.arg0.toNat → s.pend.ops.arg0.toNat ≤ 258 → s.pend.ops.arg0.toNat ≤ s.pend.ops.srcLen.toNat →
      1 ≤ s.pend.ops.arg1.toNat → s.pend.ops.arg1.toNat ≤ 2 ^ s.lcfg.dict →
      exec .cost s = .next (s.complete .rangeError))) ∧
  (∀ s : State, s.isReady = true → 0 < s.pend.ops.dstCap.toNat →
    2 ^ 32 < s.pend.ops.dstAddr.toNat + s.pend.ops.dstCap.toNat →
    exec .wsetup s = .next (s.complete .rangeError)) ∧
  ∀ (s : State) (f : Bool),
    ((0 < s.pend.ops.srcLen.toNat ∧ 2 ^ 32 < s.pend.ops.srcAddr.toNat + s.pend.ops.srcLen.toNat) ∨
     (0 < s.pend.ops.dstCap.toNat ∧ 2 ^ 32 < s.pend.ops.dstAddr.toNat + s.pend.ops.dstCap.toNat) ∨
     ∃ a : Nat, s.pend.ops.srcAddr.toNat ≤ a ∧ a < s.pend.ops.srcAddr.toNat + s.pend.ops.srcLen.toNat ∧
       s.pend.ops.dstAddr.toNat ≤ a ∧ a < s.pend.ops.dstAddr.toNat + s.pend.ops.dstCap.toNat) →
    (s.mayCompress = true → exec (.compress f) s = .next (s.complete .rangeError)) ∧
    (s.mayDecompress = true → exec .decompress s = .next (s.complete .rangeError)) ∧
    (s.isReady = true → 1 ≤ s.pend.ops.arg0.toNat → s.pend.ops.arg0.toNat ≤ 1024 →
      4 * s.pend.ops.arg0.toNat ≤ s.pend.ops.srcLen.toNat → exec .hbuild s = .next (s.complete .rangeError))

/-- 40_command_model.md R407: a command that fails at the check steps 1 to 6 changes nothing but the report. The codes are
those only these steps give. -/
def Obligations.EarlyErrorsChangeOnlyTheReport : Prop :=
  ∀ s t : State, s.completion = .next t → earlyError t.err = true → t = s.complete t.err

/-- 40_command_model.md R411: a primitive command that fails, at whatever step, changes nothing but the report. -/
def Obligations.PrimitiveErrorsChangeOnlyTheReport : Prop :=
  ∀ (i : Instr) (s t : State), primitive i = true → exec i s = .next t → t.err ≠ .ok → t = s.complete t.err

/-- 60_exceptions.md R805: each command gives no other code than OK, UseAfterClose, InvalidState and those of its row. -/
def Obligations.ErrorsByCommand : Prop :=
  ∀ (i : Instr) (s t : State), exec i s = .next t →
    t.err ∈ ErrCode.ok :: .useAfterClose :: .invalidState :: furtherErrors i

/-! ## What the engine touches -/

/-- 20_memory.md R201, R208: in every state, whatever the command, every byte of host memory outside the destination region
of the command in flight is as it was. -/
def Obligations.EngineWritesOnlyDestination : Prop :=
  ∀ (i : Instr) (s t : State) (a : Nat), exec i s = .next t → (regionsOf i s).2.contains a = false →
    Mem.read a t.mem = Mem.read a s.mem

/-- 46_match_finder.md R606: the latched number of helper threads changes nothing but itself, whatever the command. -/
def Obligations.HelpersHaveNoEffect : Prop :=
  ∀ (i : Instr) (s : State) (h : Nat),
    mapNext (withHelpers 0) (exec i (withHelpers h s)) = mapNext (withHelpers 0) (exec i s)

/-! ## The register port and the host's memory -/

/-- 10_state.md R100, R101: the register block. Accesses of another shape are refused; each offset of R100 is its
register; reserved offsets read 0 and ignore writes; RO registers ignore writes; WO registers read 0; undefined bits ignore
writes and read 0. That they read 0 while busy too, in a register R921 leaves open, is DEDUCED (log 12). While BUSY = 0 the
RO registers and IRQ_PEND read what R103, R107, R136 to R139 and R141 to R146 say (STATUS: StatusFields). And an RW register
reads back the stored bits of what was written, a write to it changing what no other register reads (R106, R120 to R126,
R130 to R135). What a read returns stands in the model's field `rdata` (log 22). -/
def Obligations.RegisterPortRules : Prop :=
  (∀ (s : State) (bits : Nat) (offset : BitVec 8) (v : Word) (rest : List Event),
    ¬(bits = 32 ∧ offset.toNat % 4 = 0) →
    (s.inputs = .read bits offset :: rest → step s = .refused .registerAccessShape) ∧
    (s.inputs = .write bits offset v :: rest → step s = .refused .registerAccessShape)) ∧
  (∀ (s : State) (offset : BitVec 8) (v : Word) (rest : List Event), offset.toNat % 4 = 0 →
    (s.inputs = .read 32 offset :: rest → step s = .next (State.readOffset offset.toNat { s with inputs := rest })) ∧
    (s.inputs = .write 32 offset v :: rest →
      step s = .next (State.writeOffset offset.toNat v { s with inputs := rest }))) ∧
  (∀ (s : State) (offset : Nat) (r : Reg) (v : Word), (offset, r) ∈ registerMap →
    s.readOffset offset = s.readReg r ∧ s.writeOffset offset v = s.writeReg r v) ∧
  (∀ (s : State) (offset : Nat) (v : Word), (∀ r, (offset, r) ∉ registerMap) →
    s.readOffset offset = { s with rdata := 0 } ∧ s.writeOffset offset v = s) ∧
  (∀ (s : State) (r : Reg) (v : Word), r ∈ readOnlyRegs → s.writeReg r v = s) ∧
  (∀ s : State, s.readReg .cmd = { s with rdata := 0 } ∧ s.readReg .srst = { s with rdata := 0 }) ∧
  (∀ (s : State) (r : Reg), (s.readReg r).rdata.toNat < 2 ^ r.width) ∧
  (∀ s : State, Inv s → s.busy = false →
    s.readReg .id = { s with rdata := 0x505A0001 } ∧
    s.readReg .irqPend = { s with rdata := BitVec.ofNat 32 s.irqPend.toNat } ∧
    s.readReg .result = { s with rdata := s.result } ∧
    s.readReg .res0 = { s with rdata := s.res0 } ∧
    s.readReg .res1 = { s with rdata := s.res1 } ∧
    s.readReg .adler = { s with rdata := s.adler } ∧
    s.readReg .wcPos = { s with rdata := BitVec.ofNat 32 s.wc.pos } ∧
    s.readReg .wcNbits = { s with rdata := BitVec.ofNat 32 s.wc.nacc } ∧
    s.readReg .wcAcc = { s with rdata := BitVec.ofNat 32 s.wc.acc } ∧
    s.readReg .rcPos = { s with rdata := BitVec.ofNat 32 s.rc.pos } ∧
    s.readReg .rcBit = { s with rdata := BitVec.ofNat 32 s.rc.bit } ∧
    s.readReg .winTotalLo = { s with rdata := BitVec.ofNat 32 (s.win.total.toNat % 2 ^ 32) } ∧
    s.readReg .winTotalHi = { s with rdata := BitVec.ofNat 32 (s.win.total.toNat / 2 ^ 32) }) ∧
  (∀ (s : State) (r : Reg) (v v' : Word), r ∈ writableRegs ∨ r = .irqPend →
    v.toNat % 2 ^ r.width = v'.toNat % 2 ^ r.width → s.writeReg r v = s.writeReg r v') ∧
  ∀ (s : State) (r : Reg) (v : Word), r ∈ writableRegs →
    ((s.writeReg r v).readReg r).rdata = BitVec.ofNat 32 (v.toNat % 2 ^ r.width) ∧
    ∀ r' : Reg, r' ≠ r → (s.writeReg r v).regValue r' = s.regValue r'

/-- 10_state.md R105: each field of STATUS is the view of the state it names, and STATUS is 0 after reset. -/
def Obligations.StatusFields : Prop :=
  (∀ (s : State) (started done : Bool),
    (s.statusWith started done).extractLsb' 0 2 =
      BitVec.ofNat 2 (match s.ctx.state with
        | .uninit => 0
        | .ready => if s.busy then 2 else 1
        | .closed => 3) ∧
    (s.statusWith started done).extractLsb' 2 2 =
      BitVec.ofNat 2 (match s.ctx.role with
        | .none => 0
        | .comp => 1
        | .decomp => 2) ∧
    (s.statusWith started done).getLsbD 4 = s.busy ∧
    (s.statusWith started done).getLsbD 5 = s.irqPend.getLsbD 1 ∧
    (s.statusWith started done).getLsbD 6 = started ∧
    (s.statusWith started done).getLsbD 7 = done ∧
    (s.statusWith started done).extractLsb' 8 8 = BitVec.ofNat 8 s.err.code ∧
    (s.statusWith started done).extractLsb' 16 16 = 0) ∧
  (∀ s : State, s.busy = false →
    s.readReg .status = { s with rdata := s.statusWith s.ctx.started s.ctx.done }) ∧
  State.reset.status = 0

/-- 70_reset_and_hazards.md R921: what a read while busy gives: the registers' values, but for the registers whose value
is unspecified and for the STARTED and DONE bits of STATUS; no read changes anything else. The form of an unspecified value,
a fresh free value and a draw counted, is the model's choice (log 2, log 12). -/
def Obligations.ReadsWhileBusy : Prop :=
  ∀ (s : State) (r : Reg), s.busy = true →
    (r ∈ [.id, .irqEn, .irqPend, .cfgDictLog2, .cfgLevel, .cfgUpdateRate, .cfgMaxInterval, .cfgSlowRate, .cfgHelpers,
        .cfgDflags, .srcAddr, .srcLen, .dstAddr, .dstCap, .arg0, .arg1] → s.readReg r = { s with rdata := s.regValue r }) ∧
    (r = .status → ∃ started done,
      s.readReg r = { s with rdata := s.statusWith started done, draws := s.draws + 1 }) ∧
    (r ∈ [.result, .res0, .res1, .adler, .wcPos, .wcNbits, .wcAcc, .rcPos, .rcBit, .winTotalLo, .winTotalHi] →
      ∃ v, s.readReg r = { s with rdata := v, draws := s.draws + 1 })

/-- 10_state.md R107, R158; 70_reset_and_hazards.md R914: how IRQ_PEND is set and cleared, the race, and `irq`. That the race
is one event of the list is the model's form (log 16). -/
def Obligations.InterruptPending : Prop :=
  (∀ (i : Instr) (s t : State), exec i s = .next t → t.irqPend.getLsbD 0 = true) ∧
  (∀ (s : State) (w : Word), s.busy = true → (s.writeReg .cmd w).irqPend.getLsbD 1 = true) ∧
  (∀ (s : State) (v : Word) (k : Nat), k < 2 →
    (s.writeReg .irqPend v).irqPend.getLsbD k = (s.irqPend.getLsbD k && !v.getLsbD k)) ∧
  (∀ (s t : State) (v : Word) (rest : List Event), s.inputs = .clearAtCompletion v :: rest → s.busy = true →
    step s = .next t → t.irqPend.getLsbD 0 = true ∧ t.irqPend.getLsbD 1 = (s.irqPend.getLsbD 1 && !v.getLsbD 1)) ∧
  (∀ s : State, s.irq = ((s.irqEn.getLsbD 0 && s.irqPend.getLsbD 0) || (s.irqEn.getLsbD 1 && s.irqPend.getLsbD 1))) ∧
  State.reset.irqPend = 0

/-- 10_state.md R108, R160; 70_reset_and_hazards.md R902, R903: a write of SRST with bit 0 set puts the block in its reset
state, at once and whether or not a command is in flight; host memory is as it was, but for the destination bytes of an
aborted command; with bit 0 clear nothing happens. The machine starts in the reset state. That the bytes which may change are
those of the region the command names is log 14; that the reset has this outcome also when that command's region is one to
which R820 (c) or R822 gives no outcome is the model's choice, log 27. -/
def Obligations.SoftReset : Prop :=
  ResetValues State.reset ∧
  ∀ (s : State) (v : Word) (rest : List Event), s.inputs = .write 32 0x14#8 v :: rest →
    (v.getLsbD 0 = false → step s = .next { s with inputs := rest }) ∧
    (v.getLsbD 0 = true → ∃ t, step s = .next t ∧ ResetValues t ∧ t.plat = s.plat ∧ t.inputs = rest ∧
      (s.busy = false → t.mem = s.mem) ∧
      ∀ a, s.flightRegions.2.contains a = false → Mem.read a t.mem = Mem.read a s.mem)

/-- 20_memory.md R211 (c), (d); 70_reset_and_hazards.md R922; the model's choices are log 13 (which two values), log 15 (when a
write is refused), log 21 (the premise on the address), log 27 (a command in flight that will be refused) and log 25
(RALIGN in flight has no region, though R201 names the cursor's region for the bitstream primitives, so a host write there
is stored): a host read of a byte gives its value, or,
for a destination byte of the command in flight, that value or the one it has at completion; a host write stores its
byte, but into a region of the command in flight it is refused. -/
def Obligations.HostMemoryAccess : Prop :=
  (∀ (s : State) (a : Word) (rest : List Event), s.inputs = .memRead a :: rest →
    hostAccessRefusal s.plat a.toNat = none →
    ∃ t, step s = .next t ∧ t.mem = s.mem ∧
      ((s.busy = false ∨ s.flightRegions.2.contains a.toNat = false) → t.mdata = Mem.read a.toNat s.mem) ∧
      (t.mdata = Mem.read a.toNat s.mem ∨
        ∃ u, State.completion { s with inputs := rest } = .next u ∧ t.mdata = Mem.read a.toNat u.mem)) ∧
  ∀ (s : State) (a : Word) (b : Byte) (rest : List Event), s.inputs = .memWrite a b :: rest →
    hostAccessRefusal s.plat a.toNat = none →
    ((s.busy = true ∧ (s.flightRegions.1.contains a.toNat = true ∨ s.flightRegions.2.contains a.toNat = true)) →
      step s = .refused .hostWriteInFlight) ∧
    ((s.busy = false ∨ (s.flightRegions.1.contains a.toNat = false ∧ s.flightRegions.2.contains a.toNat = false)) →
      step s = .next { s with inputs := rest, mem := Mem.write a.toNat b s.mem })

/-! ## The invariant -/

/-- The invariant holds right after reset. It rests in part on the model's choices: empty memory (log 4), the named values of
the ring and the tables (log 5) and the platform's parameters (log 3). -/
def Obligations.InvAtReset : Prop :=
  Inv State.reset

/-- 10_state.md R151 to R155, 44_adaptive_codec.md R528, 49_context.md R700: whatever the event, a step keeps the
invariant: memory and the ring canonical, the cursors inside their legal regions, the context in a reachable combination, the
latched configuration in its ranges, the tables well shaped, and, unless the stream is done, sound. -/
def Obligations.StepKeepsInv : Prop :=
  ∀ s t : State, Inv s → step s = .next t → Inv t

/-! ## Context -/

/-- 49_context.md R701: how a command moves the context. -/
def Obligations.ContextTransitions : Prop :=
  ∀ (i : Instr) (s t : State), exec i s = .next t →
    (t.err ≠ .ok → t.ctx.state = s.ctx.state ∧ t.ctx.role = s.ctx.role) ∧
    (t.err = .ok →
      (i = .cinit → s.ctx.state = .uninit ∧ t.ctx = { state := .ready, role := .comp, started := false, done := false }) ∧
      (i = .dinit → s.ctx.state = .uninit ∧
        t.ctx = { state := .ready, role := .decomp, started := false, done := false }) ∧
      (i = .close → (s.ctx.state = .uninit ∨ s.ctx.state = .ready) ∧
        t.ctx = { state := .closed, role := .none, started := false, done := false }) ∧
      (i = .reinit → s.ctx.state = .ready ∧ t.ctx = { s.ctx with started := false, done := false }) ∧
      (i ≠ .cinit → i ≠ .dinit → i ≠ .close → t.ctx.state = s.ctx.state ∧ t.ctx.role = s.ctx.role))

/-- 49_context.md R710, R704, R714: CINIT in UNINIT. With every value in range the next state is READY as a compressor,
with the latched configuration, the four initial tables, an empty window, a fresh accumulator and cursors; otherwise it
is InvalidConfig. That the ring keeps its bytes is the model's choice (log 23): R574 leaves them unspecified. -/
def Obligations.CinitCompletes : Prop :=
  ∀ s : State, s.ctx.state = .uninit →
    (compConfigLegal s.plat s.pend.cfg →
      exec .cinit s = .next (State.complete .ok
        { s with
          ctx := { state := .ready, role := .comp, started := false, done := false }
          lcfg := { dict := s.pend.cfg.dictLog2.toNat, level := s.pend.cfg.level.toNat
                    rate := s.pend.cfg.updateRate.toNat, maxint := s.pend.cfg.maxInterval.toNat
                    slow := s.pend.cfg.slowRate.toNat, helpers := s.pend.cfg.helpers.toNat
                    adlerEn := false, unbuf := false }
          tab := initTabs { dict := s.pend.cfg.dictLog2.toNat, level := s.pend.cfg.level.toNat
                            rate := s.pend.cfg.updateRate.toNat, maxint := s.pend.cfg.maxInterval.toNat
                            slow := s.pend.cfg.slowRate.toNat, helpers := s.pend.cfg.helpers.toNat
                            adlerEn := false, unbuf := false }
          win := { ring := s.win.ring, total := 0 }
          adler := 0x00000001
          wc := { base := 0, cap := 0, pos := 0, acc := 0, nacc := 0 }
          rc := { base := 0, len := 0, pos := 0, bit := 0 } })) ∧
    (¬compConfigLegal s.plat s.pend.cfg → exec .cinit s = .next (s.complete .invalidConfig))

/-- 49_context.md R711, R704, R714: DINIT in UNINIT. CFG_LEVEL and CFG_HELPERS play no part. That the ring keeps its
bytes is the model's choice (log 23): R574 leaves them unspecified. -/
def Obligations.DinitCompletes : Prop :=
  ∀ s : State, s.ctx.state = .uninit →
    (sharedConfigLegal s.plat s.pend.cfg →
      exec .dinit s = .next (State.complete .ok
        { s with
          ctx := { state := .ready, role := .decomp, started := false, done := false }
          lcfg := { dict := s.pend.cfg.dictLog2.toNat, level := 0, rate := s.pend.cfg.updateRate.toNat
                    maxint := s.pend.cfg.maxInterval.toNat, slow := s.pend.cfg.slowRate.toNat, helpers := 0
                    adlerEn := s.pend.cfg.dflags.getLsbD 0, unbuf := s.pend.cfg.dflags.getLsbD 1 }
          tab := initTabs { dict := s.pend.cfg.dictLog2.toNat, level := 0, rate := s.pend.cfg.updateRate.toNat
                            maxint := s.pend.cfg.maxInterval.toNat, slow := s.pend.cfg.slowRate.toNat, helpers := 0
                            adlerEn := s.pend.cfg.dflags.getLsbD 0, unbuf := s.pend.cfg.dflags.getLsbD 1 }
          win := { ring := s.win.ring, total := 0 }
          adler := 0x00000001
          wc := { base := 0, cap := 0, pos := 0, acc := 0, nacc := 0 }
          rc := { base := 0, len := 0, pos := 0, bit := 0 } })) ∧
    (¬sharedConfigLegal s.plat s.pend.cfg → exec .dinit s = .next (s.complete .invalidConfig))

/-- 49_context.md R712, R714: REINIT in READY: a compressor keeps its configuration; a decompressor latches and checks it
again. That the ring keeps its bytes is the model's choice (log 23): R574 leaves them unspecified. -/
def Obligations.ReinitCompletes : Prop :=
  ∀ s : State, s.ctx.state = .ready →
    (s.ctx.role = .comp →
      exec .reinit s = .next (State.complete .ok
        { s with
          ctx := { state := .ready, role := .comp, started := false, done := false }
          tab := initTabs s.lcfg
          win := { ring := s.win.ring, total := 0 }
          adler := 0x00000001
          wc := { base := 0, cap := 0, pos := 0, acc := 0, nacc := 0 }
          rc := { base := 0, len := 0, pos := 0, bit := 0 } })) ∧
    (s.ctx.role = .decomp → sharedConfigLegal s.plat s.pend.cfg →
      exec .reinit s = .next (State.complete .ok
        { s with
          ctx := { state := .ready, role := .decomp, started := false, done := false }
          lcfg := { dict := s.pend.cfg.dictLog2.toNat, level := 0, rate := s.pend.cfg.updateRate.toNat
                    maxint := s.pend.cfg.maxInterval.toNat, slow := s.pend.cfg.slowRate.toNat, helpers := 0
                    adlerEn := s.pend.cfg.dflags.getLsbD 0, unbuf := s.pend.cfg.dflags.getLsbD 1 }
          tab := initTabs { dict := s.pend.cfg.dictLog2.toNat, level := 0, rate := s.pend.cfg.updateRate.toNat
                            maxint := s.pend.cfg.maxInterval.toNat, slow := s.pend.cfg.slowRate.toNat, helpers := 0
                            adlerEn := s.pend.cfg.dflags.getLsbD 0, unbuf := s.pend.cfg.dflags.getLsbD 1 }
          win := { ring := s.win.ring, total := 0 }
          adler := 0x00000001
          wc := { base := 0, cap := 0, pos := 0, acc := 0, nacc := 0 }
          rc := { base := 0, len := 0, pos := 0, bit := 0 } })) ∧
    (s.ctx.role = .decomp → ¬sharedConfigLegal s.plat s.pend.cfg →
      exec .reinit s = .next (s.complete .invalidConfig))

/-- 49_context.md R713: CLOSE in UNINIT or READY: the context is CLOSED; `lcfg`, `tab`, `win`, `wc` and `rc` take some value
(free values, the model's form of R713's 'unspecified': log 2, log 10); everything else is as it was. -/
def Obligations.CloseCompletes : Prop :=
  ∀ s : State, s.ctx.state = .uninit ∨ s.ctx.state = .ready →
    ∃ (lc : LCfg) (tb : Tabs) (wn : Win) (w : WCur) (r : RCur),
      exec .close s = .next (State.complete .ok
        { s with
          ctx := { state := .closed, role := .none, started := false, done := false }
          lcfg := lc, tab := tb, win := wn, wc := w, rc := r, draws := s.draws + 1 })

/-! ## Prefix codes -/

/-- 43_prefix_code.md R480, R481: for at most 1024 counts, no length exceeds 16, and the symbols of length 0 are exactly the
absent ones. -/
def Obligations.CodeLengthsBounded : Prop :=
  ∀ f : List Nat, f.length ≤ 1024 →
    (buildLengths f).1.length = f.length ∧ (∀ x ∈ (buildLengths f).1, x ≤ 16) ∧
    ∀ i < f.length, ((buildLengths f).1.getD i 0 = 0 ↔ f.getD i 0 = 0)

/-- 43_prefix_code.md R484 (a), (b): with two or more present symbols the lengths meet the Kraft equality and every string
of 16 bits begins with exactly one codeword; with one, its code is the single bit 0. -/
def Obligations.CodesAreComplete : Prop :=
  ∀ f : List Nat, f.length ≤ 1024 →
    (2 ≤ presentCount f →
      (((buildLengths f).1.filter (fun x => decide (0 < x))).map (fun x => 2 ^ (16 - x))).sum = 2 ^ 16 ∧
      ∀ bits : List Bool, bits.length = 16 →
        ∃! i, i < f.length ∧ 0 < f.getD i 0 ∧
          codeBits (buildLengths f).1 (canonical (buildLengths f).1) i <+: bits) ∧
    (presentCount f = 1 → ∀ i < f.length, 0 < f.getD i 0 →
      codeBits (buildLengths f).1 (canonical (buildLengths f).1) i = [false])

/-- 43_prefix_code.md R485, R486: the canonical codes of built lengths fit their lengths, rise with the symbol within one
length, and are prefix-free. -/
def Obligations.CanonicalCodesArePrefixFree : Prop :=
  ∀ (f : List Nat) (i j : Nat), f.length ≤ 1024 → i < f.length → j < f.length → 0 < f.getD i 0 → 0 < f.getD j 0 →
    (canonical (buildLengths f).1).getD i 0 < 2 ^ (buildLengths f).1.getD i 0 ∧
    ((buildLengths f).1.getD i 0 = (buildLengths f).1.getD j 0 → i < j →
      (canonical (buildLengths f).1).getD i 0 < (canonical (buildLengths f).1).getD j 0) ∧
    (i ≠ j → (buildLengths f).1.getD i 0 ≤ (buildLengths f).1.getD j 0 →
      (canonical (buildLengths f).1).getD j 0 >>> ((buildLengths f).1.getD j 0 - (buildLengths f).1.getD i 0) ≠
        (canonical (buildLengths f).1).getD i 0)

/-- 43_prefix_code.md R500, 20_memory.md R205 (a): HBUILD with operands in range over regions it may name, the frequencies
being the little-endian words of the source. With room the n records are stored, little-endian, every other byte of memory
is as it was, RESULT is 4n, RES0 the greatest length and RES1 the pass count; without room it is OutputBufferTooSmall,
whatever the bus rejects. Only the first 4n bytes of each region are accessed. -/
def Obligations.HbuildCompletes : Prop :=
  ∀ (s : State) (n : Nat) (freqs lens codes : List Nat) (passes : Nat), s.isReady = true → bothNameable s →
    n = s.pend.ops.arg0.toNat → 1 ≤ n → n ≤ 1024 → 4 * n ≤ s.pend.ops.srcLen.toNat → freqs.length = n →
    (∀ i < n, freqs.getD i 0 = (Mem.read (s.pend.ops.srcAddr.toNat + 4 * i) s.mem).toNat
      + 2 ^ 8 * (Mem.read (s.pend.ops.srcAddr.toNat + 4 * i + 1) s.mem).toNat
      + 2 ^ 16 * (Mem.read (s.pend.ops.srcAddr.toNat + 4 * i + 2) s.mem).toNat
      + 2 ^ 24 * (Mem.read (s.pend.ops.srcAddr.toNat + 4 * i + 3) s.mem).toNat) →
    (lens, passes) = buildLengths freqs → codes = canonical lens →
    (s.pend.ops.dstCap.toNat < 4 * n → exec .hbuild s = .next (s.complete .outputBufferTooSmall)) ∧
    (4 * n ≤ s.pend.ops.dstCap.toNat → s.mem.wf = true →
      busAllows s [⟨s.pend.ops.srcAddr.toNat, 4 * n⟩, ⟨s.pend.ops.dstAddr.toNat, 4 * n⟩] →
      ∃ t, exec .hbuild s = .next t ∧
      t = State.complete .ok
        { s with mem := t.mem, result := BitVec.ofNat 32 (4 * n), res0 := t.res0, res1 := BitVec.ofNat 32 passes } ∧
      (∀ i < n, Mem.readList (s.pend.ops.dstAddr.toNat + 4 * i) 4 t.mem =
        [BitVec.ofNat 8 (lens.getD i 0), 0, BitVec.ofNat 8 (codes.getD i 0 % 256),
          BitVec.ofNat 8 (codes.getD i 0 / 256)]) ∧
      (∀ a, (a < s.pend.ops.dstAddr.toNat ∨ s.pend.ops.dstAddr.toNat + 4 * n ≤ a) →
        Mem.read a t.mem = Mem.read a s.mem) ∧
      (∀ i < n, lens.getD i 0 ≤ t.res0.toNat) ∧ ∃ i < n, lens.getD i 0 = t.res0.toNat)

/-! ## Adaptive codec -/

/-- 44_adaptive_codec.md R550: the tables every initialisation starts from. -/
def Obligations.InitialTables : Prop :=
  ∀ lc : LCfg,
    (initTable lc 3).len = [2, 2, 1] ∧ (initTable lc 3).code = [0b10, 0b11, 0b0] ∧
    (initTable lc 256).len = List.replicate 256 8 ∧ (initTable lc 256).code = List.range 256 ∧
    (initTable lc 16).len = List.replicate 16 4 ∧ (initTable lc 16).code = List.range 16 ∧
    (initTable lc 40).len = List.replicate 16 6 ++ List.replicate 24 5 ∧
    (initTable lc 40).code = (List.range 16).map (fun s => 48 + s) ++ List.range 24 ∧
    (initTable lc 30).len = List.replicate 28 5 ++ List.replicate 2 4 ∧
    (initTable lc 30).code = (List.range 28).map (fun s => 4 + s) ++ [0, 1]

/-- 44_adaptive_codec.md R525 to R528: one coded symbol counts, a rebuild comes exactly when the countdown ends, decay and
the next interval are as R526 and R527 say, and a sound table stays sound with an interval that never shrinks. -/
def Obligations.UpdateFollowsTheSchedule : Prop :=
  ∀ (p : Config.Platform) (lc : LCfg) (n sym : Nat) (t : Table), LCfgOk p lc → TableSound lc n t → sym < n →
    n ≤ 256 →
    (2 ≤ t.countdown → t.update lc sym =
      { t with freq := t.freq.modify sym (fun x => x + 1), countdown := t.countdown - 1 }) ∧
    (t.countdown = 1 →
      (t.update lc sym).freq =
        (if 65536 < t.freq.sum + 1 then (t.freq.modify sym (fun x => x + 1)).map (fun x => max 1 (x / 2))
         else t.freq.modify sym (fun x => x + 1)) ∧
      (t.update lc sym).len = (buildLengths (t.update lc sym).freq).1 ∧
      (t.update lc sym).code = canonical (t.update lc sym).len ∧
      (t.update lc sym).interval = min lc.maxint (t.interval * lc.slow / 16) ∧
      (t.update lc sym).countdown = (t.update lc sym).interval) ∧
    t.interval ≤ (t.update lc sym).interval ∧
    TableSound lc n (t.update lc sym) ∧ t.freq.sum < 2 ^ 18

/-- 44_adaptive_codec.md R540, R521, R522: TRESET sets one table to its initial state and leaves the other three. -/
def Obligations.TresetCompletes : Prop :=
  ∀ (s : State) (c : SymClass), s.isReady = true → ∃ t, exec (.treset c) s = .next t ∧
    t = State.complete .ok { s with tab := t.tab } ∧
    (∀ d, d ≠ c → t.tab.get d = s.tab.get d) ∧
    (t.tab.get c).n = (s.tab.get c).n ∧
    (t.tab.get c).freq = List.replicate (s.tab.get c).n 1 ∧
    (t.tab.get c).len = (buildLengths (List.replicate (s.tab.get c).n 1)).1 ∧
    (t.tab.get c).code = canonical (t.tab.get c).len ∧
    (t.tab.get c).interval = min s.lcfg.maxint (4 * (21 - s.lcfg.rate)) ∧
    (t.tab.get c).countdown = min s.lcfg.maxint (4 * (21 - s.lcfg.rate))

/-- 44_adaptive_codec.md R541, R530: TENC appends the symbol's code to the bits written and updates its table alone;
without room it is OutputBufferTooSmall. -/
def Obligations.TencCompletes : Prop :=
  ∀ (s : State) (c : SymClass) (sym : Nat), s.isReady = true → WCurOk s.wc → s.mem.wf = true →
    sym = s.pend.ops.arg0.toNat → sym < (s.tab.get c).n →
    (s.wc.pos + (s.wc.nacc + (s.tab.get c).len.getD sym 0) / 8 ≤ s.wc.cap.toNat →
      cursorAllows s s.wcRegion (storedBytes ((s.tab.get c).len.getD sym 0) s.wc) → ∃ t, exec (.tenc c) s = .next t ∧
      t = State.complete .ok { s with wc := t.wc, mem := t.mem, tab := t.tab } ∧
      WroteBits (codeBits (s.tab.get c).len (s.tab.get c).code sym) s.wc s.mem t.wc t.mem ∧ WCurOk t.wc ∧
      (∀ d, d ≠ c → t.tab.get d = s.tab.get d) ∧ t.tab.get c = (s.tab.get c).update s.lcfg sym) ∧
    (s.wc.cap.toNat < s.wc.pos + (s.wc.nacc + (s.tab.get c).len.getD sym 0) / 8 →
      exec (.tenc c) s = .next (s.complete .outputBufferTooSmall))

/-- 44_adaptive_codec.md R542, R531; 43_prefix_code.md R490, R491: TDEC on a sound table inverts TENC: when the unread bits
begin with a symbol's code, whatever follows, RES0 is that symbol, exactly its code is consumed, and its table alone is
updated; with 16 unread bits some symbol is always decoded; and when the unread bits, some or none, end inside a symbol's code
it is TruncatedStream. -/
def Obligations.TdecInvertsTenc : Prop :=
  ∀ (s : State) (c : SymClass) (n : Nat), s.isReady = true → RCurOk s.rc →
    2 ≤ n → n ≤ 256 → TableSound s.lcfg n (s.tab.get c) →
    (∀ (sym : Nat) (rest : List Bool), sym < n →
      unreadBits s.rc s.mem = codeBits (s.tab.get c).len (s.tab.get c).code sym ++ rest →
      cursorAllows s s.rcRegion (readBytes ((s.tab.get c).len.getD sym 0) s.rc) →
      ∃ t, exec (.tdec c) s = .next t ∧
        t = State.complete .ok { s with
          res0 := BitVec.ofNat 32 sym, rc := advanceRead ((s.tab.get c).len.getD sym 0) s.rc, tab := t.tab } ∧
        (∀ d, d ≠ c → t.tab.get d = s.tab.get d) ∧ t.tab.get c = (s.tab.get c).update s.lcfg sym) ∧
    (16 ≤ (unreadBits s.rc s.mem).length → ∃ (sym : Nat) (rest : List Bool), sym < n ∧
      unreadBits s.rc s.mem = codeBits (s.tab.get c).len (s.tab.get c).code sym ++ rest) ∧
    ∀ (sym : Nat) (missing : List Bool), sym < n → missing ≠ [] →
      unreadBits s.rc s.mem ++ missing = codeBits (s.tab.get c).len (s.tab.get c).code sym →
      cursorAllows s s.rcRegion (readBytes (unreadBits s.rc s.mem).length s.rc) →
      exec (.tdec c) s = .next (s.complete .truncatedStream)

/-- 44_adaptive_codec.md R543 to R545: TCOST, TREAD and TSTAT read a table and change nothing else. -/
def Obligations.TableReadsComplete : Prop :=
  ∀ (s : State) (c : SymClass) (t : Table) (sym : Nat), s.isReady = true → t = s.tab.get c →
    sym = s.pend.ops.arg0.toNat →
    (sym < t.n →
      exec (.tcost c) s = .next (State.complete .ok { s with res0 := BitVec.ofNat 32 (t.len.getD sym 0) }) ∧
      exec (.tread c) s = .next (State.complete .ok
        { s with
          res0 := BitVec.ofNat 32 (t.freq.getD sym 0)
          res1 := BitVec.ofNat 32 ((t.len.getD sym 0 <<< 16) ||| t.code.getD sym 0) })) ∧
    exec (.tstat c) s = .next (State.complete .ok
      { s with
        result := BitVec.ofNat 32 t.n
        res0 := BitVec.ofNat 32 t.interval
        res1 := BitVec.ofNat 32 t.countdown })

/-! ## Bitstream -/

/-- 41_bitstream.md R445, R448: WSETUP and RSETUP with a legal region set up a cursor and change nothing else. -/
def Obligations.CursorSetupCompletes : Prop :=
  ∀ s : State, s.isReady = true →
    (s.pend.ops.dstAddr.toNat + s.pend.ops.dstCap.toNat ≤ 2 ^ 32 → sideEffectRefusal s.plat s.dstRegion = none →
      exec .wsetup s = .next (State.complete .ok
        { s with wc := { base := s.pend.ops.dstAddr, cap := s.pend.ops.dstCap, pos := 0, acc := 0, nacc := 0 } })) ∧
    (s.pend.ops.srcAddr.toNat + s.pend.ops.srcLen.toNat ≤ 2 ^ 32 → sideEffectRefusal s.plat s.srcRegion = none →
      exec .rsetup s = .next (State.complete .ok
        { s with rc := { base := s.pend.ops.srcAddr, len := s.pend.ops.srcLen, pos := 0, bit := 0 } }))

/-- 41_bitstream.md R446, R431, R432: PUTBITS of n at most 32 bits appends the n low bits of ARG1, most significant first,
and changes nothing else; without room it is OutputBufferTooSmall. -/
def Obligations.PutbitsAppends : Prop :=
  ∀ (s : State) (n : Nat), s.isReady = true → WCurOk s.wc → s.mem.wf = true →
    n = s.pend.ops.arg0.toNat → n ≤ 32 →
    (s.wc.pos + (s.wc.nacc + n) / 8 ≤ s.wc.cap.toNat → cursorAllows s s.wcRegion (storedBytes n s.wc) →
      ∃ t, exec .putbits s = .next t ∧
      t = State.complete .ok { s with wc := t.wc, mem := t.mem } ∧
      WroteBits (msbBits n s.pend.ops.arg1.toNat) s.wc s.mem t.wc t.mem ∧ WCurOk t.wc) ∧
    (s.wc.cap.toNat < s.wc.pos + (s.wc.nacc + n) / 8 → exec .putbits s = .next (s.complete .outputBufferTooSmall))

/-- 41_bitstream.md R447, R433: WFLUSH appends zero bits up to a byte boundary and RESULT is the number of bytes stored;
with a partial byte and no room it is OutputBufferTooSmall. -/
def Obligations.WflushPads : Prop :=
  ∀ s : State, s.isReady = true → WCurOk s.wc → s.mem.wf = true →
    ((s.wc.nacc = 0 ∨ s.wc.pos < s.wc.cap.toNat) →
      cursorAllows s s.wcRegion (storedBytes ((8 - s.wc.nacc) % 8) s.wc) → ∃ t, exec .wflush s = .next t ∧
      t = State.complete .ok { s with wc := t.wc, mem := t.mem, result := BitVec.ofNat 32 t.wc.pos } ∧
      WroteBits (List.replicate ((8 - s.wc.nacc) % 8) false) s.wc s.mem t.wc t.mem ∧ t.wc.nacc = 0) ∧
    ((s.wc.nacc ≠ 0 ∧ s.wc.pos = s.wc.cap.toNat) → exec .wflush s = .next (s.complete .outputBufferTooSmall))

/-- 41_bitstream.md R449, R440: GETBITS of n at most 32 gives the value of the next n unread bits and moves the cursor by
n bits; with fewer unread it is TruncatedStream. -/
def Obligations.GetbitsReads : Prop :=
  ∀ (s : State) (n : Nat), s.isReady = true → RCurOk s.rc → n = s.pend.ops.arg0.toNat → n ≤ 32 →
    (n ≤ (unreadBits s.rc s.mem).length → cursorAllows s s.rcRegion (readBytes n s.rc) →
      exec .getbits s = .next (State.complete .ok
        { s with res0 := BitVec.ofNat 32 (bitsValue ((unreadBits s.rc s.mem).take n)), rc := advanceRead n s.rc })) ∧
    ((unreadBits s.rc s.mem).length < n → exec .getbits s = .next (s.complete .truncatedStream))

/-- 41_bitstream.md R450, R441: RALIGN skips the bits up to the next byte boundary and RES0 is their number. -/
def Obligations.RalignSkips : Prop :=
  ∀ s : State, s.isReady = true → RCurOk s.rc →
    exec .ralign s = .next (State.complete .ok
      { s with res0 := BitVec.ofNat 32 ((8 - s.rc.bit) % 8), rc := advanceRead ((8 - s.rc.bit) % 8) s.rc }) ∧
    (advanceRead ((8 - s.rc.bit) % 8) s.rc).bit = 0

/-! ## Window and matches -/

/-- 45_window.md R575, R576, R571, R572: WPUT stores the low byte of ARG0 at the write position and counts it; WGET reads the
byte appended ARG0 appends ago. -/
def Obligations.WindowCommandsComplete : Prop :=
  ∀ s : State, s.isReady = true →
    exec .wput s = .next (State.complete .ok
      { s with win :=
        { ring := Mem.write (s.win.total.toNat % 2 ^ s.lcfg.dict) (s.pend.ops.arg0.setWidth 8) s.win.ring
          total := s.win.total + 1 } }) ∧
    (1 ≤ s.pend.ops.arg0.toNat → s.pend.ops.arg0.toNat ≤ min s.win.total.toNat (2 ^ s.lcfg.dict) →
      exec .wget s = .next (State.complete .ok
        { s with res0 := BitVec.setWidth 32 (Mem.read
          ((s.win.total.toNat - s.pend.ops.arg0.toNat) % 2 ^ s.lcfg.dict) s.win.ring) }))

/-- 45_window.md R571 to R573: after a list of appends the byte at distance d is the one appended d appends ago, in the list
or before it, for every distance within the ring. -/
def Obligations.WindowReadsBack : Prop :=
  ∀ (w : Nat) (v : Win) (bytes : List Byte) (d : Nat), 0 < w → v.ring.wf = true →
    v.total.toNat + bytes.length < 2 ^ 64 → 1 ≤ d → d ≤ w →
    (d ≤ bytes.length → (v.appendList w bytes).wread w d = bytes.getD (bytes.length - d) 0) ∧
    (bytes.length < d → d ≤ v.total.toNat + bytes.length →
      (v.appendList w bytes).wread w d = v.wread w (d - bytes.length))

/-- 46_match_finder.md R600, R591, R593: MFIND gives the best of the examined candidates for the lookahead, nothing else
changed. -/
def Obligations.MfindGivesTheBestMatch : Prop :=
  ∀ s : State, s.isComp = true → nameable s s.srcRegion →
    busAllows s [⟨s.pend.ops.srcAddr.toNat, min s.pend.ops.srcLen.toNat 258⟩] → ∃ l d : Nat,
    exec .mfind s = .next (State.complete .ok { s with res0 := BitVec.ofNat 32 l, res1 := BitVec.ofNat 32 d }) ∧
    l ≤ 258 ∧ d ≤ min s.win.total.toNat (2 ^ s.lcfg.dict) ∧
    bestMatch s.lcfg.level (min s.win.total.toNat (2 ^ s.lcfg.dict)) (fun e => s.win.wread (2 ^ s.lcfg.dict) e)
      (Mem.readList s.pend.ops.srcAddr.toNat s.pend.ops.srcLen.toNat s.mem) l d

/-! ## Parser -/

/-- 47_parser_compress.md R630, R620, R621: COST gives the two costs, and 1 when the match is not dearer. -/
def Obligations.CostCompletes : Prop :=
  ∀ (s : State) (l d cm cl : Nat), s.isReady = true → l = s.pend.ops.arg0.toNat → d = s.pend.ops.arg1.toNat →
    3 ≤ l → l ≤ 258 → l ≤ s.pend.ops.srcLen.toNat → 1 ≤ d → d ≤ 2 ^ s.lcfg.dict → nameable s s.srcRegion →
    busAllows s [⟨s.pend.ops.srcAddr.toNat, l⟩] →
    cm = s.tab.typ.len.getD 1 0 + s.tab.len.len.getD (bucket (l - 3)).1 0 + (bucket (l - 3)).2.1 +
      s.tab.dist.len.getD (bucket (d - 1)).1 0 + (bucket (d - 1)).2.1 →
    cl = ((Mem.readList s.pend.ops.srcAddr.toNat l s.mem).map
      (fun b => s.tab.typ.len.getD 0 0 + s.tab.lit.len.getD b.toNat 0)).sum →
    exec .cost s = .next (State.complete .ok
      { s with
        res0 := BitVec.ofNat 32 cm, res1 := BitVec.ofNat 32 cl, result := if cm ≤ cl then 1 else 0 })

/-- 47_parser_compress.md R640 (output size bound): in every state that meets the invariant, COMPRESS with a destination of
`14 + ceil(9 * SRC_LEN / 4)` bytes succeeds. -/
def Obligations.CompressFitsItsBound : Prop :=
  ∀ (s : State) (final : Bool), Inv s → s.mayCompress = true → bothNameable s →
    busAllows s [s.srcRegion, ⟨s.pend.ops.dstAddr.toNat, 14 + (9 * s.pend.ops.srcLen.toNat + 3) / 4⟩] →
    14 + (9 * s.pend.ops.srcLen.toNat + 3) / 4 ≤ s.pend.ops.dstCap.toNat →
    ∃ t, exec (.compress final) s = .next t ∧ t.err = .ok

/-- 47_parser_compress.md R640, R628; 30_encoding.md R330, R332, R336, R341: what a successful COMPRESS leaves: the flags, the
chunk in the window behind the older bytes and in the accumulator, RESULT the bytes stored, and nothing else changed. The
bits written are the pending ones or, at the first chunk, the header, then the codes of some tokens that stand for the chunk,
and with FINAL the end-of-stream token, zero padding and the trailer; the tables are those that coding these tokens leaves.
Which tokens the parser picks is not said here. -/
def Obligations.CompressChunkEffects : Prop :=
  ∀ (s t : State) (final : Bool) (chunk older : List Byte) (start : List Bool), Inv s →
    exec (.compress final) s = .next t → t.err = .ok →
    chunk = Mem.readList s.pend.ops.srcAddr.toNat s.pend.ops.srcLen.toNat s.mem →
    older = (if s.ctx.started then windowBytes (2 ^ s.lcfg.dict) s.win else []) →
    start = (if s.ctx.started then msbBits s.wc.nacc s.wc.acc else bytesBits
      [0x50, 0x5A, 0x01, BitVec.ofNat 8 s.lcfg.dict, BitVec.ofNat 8 s.lcfg.rate,
        BitVec.ofNat 8 (s.lcfg.maxint / 256), BitVec.ofNat 8 (s.lcfg.maxint % 256), BitVec.ofNat 8 s.lcfg.slow]) →
    (s.ctx.started = true → s.win.total.toNat + chunk.length < 2 ^ 64) →
    t = State.complete .ok
      { s with
        ctx := { s.ctx with started := true, done := final }
        adler := adlerUpdate (if s.ctx.started then s.adler else 0x00000001) chunk
        result := BitVec.ofNat 32 t.wc.pos
        win := t.win, wc := t.wc, tab := t.tab, mem := t.mem } ∧
    t.wc.base = s.pend.ops.dstAddr ∧ t.wc.cap = s.pend.ops.dstCap ∧ t.wc.pos ≤ s.pend.ops.dstCap.toNat ∧
    t.win.total.toNat = (if s.ctx.started then s.win.total.toNat else 0) + chunk.length ∧
    (∀ d, 1 ≤ d → d ≤ 2 ^ s.lcfg.dict → d ≤ older.length + chunk.length →
      t.win.wread (2 ^ s.lcfg.dict) d = (older ++ chunk).getD (older.length + chunk.length - d) 0) ∧
    (∃ (toks : List Token) (p : List Bool × Tabs), expandTokens s.lcfg.dict toks older = some (older ++ chunk) ∧
      p = codeTokens s.lcfg toks (start, s.tab) ∧
      (final = false → writtenBits t.wc t.mem = p.1 ∧ t.tab = p.2) ∧
      (final = true → t.wc.nacc = 0 ∧ t.tab = (codeEos s.lcfg p).2 ∧
        writtenBits t.wc t.mem =
          (codeEos s.lcfg p).1 ++ padding (codeEos s.lcfg p).1 ++ msbBits 32 t.adler.toNat)) ∧
    ∀ a, (a < s.pend.ops.dstAddr.toNat ∨ s.pend.ops.dstAddr.toNat + t.wc.pos ≤ a) →
      Mem.read a t.mem = Mem.read a s.mem

/-- 47_parser_compress.md R642: a COMPRESS that runs out of room breaks the stream, and changes nothing but RESULT, the
destination bytes, `tab`, `win`, `wc` and `adler`, which take some value. -/
def Obligations.CompressErrorState : Prop :=
  ∀ (s t : State) (final : Bool), exec (.compress final) s = .next t → t.err = .outputBufferTooSmall →
    t = State.complete .outputBufferTooSmall
      { s with
        ctx := { s.ctx with started := true, done := true }
        result := t.result, mem := t.mem, tab := t.tab, win := t.win, wc := t.wc, adler := t.adler
        draws := t.draws } ∧
    ∀ a, (a < s.pend.ops.dstAddr.toNat ∨ s.pend.ops.dstAddr.toNat + s.pend.ops.dstCap.toNat ≤ a) →
      Mem.read a t.mem = Mem.read a s.mem

/-- 47_parser_compress.md R643 (reinit independence), 45_window.md R574: at the start of a stream, the ring's old bytes, the
accumulator, the cursors and the result registers have no influence: two compressors with the same configuration, tables, latch, memory
and platform store the same bytes. -/
def Obligations.StreamStartForgetsThePast : Prop :=
  ∀ (s s' t : State) (final : Bool), s.mayCompress = true → s'.mayCompress = true → s.ctx.started = false →
    s'.ctx.started = false → s'.lcfg = s.lcfg → s'.tab = s.tab → s'.pend = s.pend → s'.mem = s.mem →
    s'.plat = s.plat → s.win.ring.wf = true → s'.win.ring.wf = true →
    exec (.compress final) s = .next t → t.err = .ok →
    ∃ t', exec (.compress final) s' = .next t' ∧ t'.err = .ok ∧ t'.mem = t.mem ∧ t'.result = t.result ∧
      t'.adler = t.adler ∧ t'.tab = t.tab ∧ t'.wc = t.wc ∧ t'.win.total = t.win.total

/-! ## Decompressor -/

/-- 48_decompress.md R660 (example): the 13-byte stream of no data decodes, in both output modes, to nothing. That the ring
keeps its bytes is the model's choice (log 23): R574 leaves them unspecified. -/
def Obligations.DecompressEmptyStream : Prop :=
  ∀ s : State, Inv s → s.mayDecompress = true → atStreamStart s → bothNameable s →
    busAllows s [s.srcRegion] → s.pend.ops.srcLen = 13 →
    Mem.readList s.pend.ops.srcAddr.toNat 13 s.mem =
      [0x50, 0x5A, 0x01, BitVec.ofNat 8 s.lcfg.dict, BitVec.ofNat 8 s.lcfg.rate,
        BitVec.ofNat 8 (s.lcfg.maxint / 256), BitVec.ofNat 8 (s.lcfg.maxint % 256), BitVec.ofNat 8 s.lcfg.slow,
        0x00, 0x00, 0x00, 0x00, 0x01] →
    ∃ t, exec .decompress s = .next t ∧
      t = State.complete .ok
        { s with
          ctx := { s.ctx with started := true, done := true }
          rc := { base := s.pend.ops.srcAddr, len := 13, pos := 13, bit := 0 }
          win := { ring := s.win.ring, total := 0 }
          adler := 0x00000001, result := 0, res0 := 13, tab := t.tab } ∧
      t.tab.typ = s.tab.typ.update s.lcfg 2 ∧ t.tab.lit = s.tab.lit ∧ t.tab.len = s.tab.len ∧ t.tab.dist = s.tab.dist

/-- 48_decompress.md R671, R670, R662, R668, R669: what a successful DECOMPRESS leaves: the output in the destination and in
the window, RESULT its length, RES0 = SRC_LEN, and no byte at or above RESULT changed. Between the header and the trailer the
source holds exactly the codes of some tokens that stand for the output, the end-of-stream token and zero padding; the tables
are those that coding these tokens leaves; and the trailer is the checksum of the output when it is checked. -/
def Obligations.DecompressSuccess : Prop :=
  ∀ (s t : State) (out : List Byte), Inv s → exec .decompress s = .next t → t.err = .ok →
    out = Mem.readList s.pend.ops.dstAddr.toNat t.result.toNat t.mem →
    t = State.complete .ok
      { s with
        ctx := { s.ctx with started := true, done := true }
        res0 := s.pend.ops.srcLen, result := t.result
        adler := if s.lcfg.adlerEn then adlerUpdate 0x00000001 out else 0x00000001
        rc := { base := s.pend.ops.srcAddr, len := s.pend.ops.srcLen, pos := s.pend.ops.srcLen.toNat, bit := 0 }
        tab := t.tab, win := t.win, mem := t.mem } ∧
    t.result.toNat ≤ s.pend.ops.dstCap.toNat ∧ 13 ≤ s.pend.ops.srcLen.toNat ∧
    Mem.readList s.pend.ops.srcAddr.toNat 8 s.mem =
      [0x50, 0x5A, 0x01, BitVec.ofNat 8 s.lcfg.dict, BitVec.ofNat 8 s.lcfg.rate,
        BitVec.ofNat 8 (s.lcfg.maxint / 256), BitVec.ofNat 8 (s.lcfg.maxint % 256), BitVec.ofNat 8 s.lcfg.slow] ∧
    (∃ (toks : List Token) (q : List Bool × Tabs), expandTokens s.lcfg.dict toks [] = some out ∧
      q = codeEos s.lcfg (codeTokens s.lcfg toks ([], s.tab)) ∧ t.tab = q.2 ∧
      bytesBits (Mem.readList (s.pend.ops.srcAddr.toNat + 8) (s.pend.ops.srcLen.toNat - 12) s.mem) = q.1 ++ padding q.1) ∧
    (s.lcfg.adlerEn = true →
      beValue (Mem.readList (s.pend.ops.srcAddr.toNat + (s.pend.ops.srcLen.toNat - 4)) 4 s.mem) = t.adler.toNat) ∧
    t.win.total.toNat = out.length ∧
    (∀ d, 1 ≤ d → d ≤ out.length → d ≤ 2 ^ s.lcfg.dict →
      t.win.wread (2 ^ s.lcfg.dict) d = out.getD (out.length - d) 0) ∧
    ∀ a, (a < s.pend.ops.dstAddr.toNat ∨ s.pend.ops.dstAddr.toNat + t.result.toNat ≤ a) →
      Mem.read a t.mem = Mem.read a s.mem

/-- 48_decompress.md R662, R672, R661: a source shorter than a header is TruncatedStream and another header CorruptStream, with
RESULT 0 and no byte stored; any error of the decoding ends the stream, RESULT is at most DST_CAP, buffered mode stores no
byte and unbuffered mode only the bytes below RESULT; beyond RES0, `rc`, `tab`, `win` and `adler`, which take some value, nothing
else changes. -/
def Obligations.DecompressErrorState : Prop :=
  (∀ s : State, s.mayDecompress = true → bothNameable s →
    (s.pend.ops.srcLen.toNat < 8 → ∃ t, exec .decompress s = .next t ∧ t.err = .truncatedStream ∧ t.result = 0 ∧
      t.mem = s.mem) ∧
    (8 ≤ s.pend.ops.srcLen.toNat → busAllows s [⟨s.pend.ops.srcAddr.toNat, 8⟩] →
      Mem.readList s.pend.ops.srcAddr.toNat 8 s.mem ≠
        [0x50, 0x5A, 0x01, BitVec.ofNat 8 s.lcfg.dict, BitVec.ofNat 8 s.lcfg.rate,
          BitVec.ofNat 8 (s.lcfg.maxint / 256), BitVec.ofNat 8 (s.lcfg.maxint % 256), BitVec.ofNat 8 s.lcfg.slow] →
      ∃ t, exec .decompress s = .next t ∧ t.err = .corruptStream ∧ t.result = 0 ∧ t.mem = s.mem)) ∧
  ∀ s t : State, exec .decompress s = .next t →
    t.err ∈ [ErrCode.truncatedStream, .corruptStream, .outputBufferTooSmall, .checksumMismatch] →
    t = State.complete t.err
      { s with
        ctx := { s.ctx with started := true, done := true }
        result := t.result, mem := t.mem, res0 := t.res0, rc := t.rc, tab := t.tab, win := t.win, adler := t.adler
        draws := t.draws } ∧
    t.result.toNat ≤ s.pend.ops.dstCap.toNat ∧ (s.lcfg.unbuf = false → t.mem = s.mem) ∧
    ∀ a, (a < s.pend.ops.dstAddr.toNat ∨ s.pend.ops.dstAddr.toNat + t.result.toNat ≤ a) →
      Mem.read a t.mem = Mem.read a s.mem

/-- 47_parser_compress.md R641, R643 (round trip): what a compressor at the start of a stream makes of an input in one or
more chunks, the last with FINAL, a decompressor at the start of a stream with the same dict, rate, maxint and slow and a
destination of at least the input's length decodes to exactly the input with ERR = OK, at whatever level, in both output
modes, and whatever the chunk boundaries; its tables and its count of bytes are then the compressor's. -/
def Obligations.RoundTrip : Prop :=
  ∀ (c : State) (rest : List State) (input stream : List Byte) (tc d : State),
    compressesTo c rest input stream tc → atStreamStart c → Inv d → atStreamStart d → sameFormat c.lcfg d.lcfg →
    d.mayDecompress = true → bothNameable d → d.pend.ops.srcLen.toNat = stream.length → chunkOf d = stream →
    input.length ≤ d.pend.ops.dstCap.toNat →
    busAllows d [d.srcRegion, ⟨d.pend.ops.dstAddr.toNat, input.length⟩] →
    ∃ td, exec .decompress d = .next td ∧ td.err = .ok ∧ td.result.toNat = input.length ∧
      Mem.readList d.pend.ops.dstAddr.toNat input.length td.mem = input ∧
      td.tab = tc.tab ∧ td.win.total = tc.win.total

/-! ## Checksum -/

/-- 42_checksum.md R470, R471, R460: AINIT and AUPDATE write ADLER and nothing else. -/
def Obligations.ChecksumCommandsComplete : Prop :=
  ∀ s : State, s.isReady = true →
    exec .ainit s = .next (State.complete .ok { s with adler := 0x00000001 }) ∧
    (nameable s s.srcRegion → busAllows s [s.srcRegion] →
      ∀ bytes, bytes = Mem.readList s.pend.ops.srcAddr.toNat s.pend.ops.srcLen.toNat s.mem →
        exec .aupdate s = .next (State.complete .ok { s with adler := adlerUpdate s.adler bytes }))

/-- 42_checksum.md R460, R461: folding in two lists one after the other is folding in both; the two halves are the sums of
R460 and stay below 65521. -/
def Obligations.AdlerFolds : Prop :=
  (∀ v : Word, adlerUpdate v [] = v) ∧
  (∀ (v : Word) (s t : List Byte), adlerUpdate (adlerUpdate v s) t = adlerUpdate v (s ++ t)) ∧
  (∀ (v : Word) (b : Byte),
    (adlerUpdate v [b]).extractLsb' 0 16 = BitVec.ofNat 16 ((v.toNat % 65536 + b.toNat) % 65521) ∧
    (adlerUpdate v [b]).extractLsb' 16 16 =
      BitVec.ofNat 16 ((v.toNat / 65536 + (v.toNat % 65536 + b.toNat) % 65521) % 65521)) ∧
  ∀ (v : Word) (s : List Byte), v.toNat % 65536 < 65521 → v.toNat / 65536 < 65521 →
    (adlerUpdate v s).toNat % 65536 < 65521 ∧ (adlerUpdate v s).toNat / 65536 < 65521

/-! ## Value bucketing -/

/-- 30_encoding.md R342: bucketing and unbucketing are inverse, and each symbol covers the stated interval. -/
def Obligations.BucketsAreInverse : Prop :=
  (∀ v : Nat, unbucket (bucket v).1 (bucket v).2.2 = v ∧ (bucket v).2.1 = nextra (bucket v).1 ∧
    (bucket v).2.2 < 2 ^ (bucket v).2.1) ∧
  (∀ sym x : Nat, x < 2 ^ nextra sym → bucket (unbucket sym x) = (sym, nextra sym, x)) ∧
  (∀ v k : Nat, 2 ≤ k →
    ((bucket v).1 = 2 * k ↔ 2 ^ k ≤ v ∧ v < 3 * 2 ^ (k - 1)) ∧
    ((bucket v).1 = 2 * k + 1 ↔ 3 * 2 ^ (k - 1) ≤ v ∧ v < 2 ^ (k + 1))) ∧
  ∀ v k : Nat, 1 ≤ k → v < 2 ^ k → (bucket v).1 < 2 * k
end

