-- ==== Sys2Proof/Laws/Memory.lean ====
section
/-!
SUPPORT. Laws/Memory.lean: the laws of a byte store: a read after a write, writes elsewhere, and that every operation keeps
the canonical form. Reads elsewhere need no premise; a read of what was written needs the canonical form.
-/

namespace Sys2Proof.Machine

@[simp] theorem Mem.read_nil (a : Nat) : Mem.read a [] = 0#8 := rfl

theorem Mem.read_cons (a : Nat) (c : Host.Cell) (m : Mem) :
    Mem.read a (c :: m) = if a = c.1 then c.2 else Mem.read a m := rfl

/-- A write leaves every other byte alone. -/
theorem Mem.read_write_other {a c : Nat} (b : Byte) (m : Mem) (h : c ≠ a) :
    Mem.read c (Mem.write a b m) = Mem.read c m := by
  induction m with
  | nil => by_cases hb : b = 0#8 <;> simp [Mem.write, Mem.read_cons, hb, h]
  | cons x m ih =>
    simp only [Mem.write]
    split
    · split <;> simp [Mem.read_cons, h]
    · split
      · rename_i h1
        subst h1
        split <;> simp [Mem.read_cons, h]
      · simp [Mem.read_cons, ih]

/-- The tail of a canonical memory is canonical. -/
theorem Mem.wf_tail {c : Host.Cell} {m : Mem} (h : Mem.wf (c :: m) = true) : Mem.wf m = true := by
  cases m with
  | nil => rfl
  | cons d m => simp only [Mem.wf, Bool.and_eq_true] at h; exact h.2

/-- The head byte of a canonical memory is not 0x00. -/
theorem Mem.wf_head_ne {c : Host.Cell} {m : Mem} (h : Mem.wf (c :: m) = true) : c.2 ≠ 0#8 := by
  cases m with
  | nil => simpa [Mem.wf] using h
  | cons d m => simp only [Mem.wf, Bool.and_eq_true] at h; simpa using h.1.2

/-- In a canonical memory every later address is above the head's. -/
theorem Mem.wf_head_lt {c : Host.Cell} {m : Mem} (h : Mem.wf (c :: m) = true) : ∀ d ∈ m, c.1 < d.1 := by
  induction m generalizing c with
  | nil => intro d hd; cases hd
  | cons e m ih =>
    intro d hd
    have h1 : c.1 < e.1 := by simp only [Mem.wf, Bool.and_eq_true] at h; simpa using h.1.1
    rcases List.mem_cons.mp hd with rfl | hd
    · exact h1
    · exact Nat.lt_trans h1 (ih (Mem.wf_tail h) d hd)

/-- A memory is canonical when its head is not 0x00, below every later address, and its tail is canonical. -/
theorem Mem.wf_cons {c : Host.Cell} {m : Mem} (h0 : c.2 ≠ 0#8) (h1 : ∀ d ∈ m, c.1 < d.1) (h2 : Mem.wf m = true) :
    Mem.wf (c :: m) = true := by
  cases m with
  | nil => simpa [Mem.wf] using h0
  | cons d m =>
    simp only [Mem.wf, Bool.and_eq_true, decide_eq_true_eq]
    exact ⟨⟨h1 d (List.mem_cons_self ..), by simpa using h0⟩, h2⟩

/-- An address that is listed nowhere reads 0x00. -/
theorem Mem.read_unlisted {a : Nat} {m : Mem} (h : ∀ c ∈ m, c.1 ≠ a) : Mem.read a m = 0#8 := by
  induction m with
  | nil => rfl
  | cons c m ih =>
    have h1 : a ≠ c.1 := fun e => h c (List.mem_cons_self ..) e.symm
    rw [Mem.read_cons, if_neg h1]
    exact ih fun d hd => h d (List.mem_cons_of_mem _ hd)

/-- A read after a write to the same address gives the byte written. -/
theorem Mem.read_write_same (a : Nat) (b : Byte) {m : Mem} (h : m.wf = true) :
    Mem.read a (Mem.write a b m) = b := by
  induction m with
  | nil => by_cases hb : b = 0#8 <;> simp [Mem.write, Mem.read_cons, hb]
  | cons c m ih =>
    have hlt := Mem.wf_head_lt h
    simp only [Mem.write]
    split
    · rename_i h1
      split
      · rename_i hb
        rw [hb]
        refine Mem.read_unlisted fun d hd => ?_
        rcases List.mem_cons.mp hd with rfl | hd
        · omega
        · have := hlt d hd; omega
      · simp [Mem.read_cons]
    · split
      · rename_i h1
        split
        · rename_i hb
          rw [hb]
          refine Mem.read_unlisted fun d hd => ?_
          have := hlt d hd
          omega
        · simp [Mem.read_cons]
      · rename_i h1 h2
        rw [Mem.read_cons, if_neg h2]
        exact ih (Mem.wf_tail h)

/-- The addresses a write lists are the old ones and its own. -/
theorem Mem.mem_write {a : Nat} {b : Byte} {m : Mem} {d : Host.Cell} (h : d ∈ Mem.write a b m) :
    d = (a, b) ∨ d ∈ m := by
  induction m with
  | nil =>
    simp only [Mem.write] at h
    split at h
    · cases h
    · exact .inl (List.mem_singleton.mp h)
  | cons c m ih =>
    simp only [Mem.write] at h
    split at h
    · split at h
      · exact .inr h
      · rcases List.mem_cons.mp h with rfl | h
        · exact .inl rfl
        · exact .inr h
    · split at h
      · split at h
        · exact .inr (List.mem_cons_of_mem _ h)
        · rcases List.mem_cons.mp h with rfl | h
          · exact .inl rfl
          · exact .inr (List.mem_cons_of_mem _ h)
      · rcases List.mem_cons.mp h with rfl | h
        · exact .inr (List.mem_cons_self ..)
        · rcases ih h with h | h
          · exact .inl h
          · exact .inr (List.mem_cons_of_mem _ h)

/-- A write keeps the canonical form. -/
theorem Mem.write_wf (a : Nat) (b : Byte) {m : Mem} (h : m.wf = true) : (Mem.write a b m).wf = true := by
  induction m with
  | nil => by_cases hb : b = 0#8 <;> simp [Mem.write, Mem.wf, hb]
  | cons c m ih =>
    have hlt := Mem.wf_head_lt h
    have hne := Mem.wf_head_ne h
    have ht := Mem.wf_tail h
    simp only [Mem.write]
    split
    · rename_i h1
      split
      · exact h
      · rename_i hb
        refine Mem.wf_cons hb (fun d hd => ?_) h
        rcases List.mem_cons.mp hd with rfl | hd
        · exact h1
        · exact Nat.lt_trans h1 (hlt d hd)
    · split
      · rename_i h1
        split
        · exact ht
        · rename_i hb
          exact Mem.wf_cons hb (fun d hd => by simpa [h1] using hlt d hd) ht
      · rename_i h1 h2
        refine Mem.wf_cons hne (fun d hd => ?_) (ih ht)
        rcases Mem.mem_write hd with rfl | hd
        · show c.1 < a
          omega
        · exact hlt d hd

/-- A write below a bound keeps the bound. -/
theorem Mem.write_below {n a : Nat} (b : Byte) {m : Mem} (ha : a < n) (h : Mem.below n m = true) :
    Mem.below n (Mem.write a b m) = true := by
  simp only [Mem.below, List.all_eq_true, decide_eq_true_eq] at *
  intro d hd
  rcases Mem.mem_write hd with rfl | hd
  · exact ha
  · exact h d hd

/-! ## Lists of bytes -/

@[simp] theorem Mem.length_readList (a n : Nat) (m : Mem) : (Mem.readList a n m).length = n := by
  simp [Mem.readList]

/-- `MemRead` gives at index i the byte at `a + i` (20_memory.md R204). -/
theorem Mem.readList_getElem (a n i : Nat) (m : Mem) (h : i < (Mem.readList a n m).length) :
    (Mem.readList a n m)[i] = Mem.read (a + i) m := by
  simp [Mem.readList]

/-- Two memories that read alike over a range give the same list. -/
theorem Mem.readList_congr {a n : Nat} {m m' : Mem} (h : ∀ i, i < n → Mem.read (a + i) m = Mem.read (a + i) m') :
    Mem.readList a n m = Mem.readList a n m' := by
  refine List.map_congr_left fun i hi => h i (List.mem_range.mp hi)

/-- `MemWrite` leaves every byte outside its range alone. -/
theorem Mem.read_writeList_other {c : Nat} (bs : List Byte) (a : Nat) (m : Mem)
    (h : c < a ∨ a + bs.length ≤ c) : Mem.read c (Mem.writeList a bs m) = Mem.read c m := by
  induction bs generalizing a m with
  | nil => rfl
  | cons b bs ih =>
    simp only [List.length_cons] at h
    rw [Mem.writeList, ih (a + 1) _ (by omega), Mem.read_write_other _ _ (by omega)]

/-- `MemWrite` keeps the canonical form. -/
theorem Mem.writeList_wf (bs : List Byte) (a : Nat) {m : Mem} (h : m.wf = true) :
    (Mem.writeList a bs m).wf = true := by
  induction bs generalizing a m with
  | nil => exact h
  | cons b bs ih => exact ih (a + 1) (Mem.write_wf a b h)

/-- `MemWrite` inside a bound keeps the bound. -/
theorem Mem.writeList_below {n : Nat} (bs : List Byte) (a : Nat) {m : Mem} (ha : a + bs.length ≤ n)
    (h : Mem.below n m = true) : Mem.below n (Mem.writeList a bs m) = true := by
  induction bs generalizing a m with
  | nil => exact h
  | cons b bs ih =>
    simp only [List.length_cons] at ha
    exact ih (a + 1) (by omega) (Mem.write_below b (by omega) h)

/-- A byte `MemWrite` stored reads back. -/
theorem Mem.read_writeList_same (bs : List Byte) (a i : Nat) {m : Mem} (hm : m.wf = true) (hi : i < bs.length) :
    Mem.read (a + i) (Mem.writeList a bs m) = bs[i] := by
  induction bs generalizing a i m with
  | nil => exact absurd hi (Nat.not_lt_zero i)
  | cons b bs ih =>
    cases i with
    | zero =>
      rw [Mem.writeList, Mem.read_writeList_other _ _ _ (Or.inl (by omega))]
      simpa using Mem.read_write_same a b hm
    | succ i =>
      have h1 : a + (i + 1) = (a + 1) + i := by omega
      rw [Mem.writeList, h1, ih (a + 1) i (Mem.write_wf a b hm) (by simpa using hi)]
      simp

/-- What `MemWrite` stored, `MemRead` gives back. -/
theorem Mem.readList_writeList_same (bs : List Byte) (a : Nat) {m : Mem} (hm : m.wf = true) :
    Mem.readList a bs.length (Mem.writeList a bs m) = bs := by
  refine List.ext_getElem (by simp) fun i h1 h2 => ?_
  rw [Mem.readList_getElem, Mem.read_writeList_same bs a i hm h2]

/-! ## Writes inside a region -/

/-- Free bytes inside a region leave every byte outside it alone. -/
theorem Mem.read_writeInside_other {r : Region} {a : Nat} (cs : List (Nat × Byte)) (m : Mem)
    (h : r.contains a = false) : Mem.read a (Mem.writeInside r cs m) = Mem.read a m := by
  induction cs generalizing m with
  | nil => rfl
  | cons c cs ih =>
    rw [Mem.writeInside, ih]
    split
    · rename_i hc
      refine Mem.read_write_other _ _ fun e => ?_
      subst e
      simp only [Bool.and_eq_true, decide_eq_true_eq] at hc
      simp [Region.contains, hc.1.1, hc.1.2] at h
    · rfl

theorem Mem.writeInside_wf (r : Region) (cs : List (Nat × Byte)) {m : Mem} (h : m.wf = true) :
    (Mem.writeInside r cs m).wf = true := by
  induction cs generalizing m with
  | nil => exact h
  | cons c cs ih =>
    rw [Mem.writeInside]
    refine ih ?_
    split
    · exact Mem.write_wf _ _ h
    · exact h

/-- Free bytes inside a region keep a bound the region, cut at the end of host memory, lies below. -/
theorem Mem.writeInside_below {n : Nat} (r : Region) (cs : List (Nat × Byte)) {m : Mem}
    (hr : ∀ a, r.contains a = true → a < addrSpace → a < n) (h : Mem.below n m = true) :
    Mem.below n (Mem.writeInside r cs m) = true := by
  induction cs generalizing m with
  | nil => exact h
  | cons c cs ih =>
    rw [Mem.writeInside]
    refine ih ?_
    split
    · rename_i hc
      simp only [Bool.and_eq_true, decide_eq_true_eq] at hc
      exact Mem.write_below _ (hr _ (by simp [Region.contains, hc.1.1, hc.1.2]) hc.2) h
    · exact h

/-! ## Equal memories are equal data -/

/-- Two canonical memories that read alike everywhere are the same list. -/
theorem Mem.ext_of_wf {m m' : Mem} (h : m.wf = true) (h' : m'.wf = true)
    (heq : ∀ a, Mem.read a m = Mem.read a m') : m = m' := by
  have head_read : ∀ (c : Host.Cell) (m : Mem), Mem.read c.1 (c :: m) = c.2 := fun c m => by simp [Mem.read_cons]
  have below_head : ∀ (c : Host.Cell) (m : Mem) (a : Nat), Mem.wf (c :: m) = true → a < c.1 →
      Mem.read a (c :: m) = 0#8 := fun c m a hw ha => Mem.read_unlisted fun d hd => by
    rcases List.mem_cons.mp hd with rfl | hd
    · omega
    · have := Mem.wf_head_lt hw d hd; omega
  induction m generalizing m' with
  | nil =>
    cases m' with
    | nil => rfl
    | cons c m' => exact absurd ((head_read c m').symm.trans (heq c.1).symm) (Mem.wf_head_ne h')
  | cons c m ih =>
    cases m' with
    | nil => exact absurd ((head_read c m).symm.trans (heq c.1)) (Mem.wf_head_ne h)
    | cons d m' =>
      have hcd : c.1 = d.1 := by
        rcases Nat.lt_trichotomy c.1 d.1 with hl | he | hl
        · exact absurd ((head_read c m).symm.trans ((heq c.1).trans (below_head d m' c.1 h' hl))) (Mem.wf_head_ne h)
        · exact he
        · exact absurd ((head_read d m').symm.trans ((heq d.1).symm.trans (below_head c m d.1 h hl)))
            (Mem.wf_head_ne h')
      have hv : c.2 = d.2 := by
        have := heq c.1
        rwa [head_read, hcd, head_read] at this
      have hcell : c = d := Prod.ext hcd hv
      subst hcell
      congr 1
      refine ih (Mem.wf_tail h) (Mem.wf_tail h') fun a => ?_
      by_cases ha : a = c.1
      · rw [ha, Mem.read_unlisted fun e he => Nat.ne_of_gt (Mem.wf_head_lt h e he),
          Mem.read_unlisted fun e he => Nat.ne_of_gt (Mem.wf_head_lt h' e he)]
      · have := heq a
        rwa [Mem.read_cons, if_neg ha, Mem.read_cons, if_neg ha] at this

end Sys2Proof.Machine
end

