-- ==== Sys2Proof/Laws/State.lean ====
section
/-!
SUPPORT. Laws/State.lean: one lemma per field per update of State, each true by rfl, so that no proof unfolds a record
update; and the lemmas of the tables by class.
-/

namespace Sys2Proof.Machine

/-! ### complete -/

@[simp] theorem complete_mem (e : ErrCode) (s : State) : (State.complete e s).mem = s.mem := rfl
@[simp] theorem complete_irqEn (e : ErrCode) (s : State) : (State.complete e s).irqEn = s.irqEn := rfl
@[simp] theorem complete_irqPend (e : ErrCode) (s : State) : (State.complete e s).irqPend = s.irqPend ||| 1 := rfl
@[simp] theorem complete_err (e : ErrCode) (s : State) : (State.complete e s).err = e := rfl
@[simp] theorem complete_cfg (e : ErrCode) (s : State) : (State.complete e s).cfg = s.cfg := rfl
@[simp] theorem complete_ops (e : ErrCode) (s : State) : (State.complete e s).ops = s.ops := rfl
@[simp] theorem complete_result (e : ErrCode) (s : State) : (State.complete e s).result = s.result := rfl
@[simp] theorem complete_res0 (e : ErrCode) (s : State) : (State.complete e s).res0 = s.res0 := rfl
@[simp] theorem complete_res1 (e : ErrCode) (s : State) : (State.complete e s).res1 = s.res1 := rfl
@[simp] theorem complete_adler (e : ErrCode) (s : State) : (State.complete e s).adler = s.adler := rfl
@[simp] theorem complete_ctx (e : ErrCode) (s : State) : (State.complete e s).ctx = s.ctx := rfl
@[simp] theorem complete_lcfg (e : ErrCode) (s : State) : (State.complete e s).lcfg = s.lcfg := rfl
@[simp] theorem complete_wc (e : ErrCode) (s : State) : (State.complete e s).wc = s.wc := rfl
@[simp] theorem complete_rc (e : ErrCode) (s : State) : (State.complete e s).rc = s.rc := rfl
@[simp] theorem complete_tab (e : ErrCode) (s : State) : (State.complete e s).tab = s.tab := rfl
@[simp] theorem complete_win (e : ErrCode) (s : State) : (State.complete e s).win = s.win := rfl
@[simp] theorem complete_busy (e : ErrCode) (s : State) : (State.complete e s).busy = false := rfl
@[simp] theorem complete_pend (e : ErrCode) (s : State) : (State.complete e s).pend = s.pend := rfl
@[simp] theorem complete_plat (e : ErrCode) (s : State) : (State.complete e s).plat = s.plat := rfl
@[simp] theorem complete_inputs (e : ErrCode) (s : State) : (State.complete e s).inputs = s.inputs := rfl
@[simp] theorem complete_rdata (e : ErrCode) (s : State) : (State.complete e s).rdata = s.rdata := rfl
@[simp] theorem complete_mdata (e : ErrCode) (s : State) : (State.complete e s).mdata = s.mdata := rfl
@[simp] theorem complete_draws (e : ErrCode) (s : State) : (State.complete e s).draws = s.draws := rfl

/-! ### withSink -/

@[simp] theorem withSink_mem (k : Sink) (s : State) : (State.withSink k s).mem = k.mem := rfl
@[simp] theorem withSink_irqEn (k : Sink) (s : State) : (State.withSink k s).irqEn = s.irqEn := rfl
@[simp] theorem withSink_irqPend (k : Sink) (s : State) : (State.withSink k s).irqPend = s.irqPend := rfl
@[simp] theorem withSink_err (k : Sink) (s : State) : (State.withSink k s).err = s.err := rfl
@[simp] theorem withSink_cfg (k : Sink) (s : State) : (State.withSink k s).cfg = s.cfg := rfl
@[simp] theorem withSink_ops (k : Sink) (s : State) : (State.withSink k s).ops = s.ops := rfl
@[simp] theorem withSink_result (k : Sink) (s : State) : (State.withSink k s).result = s.result := rfl
@[simp] theorem withSink_res0 (k : Sink) (s : State) : (State.withSink k s).res0 = s.res0 := rfl
@[simp] theorem withSink_res1 (k : Sink) (s : State) : (State.withSink k s).res1 = s.res1 := rfl
@[simp] theorem withSink_adler (k : Sink) (s : State) : (State.withSink k s).adler = s.adler := rfl
@[simp] theorem withSink_ctx (k : Sink) (s : State) : (State.withSink k s).ctx = s.ctx := rfl
@[simp] theorem withSink_lcfg (k : Sink) (s : State) : (State.withSink k s).lcfg = s.lcfg := rfl
@[simp] theorem withSink_wc (k : Sink) (s : State) : (State.withSink k s).wc = k.wc := rfl
@[simp] theorem withSink_rc (k : Sink) (s : State) : (State.withSink k s).rc = s.rc := rfl
@[simp] theorem withSink_tab (k : Sink) (s : State) : (State.withSink k s).tab = s.tab := rfl
@[simp] theorem withSink_win (k : Sink) (s : State) : (State.withSink k s).win = s.win := rfl
@[simp] theorem withSink_busy (k : Sink) (s : State) : (State.withSink k s).busy = s.busy := rfl
@[simp] theorem withSink_pend (k : Sink) (s : State) : (State.withSink k s).pend = s.pend := rfl
@[simp] theorem withSink_plat (k : Sink) (s : State) : (State.withSink k s).plat = s.plat := rfl
@[simp] theorem withSink_inputs (k : Sink) (s : State) : (State.withSink k s).inputs = s.inputs := rfl
@[simp] theorem withSink_rdata (k : Sink) (s : State) : (State.withSink k s).rdata = s.rdata := rfl
@[simp] theorem withSink_mdata (k : Sink) (s : State) : (State.withSink k s).mdata = s.mdata := rfl
@[simp] theorem withSink_draws (k : Sink) (s : State) : (State.withSink k s).draws = s.draws := rfl

/-! ### issue -/

@[simp] theorem issue_mem (w : Word) (s : State) : (State.issue w s).mem = s.mem := rfl
@[simp] theorem issue_irqEn (w : Word) (s : State) : (State.issue w s).irqEn = s.irqEn := rfl
@[simp] theorem issue_irqPend (w : Word) (s : State) : (State.issue w s).irqPend = s.irqPend := rfl
@[simp] theorem issue_err (w : Word) (s : State) : (State.issue w s).err = s.err := rfl
@[simp] theorem issue_cfg (w : Word) (s : State) : (State.issue w s).cfg = s.cfg := rfl
@[simp] theorem issue_ops (w : Word) (s : State) : (State.issue w s).ops = s.ops := rfl
@[simp] theorem issue_result (w : Word) (s : State) : (State.issue w s).result = s.result := rfl
@[simp] theorem issue_res0 (w : Word) (s : State) : (State.issue w s).res0 = s.res0 := rfl
@[simp] theorem issue_res1 (w : Word) (s : State) : (State.issue w s).res1 = s.res1 := rfl
@[simp] theorem issue_adler (w : Word) (s : State) : (State.issue w s).adler = s.adler := rfl
@[simp] theorem issue_ctx (w : Word) (s : State) : (State.issue w s).ctx = s.ctx := rfl
@[simp] theorem issue_lcfg (w : Word) (s : State) : (State.issue w s).lcfg = s.lcfg := rfl
@[simp] theorem issue_wc (w : Word) (s : State) : (State.issue w s).wc = s.wc := rfl
@[simp] theorem issue_rc (w : Word) (s : State) : (State.issue w s).rc = s.rc := rfl
@[simp] theorem issue_tab (w : Word) (s : State) : (State.issue w s).tab = s.tab := rfl
@[simp] theorem issue_win (w : Word) (s : State) : (State.issue w s).win = s.win := rfl
@[simp] theorem issue_busy (w : Word) (s : State) : (State.issue w s).busy = true := rfl
@[simp] theorem issue_pend (w : Word) (s : State) : (State.issue w s).pend = s.latch w := rfl
@[simp] theorem issue_plat (w : Word) (s : State) : (State.issue w s).plat = s.plat := rfl
@[simp] theorem issue_inputs (w : Word) (s : State) : (State.issue w s).inputs = s.inputs := rfl
@[simp] theorem issue_rdata (w : Word) (s : State) : (State.issue w s).rdata = s.rdata := rfl
@[simp] theorem issue_mdata (w : Word) (s : State) : (State.issue w s).mdata = s.mdata := rfl
@[simp] theorem issue_draws (w : Word) (s : State) : (State.issue w s).draws = s.draws := rfl

/-! ### clearPend -/

@[simp] theorem clearPend_mem (v : Word) (s : State) : (State.clearPend v s).mem = s.mem := rfl
@[simp] theorem clearPend_irqEn (v : Word) (s : State) : (State.clearPend v s).irqEn = s.irqEn := rfl
@[simp] theorem clearPend_irqPend (v : Word) (s : State) : (State.clearPend v s).irqPend = s.irqPend &&& ~~~ (v.setWidth 2) := rfl
@[simp] theorem clearPend_err (v : Word) (s : State) : (State.clearPend v s).err = s.err := rfl
@[simp] theorem clearPend_cfg (v : Word) (s : State) : (State.clearPend v s).cfg = s.cfg := rfl
@[simp] theorem clearPend_ops (v : Word) (s : State) : (State.clearPend v s).ops = s.ops := rfl
@[simp] theorem clearPend_result (v : Word) (s : State) : (State.clearPend v s).result = s.result := rfl
@[simp] theorem clearPend_res0 (v : Word) (s : State) : (State.clearPend v s).res0 = s.res0 := rfl
@[simp] theorem clearPend_res1 (v : Word) (s : State) : (State.clearPend v s).res1 = s.res1 := rfl
@[simp] theorem clearPend_adler (v : Word) (s : State) : (State.clearPend v s).adler = s.adler := rfl
@[simp] theorem clearPend_ctx (v : Word) (s : State) : (State.clearPend v s).ctx = s.ctx := rfl
@[simp] theorem clearPend_lcfg (v : Word) (s : State) : (State.clearPend v s).lcfg = s.lcfg := rfl
@[simp] theorem clearPend_wc (v : Word) (s : State) : (State.clearPend v s).wc = s.wc := rfl
@[simp] theorem clearPend_rc (v : Word) (s : State) : (State.clearPend v s).rc = s.rc := rfl
@[simp] theorem clearPend_tab (v : Word) (s : State) : (State.clearPend v s).tab = s.tab := rfl
@[simp] theorem clearPend_win (v : Word) (s : State) : (State.clearPend v s).win = s.win := rfl
@[simp] theorem clearPend_busy (v : Word) (s : State) : (State.clearPend v s).busy = s.busy := rfl
@[simp] theorem clearPend_pend (v : Word) (s : State) : (State.clearPend v s).pend = s.pend := rfl
@[simp] theorem clearPend_plat (v : Word) (s : State) : (State.clearPend v s).plat = s.plat := rfl
@[simp] theorem clearPend_inputs (v : Word) (s : State) : (State.clearPend v s).inputs = s.inputs := rfl
@[simp] theorem clearPend_rdata (v : Word) (s : State) : (State.clearPend v s).rdata = s.rdata := rfl
@[simp] theorem clearPend_mdata (v : Word) (s : State) : (State.clearPend v s).mdata = s.mdata := rfl
@[simp] theorem clearPend_draws (v : Word) (s : State) : (State.clearPend v s).draws = s.draws := rfl

/-! ### freshStream -/

@[simp] theorem freshStream_mem (s : State) : (State.freshStream s).mem = s.mem := rfl
@[simp] theorem freshStream_irqEn (s : State) : (State.freshStream s).irqEn = s.irqEn := rfl
@[simp] theorem freshStream_irqPend (s : State) : (State.freshStream s).irqPend = s.irqPend := rfl
@[simp] theorem freshStream_err (s : State) : (State.freshStream s).err = s.err := rfl
@[simp] theorem freshStream_cfg (s : State) : (State.freshStream s).cfg = s.cfg := rfl
@[simp] theorem freshStream_ops (s : State) : (State.freshStream s).ops = s.ops := rfl
@[simp] theorem freshStream_result (s : State) : (State.freshStream s).result = s.result := rfl
@[simp] theorem freshStream_res0 (s : State) : (State.freshStream s).res0 = s.res0 := rfl
@[simp] theorem freshStream_res1 (s : State) : (State.freshStream s).res1 = s.res1 := rfl
@[simp] theorem freshStream_adler (s : State) : (State.freshStream s).adler = 0x00000001 := rfl
@[simp] theorem freshStream_ctx (s : State) : (State.freshStream s).ctx = { s.ctx with started := false, done := false } := rfl
@[simp] theorem freshStream_lcfg (s : State) : (State.freshStream s).lcfg = s.lcfg := rfl
@[simp] theorem freshStream_wc (s : State) : (State.freshStream s).wc = { base := 0, cap := 0, pos := 0, acc := 0, nacc := 0 } := rfl
@[simp] theorem freshStream_rc (s : State) : (State.freshStream s).rc = { base := 0, len := 0, pos := 0, bit := 0 } := rfl
@[simp] theorem freshStream_tab (s : State) : (State.freshStream s).tab = initTabs s.lcfg := rfl
@[simp] theorem freshStream_win (s : State) : (State.freshStream s).win = s.win.clear := rfl
@[simp] theorem freshStream_busy (s : State) : (State.freshStream s).busy = s.busy := rfl
@[simp] theorem freshStream_pend (s : State) : (State.freshStream s).pend = s.pend := rfl
@[simp] theorem freshStream_plat (s : State) : (State.freshStream s).plat = s.plat := rfl
@[simp] theorem freshStream_inputs (s : State) : (State.freshStream s).inputs = s.inputs := rfl
@[simp] theorem freshStream_rdata (s : State) : (State.freshStream s).rdata = s.rdata := rfl
@[simp] theorem freshStream_mdata (s : State) : (State.freshStream s).mdata = s.mdata := rfl
@[simp] theorem freshStream_draws (s : State) : (State.freshStream s).draws = s.draws := rfl

/-! ### compressBroken -/

@[simp] theorem compressBroken_mem (s : State) : (compressBroken s).mem = freeRegion s.draws s.dstRegion s.mem := rfl
@[simp] theorem compressBroken_irqEn (s : State) : (compressBroken s).irqEn = s.irqEn := rfl
@[simp] theorem compressBroken_irqPend (s : State) : (compressBroken s).irqPend = s.irqPend := rfl
@[simp] theorem compressBroken_err (s : State) : (compressBroken s).err = s.err := rfl
@[simp] theorem compressBroken_cfg (s : State) : (compressBroken s).cfg = s.cfg := rfl
@[simp] theorem compressBroken_ops (s : State) : (compressBroken s).ops = s.ops := rfl
@[simp] theorem compressBroken_result (s : State) : (compressBroken s).result = freeWord s.draws 0 := rfl
@[simp] theorem compressBroken_res0 (s : State) : (compressBroken s).res0 = s.res0 := rfl
@[simp] theorem compressBroken_res1 (s : State) : (compressBroken s).res1 = s.res1 := rfl
@[simp] theorem compressBroken_adler (s : State) : (compressBroken s).adler = freeWord s.draws 19 := rfl
@[simp] theorem compressBroken_ctx (s : State) : (compressBroken s).ctx = { s.ctx with started := true, done := true } := rfl
@[simp] theorem compressBroken_lcfg (s : State) : (compressBroken s).lcfg = s.lcfg := rfl
@[simp] theorem compressBroken_wc (s : State) : (compressBroken s).wc = freeWCur s.draws := rfl
@[simp] theorem compressBroken_rc (s : State) : (compressBroken s).rc = s.rc := rfl
@[simp] theorem compressBroken_tab (s : State) : (compressBroken s).tab = freeTabs s.draws s.lcfg.dict := rfl
@[simp] theorem compressBroken_win (s : State) : (compressBroken s).win = freeWin s.draws s.lcfg.dict := rfl
@[simp] theorem compressBroken_busy (s : State) : (compressBroken s).busy = s.busy := rfl
@[simp] theorem compressBroken_pend (s : State) : (compressBroken s).pend = s.pend := rfl
@[simp] theorem compressBroken_plat (s : State) : (compressBroken s).plat = s.plat := rfl
@[simp] theorem compressBroken_inputs (s : State) : (compressBroken s).inputs = s.inputs := rfl
@[simp] theorem compressBroken_rdata (s : State) : (compressBroken s).rdata = s.rdata := rfl
@[simp] theorem compressBroken_mdata (s : State) : (compressBroken s).mdata = s.mdata := rfl
@[simp] theorem compressBroken_draws (s : State) : (compressBroken s).draws = s.draws + 1 := rfl

/-! ### decompressDone -/

@[simp] theorem decompressDone_mem (u : Unpack) (s : State) : (decompressDone s u).mem = if s.lcfg.unbuf then u.mem else Mem.writeList s.pend.ops.dstAddr.toNat u.out.reverse u.mem := rfl
@[simp] theorem decompressDone_irqEn (u : Unpack) (s : State) : (decompressDone s u).irqEn = s.irqEn := rfl
@[simp] theorem decompressDone_irqPend (u : Unpack) (s : State) : (decompressDone s u).irqPend = s.irqPend := rfl
@[simp] theorem decompressDone_err (u : Unpack) (s : State) : (decompressDone s u).err = s.err := rfl
@[simp] theorem decompressDone_cfg (u : Unpack) (s : State) : (decompressDone s u).cfg = s.cfg := rfl
@[simp] theorem decompressDone_ops (u : Unpack) (s : State) : (decompressDone s u).ops = s.ops := rfl
@[simp] theorem decompressDone_result (u : Unpack) (s : State) : (decompressDone s u).result = BitVec.ofNat 32 u.produced := rfl
@[simp] theorem decompressDone_res0 (u : Unpack) (s : State) : (decompressDone s u).res0 = s.pend.ops.srcLen := rfl
@[simp] theorem decompressDone_res1 (u : Unpack) (s : State) : (decompressDone s u).res1 = s.res1 := rfl
@[simp] theorem decompressDone_adler (u : Unpack) (s : State) : (decompressDone s u).adler = u.adler := rfl
@[simp] theorem decompressDone_ctx (u : Unpack) (s : State) : (decompressDone s u).ctx = { s.ctx with started := true, done := true } := rfl
@[simp] theorem decompressDone_lcfg (u : Unpack) (s : State) : (decompressDone s u).lcfg = s.lcfg := rfl
@[simp] theorem decompressDone_wc (u : Unpack) (s : State) : (decompressDone s u).wc = s.wc := rfl
@[simp] theorem decompressDone_rc (u : Unpack) (s : State) : (decompressDone s u).rc = u.dec.rc := rfl
@[simp] theorem decompressDone_tab (u : Unpack) (s : State) : (decompressDone s u).tab = u.dec.tab := rfl
@[simp] theorem decompressDone_win (u : Unpack) (s : State) : (decompressDone s u).win = u.win := rfl
@[simp] theorem decompressDone_busy (u : Unpack) (s : State) : (decompressDone s u).busy = s.busy := rfl
@[simp] theorem decompressDone_pend (u : Unpack) (s : State) : (decompressDone s u).pend = s.pend := rfl
@[simp] theorem decompressDone_plat (u : Unpack) (s : State) : (decompressDone s u).plat = s.plat := rfl
@[simp] theorem decompressDone_inputs (u : Unpack) (s : State) : (decompressDone s u).inputs = s.inputs := rfl
@[simp] theorem decompressDone_rdata (u : Unpack) (s : State) : (decompressDone s u).rdata = s.rdata := rfl
@[simp] theorem decompressDone_mdata (u : Unpack) (s : State) : (decompressDone s u).mdata = s.mdata := rfl
@[simp] theorem decompressDone_draws (u : Unpack) (s : State) : (decompressDone s u).draws = s.draws := rfl

/-! ### decompressBroken -/

@[simp] theorem decompressBroken_mem (u : Unpack) (s : State) : (decompressBroken s u).mem = u.mem := rfl
@[simp] theorem decompressBroken_irqEn (u : Unpack) (s : State) : (decompressBroken s u).irqEn = s.irqEn := rfl
@[simp] theorem decompressBroken_irqPend (u : Unpack) (s : State) : (decompressBroken s u).irqPend = s.irqPend := rfl
@[simp] theorem decompressBroken_err (u : Unpack) (s : State) : (decompressBroken s u).err = s.err := rfl
@[simp] theorem decompressBroken_cfg (u : Unpack) (s : State) : (decompressBroken s u).cfg = s.cfg := rfl
@[simp] theorem decompressBroken_ops (u : Unpack) (s : State) : (decompressBroken s u).ops = s.ops := rfl
@[simp] theorem decompressBroken_result (u : Unpack) (s : State) : (decompressBroken s u).result = BitVec.ofNat 32 u.produced := rfl
@[simp] theorem decompressBroken_res0 (u : Unpack) (s : State) : (decompressBroken s u).res0 = freeWord s.draws 0 := rfl
@[simp] theorem decompressBroken_res1 (u : Unpack) (s : State) : (decompressBroken s u).res1 = s.res1 := rfl
@[simp] theorem decompressBroken_adler (u : Unpack) (s : State) : (decompressBroken s u).adler = freeWord s.draws 19 := rfl
@[simp] theorem decompressBroken_ctx (u : Unpack) (s : State) : (decompressBroken s u).ctx = { s.ctx with started := true, done := true } := rfl
@[simp] theorem decompressBroken_lcfg (u : Unpack) (s : State) : (decompressBroken s u).lcfg = s.lcfg := rfl
@[simp] theorem decompressBroken_wc (u : Unpack) (s : State) : (decompressBroken s u).wc = s.wc := rfl
@[simp] theorem decompressBroken_rc (u : Unpack) (s : State) : (decompressBroken s u).rc = freeRCur s.draws := rfl
@[simp] theorem decompressBroken_tab (u : Unpack) (s : State) : (decompressBroken s u).tab = freeTabs s.draws s.lcfg.dict := rfl
@[simp] theorem decompressBroken_win (u : Unpack) (s : State) : (decompressBroken s u).win = freeWin s.draws s.lcfg.dict := rfl
@[simp] theorem decompressBroken_busy (u : Unpack) (s : State) : (decompressBroken s u).busy = s.busy := rfl
@[simp] theorem decompressBroken_pend (u : Unpack) (s : State) : (decompressBroken s u).pend = s.pend := rfl
@[simp] theorem decompressBroken_plat (u : Unpack) (s : State) : (decompressBroken s u).plat = s.plat := rfl
@[simp] theorem decompressBroken_inputs (u : Unpack) (s : State) : (decompressBroken s u).inputs = s.inputs := rfl
@[simp] theorem decompressBroken_rdata (u : Unpack) (s : State) : (decompressBroken s u).rdata = s.rdata := rfl
@[simp] theorem decompressBroken_mdata (u : Unpack) (s : State) : (decompressBroken s u).mdata = s.mdata := rfl
@[simp] theorem decompressBroken_draws (u : Unpack) (s : State) : (decompressBroken s u).draws = s.draws + 1 := rfl

/-! ### Tables by class -/

@[simp] theorem Tabs.get_set_same (t : Tabs) (c : SymClass) (x : Table) : (t.set c x).get c = x := by
  cases c <;> rfl

@[simp] theorem Tabs.get_set_other {c d : SymClass} (t : Tabs) (x : Table) (h : d ≠ c) :
    (t.set c x).get d = t.get d := by
  cases c <;> cases d <;> first | rfl | exact absurd rfl h

/-- The initial table of a class (49_context.md R714). -/
@[simp] theorem initTabs_get (lc : LCfg) (c : SymClass) :
    (initTabs lc).get c = initTable lc (alphabetSize c lc.dict) := by
  cases c <;> rfl

/-- An unspecified table of a class has the class's alphabet. -/
theorem freeTabs_get (k dict : Nat) (c : SymClass) :
    ∃ slot, (freeTabs k dict).get c = freeTable k slot (alphabetSize c dict) := by
  cases c
  · exact ⟨20, rfl⟩
  · exact ⟨30, rfl⟩
  · exact ⟨40, rfl⟩
  · exact ⟨50, rfl⟩

end Sys2Proof.Machine
end

