-- ==== Sys2Proof/Laws/Ops.lean ====
section
/-!
SUPPORT. Laws/Ops.lean: for each shared operation of a meaning one lemma that says once everything it can do: if it answers a
next state, then one of these cases holds; and, for the statements that say where a command completes, the case in which it
goes on.
-/

namespace Sys2Proof.Machine

/-! ## The state requirement (40_command_model.md R406 steps 2 and 3) -/

/-- What `requireState` can answer. -/
theorem requireState_next {ok : Bool} {s t : State} {body : Result} (h : requireState ok s body = .next t) :
    (s.ctx.state = .closed ∧ t = s.complete .useAfterClose) ∨
    (s.ctx.state ≠ .closed ∧ ok = false ∧ t = s.complete .invalidState) ∨
    (s.ctx.state ≠ .closed ∧ ok = true ∧ body = .next t) := by
  unfold requireState at h
  split at h
  · rename_i hc
    exact .inl ⟨hc, by injection h with h; exact h.symm⟩
  · rename_i hc
    split at h
    · rename_i ho
      exact .inr (.inr ⟨hc, ho, h⟩)
    · rename_i ho
      exact .inr (.inl ⟨hc, by simpa using ho, by injection h with h; exact h.symm⟩)

/-- An open context that meets the requirement goes on. -/
theorem requireState_pass {ok : Bool} {s : State} {body : Result} (hc : s.ctx.state ≠ .closed) (ho : ok = true) :
    requireState ok s body = body := by
  simp [requireState, hc, ho]

theorem State.isReady_iff (s : State) :
    s.isReady = true ↔ s.ctx.state = .ready ∧ (s.ctx.role = .comp ∨ s.ctx.role = .decomp) := by
  simp [State.isReady]

theorem State.isComp_iff (s : State) : s.isComp = true ↔ s.ctx.state = .ready ∧ s.ctx.role = .comp := by
  simp [State.isComp]

theorem State.isUninit_iff (s : State) : s.isUninit = true ↔ s.ctx.state = .uninit := by
  simp [State.isUninit]

theorem State.isOpen_iff (s : State) : s.isOpen = true ↔ s.ctx.state = .uninit ∨ s.ctx.state = .ready := by
  simp [State.isOpen]

theorem State.mayCompress_iff (s : State) :
    s.mayCompress = true ↔ s.ctx.state = .ready ∧ s.ctx.role = .comp ∧ s.ctx.done = false := by
  simp [State.mayCompress, State.isComp, and_assoc]

theorem State.mayDecompress_iff (s : State) :
    s.mayDecompress = true ↔ s.ctx.state = .ready ∧ s.ctx.role = .decomp ∧ s.ctx.started = false := by
  simp [State.mayDecompress, and_assoc]

/-- A ready context is not closed. -/
theorem State.isReady_not_closed {s : State} (h : s.isReady = true) : s.ctx.state ≠ .closed := by
  have := (s.isReady_iff.mp h).1
  simp [this]

/-- A primitive in READY goes past the state requirement. -/
theorem requireState_ready {s : State} {body : Result} (h : s.isReady = true) :
    requireState s.isReady s body = body :=
  requireState_pass (State.isReady_not_closed h) h

/-! ## The operand check (step 4) -/

theorem requireOperand_next {ok : Bool} {s t : State} {body : Result} (h : requireOperand ok s body = .next t) :
    (ok = false ∧ t = s.complete .illegalCommand) ∨ (ok = true ∧ body = .next t) := by
  unfold requireOperand at h
  split at h
  · rename_i ho
    exact .inr ⟨ho, h⟩
  · rename_i ho
    exact .inl ⟨by simpa using ho, by injection h with h; exact h.symm⟩

theorem requireOperand_pass {ok : Bool} {s : State} {body : Result} (ho : ok = true) :
    requireOperand ok s body = body := by
  simp [requireOperand, ho]

/-! ## The regions (step 5) -/

theorem unlessRefused_next {r : Option Refusal} {t : State} {body : Result} (h : unlessRefused r body = .next t) :
    r = none ∧ body = .next t := by
  cases r with
  | none => exact ⟨rfl, h⟩
  | some x => cases h

@[simp] theorem unlessRefused_none {body : Result} : unlessRefused none body = body := rfl

/-- A command with these accesses that answers a next state is not stopped by the bus. -/
theorem afterAccesses_next {rs : List Region} {s t : State} {body : Result} (h : afterAccesses rs s body = .next t) :
    busRefusal s.plat rs = none ∧ body = .next t :=
  unlessRefused_next h

theorem afterAccesses_pass {rs : List Region} {s : State} {body : Result} (h : busRefusal s.plat rs = none) :
    afterAccesses rs s body = body := by
  simp [afterAccesses, h]

/-- The bus rejects none of the accesses exactly when it rejects no byte of any of them. -/
theorem busRefusal_none {p : Config.Platform} {rs : List Region} :
    busRefusal p rs = none ↔ ∀ r ∈ rs, busRejects p r = false := by
  simp [busRefusal]

/-- An empty region is never rejected. -/
@[simp] theorem busRejects_empty (p : Config.Platform) (b : Nat) : busRejects p ⟨b, 0⟩ = false := by
  simp [busRejects, Region.meets, Region.overlaps]

theorem requireRegion_next {r : Region} {s t : State} {body : Result} (h : requireRegion r s body = .next t) :
    (r.legal = false ∧ t = s.complete .rangeError) ∨
    (r.legal = true ∧ sideEffectRefusal s.plat r = none ∧ body = .next t) := by
  unfold requireRegion at h
  split at h
  · rename_i hl
    exact .inr ⟨hl, unlessRefused_next h⟩
  · rename_i hl
    exact .inl ⟨by simpa using hl, by injection h with h; exact h.symm⟩

theorem requireRegion_pass {r : Region} {s : State} {body : Result} (hl : r.legal = true)
    (hp : sideEffectRefusal s.plat r = none) : requireRegion r s body = body := by
  simp [requireRegion, hl, hp]

theorem requireRegions_next {src dst : Region} {s t : State} {body : Result}
    (h : requireRegions src dst s body = .next t) :
    ((src.legal = false ∨ dst.legal = false ∨ src.overlaps dst = true) ∧ t = s.complete .rangeError) ∨
    (src.legal = true ∧ dst.legal = true ∧ src.overlaps dst = false ∧ sideEffectRefusal s.plat src = none ∧
      sideEffectRefusal s.plat dst = none ∧ body = .next t) := by
  unfold requireRegions at h
  split at h
  · rename_i hl
    simp only [Bool.and_eq_true, Bool.not_eq_true'] at hl
    obtain ⟨h1, h2⟩ := unlessRefused_next h
    obtain ⟨h3, h4⟩ := unlessRefused_next h2
    exact .inr ⟨hl.1.1, hl.1.2, hl.2, h1, h3, h4⟩
  · rename_i hl
    refine .inl ⟨?_, by injection h with h; exact h.symm⟩
    cases h1 : src.legal <;> cases h2 : dst.legal <;> cases h3 : src.overlaps dst <;> simp_all

theorem requireRegions_pass {src dst : Region} {s : State} {body : Result} (hs : src.legal = true)
    (hd : dst.legal = true) (ho : src.overlaps dst = false) (hps : sideEffectRefusal s.plat src = none)
    (hpd : sideEffectRefusal s.plat dst = none) : requireRegions src dst s body = body := by
  simp [requireRegions, hs, hd, ho, hps, hpd]

theorem requireCursor_next {a r : Region} {s t : State} {body : Result} (h : requireCursor a r s body = .next t) :
    body = .next t ∧
    (a.len ≠ 0 → r.legal = true ∧ sideEffectRefusal s.plat r = none ∧ busRefusal s.plat [a] = none) := by
  unfold requireCursor at h
  split at h
  · rename_i ha
    exact ⟨h, fun h' => absurd ha h'⟩
  · split at h
    · rename_i hl
      obtain ⟨h1, h2⟩ := unlessRefused_next h
      obtain ⟨h3, h4⟩ := afterAccesses_next h2
      exact ⟨h4, fun _ => ⟨hl, h1, h3⟩⟩
    · cases h

theorem requireCursor_pass {a r : Region} {s : State} {body : Result} (hl : r.legal = true)
    (hp : sideEffectRefusal s.plat r = none) (hb : busRefusal s.plat [a] = none) :
    requireCursor a r s body = body := by
  simp [requireCursor, afterAccesses, hl, hp, hb]

/-- Without an access a primitive goes on whatever the cursor's region. -/
theorem requireCursor_idle {a r : Region} {s : State} {body : Result} (h : a.len = 0) :
    requireCursor a r s body = body := by
  simp [requireCursor, h]

/-! ## The configuration (step 6) -/

theorem requireConfig_next {ok : Bool} {s t : State} {body : Result} (h : requireConfig ok s body = .next t) :
    (ok = false ∧ t = s.complete .invalidConfig) ∨ (ok = true ∧ body = .next t) := by
  unfold requireConfig at h
  split at h
  · rename_i ho
    exact .inr ⟨ho, h⟩
  · rename_i ho
    exact .inl ⟨by simpa using ho, by injection h with h; exact h.symm⟩

theorem requireConfig_pass {ok : Bool} {s : State} {body : Result} (ho : ok = true) :
    requireConfig ok s body = body := by
  simp [requireConfig, ho]

/-! ## The end of a primitive (step 7) -/

theorem finishRead_next {r : Except ReadStop State} {s t : State} (h : finishRead r s = .next t) :
    (∃ e, r = .error e ∧ t = s.complete e.err) ∨ (∃ u, r = .ok u ∧ t = u.complete .ok) := by
  cases r with
  | error e =>
    have h1 := (requireCursor_next h).1
    exact .inl ⟨e, rfl, by injection h1 with h1; exact h1.symm⟩
  | ok u =>
    have h1 := (requireCursor_next h).1
    exact .inr ⟨u, rfl, by injection h1 with h1; exact h1.symm⟩

theorem finishRead_ok {u s : State} (hl : s.rcRegion.legal = true) (hp : sideEffectRefusal s.plat s.rcRegion = none)
    (hb : busRefusal s.plat [s.rc.readTo u.rc] = none) : finishRead (.ok u) s = .next (u.complete .ok) :=
  requireCursor_pass hl hp hb

theorem finishRead_error {e : ReadStop} {s : State} (hl : s.rcRegion.legal = true)
    (hp : sideEffectRefusal s.plat s.rcRegion = none) (hb : busRefusal s.plat [s.rc.readTo e.reach] = none) :
    finishRead (.error e) s = .next (s.complete e.err) :=
  requireCursor_pass hl hp hb

theorem finishStore_next {r : Except Full State} {s t : State} (h : finishStore r s = .next t) :
    (∃ e, r = .error e ∧ t = s.complete .outputBufferTooSmall) ∨
    (∃ u, r = .ok u ∧ t = u.complete .ok ∧
      (s.wc.pos < u.wc.pos → s.wcRegion.legal = true ∧ sideEffectRefusal s.plat s.wcRegion = none)) := by
  cases r with
  | error e => exact .inl ⟨e, rfl, by injection h with h; exact h.symm⟩
  | ok u =>
    obtain ⟨h1, h2⟩ := requireCursor_next h
    refine .inr ⟨u, rfl, by injection h1 with h1; exact h1.symm, fun hne => ?_⟩
    obtain ⟨h3, h4, _⟩ := h2 (by dsimp only; omega)
    exact ⟨h3, h4⟩

theorem finishStore_ok {u s : State} (hl : s.wcRegion.legal = true) (hp : sideEffectRefusal s.plat s.wcRegion = none)
    (hb : busRefusal s.plat [⟨s.wc.base.toNat + s.wc.pos, u.wc.pos - s.wc.pos⟩] = none) :
    finishStore (.ok u) s = .next (u.complete .ok) :=
  requireCursor_pass hl hp hb

/-! ## Regions -/

/-- A legal region, given by 32-bit values, ends at or before the end of host memory (20_memory.md R202). -/
theorem Region.end_le_of_legal {a l : Word} (h : Region.legal ⟨a.toNat, l.toNat⟩ = true) :
    a.toNat + l.toNat ≤ addrSpace := by
  simp only [Region.legal, Bool.or_eq_true, decide_eq_true_eq] at h
  have := a.isLt
  simp only [addrSpace] at *
  omega

theorem Region.legal_of_end_le {r : Region} (h : r.base + r.len ≤ addrSpace) : r.legal = true := by
  simp [Region.legal, h]

end Sys2Proof.Machine
end

