-- ==== Sys2Proof/Laws/Bitstream.lean ====
section
/-!
SUPPORT. Laws/Bitstream.lean: what each cursor operation does to the cursor and to memory (41_bitstream.md), said once: the
region stays, the position and the pending count move as R431 and R432 say, the invariants of R152 and R153 hold again, and no
byte outside the stored range changes.
-/

namespace Sys2Proof.Machine

open Sys2Proof.Safety

/-- What a write through the cursor keeps and where it stores: from `k` to `k'` the region is the same, the position does
not go back, and only bytes from the old position up to the new one may have changed. -/
structure SinkStep (k k' : Sink) : Prop where
  base    : k'.wc.base = k.wc.base
  cap     : k'.wc.cap = k.wc.cap
  pos_le  : k.wc.pos ≤ k'.wc.pos
  outside : ∀ a, (a < k.wc.base.toNat + k.wc.pos ∨ k.wc.base.toNat + k'.wc.pos ≤ a) →
              Mem.read a k'.mem = Mem.read a k.mem
  mem_wf  : k.mem.wf = true → k'.mem.wf = true

theorem SinkStep.refl (k : Sink) : SinkStep k k :=
  ⟨rfl, rfl, Nat.le_refl _, fun _ _ => rfl, id⟩

theorem SinkStep.trans {k k' k'' : Sink} (h : SinkStep k k') (h' : SinkStep k' k'') : SinkStep k k'' where
  base := h'.base.trans h.base
  cap := h'.cap.trans h.cap
  pos_le := Nat.le_trans h.pos_le h'.pos_le
  outside a ha := by
    have h1 := h.pos_le
    have h2 := h'.pos_le
    have hb := h.base
    rw [h'.outside a (by rw [hb]; omega), h.outside a (by omega)]
  mem_wf hm := h'.mem_wf (h.mem_wf hm)

/-- One bit (41_bitstream.md R432). -/
theorem putbit_step (b : Nat) (k : Sink) : SinkStep k (putbit b k) := by
  unfold putbit
  dsimp only
  split
  · refine ⟨rfl, rfl, Nat.le_succ _, fun a ha => ?_, fun hm => Mem.write_wf _ _ hm⟩
    dsimp only at ha ⊢
    exact Mem.read_write_other _ _ (by omega)
  · exact ⟨rfl, rfl, Nat.le_refl _, fun _ _ => rfl, id⟩

theorem putbitsLoop_step (n v : Nat) (k : Sink) : SinkStep k (putbitsLoop n v k) := by
  induction n generalizing k with
  | zero => exact SinkStep.refl k
  | succ n ih => exact (putbit_step _ k).trans (ih _)

/-- Where the position and the pending count stand after one bit. -/
theorem putbit_count {b : Nat} {k : Sink} (h : k.wc.nacc < 8) :
    (putbit b k).wc.pos = k.wc.pos + (k.wc.nacc + 1) / 8 ∧ (putbit b k).wc.nacc = (k.wc.nacc + 1) % 8 := by
  unfold putbit
  dsimp only
  split <;> dsimp only <;> omega

/-- Where the position and the pending count stand after n bits (41_bitstream.md R431). -/
theorem putbitsLoop_count (n v : Nat) {k : Sink} (h : k.wc.nacc < 8) :
    (putbitsLoop n v k).wc.pos = k.wc.pos + (k.wc.nacc + n) / 8 ∧
      (putbitsLoop n v k).wc.nacc = (k.wc.nacc + n) % 8 := by
  induction n generalizing k with
  | zero => simp only [putbitsLoop]; omega
  | succ n ih =>
    obtain ⟨h1, h2⟩ := putbit_count (b := (v >>> n) &&& 1) h
    obtain ⟨h3, h4⟩ := ih (k := putbit ((v >>> n) &&& 1) k) (by omega)
    rw [putbitsLoop, h3, h4, h1, h2]
    omega

/-- The pending bits stay below `2^nacc` (10_state.md R152). -/
theorem putbit_acc {b : Nat} {k : Sink} (hb : b ≤ 1) (h : k.wc.acc < 2 ^ k.wc.nacc) :
    (putbit b k).wc.acc < 2 ^ (putbit b k).wc.nacc := by
  unfold putbit
  dsimp only
  split
  · simp
  · dsimp only
    have h1 : (k.wc.acc <<< 1) < 2 ^ (k.wc.nacc + 1) := by
      rw [Nat.shiftLeft_eq, pow_one, pow_succ]
      omega
    exact Nat.or_lt_two_pow h1 (by
      have : 2 ≤ 2 ^ (k.wc.nacc + 1) := by
        rw [pow_succ]; have := Nat.one_le_two_pow (n := k.wc.nacc); omega
      omega)

theorem putbitsLoop_acc (n v : Nat) {k : Sink} (h : k.wc.acc < 2 ^ k.wc.nacc) :
    (putbitsLoop n v k).wc.acc < 2 ^ (putbitsLoop n v k).wc.nacc := by
  induction n generalizing k with
  | zero => exact h
  | succ n ih => exact ih (putbit_acc (Nat.and_le_right) h)

/-- What `putbits` can answer (41_bitstream.md R431, R432). -/
theorem putbits_ok {n v : Nat} {k k' : Sink} (h : putbits n v k = .ok k') :
    k.wc.room n = true ∧ k' = putbitsLoop n v k ∧ SinkStep k k' := by
  unfold putbits at h
  split at h
  · rename_i hr
    injection h with h
    exact ⟨hr, h.symm, h ▸ putbitsLoop_step n v k⟩
  · cases h

theorem putbits_error {n v : Nat} {k : Sink} {e : Full} (h : putbits n v k = .error e) :
    e = ⟨k.wc.pos⟩ ∧ k.wc.room n = false := by
  unfold putbits at h
  split at h
  · cases h
  · rename_i hr
    injection h with h
    exact ⟨h.symm, by simpa using hr⟩

/-- `putbits` keeps the write cursor's invariant (10_state.md R152). -/
theorem putbits_wcOk {n v : Nat} {k k' : Sink} (h : putbits n v k = .ok k') (hk : WCurOk k.wc) : WCurOk k'.wc := by
  obtain ⟨hr, rfl, hs⟩ := putbits_ok h
  obtain ⟨h1, h2⟩ := putbitsLoop_count n v hk.nacc_lt
  simp only [WCur.room, decide_eq_true_eq] at hr
  refine ⟨by omega, putbitsLoop_acc n v hk.acc_lt, ?_, ?_⟩
  · rw [hs.cap, h1]; exact hr
  · rw [hs.base, hs.cap]; exact hk.legal

/-- What `flush` can answer (41_bitstream.md R433). -/
theorem flush_ok {k k' : Sink} (h : flush k = .ok k') :
    SinkStep k k' ∧ k'.wc.nacc = (if k.wc.nacc = 0 then k.wc.nacc else 0) ∧
      k'.wc.pos = k.wc.pos + (if k.wc.nacc = 0 then 0 else 1) ∧
      (k.wc.nacc ≠ 0 → k.wc.pos + 1 ≤ k.wc.cap.toNat) := by
  unfold flush at h
  split at h
  · rename_i h0
    split at h
    · cases h
    · rename_i hc
      injection h with h
      subst h
      refine ⟨⟨rfl, rfl, Nat.le_succ _, fun a ha => ?_, fun hm => Mem.write_wf _ _ hm⟩, ?_, ?_, fun _ => by omega⟩
      · dsimp only at ha ⊢
        exact Mem.read_write_other _ _ (by omega)
      · simp [Nat.pos_iff_ne_zero.mp h0]
      · simp [Nat.pos_iff_ne_zero.mp h0]
  · rename_i h0
    injection h with h
    subst h
    have h0 : k.wc.nacc = 0 := by omega
    exact ⟨SinkStep.refl k, by simp [h0], by simp [h0], fun hn => absurd h0 hn⟩

theorem flush_error {k : Sink} {e : Full} (h : flush k = .error e) :
    e = ⟨k.wc.pos⟩ ∧ 0 < k.wc.nacc ∧ k.wc.cap.toNat ≤ k.wc.pos := by
  unfold flush at h
  split at h
  · rename_i h0
    split at h
    · rename_i hc
      injection h with h
      exact ⟨h.symm, h0, by omega⟩
    · cases h
  · cases h

/-- `flush` keeps the write cursor's invariant (10_state.md R152). -/
theorem flush_wcOk {k k' : Sink} (h : flush k = .ok k') (hk : WCurOk k.wc) : WCurOk k'.wc := by
  unfold flush at h
  split at h
  · split at h
    · cases h
    · injection h with h
      subst h
      exact ⟨Nat.succ_pos 7, Nat.one_pos, by dsimp only; omega, hk.legal⟩
  · injection h with h
    exact h ▸ hk

/-! ## Host memory below its end -/

theorem putbit_below {b : Nat} {k : Sink} (hs : k.wc.base.toNat + (putbit b k).wc.pos ≤ addrSpace)
    (h : Mem.below addrSpace k.mem = true) : Mem.below addrSpace (putbit b k).mem = true := by
  unfold putbit at hs ⊢
  dsimp only at hs ⊢
  split at hs <;> rename_i h8
  · rw [if_pos h8]
    dsimp only at hs ⊢
    exact Mem.write_below _ (by omega) h
  · rw [if_neg h8]
    exact h

theorem putbitsLoop_below (n v : Nat) {k : Sink} (hs : k.wc.base.toNat + (putbitsLoop n v k).wc.pos ≤ addrSpace)
    (h : Mem.below addrSpace k.mem = true) : Mem.below addrSpace (putbitsLoop n v k).mem = true := by
  induction n generalizing k with
  | zero => exact h
  | succ n ih =>
    have h1 := putbit_step ((v >>> n) &&& 1) k
    have h2 := putbitsLoop_step n v (putbit ((v >>> n) &&& 1) k)
    rw [putbitsLoop] at hs
    have h3 := h2.pos_le
    refine ih (by rw [h1.base]; exact hs) (putbit_below (by omega) h)

theorem putbits_below {n v : Nat} {k k' : Sink} (h : putbits n v k = .ok k') (hk : WCurOk k.wc)
    (hm : Mem.below addrSpace k.mem = true) : Mem.below addrSpace k'.mem = true := by
  have hw := putbits_wcOk h hk
  obtain ⟨_, rfl, hs⟩ := putbits_ok h
  have h1 := hw.pos_le
  have h2 := hw.legal
  rw [hs.base] at h2
  exact putbitsLoop_below n v (by omega) hm

theorem flush_below {k k' : Sink} (h : flush k = .ok k') (hk : WCurOk k.wc)
    (hm : Mem.below addrSpace k.mem = true) : Mem.below addrSpace k'.mem = true := by
  unfold flush at h
  split at h
  · split at h
    · cases h
    · injection h with h
      subst h
      have := hk.legal
      exact Mem.write_below _ (by omega) hm
  · injection h with h
    exact h ▸ hm

/-! ## Reading -/

/-- One bit moves the cursor by one bit inside its region (41_bitstream.md R440). -/
theorem takeBit_rcOk {m : Mem} {r : RCur} (h : RCurOk r) (hu : 1 ≤ r.unread) :
    RCurOk (takeBit m r).2 ∧ (takeBit m r).2.unread = r.unread - 1 ∧ (takeBit m r).1 ≤ 1 ∧
      (takeBit m r).2.base = r.base ∧ (takeBit m r).2.len = r.len := by
  have hl := h.legal
  have hp := h.place
  unfold RCur.unread at *
  unfold takeBit
  dsimp only
  split
  · refine ⟨⟨?_, hl⟩, ?_, Nat.and_le_right, rfl, rfl⟩ <;> dsimp only <;> omega
  · refine ⟨⟨?_, hl⟩, ?_, Nat.and_le_right, rfl, rfl⟩ <;> dsimp only <;> omega

theorem getbitsLoop_rcOk {m : Mem} (n v : Nat) {r : RCur} (h : RCurOk r) (hu : n ≤ r.unread) :
    RCurOk (getbitsLoop m n v r).2 ∧ (getbitsLoop m n v r).2.unread = r.unread - n ∧
      (getbitsLoop m n v r).2.base = r.base ∧ (getbitsLoop m n v r).2.len = r.len := by
  induction n generalizing v r with
  | zero => exact ⟨h, rfl, rfl, rfl⟩
  | succ n ih =>
    obtain ⟨h1, h2, _, h4, h5⟩ := takeBit_rcOk (m := m) h (by omega)
    obtain ⟨h6, h7, h8, h9⟩ := ih ((v <<< 1) ||| (takeBit m r).1) h1 (by omega)
    exact ⟨h6, by rw [getbitsLoop, h7, h2]; omega, h8.trans h4, h9.trans h5⟩

/-- What `getbits` can answer (41_bitstream.md R440). -/
theorem getbits_ok {m : Mem} {n : Nat} {r : RCur} {p : Nat × RCur} (h : getbits m n r = .ok p) :
    n ≤ r.unread ∧ p = getbitsLoop m n 0 r := by
  unfold getbits at h
  split at h
  · cases h
  · injection h with h
    exact ⟨by omega, h.symm⟩

theorem getbits_error {m : Mem} {n : Nat} {r : RCur} {e : ReadStop} (h : getbits m n r = .error e) :
    e = ⟨.truncatedStream, r⟩ ∧ r.unread < n := by
  unfold getbits at h
  split at h
  · rename_i hu
    injection h with h
    exact ⟨h.symm, hu⟩
  · cases h

theorem getbits_rcOk {m : Mem} {n : Nat} {r : RCur} {p : Nat × RCur} (h : getbits m n r = .ok p) (hr : RCurOk r) :
    RCurOk p.2 := by
  obtain ⟨h1, rfl⟩ := getbits_ok h
  exact (getbitsLoop_rcOk n 0 hr h1).1

/-- `align` keeps the read cursor's invariant (41_bitstream.md R441). -/
theorem align_rcOk {r : RCur} (h : RCurOk r) : RCurOk (align r).2 := by
  have hp := h.place
  unfold align
  split
  · exact h
  · refine ⟨?_, h.legal⟩
    dsimp only
    omega

end Sys2Proof.Machine
end

