-- ==== Sys2Proof/Laws/PrefixCode.lean ====
section
/-!
SUPPORT. Laws/PrefixCode.lean: the sizes of what the Prefix Code Builder returns (43_prefix_code.md R481, R485) and
everything `decode_sym` can answer (R490), said once.
-/

namespace Sys2Proof.Machine

open Sys2Proof.Safety

@[simp] theorem length_lengthsOf (n : Nat) (d : List (Nat × Nat)) : (lengthsOf n d).length = n := by
  simp [lengthsOf]

/-- `huff_once` gives one length per symbol (43_prefix_code.md R482). -/
@[simp] theorem length_huffOnce (f : List Nat) : (huffOnce f).length = f.length := by
  unfold huffOnce
  split
  · simp
  · simp
  · split <;> simp

theorem length_limitLoop (n : Nat) (g : List Nat) (p : Nat) : (limitLoop n g p).1.length = g.length := by
  induction n generalizing g p with
  | zero => simp [limitLoop]
  | succ n ih =>
    rw [limitLoop]
    split
    · simp
    · rw [ih]; simp

/-- `build_lengths` gives one length per symbol (43_prefix_code.md R481). -/
@[simp] theorem length_buildLengths (f : List Nat) : (buildLengths f).1.length = f.length :=
  length_limitLoop _ _ _

theorem length_assignCodes (l next : List Nat) : (assignCodes l next).length = l.length := by
  induction l generalizing next with
  | nil => rfl
  | cons x l ih =>
    rw [assignCodes]
    split <;> simp [ih]

/-- `canonical` gives one code per symbol (43_prefix_code.md R485). -/
@[simp] theorem length_canonical (len : List Nat) : (canonical len).length = len.length :=
  length_assignCodes _ _

theorem length_recordBytes {l c : List Nat} (h : l.length = c.length) : (recordBytes l c).length = 4 * l.length := by
  induction l generalizing c with
  | nil => cases c <;> simp_all [recordBytes]
  | cons x l ih =>
    cases c with
    | nil => simp at h
    | cons y c =>
      simp only [List.length_cons, Nat.add_right_cancel_iff] at h
      simp only [recordBytes, List.length_cons, ih h]
      omega

@[simp] theorem length_readFreqs (a n : Nat) (m : Mem) : (readFreqs a n m).length = n := by
  simp [readFreqs]

/-! ## Decoding one symbol -/

theorem getbit_ok {m : Mem} {r : RCur} {p : Nat × RCur} (h : getbit m r = .ok p) : 1 ≤ r.unread ∧ p = takeBit m r := by
  unfold getbit at h
  split at h
  · cases h
  · injection h with h
    exact ⟨by omega, h.symm⟩

theorem getbit_error {m : Mem} {r : RCur} {e : ReadStop} (h : getbit m r = .error e) :
    e = ⟨.truncatedStream, r⟩ ∧ r.unread = 0 := by
  unfold getbit at h
  split at h
  · injection h with h
    exact ⟨h.symm, by omega⟩
  · cases h

/-- A symbol is decoded by reading at least one and at most `n` bits; the cursor stays well placed. -/
theorem decodeLoop_ok {m : Mem} {len : List Nat} {n l code : Nat} {r : RCur} {p : Nat × RCur}
    (h : decodeLoop m len n l code r = .ok p) (hr : RCurOk r) :
    RCurOk p.2 ∧ p.2.base = r.base ∧ p.2.len = r.len ∧ p.2.unread < r.unread ∧ r.unread ≤ p.2.unread + n := by
  induction n generalizing l code r with
  | zero => cases h
  | succ n ih =>
    rw [decodeLoop] at h
    split at h
    · cases h
    · rename_i b r1 hg
      obtain ⟨hu, hb⟩ := getbit_ok hg
      obtain ⟨h1, h2, _, h4, h5⟩ := takeBit_rcOk (m := m) hr hu
      have hr1 : r1 = (takeBit m r).2 := congrArg Prod.snd hb
      subst hr1
      dsimp only at h
      split at h
      · injection h with h
        subst h
        exact ⟨h1, h4, h5, by dsimp only; omega, by dsimp only; omega⟩
      · obtain ⟨h6, h7, h8, h9, h10⟩ := ih h h1
        exact ⟨h6, h7.trans h4, h8.trans h5, by omega, by omega⟩

theorem decodeLoop_error {m : Mem} {len : List Nat} {n l code : Nat} {r : RCur} {e : ReadStop}
    (h : decodeLoop m len n l code r = .error e) : e.err = .truncatedStream ∨ e.err = .corruptStream := by
  induction n generalizing l code r with
  | zero => injection h with h; exact .inr (h ▸ rfl)
  | succ n ih =>
    rw [decodeLoop] at h
    split at h
    · rename_i e' hg
      injection h with h
      exact .inl (h ▸ congrArg ReadStop.err (getbit_error hg).1)
    · dsimp only at h
      split at h
      · cases h
      · exact ih h

/-- What `decode_sym` can answer (43_prefix_code.md R490). -/
theorem decodeSym_ok {m : Mem} {len : List Nat} {r : RCur} {p : Nat × RCur} (h : decodeSym m len r = .ok p)
    (hr : RCurOk r) :
    RCurOk p.2 ∧ p.2.base = r.base ∧ p.2.len = r.len ∧ p.2.unread < r.unread ∧
      r.unread ≤ p.2.unread + maxCodeLen :=
  decodeLoop_ok h hr

theorem decodeSym_error {m : Mem} {len : List Nat} {r : RCur} {e : ReadStop} (h : decodeSym m len r = .error e) :
    e.err = .truncatedStream ∨ e.err = .corruptStream :=
  decodeLoop_error h

end Sys2Proof.Machine
end

