-- ==== Sys2Proof/Laws/Codec.lean ====
section
/-!
SUPPORT. Laws/Codec.lean: the initial tables are sound (44_adaptive_codec.md R521, R528), and everything coding one symbol can
do (R530, R531), said once.
-/

namespace Sys2Proof.Machine

open Sys2Proof.Safety

@[simp] theorem rebuild_freq (t : Table) : t.rebuild.freq = t.freq := rfl
@[simp] theorem rebuild_n (t : Table) : t.rebuild.n = t.n := rfl
@[simp] theorem rebuild_interval (t : Table) : t.rebuild.interval = t.interval := rfl
@[simp] theorem rebuild_countdown (t : Table) : t.rebuild.countdown = t.countdown := rfl
@[simp] theorem rebuild_len (t : Table) : t.rebuild.len = (buildLengths t.freq).1 := rfl
@[simp] theorem rebuild_code (t : Table) : t.rebuild.code = canonical (buildLengths t.freq).1 := rfl

@[simp] theorem initTable_n (lc : LCfg) (n : Nat) : (initTable lc n).n = n := rfl
@[simp] theorem initTable_freq (lc : LCfg) (n : Nat) : (initTable lc n).freq = List.replicate n 1 := rfl
@[simp] theorem initTable_interval (lc : LCfg) (n : Nat) : (initTable lc n).interval = initialInterval lc := rfl
@[simp] theorem initTable_countdown (lc : LCfg) (n : Nat) : (initTable lc n).countdown = initialInterval lc := rfl
@[simp] theorem initTable_len (lc : LCfg) (n : Nat) :
    (initTable lc n).len = (buildLengths (List.replicate n 1)).1 := rfl
@[simp] theorem initTable_code (lc : LCfg) (n : Nat) :
    (initTable lc n).code = canonical (buildLengths (List.replicate n 1)).1 := rfl

/-- The initial interval is in range (44_adaptive_codec.md R522). -/
theorem initialInterval_range {p : Config.Platform} {lc : LCfg} (h : LCfgOk p lc) :
    1 ≤ initialInterval lc ∧ initialInterval lc ≤ lc.maxint := by
  have h1 := h.rate_le
  have h2 := h.maxint_ge
  unfold initialInterval
  omega

/-- An initial table is sound (44_adaptive_codec.md R521, R528). -/
theorem initTable_sound {p : Config.Platform} {lc : LCfg} (h : LCfgOk p lc) (n : Nat) :
    TableSound lc n (initTable lc n) := by
  obtain ⟨h1, h2⟩ := initialInterval_range h
  have hs : (List.replicate n 1).sum = n := by simp
  have hp : ∀ x ∈ List.replicate n 1, 1 ≤ x := fun x hx => Nat.le_of_eq (List.eq_of_mem_replicate hx).symm
  refine ⟨⟨rfl, ?_, ?_, ?_, hp, h1, h1⟩, Nat.le_refl _, h2, ?_, ⟨List.replicate n 1, ?_, hp, rfl, rfl⟩⟩
  · simp
  · simp
  · simp
  · rw [initTable_freq, hs, initTable_interval, initTable_countdown]
    omega
  · simp

/-- Every initial table is sound (49_context.md R714). -/
theorem initTabs_sound {p : Config.Platform} {lc : LCfg} (h : LCfgOk p lc) (c : SymClass) :
    TableSound lc (alphabetSize c lc.dict) ((initTabs lc).get c) := by
  rw [initTabs_get]
  exact initTable_sound h _

/-- What encoding one symbol can answer (44_adaptive_codec.md R530). -/
theorem encSym_ok {lc : LCfg} {c : SymClass} {sym : Nat} {e e' : Enc} (h : encSym lc c sym e = .ok e') :
    putbits ((e.tab.get c).len.getD sym 0) ((e.tab.get c).code.getD sym 0) e.sink = .ok e'.sink ∧
      e'.tab = e.tab.set c ((e.tab.get c).update lc sym) := by
  unfold encSym at h
  dsimp only at h
  split at h
  · cases h
  · rename_i k hk
    injection h with h
    subst h
    exact ⟨hk, rfl⟩

theorem encSym_error {lc : LCfg} {c : SymClass} {sym : Nat} {e : Enc} {x : Full}
    (h : encSym lc c sym e = .error x) : x = ⟨e.sink.wc.pos⟩ := by
  unfold encSym at h
  dsimp only at h
  split at h
  · rename_i y hy
    injection h with h
    exact h ▸ (putbits_error hy).1
  · cases h

/-- What decoding one symbol can answer (44_adaptive_codec.md R531). -/
theorem decSym_ok {m : Mem} {lc : LCfg} {c : SymClass} {d : Dec} {p : Nat × Dec} (h : decSym m lc c d = .ok p) :
    decodeSym m (d.tab.get c).len d.rc = .ok (p.1, p.2.rc) ∧
      p.2.tab = d.tab.set c ((d.tab.get c).update lc p.1) := by
  unfold decSym at h
  dsimp only at h
  split at h
  · cases h
  · rename_i sym r hk
    injection h with h
    subst h
    exact ⟨hk, rfl⟩

theorem decSym_error {m : Mem} {lc : LCfg} {c : SymClass} {d : Dec} {x : ReadStop} (h : decSym m lc c d = .error x) :
    x.err = .truncatedStream ∨ x.err = .corruptStream := by
  unfold decSym at h
  dsimp only at h
  split at h
  · rename_i y hy
    injection h with h
    exact h ▸ decodeSym_error hy
  · cases h

end Sys2Proof.Machine
end

