-- ==== Sys2Proof/Laws/Free.lean ====
section
/-!
SUPPORT. Laws/Free.lean: what is known of a free value: that it lies in the range of its field (log 10), and nothing else.
-/

namespace Sys2Proof.Machine

open Sys2Proof.Safety

theorem freeIn_ge (k slot lo span : Nat) : lo ≤ freeIn k slot lo span := Nat.le_add_right _ _

theorem freeIn_lt (k slot lo : Nat) {span : Nat} (h : 0 < span) : freeIn k slot lo span < lo + span :=
  Nat.add_lt_add_left (Nat.mod_lt _ h) _

@[simp] theorem length_freeList (k slot n lo span : Nat) : (freeList k slot n lo span).length = n := by
  simp [freeList]

theorem freeList_ge {k slot n lo span x : Nat} (h : x ∈ freeList k slot n lo span) : lo ≤ x := by
  simp only [freeList, List.mem_map] at h
  obtain ⟨i, _, rfl⟩ := h
  exact Nat.le_add_right _ _

/-- A free table has its class's sizes, and its fields their ranges (10_state.md R154). -/
theorem freeTable_shape (k slot n : Nat) : TableShape n (freeTable k slot n) where
  size := rfl
  freq_length := length_freeList ..
  len_length := length_freeList ..
  code_length := length_freeList ..
  freq_pos _ h := freeList_ge h
  interval_ge := freeIn_ge ..
  countdown_ge := freeIn_ge ..

/-- The free tables of an alphabet (10_state.md R154). -/
theorem freeTabs_shape (k dict : Nat) (c : SymClass) : TableShape (alphabetSize c dict) ((freeTabs k dict).get c) := by
  obtain ⟨slot, h⟩ := freeTabs_get k dict c
  rw [h]
  exact freeTable_shape ..

/-- A region cut at the end of host memory fits in it. -/
theorem cut_region (base len : Word) :
    (BitVec.ofNat 32 (min len.toNat (addrSpace - base.toNat))).toNat ≤ addrSpace - base.toNat := by
  have h1 := len.isLt
  simp only [BitVec.toNat_ofNat, addrSpace]
  omega

/-- A free write cursor meets R152 over a legal region. -/
theorem freeWCur_ok (k : Nat) : WCurOk (freeWCur k) := by
  have hc := cut_region (freeWord k 1) (freeWord k 2)
  have hb := (freeWord k 1).isLt
  have h1 := freeIn_lt k 4 0 (span := 8) (by omega)
  have h2 := freeIn_lt k 5 0 (span := 2 ^ freeIn k 4 0 8) (Nat.two_pow_pos _)
  have h3 := freeIn_lt k 3 0
    (span := (BitVec.ofNat 32 (min (freeWord k 2).toNat (addrSpace - (freeWord k 1).toNat))).toNat + 1) (by omega)
  refine ⟨by simpa [freeWCur] using h1, by simpa [freeWCur] using h2, ?_, ?_⟩
  · simp only [freeWCur]
    omega
  · simp only [freeWCur]
    simp only [addrSpace] at hc ⊢
    omega

/-- A free read cursor meets R153 over a legal region. -/
theorem freeRCur_ok (k : Nat) : RCurOk (freeRCur k) := by
  have hc := cut_region (freeWord k 6) (freeWord k 7)
  have hb := (freeWord k 6).isLt
  have h3 := freeIn_lt k 8 0
    (span := (BitVec.ofNat 32 (min (freeWord k 7).toNat (addrSpace - (freeWord k 6).toNat))).toNat + 1) (by omega)
  have h4 := freeIn_lt k 9 0 (span := 8) (by omega)
  refine ⟨?_, ?_⟩
  · simp only [freeRCur]
    split <;> omega
  · simp only [freeRCur]
    simp only [addrSpace] at hc ⊢
    omega

/-- A free window is a canonical byte store inside its slots. -/
theorem freeWin_ok (k : Nat) {dict : Nat} (h : dict ≤ 30) :
    (freeWin k dict).ring.wf = true ∧ Mem.below (2 ^ 30) (freeWin k dict).ring = true := by
  refine ⟨Mem.writeInside_wf _ _ rfl, Mem.writeInside_below _ _ (fun a ha _ => ?_) rfl⟩
  have h1 : 2 ^ dict ≤ 2 ^ 30 := Nat.pow_le_pow_right (by omega) h
  simp only [Region.contains, Bool.and_eq_true, decide_eq_true_eq] at ha
  omega

/-- A free latched exponent is a legal one of the format (10_state.md R151). -/
theorem freeLCfg_dict (k : Nat) : 15 ≤ (freeLCfg k).dict ∧ (freeLCfg k).dict ≤ 30 := by
  have h1 := freeIn_ge k 11 15 16
  have h2 := freeIn_lt k 11 15 (span := 16) (by omega)
  simp only [freeLCfg]
  omega

/-- A free region leaves every byte outside it alone. -/
theorem freeRegion_other {k : Nat} {r : Region} {a : Nat} (m : Mem) (h : r.contains a = false) :
    Mem.read a (freeRegion k r m) = Mem.read a m :=
  Mem.read_writeInside_other _ m h

theorem freeRegion_wf (k : Nat) (r : Region) {m : Mem} (h : m.wf = true) : (freeRegion k r m).wf = true :=
  Mem.writeInside_wf _ _ h

theorem freeRegion_below (k : Nat) (r : Region) {m : Mem} (h : Mem.below addrSpace m = true) :
    Mem.below addrSpace (freeRegion k r m) = true :=
  Mem.writeInside_below _ _ (fun _ _ h => h) h

end Sys2Proof.Machine
end

