-- ==== Sys2Proof/Laws/Window.lean ====
section
/-!
SUPPORT. Laws/Window.lean: what appends do to the counter and the ring (45_window.md R571).
-/

namespace Sys2Proof.Machine

@[simp] theorem append_total (w : Nat) (b : Byte) (v : Win) : (v.append w b).total = v.total + 1 := rfl

@[simp] theorem append_ring (w : Nat) (b : Byte) (v : Win) :
    (v.append w b).ring = Mem.write (v.total.toNat % w) b v.ring := rfl

@[simp] theorem clear_total (v : Win) : v.clear.total = 0 := rfl
@[simp] theorem clear_ring (v : Win) : v.clear.ring = v.ring := rfl

theorem append_ring_wf (w : Nat) (b : Byte) {v : Win} (h : v.ring.wf = true) : (v.append w b).ring.wf = true :=
  Mem.write_wf _ _ h

theorem append_ring_below {n w : Nat} (b : Byte) {v : Win} (hw : 0 < w) (hn : w ≤ n)
    (h : Mem.below n v.ring = true) : Mem.below n (v.append w b).ring = true :=
  Mem.write_below b (Nat.lt_of_lt_of_le (Nat.mod_lt _ hw) hn) h

/-- The counter after a list of appends (45_window.md R571). -/
theorem appendList_total (w : Nat) (bs : List Byte) (v : Win) :
    (v.appendList w bs).total = v.total + BitVec.ofNat 64 bs.length := by
  induction bs generalizing v with
  | nil => simp [Win.appendList]
  | cons b bs ih =>
    rw [Win.appendList, ih, append_total, List.length_cons]
    apply BitVec.eq_of_toNat_eq
    have h1 : (1 : BitVec 64).toNat = 1 := rfl
    simp only [BitVec.toNat_add, BitVec.toNat_ofNat, h1]
    omega

theorem appendList_ring_wf (w : Nat) (bs : List Byte) {v : Win} (h : v.ring.wf = true) :
    (v.appendList w bs).ring.wf = true := by
  induction bs generalizing v with
  | nil => exact h
  | cons b bs ih => exact ih (append_ring_wf w b h)

theorem appendList_ring_below {n w : Nat} (bs : List Byte) {v : Win} (hw : 0 < w) (hn : w ≤ n)
    (h : Mem.below n v.ring = true) : Mem.below n (v.appendList w bs).ring = true := by
  induction bs generalizing v with
  | nil => exact h
  | cons b bs ih => exact ih (append_ring_below b hw hn h)

/-- The byte just appended is the one at distance 1 (45_window.md R572). -/
theorem wread_append_one {w : Nat} (b : Byte) {v : Win} (ht : v.total.toNat + 1 < 2 ^ 64)
    (h : v.ring.wf = true) : (v.append w b).wread w 1 = b := by
  have h1 : (v.total + 1).toNat = v.total.toNat + 1 := by
    rw [BitVec.toNat_add]
    exact Nat.mod_eq_of_lt (by simpa using ht)
  rw [Win.wread, append_total, append_ring, h1, Nat.add_sub_cancel]
  exact Mem.read_write_same _ b h

end Sys2Proof.Machine
end

