-- ==== Sys2Proof/Laws/Parser.lean ====
section
/-!
SUPPORT. Laws/Parser.lean: what each step of the parser and of COMPRESS does to the write cursor and to memory, and how
far it had stored when it ran out of room (47_parser_compress.md), said once.
-/

namespace Sys2Proof.Machine

open Sys2Proof.Safety

/-- A write through the cursor that also keeps the cursor's invariant and host memory's bound. -/
structure SinkOk (k k' : Sink) : Prop where
  step  : SinkStep k k'
  wc    : WCurOk k.wc → WCurOk k'.wc
  below : WCurOk k.wc → Mem.below addrSpace k.mem = true → Mem.below addrSpace k'.mem = true

theorem SinkOk.refl (k : Sink) : SinkOk k k := ⟨SinkStep.refl k, id, fun _ h => h⟩

theorem SinkOk.trans {k k' k'' : Sink} (h : SinkOk k k') (h' : SinkOk k' k'') : SinkOk k k'' :=
  ⟨h.step.trans h'.step, fun hw => h'.wc (h.wc hw), fun hw hm => h'.below (h.wc hw) (h.below hw hm)⟩

theorem putbits_sink {n v : Nat} {k k' : Sink} (h : putbits n v k = .ok k') : SinkOk k k' :=
  ⟨(putbits_ok h).2.2, putbits_wcOk h, putbits_below h⟩

theorem flush_sink {k k' : Sink} (h : flush k = .ok k') : SinkOk k k' :=
  ⟨(flush_ok h).1, flush_wcOk h, flush_below h⟩

/-- How far a write that ran out of room had stored: at or past where it started, and inside the region. -/
structure FullOk (k : Sink) (x : Full) : Prop where
  ge : k.wc.pos ≤ x.stored
  le : WCurOk k.wc → x.stored ≤ k.wc.cap.toNat

/-- A later write through the same cursor ran out of room. -/
theorem SinkOk.full {k k' : Sink} {x : Full} (h : SinkOk k k') (hx : FullOk k' x) : FullOk k x where
  ge := Nat.le_trans h.step.pos_le hx.ge
  le hw := h.step.cap ▸ hx.le (h.wc hw)

theorem putbits_full {n v : Nat} {k : Sink} {x : Full} (h : putbits n v k = .error x) : FullOk k x := by
  obtain ⟨rfl, _⟩ := putbits_error h
  exact ⟨Nat.le_refl _, fun hw => hw.pos_le⟩

theorem flush_full {k : Sink} {x : Full} (h : flush k = .error x) : FullOk k x := by
  obtain ⟨rfl, _⟩ := flush_error h
  exact ⟨Nat.le_refl _, fun hw => hw.pos_le⟩

/-! ## Sequencing -/

/-- A sequence that succeeds passed through its first part. -/
theorem bind_ok {ε α β : Type} {x : Except ε α} {f : α → Except ε β} {b : β} (h : (x >>= f) = .ok b) :
    ∃ a, x = .ok a ∧ f a = .ok b := by
  cases x with
  | error e => cases h
  | ok a => exact ⟨a, rfl, h⟩

/-- A sequence that fails, fails in its first part or in the rest. -/
theorem bind_error {ε α β : Type} {x : Except ε α} {f : α → Except ε β} {e : ε} (h : (x >>= f) = .error e) :
    x = .error e ∨ ∃ a, x = .ok a ∧ f a = .error e := by
  cases x with
  | error e' =>
    injection h with h
    exact .inl (h ▸ rfl)
  | ok a => exact .inr ⟨a, rfl, h⟩

/-- A mapped result that succeeds. -/
theorem map_ok {ε α β : Type} {x : Except ε α} {f : α → β} {b : β} (h : x.map f = .ok b) :
    ∃ a, x = .ok a ∧ b = f a := by
  cases x with
  | error e => cases h
  | ok a =>
    injection h with h
    exact ⟨a, rfl, h.symm⟩

/-- A mapped result that fails. -/
theorem map_error {ε α β : Type} {x : Except ε α} {f : α → β} {e : ε} (h : x.map f = .error e) : x = .error e := by
  cases x with
  | error e' =>
    injection h with h
    exact h ▸ rfl
  | ok a => cases h

/-! ## Tokens (47_parser_compress.md R627) -/

theorem encSym_sink {lc : LCfg} {c : SymClass} {sym : Nat} {e e' : Enc} (h : encSym lc c sym e = .ok e') :
    SinkOk e.sink e'.sink :=
  putbits_sink (encSym_ok h).1

theorem encSym_full {lc : LCfg} {c : SymClass} {sym : Nat} {e : Enc} {x : Full} (h : encSym lc c sym e = .error x) :
    FullOk e.sink x := by
  obtain rfl := encSym_error h
  exact ⟨Nat.le_refl _, fun hw => hw.pos_le⟩

theorem emitRaw_ok {n v : Nat} {e e' : Enc} (h : emitRaw n v e = .ok e') :
    SinkOk e.sink e'.sink ∧ e'.tab = e.tab := by
  obtain ⟨k, hk, rfl⟩ := map_ok h
  exact ⟨putbits_sink hk, rfl⟩

theorem emitRaw_full {n v : Nat} {e : Enc} {x : Full} (h : emitRaw n v e = .error x) : FullOk e.sink x :=
  putbits_full (map_error h)

theorem emitLiteral_sink {lc : LCfg} {b : Byte} {e e' : Enc} (h : emitLiteral lc b e = .ok e') :
    SinkOk e.sink e'.sink := by
  obtain ⟨e1, h1, h2⟩ := bind_ok h
  exact (encSym_sink h1).trans (encSym_sink h2)

theorem emitLiteral_full {lc : LCfg} {b : Byte} {e : Enc} {x : Full} (h : emitLiteral lc b e = .error x) :
    FullOk e.sink x := by
  obtain h | ⟨_, h1, h⟩ := bind_error h
  · exact encSym_full h
  · exact (encSym_sink h1).full (encSym_full h)

theorem emitMatch_sink {lc : LCfg} {l d : Nat} {e e' : Enc} (h : emitMatch lc l d e = .ok e') :
    SinkOk e.sink e'.sink := by
  obtain ⟨e1, h1, h⟩ := bind_ok h
  obtain ⟨e2, h2, h⟩ := bind_ok h
  obtain ⟨e3, h3, h⟩ := bind_ok h
  obtain ⟨e4, h4, h5⟩ := bind_ok h
  exact (((encSym_sink h1).trans (encSym_sink h2)).trans (emitRaw_ok h3).1).trans
    ((encSym_sink h4).trans (emitRaw_ok h5).1)

theorem emitMatch_full {lc : LCfg} {l d : Nat} {e : Enc} {x : Full} (h : emitMatch lc l d e = .error x) :
    FullOk e.sink x := by
  obtain h | ⟨_, h1, h⟩ := bind_error h
  · exact encSym_full h
  refine (encSym_sink h1).full ?_
  obtain h | ⟨_, h1, h⟩ := bind_error h
  · exact encSym_full h
  refine (encSym_sink h1).full ?_
  obtain h | ⟨_, h1, h⟩ := bind_error h
  · exact emitRaw_full h
  refine (emitRaw_ok h1).1.full ?_
  obtain h | ⟨_, h1, h⟩ := bind_error h
  · exact encSym_full h
  · exact (encSym_sink h1).full (emitRaw_full h)

/-! ## The parse (47_parser_compress.md R625) -/

/-- What the parse of a chunk does to the write cursor and to memory. -/
theorem parse_sink {lc : LCfg} {bs : List Byte} {skip : Nat} {k k' : Comp} (h : parse lc bs skip k = .ok k') :
    SinkOk k.enc.sink k'.enc.sink := by
  induction bs generalizing skip k with
  | nil =>
    cases skip <;> (injection h with h; exact h ▸ SinkOk.refl _)
  | cons b bs ih =>
    cases skip with
    | succ n => exact ih h
    | zero =>
      rw [parse] at h
      split at h
      · split at h
        · cases h
        · rename_i e he
          exact (emitMatch_sink he).trans (ih h)
      · split at h
        · cases h
        · rename_i e he
          exact (emitLiteral_sink he).trans (ih h)

/-- How far a parse that ran out of room had stored. -/
theorem parse_full {lc : LCfg} {bs : List Byte} {skip : Nat} {k : Comp} {x : Full}
    (h : parse lc bs skip k = .error x) : FullOk k.enc.sink x := by
  induction bs generalizing skip k with
  | nil => cases skip <;> cases h
  | cons b bs ih =>
    cases skip with
    | succ n => exact ih h
    | zero =>
      rw [parse] at h
      split at h
      · split at h
        · rename_i e he
          injection h with h
          exact h ▸ emitMatch_full he
        · rename_i e he
          exact (emitMatch_sink he).full (ih h)
      · split at h
        · rename_i e he
          injection h with h
          exact h ▸ emitLiteral_full he
        · rename_i e he
          exact (emitLiteral_sink he).full (ih h)

/-- The parse of a chunk keeps the ring canonical. -/
theorem parse_window {lc : LCfg} {bs : List Byte} {skip : Nat} {k k' : Comp} (h : parse lc bs skip k = .ok k')
    (hr : k.win.ring.wf = true) : k'.win.ring.wf = true := by
  induction bs generalizing skip k with
  | nil =>
    cases skip <;> (injection h with h; exact h ▸ hr)
  | cons b bs ih =>
    cases skip with
    | succ n => exact ih h hr
    | zero =>
      rw [parse] at h
      split at h
      · split at h
        · cases h
        · exact ih h (appendList_ring_wf _ _ hr)
      · split at h
        · cases h
        · exact ih h (append_ring_wf _ _ hr)

/-! ## COMPRESS (47_parser_compress.md R640) -/

theorem putBytes_sink {bs : List Byte} {k k' : Sink} (h : putBytes bs k = .ok k') : SinkOk k k' := by
  induction bs generalizing k with
  | nil => injection h with h; exact h ▸ SinkOk.refl _
  | cons b bs ih =>
    rw [putBytes] at h
    split at h
    · cases h
    · rename_i k1 h1
      exact (putbits_sink h1).trans (ih h)

theorem putBytes_full {bs : List Byte} {k : Sink} {x : Full} (h : putBytes bs k = .error x) : FullOk k x := by
  induction bs generalizing k with
  | nil => cases h
  | cons b bs ih =>
    rw [putBytes] at h
    split at h
    · rename_i e he
      injection h with h
      exact h ▸ putbits_full he
    · rename_i k1 h1
      exact (putbits_sink h1).full (ih h)

theorem compressEnd_sink {lc : LCfg} {a : Word} {e e' : Enc} (h : compressEnd lc a e = .ok e') :
    SinkOk e.sink e'.sink := by
  obtain ⟨e1, h1, h⟩ := bind_ok h
  obtain ⟨k, h2, h⟩ := bind_ok h
  obtain ⟨k1, h3, h⟩ := bind_ok h
  injection h with h
  subst h
  exact ((encSym_sink h1).trans (flush_sink h2)).trans (putBytes_sink h3)

theorem compressEnd_full {lc : LCfg} {a : Word} {e : Enc} {x : Full} (h : compressEnd lc a e = .error x) :
    FullOk e.sink x := by
  obtain h | ⟨_, h1, h⟩ := bind_error h
  · exact encSym_full h
  refine (encSym_sink h1).full ?_
  obtain h | ⟨_, h1, h⟩ := bind_error h
  · exact flush_full h
  refine (flush_sink h1).full ?_
  obtain h | ⟨_, h1, h⟩ := bind_error h
  · exact putBytes_full h
  · cases h

end Sys2Proof.Machine
end

