-- ==== Sys2Proof/Laws/PerInstr.lean ====
section
/-!
SUPPORT. Laws/PerInstr.lean: what is said of every command one by one: the word the encoder writes has the fields
of the command's row of the opcode map, and is well-formed (30_encoding.md R300 to R302).
-/

namespace Sys2Proof.Laws

/-- The encoder's word has the fields of the command's row, and they are well-formed. -/
def CommandWord.Statement (i : Instr) : Prop :=
  CmdFields.ofWord (encode i) = i.fields ∧ i.wellFormed = true

theorem CommandWord.cinit : CommandWord.Statement .cinit := ⟨rfl, rfl⟩

theorem CommandWord.dinit : CommandWord.Statement .dinit := ⟨rfl, rfl⟩

theorem CommandWord.reinit : CommandWord.Statement .reinit := ⟨rfl, rfl⟩

theorem CommandWord.close : CommandWord.Statement .close := ⟨rfl, rfl⟩

theorem CommandWord.compress (f : Bool) : CommandWord.Statement (.compress f) := by
  cases f <;> exact ⟨rfl, rfl⟩

theorem CommandWord.decompress : CommandWord.Statement .decompress := ⟨rfl, rfl⟩

theorem CommandWord.hbuild : CommandWord.Statement .hbuild := ⟨rfl, rfl⟩

theorem CommandWord.treset (c : SymClass) : CommandWord.Statement (.treset c) := by
  cases c <;> exact ⟨rfl, rfl⟩

theorem CommandWord.tenc (c : SymClass) : CommandWord.Statement (.tenc c) := by
  cases c <;> exact ⟨rfl, rfl⟩

theorem CommandWord.tdec (c : SymClass) : CommandWord.Statement (.tdec c) := by
  cases c <;> exact ⟨rfl, rfl⟩

theorem CommandWord.tcost (c : SymClass) : CommandWord.Statement (.tcost c) := by
  cases c <;> exact ⟨rfl, rfl⟩

theorem CommandWord.tread (c : SymClass) : CommandWord.Statement (.tread c) := by
  cases c <;> exact ⟨rfl, rfl⟩

theorem CommandWord.tstat (c : SymClass) : CommandWord.Statement (.tstat c) := by
  cases c <;> exact ⟨rfl, rfl⟩

theorem CommandWord.wsetup : CommandWord.Statement .wsetup := ⟨rfl, rfl⟩

theorem CommandWord.putbits : CommandWord.Statement .putbits := ⟨rfl, rfl⟩

theorem CommandWord.wflush : CommandWord.Statement .wflush := ⟨rfl, rfl⟩

theorem CommandWord.rsetup : CommandWord.Statement .rsetup := ⟨rfl, rfl⟩

theorem CommandWord.getbits : CommandWord.Statement .getbits := ⟨rfl, rfl⟩

theorem CommandWord.ralign : CommandWord.Statement .ralign := ⟨rfl, rfl⟩

theorem CommandWord.wput : CommandWord.Statement .wput := ⟨rfl, rfl⟩

theorem CommandWord.wget : CommandWord.Statement .wget := ⟨rfl, rfl⟩

theorem CommandWord.mfind : CommandWord.Statement .mfind := ⟨rfl, rfl⟩

theorem CommandWord.cost : CommandWord.Statement .cost := ⟨rfl, rfl⟩

theorem CommandWord.ainit : CommandWord.Statement .ainit := ⟨rfl, rfl⟩

theorem CommandWord.aupdate : CommandWord.Statement .aupdate := ⟨rfl, rfl⟩

end Sys2Proof.Laws
end

