-- ==== Sys2Proof/Tests/Slice0.lean ====
section
/-!
SUPPORT. Tests/Slice0.lean: the model's own tests. Expected values come from the spec's words and vectors (cited), never
from the model. After them, for every statement with hypotheses, a concrete state that meets them.
-/

namespace Sys2Proof.Tests

open Sys2Proof.Machine Sys2Proof.Safety

/-! ## Well-formedness: one ill-formed word per check (30_encoding.md R301) -/

theorem test_wf_opcode : (CmdFields.opcKnown ⟨0x05, 0, false, 0⟩) = false ∧ CmdFields.wellFormed ⟨0x05, 0, false, 0⟩ = false := by
  decide

theorem test_wf_reserved :
    CmdFields.reservedOk ⟨0x01, 0, false, 1⟩ = false ∧ CmdFields.wellFormed ⟨0x01, 0, false, 1⟩ = false := by decide

theorem test_wf_sel : CmdFields.selOk ⟨0x40, 2, false, 0⟩ = false ∧ CmdFields.wellFormed ⟨0x40, 2, false, 0⟩ = false := by
  decide

theorem test_wf_final : CmdFields.finalOk ⟨0x11, 0, true, 0⟩ = false ∧ CmdFields.wellFormed ⟨0x11, 0, true, 0⟩ = false := by
  decide

/-! ## Decoding: a word for each command, written out from R300 and R302: [31:11] 0, FINAL, SEL, OPC -/

theorem test_decode_context :
    decode 0b000000000000000000000_0_00_00000001#32 = .ok .cinit ∧
    decode 0b000000000000000000000_0_00_00000010#32 = .ok .dinit ∧
    decode 0b000000000000000000000_0_00_00000011#32 = .ok .reinit ∧
    decode 0b000000000000000000000_0_00_00000100#32 = .ok .close := by decide

theorem test_decode_streams :
    decode 0b000000000000000000000_0_00_00010000#32 = .ok (.compress false) ∧
    decode 0b000000000000000000000_1_00_00010000#32 = .ok (.compress true) ∧
    decode 0b000000000000000000000_0_00_00010001#32 = .ok .decompress := by decide

theorem test_decode_codes :
    decode 0b000000000000000000000_0_00_00100000#32 = .ok .hbuild ∧
    decode 0b000000000000000000000_0_00_00100001#32 = .ok (.treset .typ) ∧
    decode 0b000000000000000000000_0_01_00100010#32 = .ok (.tenc .lit) ∧
    decode 0b000000000000000000000_0_10_00100011#32 = .ok (.tdec .len) ∧
    decode 0b000000000000000000000_0_11_00100100#32 = .ok (.tcost .dist) ∧
    decode 0b000000000000000000000_0_01_00100101#32 = .ok (.tread .lit) ∧
    decode 0b000000000000000000000_0_11_00100110#32 = .ok (.tstat .dist) := by decide

theorem test_decode_bits :
    decode 0b000000000000000000000_0_00_00110000#32 = .ok .wsetup ∧
    decode 0b000000000000000000000_0_00_00110001#32 = .ok .putbits ∧
    decode 0b000000000000000000000_0_00_00110010#32 = .ok .wflush ∧
    decode 0b000000000000000000000_0_00_00110011#32 = .ok .rsetup ∧
    decode 0b000000000000000000000_0_00_00110100#32 = .ok .getbits ∧
    decode 0b000000000000000000000_0_00_00110101#32 = .ok .ralign := by decide

theorem test_decode_window :
    decode 0b000000000000000000000_0_00_01000000#32 = .ok .wput ∧
    decode 0b000000000000000000000_0_00_01000001#32 = .ok .wget ∧
    decode 0b000000000000000000000_0_00_01000010#32 = .ok .mfind ∧
    decode 0b000000000000000000000_0_00_01000011#32 = .ok .cost ∧
    decode 0b000000000000000000000_0_00_01010000#32 = .ok .ainit ∧
    decode 0b000000000000000000000_0_00_01010001#32 = .ok .aupdate := by decide

theorem test_decode_refuses :
    decode 0x00000000#32 = .error .unknownOpcode ∧ decode 0x00000052#32 = .error .unknownOpcode ∧
    decode 0x80000001#32 = .error .reservedBits ∧ decode 0x00000130#32 = .error .selNotZero ∧
    decode 0x00000431#32 = .error .finalNotZero := by decide

theorem test_table_word : decodeTableWord 32 0x322 = some (.tenc .dist) ∧ decodeTableWord 32 0x60 = none := by decide

/-! ## One step on a small state -/

/-- The default configuration (10_state.md R120 to R126). -/
def lc : LCfg :=
  { dict := 20, level := 2, rate := 8, maxint := 1024, slow := 24, helpers := 0, adlerEn := false, unbuf := false }

/-- The default tables, written out from 44_adaptive_codec.md R521, R522 and R550. -/
def tabs : Tabs :=
  { typ := { n := 3, freq := [1, 1, 1], len := [2, 2, 1], code := [0b10, 0b11, 0b0], interval := 52, countdown := 52 }
    lit := { n := 256, freq := List.replicate 256 1, len := List.replicate 256 8, code := List.range 256
             interval := 52, countdown := 52 }
    len := { n := 16, freq := List.replicate 16 1, len := List.replicate 16 4, code := List.range 16
             interval := 52, countdown := 52 }
    dist := { n := 40, freq := List.replicate 40 1, len := List.replicate 16 6 ++ List.replicate 24 5
              code := (List.range 16).map (fun s => 48 + s) ++ List.range 24, interval := 52, countdown := 52 } }

/-- A READY context with the default configuration and tables. -/
def ready (role : Role) : State :=
  { State.reset with ctx := { state := .ready, role := role, started := false, done := false }, lcfg := lc, tab := tabs }

/-- The same with operands latched: source, destination, scalars. -/
def withOps (s : State) (src len dst cap a0 a1 : Word) : State :=
  { s with
    busy := true
    pend := { cmd := 0, cfg := State.reset.cfg
              ops := { srcAddr := src, srcLen := len, dstAddr := dst, dstCap := cap, arg0 := a0, arg1 := a1 } } }

/-- Bytes in memory. -/
def mem (a : Nat) (bytes : List Byte) (s : State) : State :=
  { s with mem := Mem.writeList a bytes s.mem }

/-- A view of the next state. -/
def got {α : Type} (f : State → α) : Result → Option α
  | .next s => some (f s)
  | .fault _ => none
  | .refused _ => none

/-- "ABCDABCDABCD". -/
def abcd : List Byte :=
  [0x41, 0x42, 0x43, 0x44, 0x41, 0x42, 0x43, 0x44, 0x41, 0x42, 0x43, 0x44]

/-- The 19-byte stream of 47_parser_compress.md R640. -/
def stream : List Byte :=
  [0x50, 0x5A, 0x01, 0x14, 0x08, 0x04, 0x00, 0x18, 0x90, 0x64, 0x29, 0x0E, 0x44, 0xD3, 0x98, 0x14, 0x40, 0x03, 0x1F]

/-- R103: ID; R101: a reserved offset reads 0. -/
theorem test_read_id :
    got State.rdata (step { State.reset with inputs := [.read 32 0x00] }) = some 0x505A0001 ∧
    got State.rdata (step { State.reset with rdata := 7, inputs := [.read 32 0x3C] }) = some 0 := by decide

/-- R400, R401: a CMD write while idle makes the block busy, one while busy sets LOST. -/
theorem test_cmd_write :
    got State.status (step { ready .comp with inputs := [.write 32 0x04 0x50] }) = some 0x00000016 ∧
    got State.status (step { State.issue 0x50 (ready .comp) with inputs := [.write 32 0x04 0x50] }) = some 0x00000036 := by
  decide

theorem test_init_typ : initTable lc 3 = tabs.typ := by decide
theorem test_init_len : initTable lc 16 = tabs.len := by decide
set_option maxRecDepth 20000 in
theorem test_init_dist : initTable lc 40 = tabs.dist := by decide

/-- R710: STATUS 0x00000005; with CFG_LEVEL 5, InvalidConfig. -/
theorem test_cinit : got State.status (step (State.reset.withFetchWord 32 0x01)) = some 0x00000005 := by decide

theorem test_cinit_level :
    got State.status (step ({ State.reset with cfg := { State.reset.cfg with level := 5 } }.withFetchWord 32 0x01)) =
      some 0x00000100 := by decide

/-- R711: STATUS 0x00000009; with CFG_DICT_LOG2 14, ERR 1. -/
theorem test_dinit : got State.status (step (State.reset.withFetchWord 32 0x02)) = some 0x00000009 := by decide

theorem test_dinit_dict :
    got State.err (step ({ State.reset with cfg := { State.reset.cfg with dictLog2 := 14 } }.withFetchWord 32 0x02)) =
      some .invalidConfig := by decide

/-- R712: after a finished stream, STARTED and DONE read 0, ADLER 1. -/
theorem test_reinit :
    got (fun t => (t.status, t.adler, t.win.total))
      (exec .reinit { ready .comp with
        ctx := { state := .ready, role := .comp, started := true, done := true }, adler := 7 }) =
      some (0x00000005, 0x00000001, 0) := by decide

/-- R713: STATUS.STATE 3; then AINIT gives UseAfterClose. -/
theorem test_close : got State.status (exec .close (ready .comp)) = some 0x00000003 := by decide

theorem test_closed :
    got State.err (exec .ainit { State.reset with
      ctx := { state := .closed, role := .none, started := false, done := false } }) = some .useAfterClose := by decide

set_option maxRecDepth 20000 in
/-- R640 (example): the 19 bytes of the stream. -/
theorem test_compress :
    got (fun t => (Mem.readList 0x2000 19 t.mem, t.result, t.adler, t.tab.typ.freq))
      (exec (.compress true) (withOps (mem 0x1000 abcd (ready .comp)) 0x1000 12 0x2000 64 0 0)) =
      some (stream, 19, 0x1440031F, [5, 2, 2]) := by decide

/-- R640 (corner case): an empty first chunk that does not end the stream stores the header alone. -/
theorem test_compress_empty :
    got (fun t => (t.err, t.result, t.ctx.done)) (exec (.compress false) (withOps (ready .comp) 0 0 0x2000 8 0 0)) =
      some (.ok, 8, false) := by decide

set_option maxRecDepth 20000 in
/-- R660 (examples). -/
theorem test_decompress :
    got (fun t => (Mem.readList 0x2000 12 t.mem, t.err, t.result, t.res0))
      (exec .decompress (withOps (mem 0x1000 stream (ready .decomp)) 0x1000 19 0x2000 12 0 0)) =
      some (abcd, .ok, 12, 19) := by decide

set_option maxRecDepth 20000 in
/-- R675: with DST_CAP 11 the match does not fit; RESULT 4. -/
theorem test_decompress_cap :
    got (fun t => (t.err, t.result, t.mem.read 0x2000))
      (exec .decompress (withOps (mem 0x1000 stream (ready .decomp)) 0x1000 19 0x2000 11 0 0)) =
      some (.outputBufferTooSmall, 4, 0) := by decide

/-- R500 (example). -/
theorem test_hbuild :
    got (fun t => (Mem.readList 0x2000 24 t.mem, t.result, t.res0, t.res1))
      (exec .hbuild (withOps (mem 0x1000
        [45, 0, 0, 0, 13, 0, 0, 0, 12, 0, 0, 0, 16, 0, 0, 0, 9, 0, 0, 0, 5, 0, 0, 0] (ready .comp)) 0x1000 24 0x2000 24 6 0)) =
      some ([1, 0, 0, 0, 3, 0, 4, 0, 3, 0, 5, 0, 3, 0, 6, 0, 4, 0, 0x0E, 0, 4, 0, 0x0F, 0], 24, 4, 0) := by decide

/-- R500: n = 0 is IllegalCommand. -/
theorem test_hbuild_operand :
    got State.err (exec .hbuild (withOps (ready .comp) 0x1000 24 0x2000 24 0 0)) = some .illegalCommand := by decide

/-- R540 (example). -/
theorem test_treset :
    got (fun t => (t.tab.typ, t.tab.len)) (exec (.treset .typ) { ready .comp with tab := { tabs with typ :=
      { n := 3, freq := [9, 1, 1], len := [1, 2, 2], code := [0, 2, 3], interval := 6, countdown := 5 } } }) =
      some (tabs.typ, tabs.len) := by decide

/-- R541 (example): the fourth symbol stores 0xAA and rebuilds. -/
theorem test_tenc :
    got (fun t => (t.mem.read 0x2000, t.wc.nacc, t.tab.typ))
      (exec (.tenc .typ) { withOps (ready .comp) 0 0 0 0 0 0 with
        lcfg := { lc with rate := 20 }
        wc := { base := 0x2000, cap := 1, pos := 0, acc := 0b101010, nacc := 6 }
        tab := { tabs with typ :=
          { n := 3, freq := [4, 1, 1], len := [2, 2, 1], code := [2, 3, 0], interval := 4, countdown := 1 } } }) =
      some (0xAA, 0,
        { n := 3, freq := [5, 1, 1], len := [1, 2, 2], code := [0b0, 0b10, 0b11], interval := 6, countdown := 6 }) := by
  decide

/-- R541: a code that does not fit changes nothing. -/
theorem test_tenc_full :
    got (fun t => (t.err, t.wc, t.tab.typ))
      (exec (.tenc .typ) { withOps (ready .comp) 0 0 0 0 0 0 with
        wc := { base := 0x2000, cap := 1, pos := 1, acc := 0b101010, nacc := 6 } }) =
      some (.outputBufferTooSmall, { base := 0x2000, cap := 1, pos := 1, acc := 0b101010, nacc := 6 }, tabs.typ) := by
  decide

/-- R542 (example): byte 0x2C, third symbol: code `10` at bit 2 is symbol 0. -/
theorem test_tdec :
    got (fun t => (t.res0, t.rc.pos, t.rc.bit, t.tab.typ.freq))
      (exec (.tdec .typ) { mem 0x1000 [0x2C] (ready .decomp) with
        rc := { base := 0x1000, len := 1, pos := 0, bit := 2 } }) = some (0, 0, 4, [2, 1, 1]) := by decide

/-- R542: no bit left is TruncatedStream. -/
theorem test_tdec_end :
    got (fun t => (t.err, t.tab.typ))
      (exec (.tdec .typ) { ready .decomp with rc := { base := 0x1000, len := 1, pos := 1, bit := 0 } }) =
      some (.truncatedStream, tabs.typ) := by decide

/-- R543 (example): TCOST.DIST 3 gives 6 and 39 gives 5. -/
theorem test_tcost :
    got State.res0 (exec (.tcost .dist) (withOps (ready .comp) 0 0 0 0 3 0)) = some 6 ∧
    got State.res0 (exec (.tcost .dist) (withOps (ready .comp) 0 0 0 0 39 0)) = some 5 := by decide

/-- R544 (example). -/
theorem test_tread :
    got (fun t => (t.res0, t.res1)) (exec (.tread .typ) { withOps (ready .comp) 0 0 0 0 0 0 with tab := { tabs with typ :=
      { n := 3, freq := [6, 1, 1], len := [1, 2, 2], code := [0, 2, 3], interval := 6, countdown := 5 } } }) =
      some (6, 0x00010000) := by decide

/-- R545 (example). -/
theorem test_tstat :
    got (fun t => (t.result, t.res0, t.res1)) (exec (.tstat .dist) (ready .comp)) = some (40, 52, 52) := by decide

/-- R445 (example). -/
theorem test_wsetup :
    got State.wc (exec .wsetup (withOps (ready .comp) 0 0 0x2000 4 0 0)) =
      some { base := 0x2000, cap := 4, pos := 0, acc := 0, nacc := 0 } := by decide

/-- R202: a region past the end of host memory. -/
theorem test_wsetup_range :
    got State.err (exec .wsetup (withOps (ready .comp) 0 0 0xFFFFFFFF 2 0 0)) = some .rangeError := by decide

/-- R446 (example): after 3 bits 0b101, 7 bits 0x7F store 0xBF and leave 0b11. -/
theorem test_putbits :
    got (fun t => (t.mem.read 0x2000, t.wc)) (exec .putbits { withOps (ready .comp) 0 0 0 0 7 0x7F with
      wc := { base := 0x2000, cap := 4, pos := 0, acc := 0b101, nacc := 3 } }) =
      some (0xBF, { base := 0x2000, cap := 4, pos := 1, acc := 0b11, nacc := 2 }) := by decide

/-- R446: n = 33 is IllegalCommand. -/
theorem test_putbits_operand :
    got State.err (exec .putbits (withOps (ready .comp) 0 0 0 0 33 0)) = some .illegalCommand := by decide

/-- R447 (example). -/
theorem test_wflush :
    got (fun t => (t.mem.read 0x2001, t.result)) (exec .wflush { ready .comp with
      wc := { base := 0x2000, cap := 4, pos := 1, acc := 0b11, nacc := 2 } }) = some (0xC0, 2) := by decide

/-- R448 (example). -/
theorem test_rsetup :
    got (fun t => (t.rc, t.rc.unread)) (exec .rsetup (withOps (ready .comp) 0x2000 2 0 0 0 0)) =
      some ({ base := 0x2000, len := 2, pos := 0, bit := 0 }, 16) := by decide

/-- R449 (example): over BF C0, after 3 bits, 7 bits give 0x7F. -/
theorem test_getbits :
    got (fun t => (t.res0, t.rc.pos, t.rc.bit)) (exec .getbits { withOps (mem 0x2000 [0xBF, 0xC0] (ready .comp)) 0 0 0 0 7 0
      with rc := { base := 0x2000, len := 2, pos := 0, bit := 3 } }) = some (0x7F, 1, 2) := by decide

/-- R449 (example): a bit past the end is TruncatedStream. -/
theorem test_getbits_end :
    got State.err (exec .getbits { withOps (ready .comp) 0 0 0 0 1 0 with
      rc := { base := 0x2000, len := 2, pos := 2, bit := 0 } }) = some .truncatedStream := by decide

/-- R450 (example). -/
theorem test_ralign :
    got (fun t => (t.res0, t.rc.pos, t.rc.bit)) (exec .ralign { ready .comp with
      rc := { base := 0x2000, len := 2, pos := 0, bit := 3 } }) = some (5, 1, 0) := by decide

/-- A window of the bytes "ABC". -/
def abcWin : Win := { ring := [(0, 0x41), (1, 0x42), (2, 0x43)], total := 3 }

/-- R575 (example): 0x141 stores 0x41. -/
theorem test_wput :
    got (fun t => (t.win.total, t.win.wread (2 ^ 20) 1)) (exec .wput (withOps (ready .comp) 0 0 0 0 0x141 0)) =
      some (1, 0x41) := by decide

/-- R576 (example): WGET 1 gives 0x43, WGET 3 gives 0x41, WGET 4 is IllegalCommand. -/
theorem test_wget :
    got State.res0 (exec .wget { withOps (ready .comp) 0 0 0 0 1 0 with win := abcWin }) = some 0x43 ∧
    got State.res0 (exec .wget { withOps (ready .comp) 0 0 0 0 3 0 with win := abcWin }) = some 0x41 := by decide

theorem test_wget_range :
    got State.err (exec .wget { withOps (ready .comp) 0 0 0 0 4 0 with win := abcWin }) = some .illegalCommand := by decide

/-- R600 (example): history "ABCABCD", lookahead "ABCDX". -/
theorem test_mfind :
    got (fun t => (t.res0, t.res1)) (exec .mfind { withOps (mem 0x1000 [0x41, 0x42, 0x43, 0x44, 0x58] (ready .comp))
      0x1000 5 0 0 0 0 with
        win := { ring := [(0, 0x41), (1, 0x42), (2, 0x43), (3, 0x41), (4, 0x42), (5, 0x43), (6, 0x44)], total := 7 } }) =
      some (4, 4) := by decide

/-- R601: an overlapping match: history "A", lookahead "AAAAAA". -/
theorem test_mfind_overlap :
    got (fun t => (t.res0, t.res1)) (exec .mfind { withOps (mem 0x1000 (List.replicate 6 0x41) (ready .comp))
      0x1000 6 0 0 0 0 with win := { ring := [(0, 0x41)], total := 1 } }) = some (6, 1) := by decide

/-- R630 (example): L = 8, d = 4 over "ABCDABCD". -/
theorem test_cost :
    got (fun t => (t.res0, t.res1, t.result))
      (exec .cost (withOps (mem 0x1000 abcd (ready .comp)) 0x1000 8 0 0 8 4)) = some (13, 80, 1) := by decide

/-- R470 (example). -/
theorem test_ainit : got State.adler (exec .ainit { ready .comp with adler := 0x1440031F }) = some 0x00000001 := by decide

/-- R471 (example): "Wikipedia". -/
theorem test_aupdate :
    got State.adler (exec .aupdate (withOps (mem 0x1000 [0x57, 0x69, 0x6B, 0x69, 0x70, 0x65, 0x64, 0x69, 0x61]
      (ready .comp)) 0x1000 9 0 0 0 0)) = some 0x11E60398 := by decide

set_option maxRecDepth 20000 in
theorem test_init_lit : initTable lc 256 = tabs.lit := by decide +kernel

/-- The initial tables of the default configuration are the ones R550 gives. -/
theorem test_init_tabs : initTabs lc = tabs := by
  have h1 := test_init_typ
  have h2 := test_init_lit
  have h3 := test_init_len
  have h4 := test_init_dist
  simp only [initTabs, alphabetSize, h1, h2, h3]
  exact congrArg (fun d => Tabs.mk tabs.typ tabs.lit tabs.len d) h4

/-- R821, R822: a byte that a command does not access may be rejected; one it accesses has no outcome. -/
theorem test_bus :
    got State.err (exec .wflush { ready .comp with
      plat := { State.reset.plat with unmapped := [⟨0x2002, 1⟩] }
      wc := { base := 0x2000, cap := 4, pos := 1, acc := 0b11, nacc := 2 } }) = some .ok ∧
    exec .wflush { ready .comp with
      plat := { State.reset.plat with unmapped := [⟨0x2001, 1⟩] }
      wc := { base := 0x2000, cap := 4, pos := 1, acc := 0b11, nacc := 2 } } = .refused .busFault :=
  ⟨by decide, rfl⟩

/-- R406, R500: without room HBUILD accesses nothing, so its error stands whatever the bus rejects. -/
theorem test_bus_hbuild :
    got State.err (exec .hbuild { withOps (ready .comp) 0x1000 4 0x2000 3 1 0 with
      plat := { State.reset.plat with unmapped := [⟨0x1000, 4⟩, ⟨0x2000, 3⟩] } }) = some .outputBufferTooSmall := by decide

/-- R350: WAIT ends with a read of STATUS. -/
theorem test_wait : got State.rdata (step { ready .comp with inputs := [.wait] }) = some 0x00000005 := by decide

/-! ## For every statement with hypotheses, a state that meets them -/

/-- A view of a next state tells that there is one. -/
theorem next_of_got {α : Type} {f : State → α} {r : Result} {x : α} (h : got f r = some x) :
    ∃ t, r = .next t ∧ f t = x := by
  cases r with
  | next t => exact ⟨t, rfl, by injection h⟩
  | fault _ => cases h
  | refused _ => cases h

theorem lc_ok : LCfgOk Config.Platform.reference lc := by constructor <;> decide

/-- A READY context with some bytes in memory and operands latched meets the invariant. -/
theorem ready_inv {role : Role} (hr : role = .comp ∨ role = .decomp) (a : Nat) (bytes : List Byte)
    (ha : a + bytes.length ≤ addrSpace) (src len dst cap a0 a1 : Word) :
    Inv (withOps (mem a bytes (ready role)) src len dst cap a0 a1) where
  plat := show Config.Platform.reference.legal = true by decide
  mem_wf := Mem.writeList_wf _ _ rfl
  mem_below := Mem.writeList_below _ _ ha rfl
  ctx := .inr (.inr ⟨rfl, hr, fun h => by cases h⟩)
  wc := show WCurOk State.reset.wc from ⟨by decide, by decide, by decide, by decide⟩
  rc := show RCurOk State.reset.rc from ⟨.inr ⟨rfl, rfl⟩, by decide⟩
  ring_wf := rfl
  ring_below := rfl
  lcfg := fun _ => lc_ok
  shape := fun _ c => by
    show TableShape _ (tabs.get c)
    rw [← test_init_tabs]
    exact (initTabs_sound lc_ok c).shape
  sound := fun _ _ c => by
    show TableSound _ _ (tabs.get c)
    rw [← test_init_tabs]
    exact initTabs_sound lc_ok c

theorem ready_sound (c : SymClass) : TableSound lc (alphabetSize c 20) (tabs.get c) := by
  rw [← test_init_tabs]
  exact initTabs_sound lc_ok c

/-- A platform whose bus rejects a range. -/
def rejecting (base len : Nat) (s : State) : State :=
  { s with plat := { s.plat with unmapped := [⟨base, len⟩] } }

/-- A READY context with nothing in flight. -/
def idle : State := { withOps (ready .comp) 0 0 0 0 0 0 with busy := false }

theorem idle_inv : Inv idle := by
  have h := ready_inv (.inl rfl) 0 [] (by decide) 0 0 0 0 0 0
  exact ⟨h.plat, h.mem_wf, h.mem_below, h.ctx, h.wc, h.rc, h.ring_wf, h.ring_below, h.lcfg, h.shape, h.sound⟩

/-- A write cursor at 0x2000 with three pending bits, two bytes stored and room for two more. -/
def wcur : WCur := { base := 0x2000, cap := 4, pos := 2, acc := 0b101, nacc := 3 }

/-- A read cursor at 0x1000, at bit 2 of the first of three bytes. -/
def rcur : RCur := { base := 0x1000, len := 3, pos := 0, bit := 2 }

theorem wcur_ok : WCurOk wcur := ⟨by decide, by decide, by decide, by decide⟩
theorem rcur_ok : RCurOk rcur := ⟨.inl (by decide), by decide⟩

/-- With a cursor pair and scalars. -/
def withCursors (s : State) (a0 a1 : Word) : State :=
  { withOps s 0 0 0 0 a0 a1 with wc := wcur, rc := rcur }

/-- A machine at an event. -/
def atEvent (s : State) (e : Event) : State :=
  { s with inputs := [e] }

/-- A closed context. -/
def closedState : State :=
  { State.reset with ctx := { state := .closed, role := .none, started := false, done := false } }

/-- A COMPRESS in flight over four bytes at 0x1000, into four at 0x2000. -/
def inFlight : State :=
  State.issue 0x10
    { ready .comp with
      ops := { srcAddr := 0x1000, srcLen := 4, dstAddr := 0x2000, dstCap := 4, arg0 := 0, arg1 := 0 } }

/-- IllFormedWordIsIllegalCommand. -/
theorem test_hyps_ill_formed :
    (ready .comp |>.issue 0x80000001).busy = true ∧ (ready .comp |>.issue 0x80000001).inputs = [] ∧
    (CmdFields.ofWord (ready .comp |>.issue 0x80000001).pend.cmd).wellFormed = false ∧
    (CmdFields.ofWord 0x00000400#32).wellFormed = false := by decide

/-- StepRunsDecodedCommand: busy with a decoded word, for each of the three forms of the event list. -/
theorem test_hyps_step :
    inFlight.busy = true ∧ decode inFlight.pend.cmd = .ok (.compress false) ∧ inFlight.inputs = [] ∧
    (atEvent inFlight .engine).inputs = .engine :: [] ∧ (atEvent inFlight .wait).inputs = .wait :: [] ∧
    decode (tableWord 32 0x50) = .ok .ainit := by decide

/-- CmdWriteIssuesOrIsLost: idle in READY, and busy. -/
theorem test_hyps_cmd_write :
    (atEvent (ready .comp) (.write 32 0x04#8 0x50)).inputs = .write 32 0x04#8 0x50 :: [] ∧
    (ready .comp).busy = false ∧ (ready .comp).ctx.state = .ready ∧
    (atEvent (withOps (ready .comp) 0 0 0 0 0 0) (.write 32 0x04#8 0x50)).busy = true := by decide

/-- CommandsReadTheLatchOnly: a busy engine and a register other than SRST. -/
theorem test_hyps_latch : (withOps (ready .comp) 0 0 0 0 0 0).busy = true ∧ (0x10 : Nat) ≠ 0x14 := by decide

/-- CompletionReports, ErrorsByCommand, EngineWritesOnlyDestination, InterruptPending: a command that completes, and a byte
outside its destination. -/
theorem test_hyps_completes :
    (∃ t, exec .wflush (withCursors (ready .comp) 0 0) = .next t ∧ t.err = .ok) ∧
    (regionsOf .wflush (withCursors (ready .comp) 0 0)).2.contains 0x1FFF = false ∧
    (regionsOf .wflush (withCursors (ready .comp) 0 0)).2.contains 0x2004 = false :=
  ⟨next_of_got (f := State.err) (by decide), by decide, by decide⟩

/-- EveryCommandCompletes: a busy state that meets the invariant, with a destination just below the register block. -/
theorem test_hyps_every_command :
    Inv (withOps (mem 0x1000 abcd (ready .comp)) 0x1000 12 0x3FFFFFF0 16 0 0) ∧
    (withOps (mem 0x1000 abcd (ready .comp)) 0x1000 12 0x3FFFFFF0 16 0 0).busy = true ∧
    sideEffectRefusal Config.Platform.reference ⟨0x1000, 12⟩ = none ∧
    sideEffectRefusal Config.Platform.reference ⟨0x3FFFFFF0, 16⟩ = none ∧
    sideEffectRefusal Config.Platform.reference ⟨0x3FFFFFF0, 17⟩ = some .regionOnRegisters :=
  ⟨ready_inv (.inl rfl) _ _ (by decide) .., by decide, by decide, by decide, by decide⟩

/-- ClosedUntilReset: a closed context that takes a step and stays closed, and one that is reset. -/
theorem test_hyps_closed :
    closedState.ctx.state = .closed ∧ (∃ t, step closedState = .next t ∧ t.ctx.state = .closed) ∧
    ∃ t, step (atEvent closedState (.write 32 0x14#8 1)) = .next t ∧ t.ctx.state = .uninit :=
  ⟨rfl, next_of_got (f := fun t => t.ctx.state) (by decide), next_of_got (f := fun t => t.ctx.state) (by decide)⟩

/-- UnmetRequirementIsInvalidState: in UNINIT and in CLOSED. -/
theorem test_hyps_requirement :
    requirement .mfind State.reset = false ∧ State.reset.ctx.state ≠ .closed ∧
    requirement .cinit closedState = false ∧ closedState.ctx.state = .closed := by decide

/-- OperandChecks: each check at the first value outside its range. -/
theorem test_hyps_operands :
    (ready .comp).isReady = true ∧
    (1024 < (withOps (ready .comp) 0 0 0 0 1025 0).pend.ops.arg0.toNat) ∧
    ((withOps (ready .comp) 0 23 0 0 6 0).pend.ops.srcLen.toNat < 4 * 6) ∧
    ((ready .comp).tab.get .typ).n ≤ (withOps (ready .comp) 0 0 0 0 3 0).pend.ops.arg0.toNat ∧
    32 < (withOps (ready .comp) 0 0 0 0 33 0).pend.ops.arg0.toNat ∧
    min abcWin.total.toNat (2 ^ 20) < (withOps (ready .comp) 0 0 0 0 4 0).pend.ops.arg0.toNat ∧
    (withOps (ready .comp) 0 0 0 0 2 0).pend.ops.arg0.toNat < 3 ∧
    258 < (withOps (ready .comp) 0 0 0 0 259 0).pend.ops.arg0.toNat ∧
    2 ^ (ready .comp).lcfg.dict < (withOps (ready .comp) 0 0 0 0 3 0x100001).pend.ops.arg1.toNat := by decide

/-- RegionChecks: regions one byte too long, and two that share one address. -/
theorem test_hyps_regions :
    (withOps (ready .comp) 0xFFFFFFFD 4 0 0 3 1).isComp = true ∧
    2 ^ 32 < (withOps (ready .comp) 0xFFFFFFFD 4 0 0 3 1).pend.ops.srcAddr.toNat +
      (withOps (ready .comp) 0xFFFFFFFD 4 0 0 3 1).pend.ops.srcLen.toNat ∧
    2 ^ 32 < (withOps (ready .comp) 0 0 0xFFFFFFFF 2 3 1).pend.ops.dstAddr.toNat +
      (withOps (ready .comp) 0 0 0xFFFFFFFF 2 3 1).pend.ops.dstCap.toNat ∧
    (withOps (ready .comp) 0x1000 4 0x1003 4 1 0).mayCompress = true ∧
    (withOps (ready .decomp) 0x1000 4 0x1003 4 1 0).mayDecompress = true ∧
    ∃ a : Nat, 0x1000 ≤ a ∧ a < 0x1000 + 4 ∧ 0x1003 ≤ a ∧ a < 0x1003 + 4 :=
  ⟨by decide, by decide, by decide, by decide, by decide, 0x1003, by decide⟩

/-- EarlyErrorsChangeOnlyTheReport, PrimitiveErrorsChangeOnlyTheReport: an early error and an execution error. -/
theorem test_hyps_errors :
    (∃ t, State.completion (ready .comp |>.issue 0x01) = .next t ∧ earlyError t.err = true) ∧
    primitive .getbits = true ∧ ∃ t, exec .getbits (withOps (ready .comp) 0 0 0 0 1 0) = .next t ∧ t.err ≠ .ok := by
  refine ⟨?_, rfl, ?_⟩
  · obtain ⟨t, h1, h2⟩ := next_of_got (f := State.err) (x := .invalidState)
      (r := State.completion (ready .comp |>.issue 0x01)) (by decide)
    exact ⟨t, h1, by rw [h2]; rfl⟩
  · obtain ⟨t, h1, h2⟩ := next_of_got (f := State.err) (x := .truncatedStream)
      (r := exec .getbits (withOps (ready .comp) 0 0 0 0 1 0)) (by decide)
    exact ⟨t, h1, by rw [h2]; decide⟩

/-- RegisterPortRules: shapes at the edge, the last offset of the map and the one after it, an idle state that meets the
invariant, and two values with the same stored bits. -/
theorem test_hyps_port :
    ¬((16 : Nat) = 32 ∧ (0x04#8).toNat % 4 = 0) ∧ ¬((32 : Nat) = 32 ∧ (0x06#8).toNat % 4 = 0) ∧
    (0xFC#8).toNat % 4 = 0 ∧ (0x88, Reg.winTotalHi) ∈ registerMap ∧ (∀ r, (0x8C, r) ∉ registerMap) ∧ Inv idle ∧
    idle.busy = false ∧ Reg.adler ∈ readOnlyRegs ∧
    Reg.cfgDflags ∈ writableRegs ∧ (0x00000007#32).toNat % 2 ^ Reg.cfgDflags.width =
      (0xFFFFFFFF#32).toNat % 2 ^ Reg.cfgDflags.width ∧ Reg.srcAddr ≠ Reg.srcLen :=
  ⟨by decide, by decide, by decide, by decide, by simp [registerMap], idle_inv, rfl, by decide, by decide, by decide,
    by decide⟩

/-- StatusFields, ReadsWhileBusy: an idle and a busy block. -/
theorem test_hyps_reads :
    (ready .comp).busy = false ∧ (withOps (ready .comp) 0 0 0 0 0 0).busy = true := by decide

/-- InterruptPending: a clearing write at the completion of AINIT. -/
theorem test_hyps_race :
    (atEvent (ready .comp |>.issue 0x50) (.clearAtCompletion 3)).inputs = .clearAtCompletion 3 :: [] ∧
    (atEvent (ready .comp |>.issue 0x50) (.clearAtCompletion 3)).busy = true ∧
    ∃ t, step (atEvent (ready .comp |>.issue 0x50) (.clearAtCompletion 3)) = .next t ∧ t.irqPend = 1 :=
  ⟨rfl, rfl, next_of_got (f := State.irqPend) (by decide)⟩

/-- SoftReset: both values of bit 0, idle and with a command in flight. -/
theorem test_hyps_reset :
    (atEvent (ready .comp) (.write 32 0x14#8 2)).inputs = .write 32 0x14#8 2 :: [] ∧
    (2#32).getLsbD 0 = false ∧ (1#32).getLsbD 0 = true ∧ (ready .comp).busy = false ∧
    inFlight.busy = true ∧ inFlight.flightRegions.2.contains 0x2004 = false := by decide

/-- HostMemoryAccess: a byte the platform lets the host reach, inside and outside the regions in flight. -/
theorem test_hyps_host_memory :
    (atEvent inFlight (.memRead 0x2000)).inputs = .memRead 0x2000 :: [] ∧
    (atEvent inFlight (.memWrite 0x2000 7)).inputs = .memWrite 0x2000 7 :: [] ∧ (ready .comp).busy = false ∧
    hostAccessRefusal Config.Platform.reference 0x2000 = none ∧
    inFlight.busy = true ∧ inFlight.flightRegions = (⟨0x1000, 4⟩, ⟨0x2000, 4⟩) ∧
    Region.contains ⟨0x2000, 4⟩ 0x2000 = true ∧ Region.contains ⟨0x2000, 4⟩ 0x2004 = false ∧
    Region.contains ⟨0x1000, 4⟩ 0x1003 = true := by decide

/-- StepKeepsInv: a READY state that meets the invariant and takes a step (here an empty COMPRESS without room). -/
theorem test_hyps_step_inv :
    Inv (withOps (mem 0x1000 abcd (ready .comp)) 0x1000 12 0x2000 64 0 0) ∧
    ∃ t, step (withOps (mem 0x1000 abcd (ready .comp)) 0x1000 12 0x2000 64 0 0) = .next t ∧ t.err = .illegalCommand :=
  ⟨ready_inv (.inl rfl) _ _ (by decide) .., next_of_got (f := State.err) (by decide)⟩

/-- ContextTransitions: commands that complete with OK and with an error. -/
theorem test_hyps_transitions :
    (∃ t, exec .cinit (State.reset.issue 1) = .next t ∧ t.err = .ok) ∧
    (∃ t, exec .dinit (State.reset.issue 2) = .next t ∧ t.err = .ok) ∧
    (∃ t, exec .close (ready .comp) = .next t ∧ t.err = .ok) ∧
    (∃ t, exec .reinit (ready .comp) = .next t ∧ t.err = .ok) ∧
    ∃ t, exec .mfind State.reset = .next t ∧ t.err = .invalidState :=
  ⟨next_of_got (f := State.err) (by decide), next_of_got (f := State.err) (by decide),
    next_of_got (f := State.err) (by decide), next_of_got (f := State.err) (by decide),
    next_of_got (f := State.err) (by decide)⟩

/-- CinitCompletes, DinitCompletes, ReinitCompletes: legal values at both ends of their ranges, and illegal ones beside. -/
theorem test_hyps_config :
    State.reset.ctx.state = .uninit ∧ (ready .comp).ctx.state = .ready ∧ (ready .decomp).ctx.role = .decomp ∧
    compConfigLegal .reference { dictLog2 := 15, level := 4, updateRate := 20, maxInterval := 1, slowRate := 16,
                                 helpers := 64, dflags := 0 } ∧
    compConfigLegal .reference { dictLog2 := 30, level := 0, updateRate := 1, maxInterval := 65535, slowRate := 255,
                                 helpers := 0, dflags := 3 } ∧
    ¬compConfigLegal .reference { dictLog2 := 30, level := 0, updateRate := 1, maxInterval := 65535, slowRate := 255,
                                  helpers := 65, dflags := 3 } ∧
    sharedConfigLegal .reference { dictLog2 := 30, level := 9, updateRate := 1, maxInterval := 65535, slowRate := 255,
                                   helpers := 65, dflags := 3 } ∧
    ¬sharedConfigLegal .reference { dictLog2 := 31, level := 0, updateRate := 1, maxInterval := 65535, slowRate := 255,
                                    helpers := 0, dflags := 3 } := by
  simp only [compConfigLegal, sharedConfigLegal]
  decide

/-- CloseCompletes: UNINIT and READY. -/
theorem test_hyps_close : State.reset.ctx.state = .uninit ∧ (ready .decomp).ctx.state = .ready := by decide

/-- CodeLengthsBounded, CodesAreComplete, CanonicalCodesArePrefixFree: two and one present symbols. -/
theorem test_hyps_codes :
    [3, 0, 9].length ≤ 1024 ∧ 2 ≤ presentCount [3, 0, 9] ∧ presentCount [0, 7, 0] = 1 ∧ 0 < [0, 7, 0].getD 1 0 ∧
    (0 < [3, 0, 9].getD 0 0 ∧ 0 < [3, 0, 9].getD 2 0) ∧ (List.replicate 16 true).length = 16 ∧
    (buildLengths [3, 0, 9]).1 = [1, 0, 1] := by decide

/-- HbuildCompletes: room for the records exactly, beside a byte the bus rejects, and one byte short. -/
theorem test_hyps_hbuild :
    (withOps (ready .comp) 0x1000 8 0x2000 8 2 0).isReady = true ∧
    bothNameable (withOps (ready .comp) 0x1000 8 0x2000 8 2 0) ∧
    bothNameable (withOps (ready .comp) 0x1000 8 0x2000 7 2 0) ∧
    busAllows (rejecting 0x2008 1 (withOps (ready .comp) 0x1000 8 0x2000 9 2 0)) [⟨0x1000, 4 * 2⟩, ⟨0x2000, 4 * 2⟩] ∧
    4 * 2 ≤ (withOps (ready .comp) 0x1000 8 0x2000 8 2 0).pend.ops.dstCap.toNat ∧
    (withOps (ready .comp) 0x1000 8 0x2000 7 2 0).pend.ops.dstCap.toNat < 4 * 2 ∧ (ready .comp).mem.wf = true ∧
    ∀ i < 2, [0, 0].getD i 0 = (Mem.read (0x1000 + 4 * i) (ready .comp).mem).toNat := by
  simp only [bothNameable, nameable, busAllows]
  decide

/-- UpdateFollowsTheSchedule: a sound table one symbol before the end of its countdown, and one earlier. -/
theorem test_hyps_update :
    LCfgOk .reference lc ∧ TableSound lc 3 tabs.typ ∧ 2 ≤ tabs.typ.countdown ∧
    TableSound lc 3 { tabs.typ with freq := [52, 1, 1], countdown := 1 } ∧ 2 < 3 ∧ (3 : Nat) ≤ 256 := by
  have h := ready_sound .typ
  refine ⟨lc_ok, h, by decide, ⟨⟨rfl, rfl, rfl, rfl, by decide, by decide, by decide⟩, by decide, by decide, by decide, ?_⟩,
    by decide, by decide⟩
  exact h.built

/-- TresetCompletes: another class. -/
theorem test_hyps_treset : (ready .comp).isReady = true ∧ SymClass.lit ≠ SymClass.typ := by decide

/-- TencCompletes: a code that fits exactly, and one that does not. -/
theorem test_hyps_tenc :
    (withCursors (ready .comp) 0 0).isReady = true ∧ WCurOk (withCursors (ready .comp) 0 0).wc ∧
    (ready .comp).mem.wf = true ∧
    cursorAllows (withCursors (ready .comp) 0 0) (withCursors (ready .comp) 0 0).wcRegion (storedBytes 8 wcur) ∧
    (withCursors (ready .comp) 0x41 0).pend.ops.arg0.toNat < (tabs.get .lit).n ∧
    (withCursors (ready .comp) 2 0).pend.ops.arg0.toNat < (tabs.get .typ).n ∧
    wcur.pos + (wcur.nacc + tabs.lit.len.getD 0x41 0) / 8 ≤ wcur.cap.toNat ∧
    ({ wcur with pos := 4 } : WCur).cap.toNat < 4 + (wcur.nacc + tabs.lit.len.getD 0x41 0) / 8 :=
  ⟨by decide, wcur_ok, by decide, .inr ⟨by decide, by unfold busAllows; decide⟩, by decide, by decide, by decide, by decide⟩

/-- TdecInvertsTenc: over 2C 00 00 at bit 2, the code `10` of TYPE 0 comes first, with more than 16 bits unread; a cursor
at its end; and one with the single bit 1 unread, which begins the code `10`. -/
theorem test_hyps_tdec :
    (withCursors (mem 0x1000 [0x2C] (ready .decomp)) 0 0).isReady = true ∧ RCurOk rcur ∧
    cursorAllows (withCursors (ready .decomp) 0 0) (withCursors (ready .decomp) 0 0).rcRegion (readBytes 2 rcur) ∧
    TableSound lc 3 tabs.typ ∧
    unreadBits rcur (mem 0x1000 [0x2C] (ready .decomp)).mem =
      codeBits tabs.typ.len tabs.typ.code 0 ++ (true :: true :: List.replicate 18 false) ∧
    16 ≤ (unreadBits rcur (mem 0x1000 [0x2C] (ready .decomp)).mem).length ∧
    unreadBits { rcur with pos := 3, bit := 0 } [] ++ [true, false] = codeBits tabs.typ.len tabs.typ.code 0 ∧
    RCurOk { rcur with pos := 3, bit := 0 } ∧ (readBytes 0 { rcur with pos := 3, bit := 0 }).len = 0 ∧
    unreadBits { rcur with pos := 2, bit := 7 } [(0x1002, 0x01)] ++ [false] = codeBits tabs.typ.len tabs.typ.code 0 ∧
    RCurOk { rcur with pos := 2, bit := 7 } :=
  ⟨by decide, rcur_ok, .inr ⟨by decide, by unfold busAllows; decide⟩, ready_sound .typ, by decide, by decide, by decide,
    ⟨.inr ⟨by decide, by decide⟩, by decide⟩, by decide, by decide, ⟨.inl (by decide), by decide⟩⟩

/-- TableReadsComplete: the last symbol of a class. -/
theorem test_hyps_table_reads :
    (withOps (ready .comp) 0 0 0 0 2 0).isReady = true ∧ (withOps (ready .comp) 0 0 0 0 2 0).pend.ops.arg0.toNat < tabs.typ.n := by
  decide

/-- CursorSetupCompletes: regions that end with host memory. -/
theorem test_hyps_cursor_setup :
    (withOps (ready .comp) 0xFFFFFFFE 2 0xFFFFFFF0 16 0 0).isReady = true ∧
    (0xFFFFFFF0#32).toNat + (16#32).toNat ≤ 2 ^ 32 ∧ (0xFFFFFFFE#32).toNat + (2#32).toNat ≤ 2 ^ 32 ∧
    sideEffectRefusal Config.Platform.reference ⟨0xFFFFFFF0, 16⟩ = none ∧
    sideEffectRefusal Config.Platform.reference ⟨0xFFFFFFFE, 2⟩ = none := by decide

/-- PutbitsAppends: 20 bits fit, 21 do not. -/
theorem test_hyps_putbits :
    (withCursors (ready .comp) 20 0).isReady = true ∧ WCurOk (withCursors (ready .comp) 20 0).wc ∧
    cursorAllows (withCursors (ready .comp) 20 0) (withCursors (ready .comp) 20 0).wcRegion (storedBytes 20 wcur) ∧
    (withCursors (ready .comp) 20 0).pend.ops.arg0.toNat ≤ 32 ∧ wcur.pos + (wcur.nacc + 20) / 8 ≤ wcur.cap.toNat ∧
    wcur.cap.toNat < wcur.pos + (wcur.nacc + 21) / 8 :=
  ⟨by decide, wcur_ok, .inr ⟨by decide, by unfold busAllows; decide⟩, by decide, by decide, by decide⟩

/-- WflushPads: pending bits with room, none, and pending bits at the end of the region. -/
theorem test_hyps_wflush :
    cursorAllows (withCursors (ready .comp) 0 0) (withCursors (ready .comp) 0 0).wcRegion (storedBytes 5 wcur) ∧
    wcur.pos < wcur.cap.toNat ∧ ({ wcur with acc := 0, nacc := 0 } : WCur).nacc = 0 ∧
    WCurOk { wcur with pos := 4 } ∧ ({ wcur with pos := 4 } : WCur).nacc ≠ 0 ∧
    ({ wcur with pos := 4 } : WCur).pos = ({ wcur with pos := 4 } : WCur).cap.toNat :=
  ⟨.inr ⟨by decide, by unfold busAllows; decide⟩, by decide, by decide, ⟨by decide, by decide, by decide, by decide⟩,
    by decide, by decide⟩

/-- GetbitsReads: 22 bits are unread; 23 are too many. -/
theorem test_hyps_getbits :
    (withCursors (ready .comp) 22 0).isReady = true ∧ RCurOk (withCursors (ready .comp) 22 0).rc ∧
    cursorAllows (withCursors (ready .comp) 22 0) (withCursors (ready .comp) 22 0).rcRegion (readBytes 22 rcur) ∧
    22 ≤ (unreadBits rcur (ready .comp).mem).length ∧ (unreadBits rcur (ready .comp).mem).length < 23 ∧ (23 : Nat) ≤ 32 :=
  ⟨by decide, rcur_ok, .inr ⟨by decide, by unfold busAllows; decide⟩, by decide, by decide, by decide⟩

/-- RalignSkips: inside a byte, and at a boundary. -/
theorem test_hyps_ralign : (ready .comp).isReady = true ∧ RCurOk rcur ∧ RCurOk { rcur with bit := 0 } :=
  ⟨by decide, rcur_ok, ⟨.inl (by decide), by decide⟩⟩

/-- WindowCommandsComplete: the oldest byte of three. -/
theorem test_hyps_window :
    ({ withOps (ready .comp) 0 0 0 0 3 0 with win := abcWin } : State).isReady = true ∧
    1 ≤ (withOps (ready .comp) 0 0 0 0 3 0).pend.ops.arg0.toNat ∧
    (withOps (ready .comp) 0 0 0 0 3 0).pend.ops.arg0.toNat ≤ min abcWin.total.toNat (2 ^ (ready .comp).lcfg.dict) := by decide

/-- WindowReadsBack: the first of the new bytes, and the byte just before them. -/
theorem test_hyps_window_reads :
    abcWin.ring.wf = true ∧ abcWin.total.toNat + [0x44#8].length < 2 ^ 64 ∧ (1 : Nat) ≤ [0x44#8].length ∧
    [0x44#8].length < 2 ∧ 2 ≤ abcWin.total.toNat + [0x44#8].length ∧ (2 : Nat) ≤ 8 := by decide

/-- MfindGivesTheBestMatch: a lookahead that ends at the last byte of host memory, and one whose 259th byte the bus
rejects. -/
theorem test_hyps_mfind :
    (withOps (ready .comp) 0xFFFFFFFB 5 0 0 0 0).isComp = true ∧
    nameable (withOps (ready .comp) 0xFFFFFFFB 5 0 0 0 0) (withOps (ready .comp) 0xFFFFFFFB 5 0 0 0 0).srcRegion ∧
    busAllows (rejecting 0x1102 1 (withOps (ready .comp) 0x1000 259 0 0 0 0)) [⟨0x1000, min 259 258⟩] := by
  simp only [nameable, busAllows]
  decide

/-- CostCompletes: the greatest length and distance. -/
theorem test_hyps_cost :
    (withOps (ready .comp) 0x1000 258 0 0 258 0x100000).isReady = true ∧
    (258#32).toNat ≤ 258 ∧ (0x100000#32).toNat ≤ 2 ^ (ready .comp).lcfg.dict ∧
    nameable (withOps (ready .comp) 0x1000 258 0 0 258 0x100000)
      (withOps (ready .comp) 0x1000 258 0 0 258 0x100000).srcRegion ∧
    busAllows (withOps (ready .comp) 0x1000 258 0 0 258 0x100000) [⟨0x1000, 258⟩] := by
  simp only [nameable, busAllows]
  decide

/-- CompressFitsItsBound: 12 bytes in a destination of exactly 14 + 27. -/
theorem test_hyps_compress_bound :
    Inv (withOps (mem 0x1000 abcd (ready .comp)) 0x1000 12 0x2000 41 0 0) ∧
    (withOps (mem 0x1000 abcd (ready .comp)) 0x1000 12 0x2000 41 0 0).mayCompress = true ∧
    bothNameable (withOps (mem 0x1000 abcd (ready .comp)) 0x1000 12 0x2000 41 0 0) ∧
    busAllows (withOps (mem 0x1000 abcd (ready .comp)) 0x1000 12 0x2000 41 0 0) [⟨0x1000, 12⟩, ⟨0x2000, 41⟩] ∧
    14 + (9 * (12#32).toNat + 3) / 4 ≤ (41#32).toNat := by
  refine ⟨ready_inv (.inl rfl) _ _ (by decide) .., by decide, ?_, by unfold busAllows; decide, by decide⟩
  simp only [bothNameable, nameable]
  decide

set_option maxRecDepth 20000 in
/-- CompressChunkEffects, StreamStartForgetsThePast: a last chunk that succeeds, over a clean ring and over an old one. -/
theorem test_hyps_compress :
    Inv (withOps (mem 0x1000 abcd (ready .comp)) 0x1000 12 0x2000 64 0 0) ∧
    (∃ t, exec (.compress true) (withOps (mem 0x1000 abcd (ready .comp)) 0x1000 12 0x2000 64 0 0) = .next t ∧ t.err = .ok) ∧
    (ready .comp).win.ring.wf = true ∧ abcWin.ring.wf = true ∧
    ({ withOps (mem 0x1000 abcd (ready .comp)) 0x1000 12 0x2000 64 0 0 with win := abcWin } : State).mayCompress = true ∧
    (ready .comp).ctx.started = false :=
  ⟨ready_inv (.inl rfl) _ _ (by decide) .., next_of_got (f := State.err) (by decide), by decide, by decide, by decide, rfl⟩

/-- CompressErrorState: 7 bytes are too few for the header. -/
theorem test_hyps_compress_error :
    ∃ t, exec (.compress false) (withOps (ready .comp) 0 0 0x2000 7 0 0) = .next t ∧ t.err = .outputBufferTooSmall :=
  next_of_got (f := State.err) (by decide)

/-- The 13-byte stream of no data (48_decompress.md R660). -/
def emptyStream : List Byte :=
  [0x50, 0x5A, 0x01, 0x14, 0x08, 0x04, 0x00, 0x18, 0x00, 0x00, 0x00, 0x00, 0x01]

/-- DecompressEmptyStream. -/
theorem test_hyps_decompress_empty :
    Inv (withOps (mem 0x1000 emptyStream (ready .decomp)) 0x1000 13 0x2000 0 0 0) ∧
    (withOps (mem 0x1000 emptyStream (ready .decomp)) 0x1000 13 0x2000 0 0 0).mayDecompress = true ∧
    atStreamStart (withOps (mem 0x1000 emptyStream (ready .decomp)) 0x1000 13 0x2000 0 0 0) ∧
    bothNameable (withOps (mem 0x1000 emptyStream (ready .decomp)) 0x1000 13 0x2000 0 0 0) ∧
    busAllows (withOps (mem 0x1000 emptyStream (ready .decomp)) 0x1000 13 0x2000 0 0 0) [⟨0x1000, 13⟩] ∧
    Mem.readList 0x1000 13 (mem 0x1000 emptyStream (ready .decomp)).mem = emptyStream := by
  refine ⟨ready_inv (.inr rfl) _ _ (by decide) .., by decide, ⟨rfl, rfl, test_init_tabs.symm⟩, ?_,
    by unfold busAllows; decide, by decide⟩
  simp only [bothNameable, nameable]
  decide

set_option maxRecDepth 20000 in
/-- DecompressSuccess, DecompressErrorState: a stream that decodes, one shorter than a header, another header, and a
destination that is too small. -/
theorem test_hyps_decompress :
    Inv (withOps (mem 0x1000 stream (ready .decomp)) 0x1000 19 0x2000 12 0 0) ∧
    (∃ t, exec .decompress (withOps (mem 0x1000 stream (ready .decomp)) 0x1000 19 0x2000 12 0 0) = .next t ∧ t.err = .ok) ∧
    (withOps (ready .decomp) 0x1000 7 0x2000 12 0 0).mayDecompress = true ∧
    bothNameable (withOps (ready .decomp) 0x1000 8 0x2000 12 0 0) ∧
    busAllows (withOps (ready .decomp) 0x1000 8 0x2000 12 0 0) [⟨0x1000, 8⟩] ∧ (7#32).toNat < 8 ∧
    Mem.readList 0x1000 8 (ready .decomp).mem ≠ header lc ∧
    ∃ t, exec .decompress (withOps (mem 0x1000 stream (ready .decomp)) 0x1000 19 0x2000 3 0 0) = .next t ∧
      t.err = .outputBufferTooSmall := by
  refine ⟨ready_inv (.inr rfl) _ _ (by decide) .., next_of_got (f := State.err) (by decide), by decide, ?_,
    by unfold busAllows; decide, by decide, by decide, next_of_got (f := State.err) (by decide)⟩
  simp only [bothNameable, nameable]
  decide

/-- A decompressor over a stream at 0x1000 with a destination of 12 bytes. -/
def unpacker (bytes : List Byte) : State :=
  withOps (mem 0x1000 bytes (ready .decomp)) 0x1000 (BitVec.ofNat 32 bytes.length) 0x2000 12 0 0

set_option maxRecDepth 20000 in
/-- RoundTrip: "ABCDABCDABCD" compressed in one chunk, and a decompressor over the stream. -/
theorem test_hyps_round_trip :
    ∃ tc, compressesTo (withOps (mem 0x1000 abcd (ready .comp)) 0x1000 12 0x2000 64 0 0) [] abcd stream tc ∧
      atStreamStart (withOps (mem 0x1000 abcd (ready .comp)) 0x1000 12 0x2000 64 0 0) ∧
      Inv (unpacker stream) ∧ atStreamStart (unpacker stream) ∧
      sameFormat (ready .comp).lcfg (unpacker stream).lcfg ∧ (unpacker stream).mayDecompress = true ∧
      bothNameable (unpacker stream) ∧ (unpacker stream).pend.ops.srcLen.toNat = stream.length ∧
      chunkOf (unpacker stream) = stream ∧ abcd.length ≤ (unpacker stream).pend.ops.dstCap.toNat ∧
      busAllows (unpacker stream) [⟨0x1000, 19⟩, ⟨0x2000, 12⟩] := by
  obtain ⟨tc, h1, h2⟩ := next_of_got (f := fun t => (t.err, t.result, Mem.readList 0x2000 19 t.mem))
    (r := exec (.compress true) (withOps (mem 0x1000 abcd (ready .comp)) 0x1000 12 0x2000 64 0 0))
    (x := (.ok, 19, stream)) (by decide)
  simp only [Prod.mk.injEq] at h2
  refine ⟨tc, ⟨ready_inv (.inl rfl) _ _ (by decide) .., h1, h2.1, by decide, ?_⟩, ⟨rfl, rfl, test_init_tabs.symm⟩,
    ready_inv (.inr rfl) _ _ (by decide) .., ⟨rfl, rfl, test_init_tabs.symm⟩, ⟨rfl, rfl, rfl, rfl⟩, by decide, ?_, by decide,
    by decide, by decide, by unfold busAllows; decide⟩
  · rw [storedChunk, h2.2.1]
    exact h2.2.2.symm
  · simp only [bothNameable, nameable]
    decide

/-- A compressor that takes up a stream of which only the header is stored. -/
def secondChunk : State :=
  { withOps (mem 0x1000 abcd (ready .comp)) 0x1000 12 0x2000 64 0 0 with
    ctx := { state := .ready, role := .comp, started := true, done := false }
    wc := { base := 0x3000, cap := 8, pos := 8, acc := 0, nacc := 0 } }

theorem secondChunk_inv : Inv secondChunk := by
  have h := ready_inv (.inl rfl) 0x1000 abcd (by decide) 0x1000 12 0x2000 64 0 0
  exact ⟨h.plat, h.mem_wf, h.mem_below, .inr (.inr ⟨rfl, .inl rfl, fun h => by cases h⟩),
    ⟨by decide, by decide, by decide, by decide⟩, h.rc, h.ring_wf, h.ring_below, h.lcfg, h.shape,
    fun _ _ => h.sound rfl rfl⟩

set_option maxRecDepth 20000 in
/-- RoundTrip over two chunks: an empty one, which stores the header, and "ABCDABCDABCD" with FINAL. -/
theorem test_hyps_round_trip_chunks :
    ∃ tc, compressesTo (withOps (mem 0x1000 abcd (ready .comp)) 0x1000 0 0x3000 8 0 0) [secondChunk] abcd stream tc ∧
      atStreamStart (withOps (mem 0x1000 abcd (ready .comp)) 0x1000 0 0x3000 8 0 0) := by
  obtain ⟨u, h1, h2⟩ := next_of_got
    (f := fun t => (Mem.readList 0x3000 8 t.mem, { t with mem := [], pend := secondChunk.pend }))
    (r := exec (.compress false) (withOps (mem 0x1000 abcd (ready .comp)) 0x1000 0 0x3000 8 0 0))
    (x := (stream.take 8, { secondChunk with mem := [], result := 8, irqPend := 1, busy := false })) (by decide)
  obtain ⟨tc, h3, h4⟩ := next_of_got (f := fun t => (t.err, t.result, Mem.readList 0x2000 11 t.mem))
    (r := exec (.compress true) secondChunk) (x := (.ok, 11, stream.drop 8)) (by decide)
  simp only [Prod.mk.injEq] at h2 h4
  obtain ⟨e3, e⟩ := h2
  have e2 : u.result = 8 := congrArg State.result e
  refine ⟨tc, ⟨ready_inv (.inl rfl) _ _ (by decide) .., u, abcd, stream.drop 8, h1, congrArg State.err e, ?_,
    ⟨secondChunk_inv, h3, h4.1, by decide, ?_⟩, by decide, ?_⟩, ⟨rfl, rfl, test_init_tabs.symm⟩⟩
  · exact ⟨(congrArg State.ctx e).symm, (congrArg State.lcfg e).symm, (congrArg State.tab e).symm,
      (congrArg State.win e).symm, (congrArg State.adler e).symm, (congrArg (fun t => t.wc.acc) e).symm,
      (congrArg (fun t => t.wc.nacc) e).symm⟩
  · rw [storedChunk, h4.2.1]
    exact h4.2.2.symm
  · rw [storedChunk, e2]
    exact (congrArg (· ++ stream.drop 8) e3).symm

/-- ChecksumCommandsComplete. -/
theorem test_hyps_checksum :
    (withOps (ready .comp) 0x1000 9 0 0 0 0).isReady = true ∧
    nameable (withOps (ready .comp) 0x1000 9 0 0 0 0) (withOps (ready .comp) 0x1000 9 0 0 0 0).srcRegion ∧
    busAllows (withOps (ready .comp) 0x1000 9 0 0 0 0) [⟨0x1000, 9⟩] := by
  simp only [nameable, busAllows]
  decide

/-- AdlerFolds: both halves at their greatest value. -/
theorem test_hyps_adler : (0xFFF0FFF0#32).toNat % 65536 < 65521 ∧ (0xFFF0FFF0#32).toNat / 65536 < 65521 := by decide

/-- BucketsAreInverse: the last value of an extra field, and both ends of an exponent. -/
theorem test_hyps_buckets : 7 < 2 ^ nextra 8 ∧ (2 : Nat) ≤ 2 ∧ (3 : Nat) < 2 ^ 2 := by decide

end Sys2Proof.Tests
end

section
/-!
PROOFS. Rules for what a command answers: a property of every next state an outcome has, carried through the checks of
40_command_model.md R406, each check once. Where a check fails the command completes with an error code, so a property that
every completion has, and that the command's own last state has, holds of whatever the command answers.
-/

namespace Sys2Proof.Machine

open Sys2Proof.Safety

/-- Every next state an outcome has meets the property; a fault or a refusal has none. -/
def Yields (P : State → Prop) (r : Result) : Prop :=
  ∀ t, r = .next t → P t

section
variable {P : State → Prop} {s : State} {body : Result}

theorem yields_next {t : State} (h : P t) : Yields P (.next t) := by
  intro u hu
  injection hu with hu
  exact hu ▸ h

theorem yields_refused (r : Refusal) : Yields P (.refused r) := fun _ h => by cases h

theorem yields_requireState {ok : Bool} (he : ∀ e, P (s.complete e)) (hb : ok = true → Yields P body) :
    Yields P (requireState ok s body) := by
  intro t h
  obtain ⟨_, rfl⟩ | ⟨_, _, rfl⟩ | ⟨_, ho, h⟩ := requireState_next h
  · exact he _
  · exact he _
  · exact hb ho t h

theorem yields_requireOperand {ok : Bool} (he : ∀ e, P (s.complete e)) (hb : Yields P body) :
    Yields P (requireOperand ok s body) := by
  intro t h
  obtain ⟨_, rfl⟩ | ⟨_, h⟩ := requireOperand_next h
  · exact he _
  · exact hb t h

theorem yields_requireConfig {ok : Bool} (he : ∀ e, P (s.complete e)) (hb : ok = true → Yields P body) :
    Yields P (requireConfig ok s body) := by
  intro t h
  obtain ⟨_, rfl⟩ | ⟨ho, h⟩ := requireConfig_next h
  · exact he _
  · exact hb ho t h

theorem yields_requireRegion {r : Region} (he : ∀ e, P (s.complete e)) (hb : r.legal = true → Yields P body) :
    Yields P (requireRegion r s body) := by
  intro t h
  obtain ⟨_, rfl⟩ | ⟨hl, _, h⟩ := requireRegion_next h
  · exact he _
  · exact hb hl t h

theorem yields_requireRegions {src dst : Region} (he : ∀ e, P (s.complete e))
    (hb : src.legal = true → dst.legal = true → Yields P body) : Yields P (requireRegions src dst s body) := by
  intro t h
  obtain ⟨_, rfl⟩ | ⟨hs, hd, _, _, _, h⟩ := requireRegions_next h
  · exact he _
  · exact hb hs hd t h

theorem yields_afterAccesses {rs : List Region} (hb : Yields P body) : Yields P (afterAccesses rs s body) :=
  fun t h => hb t (afterAccesses_next h).2

theorem yields_finishStore {r : Except Full State} (he : ∀ e, P (s.complete e))
    (hok : ∀ u, r = .ok u → P (u.complete .ok)) : Yields P (finishStore r s) := by
  intro t h
  obtain ⟨_, _, rfl⟩ | ⟨u, hu, rfl, _⟩ := finishStore_next h
  · exact he _
  · exact hok u hu

theorem yields_finishRead {r : Except ReadStop State} (he : ∀ e, P (s.complete e))
    (hok : ∀ u, r = .ok u → P (u.complete .ok)) : Yields P (finishRead r s) := by
  intro t h
  obtain ⟨_, _, rfl⟩ | ⟨u, hu, rfl⟩ := finishRead_next h
  · exact he _
  · exact hok u hu

end

/-! ## COMPRESS and DECOMPRESS, whose last part has cases of its own -/

section
variable {P : State → Prop} {s : State}

/-- What `compressChunk` leaves of a state, with what the parse and the end of the stream gave (47_parser_compress.md R640). -/
theorem compressChunk_ok {final : Bool} {k : Comp} {adler0 : Word} {u : State}
    (h : compressChunk final s k adler0 = .ok u) :
    ∃ (k1 : Comp) (e : Enc),
      parse s.lcfg (chunkOf s) 0 k = .ok k1 ∧
      (if final then compressEnd s.lcfg (adlerUpdate adler0 (chunkOf s)) k1.enc else .ok k1.enc) = .ok e ∧
      u = { s with
            mem := e.sink.mem
            wc := e.sink.wc
            tab := e.tab
            win := k1.win
            adler := adlerUpdate adler0 (chunkOf s)
            ctx := { s.ctx with started := true, done := s.ctx.done || final }
            result := BitVec.ofNat 32 e.sink.wc.pos } := by
  obtain ⟨k1, hk1, h⟩ := bind_ok h
  cases final <;>
    (obtain ⟨e, he, h⟩ := bind_ok h
     injection h with h
     exact ⟨k1, e, hk1, he, h.symm⟩)

theorem yields_execCompress {final : Bool} (he : ∀ e, P (s.complete e))
    (hfail : s.mayCompress = true → s.dstRegion.legal = true → P ((compressBroken s).complete .outputBufferTooSmall))
    (hok : ∀ k adler0 u, s.mayCompress = true → s.dstRegion.legal = true → compressStart s = .ok (k, adler0) →
      compressChunk final s k adler0 = .ok u → P (u.complete .ok)) : Yields P (execCompress final s) := by
  refine yields_requireState he fun hm => yields_requireRegions he fun _ hd => ?_
  split
  · exact yields_afterAccesses (yields_next (hfail hm hd))
  · rename_i k adler0 hs
    split
    · exact yields_afterAccesses (yields_next (hfail hm hd))
    · rename_i u hc
      exact yields_afterAccesses (yields_next (hok k adler0 u hm hd hs hc))

theorem yields_execDecompress (he : ∀ e, P (s.complete e))
    (hok : ∀ u, s.mayDecompress = true → s.srcRegion.legal = true → s.dstRegion.legal = true →
      unpackStream s = .ok u → P ((decompressDone s u).complete .ok))
    (hfail : ∀ x u, s.mayDecompress = true → s.srcRegion.legal = true → s.dstRegion.legal = true →
      unpackStream s = .error (x, u) → P ((decompressBroken s u).complete x.err)) : Yields P (execDecompress s) := by
  refine yields_requireState he fun hm => yields_requireRegions he fun hsl hdl => ?_
  split
  · rename_i u hu
    exact yields_afterAccesses (yields_next (hok u hm hsl hdl hu))
  · rename_i x u hu
    exact yields_afterAccesses (yields_next (hfail x u hm hsl hdl hu))

end

end Sys2Proof.Machine
end

section
/-!
PROOFS. IRQ_PEND (10_state.md R107, R158): what sets it, what clears it, and the level of `irq`.
-/

namespace Sys2Proof.Machine

open Sys2Proof.Safety

/-- A command that answers a next state has reported: IRQ_PEND is what it was with DONE set (40_command_model.md R404). -/
theorem exec_irqPend (i : Instr) (s : State) : Yields (fun t => t.irqPend = s.irqPend ||| 1) (exec i s) := by
  have he : ∀ e, (s.complete e).irqPend = s.irqPend ||| 1 := fun _ => rfl
  cases i with
  | cinit => exact yields_requireState he fun _ => yields_requireConfig he fun _ => yields_next rfl
  | dinit => exact yields_requireState he fun _ => yields_requireConfig he fun _ => yields_next rfl
  | reinit =>
    refine yields_requireState he fun _ => ?_
    split
    · exact yields_requireConfig he fun _ => yields_next rfl
    · exact yields_next rfl
  | close => exact yields_requireState he fun _ => yields_next rfl
  | compress final =>
    refine yields_execCompress he (fun _ _ => rfl) fun k a u _ _ _ hc => ?_
    obtain ⟨k1, e, _, _, rfl⟩ := compressChunk_ok hc
    rfl
  | decompress => exact yields_execDecompress he (fun _ _ _ _ _ => rfl) fun _ _ _ _ _ _ => rfl
  | hbuild =>
    refine yields_requireState he fun _ => yields_requireOperand he (yields_requireRegions he fun _ _ => ?_)
    split
    · exact yields_next rfl
    · exact yields_afterAccesses (yields_next rfl)
  | treset c => exact yields_requireState he fun _ => yields_next rfl
  | tenc c =>
    refine yields_requireState he fun _ => yields_requireOperand he (yields_finishStore he fun u hu => ?_)
    obtain ⟨_, _, rfl⟩ := map_ok hu
    rfl
  | tdec c =>
    refine yields_requireState he fun _ => yields_finishRead he fun u hu => ?_
    obtain ⟨_, _, rfl⟩ := map_ok hu
    rfl
  | tcost c => exact yields_requireState he fun _ => yields_requireOperand he (yields_next rfl)
  | tread c => exact yields_requireState he fun _ => yields_requireOperand he (yields_next rfl)
  | tstat c => exact yields_requireState he fun _ => yields_next rfl
  | wsetup => exact yields_requireState he fun _ => yields_requireRegion he fun _ => yields_next rfl
  | putbits =>
    refine yields_requireState he fun _ => yields_requireOperand he (yields_finishStore he fun u hu => ?_)
    obtain ⟨_, _, rfl⟩ := map_ok hu
    rfl
  | wflush =>
    refine yields_requireState he fun _ => yields_finishStore he fun u hu => ?_
    obtain ⟨_, _, rfl⟩ := map_ok hu
    rfl
  | rsetup => exact yields_requireState he fun _ => yields_requireRegion he fun _ => yields_next rfl
  | getbits =>
    refine yields_requireState he fun _ => yields_requireOperand he (yields_finishRead he fun u hu => ?_)
    obtain ⟨_, _, rfl⟩ := map_ok hu
    rfl
  | ralign => exact yields_requireState he fun _ => yields_next rfl
  | wput => exact yields_requireState he fun _ => yields_next rfl
  | wget => exact yields_requireState he fun _ => yields_requireOperand he (yields_next rfl)
  | mfind =>
    exact yields_requireState he fun _ => yields_requireRegion he fun _ => yields_afterAccesses (yields_next rfl)
  | cost =>
    exact yields_requireState he fun _ => yields_requireOperand he
      (yields_requireRegion he fun _ => yields_afterAccesses (yields_next rfl))
  | ainit => exact yields_requireState he fun _ => yields_next rfl
  | aupdate =>
    exact yields_requireState he fun _ => yields_requireRegion he fun _ => yields_afterAccesses (yields_next rfl)

/-- What a completion does is what the decoded command does, or, for an ill-formed word, the report of IllegalCommand. -/
theorem yields_completion {P : State → Prop} {s : State} (hill : P (s.complete .illegalCommand))
    (hexec : ∀ i, Yields P (exec i s)) : Yields P s.completion := by
  unfold State.completion
  split
  · exact yields_next hill
  · exact hexec _

theorem completion_irqPend (s : State) : Yields (fun t => t.irqPend = s.irqPend ||| 1) s.completion :=
  yields_completion rfl fun i => exec_irqPend i s

/-- A CMD write while busy sets LOST and keeps DONE (40_command_model.md R401). -/
theorem writeReg_cmd_busy (w : Word) {s : State} (h : s.busy = true) :
    s.writeReg .cmd w = { s with irqPend := s.irqPend ||| 2 } := by
  simp [State.writeReg, h]

/-- A write of IRQ_PEND clears bit k exactly when it writes 1 to it (10_state.md R107). -/
theorem clearPend_bit (s : State) (v : Word) {k : Nat} (hk : k < 2) :
    (s.clearPend v).irqPend.getLsbD k = (s.irqPend.getLsbD k && !v.getLsbD k) := by
  simp [hk]

/-- The bits of IRQ_PEND after a completion: DONE is set, LOST is as it was (10_state.md R107). -/
theorem pend_or_one_bits (p : BitVec 2) : (p ||| 1).getLsbD 0 = true ∧ (p ||| 1).getLsbD 1 = p.getLsbD 1 := by
  simp

theorem or_two_lost (p : BitVec 2) : (p ||| 2).getLsbD 1 = true := by
  revert p; decide

/-- `irq` is high when a pending bit is enabled (10_state.md R158). -/
theorem irq_eq (s : State) :
    s.irq = ((s.irqEn.getLsbD 0 && s.irqPend.getLsbD 0) || (s.irqEn.getLsbD 1 && s.irqPend.getLsbD 1)) := by
  have h : ∀ e p : BitVec 2, ((e &&& p &&& 0b11) != 0) = ((e.getLsbD 0 && p.getLsbD 0) || (e.getLsbD 1 && p.getLsbD 1)) := by
    decide
  exact h s.irqEn s.irqPend

/-- An event other than a wait is taken from the list and delivered (log 1). -/
theorem step_event {s : State} {e : Event} {rest : List Event} (h : s.inputs = e :: rest) (hw : e ≠ .wait) :
    step s = State.deliver e { s with inputs := rest } := by
  unfold step State.turn
  rw [h]
  cases e <;> first | rfl | exact absurd rfl hw

/-- The race of a clearing write with a completion: the bits are cleared, then the command reports (10_state.md R107). -/
theorem step_clearAtCompletion {s : State} {v : Word} {rest : List Event} (h : s.inputs = .clearAtCompletion v :: rest)
    (hb : s.busy = true) : step s = (State.clearPend v { s with inputs := rest }).completion := by
  rw [step_event h (by simp)]
  exact if_pos hb

/-- Settles O21: every completion leaves the pending bits with DONE set, so it wins the race with a clearing write. -/
theorem interruptPending : Obligations.InterruptPending := by
  unfold Obligations.InterruptPending
  refine ⟨fun i s t h => ?_, fun s w hb => ?_, fun s v k hk => clearPend_bit s v hk, fun s t v rest hin hb h => ?_,
    irq_eq, rfl⟩
  · rw [exec_irqPend i s t h]
    exact (pend_or_one_bits _).1
  · rw [writeReg_cmd_busy w hb]
    exact or_two_lost _
  · rw [step_clearAtCompletion hin hb] at h
    rw [completion_irqPend _ t h]
    obtain ⟨hdone, hlost⟩ := pend_or_one_bits (State.clearPend v { s with inputs := rest }).irqPend
    exact ⟨hdone, hlost.trans (clearPend_bit _ v (by decide))⟩

end Sys2Proof.Machine
end

section
/-!
PROOFS. STATUS (10_state.md R105): the number its fields add up to, and each field read back from it.
-/

namespace Sys2Proof.Machine

open Sys2Proof.Safety

theorem stateField_le (s : State) : s.stateField ≤ 3 := by
  unfold State.stateField
  split
  · decide
  · split <;> decide
  · decide

theorem roleField_le (s : State) : s.roleField ≤ 2 := by
  unfold State.roleField
  split <;> decide

theorem ErrCode.code_le (e : ErrCode) : e.code ≤ 9 := by
  cases e <;> decide

/-- Each field of STATUS fits in its bits. -/
theorem status_digits_le (s : State) (started done : Bool) :
    s.stateField ≤ 3 ∧ s.roleField ≤ 2 ∧ s.busy.toNat ≤ 1 ∧ (s.irqPend.getLsbD 1).toNat ≤ 1 ∧ started.toNat ≤ 1 ∧
      done.toNat ≤ 1 ∧ s.err.code ≤ 9 :=
  ⟨stateField_le s, roleField_le s, s.busy.toNat_le, (s.irqPend.getLsbD 1).toNat_le, started.toNat_le, done.toNat_le,
    s.err.code_le⟩

/-- The fields of STATUS as digits: none reaches into the next, so nothing is lost in the 32 bits (10_state.md R105). -/
theorem statusWith_toNat (s : State) (started done : Bool) :
    (s.statusWith started done).toNat =
      s.stateField + 4 * s.roleField + 16 * s.busy.toNat + 32 * (s.irqPend.getLsbD 1).toNat + 64 * started.toNat
        + 128 * done.toNat + 256 * s.err.code := by
  have hbounds := status_digits_le s started done
  rw [State.statusWith, BitVec.toNat_ofNat]
  exact Nat.mod_eq_of_lt (by omega)

/-- A bit of a word whose value at that digit is a Boolean's. -/
theorem getLsbD_of_digit {x : Word} {k : Nat} {b : Bool} (h : x.toNat / 2 ^ k % 2 = b.toNat) : x.getLsbD k = b := by
  rw [BitVec.getLsbD, Nat.testBit_eq_decide_div_mod_eq, h]
  cases b <;> rfl

/-- A field of a word from its value at that digit. -/
theorem extractLsb'_of_digit {x : Word} {k w n : Nat} (h : x.toNat / 2 ^ k % 2 ^ w = n % 2 ^ w) :
    x.extractLsb' k w = BitVec.ofNat w n := by
  apply BitVec.eq_of_toNat_eq
  rw [BitVec.extractLsb'_toNat, Nat.shiftRight_eq_div_pow, BitVec.toNat_ofNat]
  exact h

theorem statusWith_fields (s : State) (started done : Bool) :
    (s.statusWith started done).extractLsb' 0 2 = BitVec.ofNat 2 s.stateField ∧
    (s.statusWith started done).extractLsb' 2 2 = BitVec.ofNat 2 s.roleField ∧
    (s.statusWith started done).getLsbD 4 = s.busy ∧
    (s.statusWith started done).getLsbD 5 = s.irqPend.getLsbD 1 ∧
    (s.statusWith started done).getLsbD 6 = started ∧
    (s.statusWith started done).getLsbD 7 = done ∧
    (s.statusWith started done).extractLsb' 8 8 = BitVec.ofNat 8 s.err.code ∧
    (s.statusWith started done).extractLsb' 16 16 = 0 := by
  have hw := statusWith_toNat s started done
  have hbounds := status_digits_le s started done
  exact ⟨extractLsb'_of_digit (by omega), extractLsb'_of_digit (by omega), getLsbD_of_digit (by omega),
    getLsbD_of_digit (by omega), getLsbD_of_digit (by omega), getLsbD_of_digit (by omega),
    extractLsb'_of_digit (by omega), extractLsb'_of_digit (n := 0) (by omega)⟩

/-- A read of an idle block returns the register's value and changes nothing else (10_state.md R101). -/
theorem readReg_idle {s : State} (h : s.busy = false) (r : Reg) : s.readReg r = { s with rdata := s.regValue r } := by
  simp [State.readReg, h]

/-- Settles O19: the fields of STATUS are the digits of the number it stands for. -/
theorem statusFields : Obligations.StatusFields := by
  unfold Obligations.StatusFields
  exact ⟨statusWith_fields, fun s h => readReg_idle h .status, rfl⟩

end Sys2Proof.Machine
end

section
/-!
PROOFS. The register port (10_state.md R100, R101): the map of offsets, the range of what a read returns, and what a write of a
RW register stores.
-/

namespace Sys2Proof.Machine

open Sys2Proof.Safety

/-! ## Accesses -/

theorem accessShapeOk_iff (bits offset : Nat) : accessShapeOk bits offset = true ↔ bits = 32 ∧ offset % 4 = 0 := by
  simp [accessShapeOk]

theorem step_read {s : State} {bits : Nat} {offset : BitVec 8} {rest : List Event}
    (h : s.inputs = .read bits offset :: rest) :
    step s = if accessShapeOk bits offset.toNat then .next (State.readOffset offset.toNat { s with inputs := rest })
      else .refused .registerAccessShape :=
  step_event h (by simp)

theorem step_write {s : State} {bits : Nat} {offset : BitVec 8} {v : Word} {rest : List Event}
    (h : s.inputs = .write bits offset v :: rest) :
    step s = if accessShapeOk bits offset.toNat then .next (State.writeOffset offset.toNat v { s with inputs := rest })
      else .refused .registerAccessShape :=
  step_event h (by simp)

/-! ## The map (10_state.md R100) -/

theorem regAt_of_mem {offset : Nat} {r : Reg} (h : (offset, r) ∈ registerMap) : regAt offset = some r := by
  have hall : ∀ p ∈ registerMap, regAt p.1 = some p.2 := by decide
  exact hall (offset, r) h

theorem mem_of_regAt {offset : Nat} {r : Reg} (h : regAt offset = some r) : (offset, r) ∈ registerMap := by
  unfold regAt at h
  split at h <;> cases h <;> simp [registerMap]

theorem regAt_reserved {offset : Nat} (h : ∀ r, (offset, r) ∉ registerMap) : regAt offset = none :=
  Option.eq_none_iff_forall_not_mem.mpr fun r hr => h r (mem_of_regAt hr)

theorem readOffset_of_some {s : State} {offset : Nat} {r : Reg} (h : regAt offset = some r) :
    s.readOffset offset = s.readReg r := by
  simp [State.readOffset, h]

theorem readOffset_of_none {s : State} {offset : Nat} (h : regAt offset = none) :
    s.readOffset offset = { s with rdata := 0 } := by
  simp [State.readOffset, h]

theorem writeOffset_of_some {s : State} {offset : Nat} {r : Reg} {v : Word} (h : regAt offset = some r) :
    s.writeOffset offset v = s.writeReg r v := by
  simp [State.writeOffset, h]

theorem writeOffset_of_none {s : State} {offset : Nat} {v : Word} (h : regAt offset = none) :
    s.writeOffset offset v = s := by
  simp [State.writeOffset, h]

/-! ## Reads -/

/-- What a read can return: the register's value, a free value cut to the register's width, or STATUS with free STARTED and DONE
bits; beside `rdata` only the count of draws moves (70_reset_and_hazards.md R921). -/
theorem readReg_cases (s : State) (r : Reg) :
    s.readReg r = { s with rdata := s.regValue r } ∨
    (r.openWhileBusy = true ∧ s.readReg r =
      { s with rdata := BitVec.ofNat 32 ((freeWord s.draws 0).toNat % 2 ^ r.width), draws := s.draws + 1 }) ∨
    (r = .status ∧ ∃ started done,
      s.readReg r = { s with rdata := s.statusWith started done, draws := s.draws + 1 }) := by
  unfold State.readReg
  split
  · split
    · rename_i ho
      exact .inr (.inl ⟨ho, rfl⟩)
    · split
      · rename_i hr
        exact .inr (.inr ⟨hr, _, _, rfl⟩)
      · exact .inl rfl
  · exact .inl rfl

/-- A register that R921 does not name reads the same busy or idle. -/
theorem readReg_closed (s : State) {r : Reg} (ho : r.openWhileBusy = false) (hs : r ≠ .status) :
    s.readReg r = { s with rdata := s.regValue r } := by
  obtain h | ⟨h, _⟩ | ⟨h, _⟩ := readReg_cases s r
  · exact h
  · exact absurd (ho.symm.trans h) (by decide)
  · exact absurd h hs

theorem toNat_ofNat_mod_lt (n k : Nat) : (BitVec.ofNat 32 (n % 2 ^ k)).toNat < 2 ^ k := by
  rw [BitVec.toNat_ofNat]
  exact Nat.lt_of_le_of_lt (Nat.mod_le _ _) (Nat.mod_lt _ (Nat.two_pow_pos k))

theorem toNat_setWidth_lt {w : Nat} (x : BitVec w) : (x.setWidth 32).toNat < 2 ^ w := by
  rw [BitVec.toNat_setWidth]
  exact Nat.lt_of_le_of_lt (Nat.mod_le _ _) x.isLt

theorem statusWith_lt (s : State) (started done : Bool) : (s.statusWith started done).toNat < 2 ^ 16 := by
  have hbounds := status_digits_le s started done
  rw [statusWith_toNat]
  omega

/-- A register's value lies in its defined bits (10_state.md R101). -/
theorem regValue_lt (s : State) (r : Reg) : (s.regValue r).toNat < 2 ^ r.width := by
  cases r with
  | id => exact show (0x505A0001#32).toNat < 2 ^ 32 by decide
  | cmd | srst => exact show (0#32).toNat < 2 ^ 0 by decide
  | status => exact statusWith_lt s _ _
  | irqEn | irqPend | cfgDictLog2 | cfgLevel | cfgUpdateRate | cfgMaxInterval | cfgSlowRate | cfgHelpers | cfgDflags =>
    exact toNat_setWidth_lt _
  | wcNbits => exact toNat_ofNat_mod_lt _ 3
  | wcAcc => exact toNat_ofNat_mod_lt _ 7
  | rcBit => exact toNat_ofNat_mod_lt _ 3
  | srcAddr | srcLen | dstAddr | dstCap | arg0 | arg1 | result | res0 | res1 | adler | wcPos | rcPos | winTotalLo
  | winTotalHi => exact BitVec.isLt _

theorem readReg_lt (s : State) (r : Reg) : (s.readReg r).rdata.toNat < 2 ^ r.width := by
  obtain h | ⟨_, h⟩ | ⟨rfl, started, done, h⟩ := readReg_cases s r
  · rw [h]
    exact regValue_lt s r
  · rw [h]
    exact toNat_ofNat_mod_lt _ _
  · rw [h]
    exact statusWith_lt s started done

/-! ## The cursors' registers, whose fields the invariant keeps in range (10_state.md R141 to R146) -/

theorem regValue_wcNbits {s : State} (h : WCurOk s.wc) : s.regValue .wcNbits = BitVec.ofNat 32 s.wc.nacc :=
  congrArg (BitVec.ofNat 32) (Nat.mod_eq_of_lt h.nacc_lt)

theorem regValue_wcAcc {s : State} (h : WCurOk s.wc) : s.regValue .wcAcc = BitVec.ofNat 32 s.wc.acc := by
  have hle : 2 ^ s.wc.nacc ≤ 2 ^ 7 := Nat.pow_le_pow_right (by decide) (Nat.le_of_lt_succ h.nacc_lt)
  exact congrArg (BitVec.ofNat 32) (Nat.mod_eq_of_lt (Nat.lt_of_lt_of_le h.acc_lt hle))

theorem regValue_rcBit {s : State} (h : RCurOk s.rc) : s.regValue .rcBit = BitVec.ofNat 32 s.rc.bit := by
  have hp := h.place
  exact congrArg (BitVec.ofNat 32) (Nat.mod_eq_of_lt (by omega))

theorem regValue_winTotalLo (s : State) :
    s.regValue .winTotalLo = BitVec.ofNat 32 (s.win.total.toNat % 2 ^ 32) := by
  apply BitVec.eq_of_toNat_eq
  simp [State.regValue]

theorem regValue_winTotalHi (s : State) :
    s.regValue .winTotalHi = BitVec.ofNat 32 (s.win.total.toNat / 2 ^ 32) := by
  apply BitVec.eq_of_toNat_eq
  simp [State.regValue, Nat.shiftRight_eq_div_pow]

theorem regValue_irqPend (s : State) : s.regValue .irqPend = BitVec.ofNat 32 s.irqPend.toNat :=
  (BitVec.ofNat_toNat 32 s.irqPend).symm

/-! ## Writes -/

theorem writeReg_readOnly (s : State) {r : Reg} (v : Word) (h : r ∈ readOnlyRegs) : s.writeReg r v = s := by
  simp only [readOnlyRegs, List.mem_cons, List.not_mem_nil, or_false] at h
  rcases h with rfl | rfl | rfl | rfl | rfl | rfl | rfl | rfl | rfl | rfl | rfl | rfl | rfl <;> rfl

/-- Only the low bits of a word are stored in a narrower register. -/
theorem setWidth_eq_of_low_bits {v v' : Word} {w : Nat} (h : v.toNat % 2 ^ w = v'.toNat % 2 ^ w) :
    v.setWidth w = v'.setWidth w := by
  apply BitVec.eq_of_toNat_eq
  simpa using h

theorem setWidth_low_bits (v : Word) (w : Nat) : (v.setWidth w).setWidth 32 = BitVec.ofNat 32 (v.toNat % 2 ^ w) := by
  apply BitVec.eq_of_toNat_eq
  simp

theorem word_low_bits (v : Word) : v = BitVec.ofNat 32 (v.toNat % 2 ^ 32) := by
  rw [Nat.mod_eq_of_lt v.isLt, BitVec.ofNat_toNat, BitVec.setWidth_eq]

/-- A write depends on the register's defined bits alone (10_state.md R101). -/
theorem writeReg_low_bits (s : State) {r : Reg} {v v' : Word} (hr : r ∈ writableRegs ∨ r = .irqPend)
    (h : v.toNat % 2 ^ r.width = v'.toNat % 2 ^ r.width) : s.writeReg r v = s.writeReg r v' := by
  cases r with
  | irqEn | cfgDflags => simp only [State.writeReg, setWidth_eq_of_low_bits (w := 2) h]
  | irqPend => simp only [State.writeReg, State.clearPend, setWidth_eq_of_low_bits (w := 2) h]
  | cfgDictLog2 | cfgLevel | cfgUpdateRate | cfgSlowRate | cfgHelpers =>
    simp only [State.writeReg, setWidth_eq_of_low_bits (w := 8) h]
  | cfgMaxInterval => simp only [State.writeReg, setWidth_eq_of_low_bits (w := 16) h]
  | srcAddr | srcLen | dstAddr | dstCap | arg0 | arg1 =>
    rw [(word_low_bits v).trans ((congrArg (BitVec.ofNat 32) h).trans (word_low_bits v').symm)]
  | id | cmd | status | srst | result | res0 | res1 | adler | wcPos | wcNbits | wcAcc | rcPos | rcBit | winTotalLo
  | winTotalHi => exact absurd hr (by decide)

/-- The value a RW register holds after a write: the stored bits of the word (10_state.md R101). -/
theorem regValue_writeReg_same (s : State) {r : Reg} (v : Word) (hr : r ∈ writableRegs) :
    (s.writeReg r v).regValue r = BitVec.ofNat 32 (v.toNat % 2 ^ r.width) := by
  cases r with
  | irqEn | cfgDflags => exact setWidth_low_bits v 2
  | cfgDictLog2 | cfgLevel | cfgUpdateRate | cfgSlowRate | cfgHelpers => exact setWidth_low_bits v 8
  | cfgMaxInterval => exact setWidth_low_bits v 16
  | srcAddr | srcLen | dstAddr | dstCap | arg0 | arg1 => exact word_low_bits v
  | id | cmd | status | irqPend | srst | result | res0 | res1 | adler | wcPos | wcNbits | wcAcc | rcPos | rcBit
  | winTotalLo | winTotalHi => exact absurd hr (by decide)

/-- A write to a RW register leaves the value of every other register (10_state.md R100). -/
theorem regValue_writeReg_other (s : State) {r r' : Reg} (v : Word) (hr : r ∈ writableRegs) (hne : r' ≠ r) :
    (s.writeReg r v).regValue r' = s.regValue r' := by
  simp only [writableRegs, List.mem_cons, List.not_mem_nil, or_false] at hr
  rcases hr with rfl | rfl | rfl | rfl | rfl | rfl | rfl | rfl | rfl | rfl | rfl | rfl | rfl | rfl <;>
    cases r' <;> first | rfl | exact absurd rfl hne

theorem writable_not_open {r : Reg} (hr : r ∈ writableRegs) : r.openWhileBusy = false ∧ r ≠ .status := by
  have hall : ∀ r ∈ writableRegs, r.openWhileBusy = false ∧ r ≠ .status := by decide
  exact hall r hr

/-- Settles O18: each clause is one of the lemmas above. -/
theorem registerPortRules : Obligations.RegisterPortRules := by
  unfold Obligations.RegisterPortRules
  refine ⟨fun s bits offset v rest hshape => ?_, fun s offset v rest h4 => ?_, fun s offset r v hm => ?_,
    fun s offset v hm => ?_, fun s r v hr => writeReg_readOnly s v hr, fun s => ⟨?_, ?_⟩, readReg_lt, fun s hinv hb => ?_,
    fun s r v v' hr h => writeReg_low_bits s hr h, fun s r v hr => ⟨?_, fun r' hne => regValue_writeReg_other s v hr hne⟩⟩
  · have hbad := mt (accessShapeOk_iff bits offset.toNat).mp hshape
    exact ⟨fun h => (step_read h).trans (if_neg hbad), fun h => (step_write h).trans (if_neg hbad)⟩
  · have hok := (accessShapeOk_iff 32 offset.toNat).mpr ⟨rfl, h4⟩
    exact ⟨fun h => (step_read h).trans (if_pos hok), fun h => (step_write h).trans (if_pos hok)⟩
  · have h := regAt_of_mem hm
    exact ⟨readOffset_of_some h, writeOffset_of_some h⟩
  · have h := regAt_reserved hm
    exact ⟨readOffset_of_none h, writeOffset_of_none h⟩
  · exact readReg_closed s rfl (by decide)
  · exact readReg_closed s rfl (by decide)
  · have hread := readReg_idle hb
    refine ⟨hread _, ?_, hread _, hread _, hread _, hread _, hread _, ?_, ?_, hread _, ?_, ?_, ?_⟩
    · rw [hread, regValue_irqPend]
    · rw [hread, regValue_wcNbits hinv.wc]
    · rw [hread, regValue_wcAcc hinv.wc]
    · rw [hread, regValue_rcBit hinv.rc]
    · rw [hread, regValue_winTotalLo]
    · rw [hread, regValue_winTotalHi]
  · obtain ⟨ho, hs⟩ := writable_not_open hr
    rw [readReg_closed _ ho hs]
    exact regValue_writeReg_same s v hr

end Sys2Proof.Machine
end

section
/-!
PROOFS. The parts of the invariant: memory and ring as canonical byte stores, the tables as a whole, and one rule for each
kind of update the commands make of a state that meets the invariant.
-/

namespace Sys2Proof.Safety

open Sys2Proof.Machine

/-! ## The parts -/

/-- Host memory as the invariant wants it (20_memory.md R204). -/
structure MemOk (m : Mem) : Prop where
  wf    : m.wf = true
  below : Mem.below addrSpace m = true

/-- The ring as the invariant wants it (10_state.md R155). -/
structure RingOk (v : Win) : Prop where
  wf    : v.ring.wf = true
  below : Mem.below (2 ^ 30) v.ring = true

/-- All four tables have their class's shape (10_state.md R154). -/
def TabsShape (lc : LCfg) (t : Tabs) : Prop :=
  ∀ c, TableShape (alphabetSize c lc.dict) (t.get c)

/-- All four tables are sound (44_adaptive_codec.md R528). -/
def TabsSound (lc : LCfg) (t : Tabs) : Prop :=
  ∀ c, TableSound lc (alphabetSize c lc.dict) (t.get c)

theorem Inv.memOk {s : State} (h : Inv s) : MemOk s.mem := ⟨h.mem_wf, h.mem_below⟩

theorem Inv.ringOk {s : State} (h : Inv s) : RingOk s.win := ⟨h.ring_wf, h.ring_below⟩

theorem dictLog2Max_le {p : Config.Platform} (h : p.legal = true) : p.dictLog2Max ≤ 30 := by
  simp only [Config.Platform.legal, Bool.and_eq_true, decide_eq_true_eq] at h
  obtain ⟨⟨_, hmax⟩, _⟩ := h
  exact hmax

/-- A READY context's window has at most 2^30 slots (00_scope.md R6). -/
theorem Inv.dict_le {s : State} (h : Inv s) (hr : s.ctx.state = .ready) : s.lcfg.dict ≤ 30 :=
  Nat.le_trans (h.lcfg hr).dict_le (dictLog2Max_le h.plat)

/-! ## Updates -/

/-- What the invariant reads of a state. -/
def invView (s : State) : Config.Platform × Mem × Ctx × WCur × RCur × Mem × LCfg × Tabs :=
  (s.plat, s.mem, s.ctx, s.wc, s.rc, s.win.ring, s.lcfg, s.tab)

/-- The invariant depends on nothing else. -/
theorem Inv.congr {s t : State} (h : Inv s) (e : invView t = invView s) : Inv t := by
  simp only [invView, Prod.mk.injEq] at e
  obtain ⟨hplat, hmem, hctx, hwc, hrc, hring, hlcfg, htab⟩ := e
  obtain ⟨h1, h2, h3, h4, h5, h6, h7, h8, h9, h10, h11⟩ := h
  rw [← hplat, ← hlcfg, ← hctx] at h9
  rw [← hctx, ← hlcfg, ← htab] at h10
  rw [← hctx, ← hlcfg, ← htab] at h11
  exact ⟨hplat ▸ h1, hmem ▸ h2, hmem ▸ h3, hctx ▸ h4, hwc ▸ h5, hrc ▸ h6, hring ▸ h7, hring ▸ h8, h9, h10, h11⟩

variable {s : State}

theorem Inv.complete (h : Inv s) (e : ErrCode) : Inv (s.complete e) := h.congr rfl

theorem Inv.withInputs (h : Inv s) (es : List Event) : Inv { s with inputs := es } := h.congr rfl

theorem Inv.withMem (h : Inv s) {m : Mem} (hm : MemOk m) : Inv { s with mem := m } :=
  ⟨h.plat, hm.wf, hm.below, h.ctx, h.wc, h.rc, h.ring_wf, h.ring_below, h.lcfg, h.shape, h.sound⟩

theorem Inv.withWc (h : Inv s) {w : WCur} (hw : WCurOk w) : Inv { s with wc := w } :=
  ⟨h.plat, h.mem_wf, h.mem_below, h.ctx, hw, h.rc, h.ring_wf, h.ring_below, h.lcfg, h.shape, h.sound⟩

theorem Inv.withRc (h : Inv s) {r : RCur} (hr : RCurOk r) : Inv { s with rc := r } :=
  ⟨h.plat, h.mem_wf, h.mem_below, h.ctx, h.wc, hr, h.ring_wf, h.ring_below, h.lcfg, h.shape, h.sound⟩

theorem Inv.withWin (h : Inv s) {v : Win} (hv : RingOk v) : Inv { s with win := v } :=
  ⟨h.plat, h.mem_wf, h.mem_below, h.ctx, h.wc, h.rc, hv.wf, hv.below, h.lcfg, h.shape, h.sound⟩

theorem Inv.withTab (h : Inv s) {t : Tabs} (hshape : TabsShape s.lcfg t)
    (hsound : s.ctx.done = false → TabsSound s.lcfg t) : Inv { s with tab := t } :=
  ⟨h.plat, h.mem_wf, h.mem_below, h.ctx, h.wc, h.rc, h.ring_wf, h.ring_below, h.lcfg, fun _ => hshape, fun _ => hsound⟩

/-- The stream has begun; that it is done may be found out now, but not taken back (10_state.md R150). -/
theorem Inv.withStarted (h : Inv s) (hr : s.ctx.state = .ready) {d : Bool} (hd : s.ctx.done = true → d = true) :
    Inv { s with ctx := { s.ctx with started := true, done := d } } := by
  refine ⟨h.plat, h.mem_wf, h.mem_below, ?_, h.wc, h.rc, h.ring_wf, h.ring_below, h.lcfg, h.shape, fun _ hd' => ?_⟩
  · obtain ⟨hs, _⟩ | ⟨hs, _⟩ | ⟨_, hrole, _⟩ := h.ctx
    · cases hr.symm.trans hs
    · cases hr.symm.trans hs
    · exact .inr (.inr ⟨hr, hrole, fun _ => rfl⟩)
  · exact h.sound hr (Bool.eq_false_iff.mpr fun hdone => Bool.eq_false_iff.mp hd' (hd hdone))

/-- Outside READY the configuration and the tables may be anything (49_context.md R700). -/
theorem inv_of_not_ready (hplat : s.plat.legal = true) (hmem : MemOk s.mem) (hctx : ctxOk s.ctx)
    (hn : s.ctx.state ≠ .ready) (hwc : WCurOk s.wc) (hrc : RCurOk s.rc) (hring : RingOk s.win) : Inv s :=
  ⟨hplat, hmem.wf, hmem.below, hctx, hwc, hrc, hring.wf, hring.below, fun h => absurd h hn, fun h => absurd h hn,
    fun h => absurd h hn⟩

theorem wcurOk_empty : WCurOk { base := 0, cap := 0, pos := 0, acc := 0, nacc := 0 } :=
  ⟨by decide, by decide, by decide, by decide⟩

theorem rcurOk_empty : RCurOk { base := 0, len := 0, pos := 0, bit := 0 } :=
  ⟨.inr ⟨rfl, rfl⟩, by decide⟩

/-- A fresh stream in a READY context of a legal configuration meets the invariant (49_context.md R714). -/
theorem inv_freshStream {t : State} (h : Inv s) (hkept : t.plat = s.plat ∧ t.mem = s.mem ∧ t.win = s.win)
    (hr : t.ctx.state = .ready) (hrole : t.ctx.role = .comp ∨ t.ctx.role = .decomp) (hlc : LCfgOk t.plat t.lcfg) :
    Inv t.freshStream := by
  obtain ⟨hplat, hmem, hwin⟩ := hkept
  have hring : RingOk t.win := hwin ▸ h.ringOk
  exact ⟨hplat ▸ h.plat, hmem ▸ h.mem_wf, hmem ▸ h.mem_below, .inr (.inr ⟨hr, hrole, fun hd => by cases hd⟩), wcurOk_empty,
    rcurOk_empty, hring.wf, hring.below, fun _ => hlc, fun _ c => (initTabs_sound hlc c).shape,
    fun _ _ => initTabs_sound hlc⟩

/-! ## Reset -/

theorem inv_reset : Inv State.reset :=
  inv_of_not_ready (by decide) ⟨rfl, rfl⟩ (.inl ⟨rfl, rfl, rfl, rfl⟩) (by decide) wcurOk_empty rcurOk_empty ⟨rfl, rfl⟩

theorem Inv.softReset (h : Inv s) : Inv s.softReset := by
  have hn : State.reset.ctx.state ≠ .ready := by decide
  refine inv_of_not_ready h.plat ?_ inv_reset.ctx hn inv_reset.wc inv_reset.rc inv_reset.ringOk
  unfold State.softReset
  dsimp only
  split
  · exact ⟨freeRegion_wf _ _ h.mem_wf, freeRegion_below _ _ h.mem_below⟩
  · exact h.memOk

end Sys2Proof.Safety

namespace Sys2Proof.Machine

open Sys2Proof.Safety

/-- Settles O24: the reset state is not READY, and its stores and cursors are empty. -/
theorem invAtReset : Obligations.InvAtReset := inv_reset

end Sys2Proof.Machine
end

section
/-!
PROOFS. The tables keep their shape, and while the stream has not failed their soundness (44_adaptive_codec.md R528), through the
update of one symbol and through everything that codes symbols.
-/

namespace Sys2Proof.Machine

open Sys2Proof.Safety

/-! ## Frequencies -/

theorem sum_modify_succ_le (f : List Nat) (i : Nat) : (f.modify i (fun x => x + 1)).sum ≤ f.sum + 1 := by
  induction f generalizing i with
  | nil => simp
  | cons x f ih =>
    cases i with
    | zero => simp only [List.modify_zero_cons, List.sum_cons]; omega
    | succ i =>
      have := ih i
      simp only [List.modify_succ_cons, List.sum_cons]
      omega

theorem modify_succ_pos {f : List Nat} (h : ∀ x ∈ f, 1 ≤ x) (i : Nat) :
    ∀ x ∈ f.modify i (fun x => x + 1), 1 ≤ x := by
  intro x hx
  obtain ⟨j, hj, rfl⟩ := List.getElem_of_mem hx
  have hpos := h (f[j]'(by simpa using hj)) (List.getElem_mem _)
  rw [List.getElem_modify]
  split <;> omega

/-- Halving present frequencies, none below 1, rounds up by at most one half each (44_adaptive_codec.md R526). -/
theorem sum_halved_le {f : List Nat} (h : ∀ x ∈ f, 1 ≤ x) :
    2 * (f.map (fun x => max 1 (x >>> 1))).sum ≤ f.sum + f.length := by
  induction f with
  | nil => simp
  | cons x f ih =>
    obtain ⟨hx, hf⟩ := List.forall_mem_cons.mp h
    have hrest := ih hf
    have hhead : 2 * max 1 (x >>> 1) ≤ x + 1 := by
      rw [Nat.shiftRight_eq_div_pow]
      omega
    simp only [List.map_cons, List.sum_cons, List.length_cons]
    omega

@[simp] theorem length_decayFreqs (f : List Nat) : (decayFreqs f).length = f.length := by
  unfold decayFreqs
  split <;> simp

theorem decayFreqs_pos {f : List Nat} (h : ∀ x ∈ f, 1 ≤ x) : ∀ x ∈ decayFreqs f, 1 ≤ x := by
  unfold decayFreqs
  split
  · intro x hx
    obtain ⟨y, _, rfl⟩ := List.mem_map.mp hx
    exact Nat.le_max_left _ _
  · exact h

/-- Decay brings a sum that grew over one whole interval back below its bound (44_adaptive_codec.md R528 (d)). -/
theorem sum_decayFreqs_le {f : List Nat} (h : ∀ x ∈ f, 1 ≤ x) (hn : 1 ≤ f.length)
    (hsum : f.sum ≤ 2 * 65535 + f.length) : (decayFreqs f).sum ≤ 65535 + f.length := by
  have hhalf := sum_halved_le h
  unfold decayFreqs
  split
  · omega
  · rename_i hle
    simp only [freqSumLimit] at hle
    omega

/-! ## The update of one symbol (44_adaptive_codec.md R525) -/

theorem grownInterval_range {lc : LCfg} {i : Nat} (hm : 1 ≤ lc.maxint) (hs : 16 ≤ lc.slow) (hi : 1 ≤ i) :
    1 ≤ grownInterval lc i ∧ grownInterval lc i ≤ lc.maxint := by
  have hgrow : 1 * 16 ≤ i * lc.slow := Nat.mul_le_mul hi hs
  unfold grownInterval
  rw [Nat.shiftRight_eq_div_pow]
  omega

/-- Before the countdown ends only the frequency and the countdown move. -/
theorem update_counting {t : Table} (lc : LCfg) (sym : Nat) (h : t.countdown - 1 ≠ 0) :
    t.update lc sym = { t with freq := t.freq.modify sym (fun x => x + 1), countdown := t.countdown - 1 } := by
  simp [Table.update, h]

/-- The table rebuilt from the given frequencies at the end of a countdown (44_adaptive_codec.md R525 to R527). -/
def Table.renewed (lc : LCfg) (f : List Nat) (t : Table) : Table :=
  { n := t.n
    freq := f
    len := (buildLengths f).1
    code := canonical (buildLengths f).1
    interval := grownInterval lc t.interval
    countdown := grownInterval lc t.interval }

theorem update_renewing {t : Table} (lc : LCfg) (sym : Nat) (h : t.countdown - 1 = 0) :
    t.update lc sym = t.renewed lc (decayFreqs (t.freq.modify sym (fun x => x + 1))) := by
  simp [Table.update, Table.renewed, Table.rebuild, h]

theorem update_shape {lc : LCfg} {n : Nat} {t : Table} (hm : 1 ≤ lc.maxint) (hs : 16 ≤ lc.slow) (sym : Nat)
    (h : TableShape n t) : TableShape n (t.update lc sym) := by
  have hpos := modify_succ_pos h.freq_pos sym
  have hlen := h.freq_length
  by_cases hc : t.countdown - 1 = 0
  · rw [update_renewing lc sym hc]
    obtain ⟨hgrown, _⟩ := grownInterval_range hm hs h.interval_ge
    exact ⟨h.size, by simpa [Table.renewed] using hlen, by simpa [Table.renewed] using hlen,
      by simpa [Table.renewed] using hlen, decayFreqs_pos hpos, hgrown, hgrown⟩
  · rw [update_counting lc sym hc]
    exact ⟨h.size, by simpa using hlen, h.len_length, h.code_length, hpos, h.interval_ge, Nat.one_le_iff_ne_zero.mpr hc⟩

theorem update_sound {p : Config.Platform} {lc : LCfg} {n : Nat} {t : Table} (hlc : LCfgOk p lc) (hn : 1 ≤ n) (sym : Nat)
    (h : TableSound lc n t) : TableSound lc n (t.update lc sym) := by
  have hshape := update_shape hlc.maxint_ge hlc.slow_ge sym h.shape
  have hpos := modify_succ_pos h.shape.freq_pos sym
  have hlen : (t.freq.modify sym (fun x => x + 1)).length = n := by simpa using h.shape.freq_length
  have hsum := sum_modify_succ_le t.freq sym
  have hold := h.freq_sum
  have hint := h.interval_le
  have hmax := hlc.maxint_le
  have hcd := h.countdown_le
  have hcd1 := h.shape.countdown_ge
  by_cases hc : t.countdown - 1 = 0
  · rw [update_renewing lc sym hc] at hshape ⊢
    obtain ⟨_, hgrown⟩ := grownInterval_range hlc.maxint_ge hlc.slow_ge h.shape.interval_ge
    have hdecay := sum_decayFreqs_le hpos (hlen.symm ▸ hn) (by omega)
    refine ⟨hshape, Nat.le_refl _, hgrown, ?_, _, hshape.freq_length, hshape.freq_pos, rfl, rfl⟩
    exact Nat.le_trans (hlen ▸ hdecay) (Nat.le_add_right _ _)
  · rw [update_counting lc sym hc] at hshape ⊢
    exact ⟨hshape, by dsimp only; omega, hint, by dsimp only; omega, h.built⟩

/-! ## The four tables -/

/-- A change of the tables that keeps their shape and their soundness. -/
structure TabsKept (lc : LCfg) (t t' : Tabs) : Prop where
  shape : TabsShape lc t → TabsShape lc t'
  sound : TabsSound lc t → TabsSound lc t'

theorem TabsKept.refl (lc : LCfg) (t : Tabs) : TabsKept lc t t := ⟨id, id⟩

theorem TabsKept.trans {lc : LCfg} {t t' t'' : Tabs} (h : TabsKept lc t t') (h' : TabsKept lc t' t'') :
    TabsKept lc t t'' :=
  ⟨fun ht => h'.shape (h.shape ht), fun ht => h'.sound (h.sound ht)⟩

/-- A change of one class's table that keeps that table's shape and soundness. -/
theorem tabsKept_set {lc : LCfg} {t : Tabs} {c : SymClass} {x : Table}
    (hshape : TableShape (alphabetSize c lc.dict) (t.get c) → TableShape (alphabetSize c lc.dict) x)
    (hsound : TableSound lc (alphabetSize c lc.dict) (t.get c) → TableSound lc (alphabetSize c lc.dict) x) :
    TabsKept lc t (t.set c x) := by
  refine ⟨fun ht d => ?_, fun ht d => ?_⟩
  · by_cases hd : d = c
    · rw [hd, Tabs.get_set_same]
      exact hshape (ht c)
    · rw [Tabs.get_set_other t x hd]
      exact ht d
  · by_cases hd : d = c
    · rw [hd, Tabs.get_set_same]
      exact hsound (ht c)
    · rw [Tabs.get_set_other t x hd]
      exact ht d

theorem alphabetSize_pos {dict : Nat} (h : 15 ≤ dict) (c : SymClass) : 1 ≤ alphabetSize c dict := by
  cases c <;> simp only [alphabetSize] <;> omega

theorem emitRaw_tabs {lc : LCfg} {n v : Nat} {e e' : Enc} (h : emitRaw n v e = .ok e') : TabsKept lc e.tab e'.tab :=
  (emitRaw_ok h).2 ▸ TabsKept.refl lc e.tab

theorem inv_withKeptTab {s : State} (h : Inv s) (hr : s.ctx.state = .ready) {t : Tabs}
    (ht : TabsKept s.lcfg s.tab t) : Inv { s with tab := t } :=
  h.withTab (ht.shape (h.shape hr)) fun hd => ht.sound (h.sound hr hd)

section
variable {p : Config.Platform} {lc : LCfg} (hlc : LCfgOk p lc)
include hlc

theorem tabsKept_update (t : Tabs) (c : SymClass) (sym : Nat) :
    TabsKept lc t (t.set c ((t.get c).update lc sym)) :=
  tabsKept_set (update_shape hlc.maxint_ge hlc.slow_ge sym) (update_sound hlc (alphabetSize_pos hlc.dict_ge c) sym)

/-- TRESET's table is the initial one of its class (44_adaptive_codec.md R540). -/
theorem tabsKept_reset (t : Tabs) (c : SymClass) : TabsKept lc t (t.set c (initTable lc (t.get c).n)) :=
  tabsKept_set (fun h => by rw [h.size]; exact (initTable_sound hlc _).shape)
    (fun h => by rw [h.shape.size]; exact initTable_sound hlc _)

theorem encSym_tabs {c : SymClass} {sym : Nat} {e e' : Enc} (h : encSym lc c sym e = .ok e') :
    TabsKept lc e.tab e'.tab := by
  rw [(encSym_ok h).2]
  exact tabsKept_update hlc ..

theorem decSym_tabs {m : Mem} {c : SymClass} {d : Dec} {q : Nat × Dec} (h : decSym m lc c d = .ok q) :
    TabsKept lc d.tab q.2.tab := by
  rw [(decSym_ok h).2]
  exact tabsKept_update hlc ..

theorem emitLiteral_tabs {b : Byte} {e e' : Enc} (h : emitLiteral lc b e = .ok e') : TabsKept lc e.tab e'.tab := by
  obtain ⟨e1, h1, h2⟩ := bind_ok h
  exact (encSym_tabs hlc h1).trans (encSym_tabs hlc h2)

theorem emitMatch_tabs {l d : Nat} {e e' : Enc} (h : emitMatch lc l d e = .ok e') : TabsKept lc e.tab e'.tab := by
  obtain ⟨e1, h1, h⟩ := bind_ok h
  obtain ⟨e2, h2, h⟩ := bind_ok h
  obtain ⟨e3, h3, h⟩ := bind_ok h
  obtain ⟨e4, h4, h5⟩ := bind_ok h
  exact (encSym_tabs hlc h1).trans <| (encSym_tabs hlc h2).trans <| (emitRaw_tabs h3).trans <|
    (encSym_tabs hlc h4).trans (emitRaw_tabs h5)

theorem compressEnd_tabs {a : Word} {e e' : Enc} (h : compressEnd lc a e = .ok e') : TabsKept lc e.tab e'.tab := by
  obtain ⟨e1, h1, h⟩ := bind_ok h
  obtain ⟨k, _, h⟩ := bind_ok h
  obtain ⟨k1, _, h⟩ := bind_ok h
  injection h with h
  subst h
  have heos : encSym lc .typ 2 e = .ok e1 := h1
  have hkept := encSym_tabs hlc heos
  exact hkept

/-- The parse of a chunk changes the tables only by updates. -/
theorem parse_tabs {bs : List Byte} {skip : Nat} {k k' : Comp} (h : parse lc bs skip k = .ok k') :
    TabsKept lc k.enc.tab k'.enc.tab := by
  induction bs generalizing skip k with
  | nil => cases skip <;> (injection h with h; exact h ▸ TabsKept.refl ..)
  | cons b bs ih =>
    cases skip with
    | succ n => exact ih h
    | zero =>
      rw [parse] at h
      split at h
      · split at h
        · cases h
        · rename_i e he
          exact (emitMatch_tabs hlc he).trans (ih h)
      · split at h
        · cases h
        · rename_i e he
          exact (emitLiteral_tabs hlc he).trans (ih h)

end

end Sys2Proof.Machine
end

section
/-!
PROOFS. What the writing and the decoding of a stream keep of the invariant: the write side of COMPRESS
(47_parser_compress.md) and the token loop of DECOMPRESS (48_decompress.md).
-/

namespace Sys2Proof.Machine

open Sys2Proof.Safety

/-! ## The window -/

theorem windowSize_le {lc : LCfg} (h : lc.dict ≤ 30) : 0 < windowSize lc ∧ windowSize lc ≤ 2 ^ 30 :=
  ⟨Nat.two_pow_pos _, Nat.pow_le_pow_right (by decide) h⟩

theorem ringOk_append {lc : LCfg} (hd : lc.dict ≤ 30) (b : Byte) {v : Win} (h : RingOk v) :
    RingOk (v.append (windowSize lc) b) :=
  ⟨append_ring_wf _ _ h.wf, append_ring_below b (windowSize_le hd).1 (windowSize_le hd).2 h.below⟩

theorem ringOk_appendList {lc : LCfg} (hd : lc.dict ≤ 30) (bs : List Byte) {v : Win} (h : RingOk v) :
    RingOk (v.appendList (windowSize lc) bs) :=
  ⟨appendList_ring_wf _ _ h.wf, appendList_ring_below bs (windowSize_le hd).1 (windowSize_le hd).2 h.below⟩

theorem ringOk_clear {v : Win} (h : RingOk v) : RingOk v.clear := ⟨h.wf, h.below⟩

theorem ringOk_free (k : Nat) {dict : Nat} (h : dict ≤ 30) : RingOk (freeWin k dict) :=
  ⟨(freeWin_ok k h).1, (freeWin_ok k h).2⟩

theorem parse_ringOk {lc : LCfg} (hd : lc.dict ≤ 30) {bs : List Byte} {skip : Nat} {k k' : Comp}
    (h : parse lc bs skip k = .ok k') (hr : RingOk k.win) : RingOk k'.win := by
  induction bs generalizing skip k with
  | nil => cases skip <;> (injection h with h; exact h ▸ hr)
  | cons b bs ih =>
    cases skip with
    | succ n => exact ih h hr
    | zero =>
      rw [parse] at h
      split at h
      · split at h
        · cases h
        · exact ih h (ringOk_appendList hd _ hr)
      · split at h
        · cases h
        · exact ih h (ringOk_append hd b hr)

/-! ## The write cursor and memory -/

/-- A write cursor and memory as the invariant wants them. -/
structure SinkInv (k : Sink) : Prop where
  wc  : WCurOk k.wc
  mem : MemOk k.mem

theorem SinkOk.inv {k k' : Sink} (h : SinkOk k k') (hk : SinkInv k) : SinkInv k' :=
  ⟨h.wc hk.wc, h.step.mem_wf hk.mem.wf, h.below hk.wc hk.mem.below⟩

theorem inv_sink {s : State} (h : Inv s) : SinkInv ⟨s.wc, s.mem⟩ := ⟨h.wc, h.memOk⟩

theorem inv_withSink {s : State} (h : Inv s) {k : Sink} (hk : SinkInv k) : Inv (s.withSink k) :=
  (h.withMem hk.mem).withWc hk.wc

/-! ## COMPRESS (47_parser_compress.md R640) -/

theorem wcurOk_start {base cap : Word} (h : Region.legal ⟨base.toNat, cap.toNat⟩ = true) :
    WCurOk { base := base, cap := cap, pos := 0, acc := 0, nacc := 0 } :=
  ⟨Nat.succ_pos 7, Nat.one_pos, Nat.zero_le _, Region.end_le_of_legal h⟩

/-- What COMPRESS starts its chunk from meets the parts of the invariant. -/
theorem compressStart_ok {s : State} {k : Comp} {a : Word} (h : Inv s) (hdst : s.dstRegion.legal = true)
    (hs : compressStart s = .ok (k, a)) : SinkInv k.enc.sink ∧ k.enc.tab = s.tab ∧ RingOk k.win := by
  unfold compressStart at hs
  dsimp only at hs
  split at hs
  · injection hs with hs
    injection hs with hs
    subst hs
    exact ⟨⟨⟨h.wc.nacc_lt, h.wc.acc_lt, Nat.zero_le _, Region.end_le_of_legal hdst⟩, h.memOk⟩, rfl, h.ringOk⟩
  · split at hs
    · cases hs
    · rename_i k' hk
      injection hs with hs
      injection hs with hs
      subst hs
      exact ⟨(putBytes_sink hk).inv ⟨wcurOk_start hdst, h.memOk⟩, rfl, ringOk_clear h.ringOk⟩

/-- A chunk that fits leaves the invariant. -/
theorem inv_compressChunk {s u : State} {final : Bool} {k : Comp} {a : Word} (h : Inv s) (hm : s.mayCompress = true)
    (hdst : s.dstRegion.legal = true) (hs : compressStart s = .ok (k, a)) (hc : compressChunk final s k a = .ok u) :
    Inv u := by
  obtain ⟨hready, _⟩ := s.mayCompress_iff.mp hm
  have hlc := h.lcfg hready
  obtain ⟨hsink, htab, hring⟩ := compressStart_ok h hdst hs
  obtain ⟨k1, e, hparse, hend, rfl⟩ := compressChunk_ok hc
  have hkept : TabsKept s.lcfg s.tab k1.enc.tab := htab ▸ parse_tabs hlc hparse
  have hsink1 := (parse_sink hparse).inv hsink
  have he : SinkInv e.sink ∧ TabsKept s.lcfg s.tab e.tab := by
    split at hend
    · exact ⟨(compressEnd_sink hend).inv hsink1, hkept.trans (compressEnd_tabs hlc hend)⟩
    · injection hend with hend
      exact hend ▸ ⟨hsink1, hkept⟩
  have htabs := (inv_withKeptTab h hready he.2).withStarted hready (d := s.ctx.done || final)
    fun hd => Bool.or_eq_true_iff.mpr (.inl hd)
  exact ((inv_withSink htabs he.1).withWin (parse_ringOk (h.dict_le hready) hparse hring)).congr rfl

/-- A COMPRESS that runs out of room leaves the invariant: its free values lie in their ranges and the stream is done
(47_parser_compress.md R642). -/
theorem inv_compressBroken {s : State} (h : Inv s) (hready : s.ctx.state = .ready) : Inv (compressBroken s) := by
  have hdone := h.withStarted hready (d := true) fun _ => rfl
  have htab := hdone.withTab (freeTabs_shape s.draws s.lcfg.dict) fun hd => by cases hd
  have hmem := htab.withMem (m := freeRegion s.draws s.dstRegion s.mem)
    ⟨freeRegion_wf _ _ h.mem_wf, freeRegion_below _ _ h.mem_below⟩
  exact ((hmem.withWin (ringOk_free s.draws (h.dict_le hready))).withWc (freeWCur_ok s.draws)).congr rfl

/-! ## DECOMPRESS (48_decompress.md R660) -/

/-- A read cursor and tables as the invariant wants them, whether or not the stream has failed. -/
structure DecInv (lc : LCfg) (d : Dec) : Prop where
  rc   : RCurOk d.rc
  tabs : TabsShape lc d.tab

/-- What holds at every token: the parts of the invariant, and that the bytes produced fit in the destination. -/
structure UnpackInv (lc : LCfg) (cap : Nat) (u : Unpack) : Prop where
  dec      : DecInv lc u.dec
  mem      : MemOk u.mem
  ring     : RingOk u.win
  produced : u.produced ≤ cap
  out      : u.out.length = u.produced

theorem UnpackInv.withDec {lc : LCfg} {cap : Nat} {u : Unpack} {d : Dec} (h : UnpackInv lc cap u) (hd : DecInv lc d) :
    UnpackInv lc cap { u with dec := d } :=
  ⟨hd, h.mem, h.ring, h.produced, h.out⟩

/-- The same of decoding's outcome: of the whole stream, or of what stood before its error. -/
def UnpackedInv (lc : LCfg) (cap : Nat) : Except (ReadStop × Unpack) Unpack → Prop
  | .ok u => UnpackInv lc cap u
  | .error e => UnpackInv lc cap e.2

theorem emitByte_inv {lc : LCfg} {dst cap : Nat} {u : Unpack} (hd : lc.dict ≤ 30) (hfit : dst + cap ≤ addrSpace) (b : Byte)
    (h : UnpackInv lc cap u) (hroom : u.produced < cap) : UnpackInv lc cap (emitByte lc dst b u) := by
  refine ⟨h.dec, ?_, ringOk_append hd b h.ring, hroom, congrArg (· + 1) h.out⟩
  unfold emitByte
  dsimp only
  split
  · exact ⟨Mem.write_wf _ _ h.mem.wf, Mem.write_below b (by omega) h.mem.below⟩
  · exact h.mem

theorem copyMatch_inv {lc : LCfg} {dst cap n d : Nat} {u : Unpack} (hd : lc.dict ≤ 30) (hfit : dst + cap ≤ addrSpace)
    (h : UnpackInv lc cap u) (hroom : u.produced + n ≤ cap) : UnpackInv lc cap (copyMatch lc dst n d u) := by
  induction n generalizing u with
  | zero => exact h
  | succ n ih =>
    refine ih (emitByte_inv hd hfit _ h (by omega)) ?_
    show u.produced + 1 + n ≤ cap
    omega

section
variable {p : Config.Platform} {lc : LCfg} (hlc : LCfgOk p lc)
include hlc

theorem decSym_inv {m : Mem} {c : SymClass} {d : Dec} {q : Nat × Dec} (hd : DecInv lc d) (h : decSym m lc c d = .ok q) :
    DecInv lc q.2 := by
  obtain ⟨hrc, _⟩ := decodeSym_ok (decSym_ok h).1 hd.rc
  exact ⟨hrc, (decSym_tabs hlc h).shape hd.tabs⟩

theorem decValue_inv {m : Mem} {c : SymClass} {d : Dec} {q : Nat × Dec} (hd : DecInv lc d)
    (h : decValue m lc c d = .ok q) : DecInv lc q.2 := by
  obtain ⟨⟨sym, d1⟩, h1, h⟩ := bind_ok h
  obtain ⟨⟨x, r⟩, h2, h⟩ := bind_ok h
  injection h with h
  subst h
  have hd1 := decSym_inv hlc hd h1
  exact ⟨getbits_rcOk h2 hd1.rc, hd1.tabs⟩

variable {dst cap : Nat} (hd : lc.dict ≤ 30) (hfit : dst + cap ≤ addrSpace)
include hd hfit

theorem unpackToken_inv {u : Unpack} {q : Bool × Unpack} (hu : UnpackInv lc cap u)
    (h : unpackToken lc dst cap u = .ok q) : UnpackInv lc cap q.2 := by
  obtain ⟨⟨t, d1⟩, h1, h⟩ := bind_ok h
  have hd1 := decSym_inv hlc hu.dec h1
  dsimp only at h hd1
  split at h
  · obtain ⟨⟨b, d2⟩, h2, h⟩ := bind_ok h
    have hd2 := decSym_inv hlc hd1 h2
    dsimp only at h hd2
    split at h
    · cases h
    · rename_i hroom
      injection h with h
      subst h
      exact emitByte_inv hd hfit _ (hu.withDec hd2) (Nat.lt_of_le_of_ne hu.produced hroom)
  · split at h
    · obtain ⟨⟨lv, d2⟩, h2, h⟩ := bind_ok h
      obtain ⟨⟨dv, d3⟩, h3, h⟩ := bind_ok h
      have hd3 := decValue_inv hlc (decValue_inv hlc hd1 h2) h3
      dsimp only at h hd3
      split at h
      · cases h
      · split at h
        · cases h
        · rename_i hroom
          injection h with h
          subst h
          exact copyMatch_inv hd hfit (hu.withDec hd3) (Nat.le_of_not_gt hroom)
    · injection h with h
      subst h
      exact hu.withDec hd1

/-- The token loop keeps it, whether the stream ends or fails. -/
theorem unpackLoop_inv {n : Nat} {u : Unpack} (hu : UnpackInv lc cap u) :
    UnpackedInv lc cap (unpackLoop lc dst cap n u) := by
  induction n generalizing u with
  | zero => exact hu
  | succ n ih =>
    rw [unpackLoop]
    split
    · exact hu
    · rename_i u1 h1
      exact unpackToken_inv hlc hd hfit hu h1
    · rename_i u1 h1
      exact ih (unpackToken_inv hlc hd hfit hu h1)

end

/-- The padding check leaves the cursor at a byte boundary (48_decompress.md R668). -/
theorem checkPadding_ok {m : Mem} {r r' : RCur} (h : checkPadding m r = .ok r') (hr : RCurOk r) :
    RCurOk r' ∧ r'.bit = 0 := by
  have hplace := hr.place
  unfold checkPadding at h
  split at h
  · rename_i hbit
    split at h
    · cases h
    · rename_i x r1 hg
      split at h
      · injection h with h
        subst h
        obtain ⟨hn, hp⟩ := getbits_ok hg
        obtain ⟨hok, hunread, _, hlen⟩ := getbitsLoop_rcOk (m := m) (8 - r.bit) 0 hr hn
        rw [← hp] at hok hunread hlen
        have hplace' := hok.place
        simp only [RCur.unread] at hunread hn
        refine ⟨hok, ?_⟩
        dsimp only at hplace' hunread hlen
        omega
      · cases h
  · rename_i hbit
    injection h with h
    exact h ▸ ⟨hr, by omega⟩

/-- The trailer checks leave the cursor at the end of the source (48_decompress.md R669). -/
theorem checkTrailer_ok {lc : LCfg} {m : Mem} {a : Word} {r r' : RCur} (h : checkTrailer lc m a r = .ok r')
    (hr : RCurOk r) (hbit : r.bit = 0) : RCurOk r' := by
  unfold checkTrailer at h
  split at h
  · cases h
  · split at h
    · cases h
    · rename_i hend
      split at h
      · cases h
      · injection h with h
        subst h
        exact ⟨.inr ⟨by simpa using hend, hbit⟩, hr.legal⟩

theorem checkEnd_ok {lc : LCfg} {u : Unpack} {r : RCur} (h : checkEnd lc u = .ok r) (hr : RCurOk u.dec.rc) :
    RCurOk r := by
  unfold checkEnd at h
  split at h
  · cases h
  · rename_i r1 hp
    obtain ⟨hr1, hbit⟩ := checkPadding_ok hp hr
    exact checkTrailer_ok h hr1 hbit

theorem rcurOk_start {base len : Word} (h : Region.legal ⟨base.toNat, len.toNat⟩ = true) {pos : Nat}
    (hpos : pos ≤ len.toNat) : RCurOk { base := base, len := len, pos := pos, bit := 0 } := by
  refine ⟨?_, Region.end_le_of_legal h⟩
  dsimp only
  omega

/-- Decoding a stream keeps the parts of the invariant, whether it succeeds or fails (48_decompress.md R673). -/
theorem unpackStream_inv {s : State} (h : Inv s) (hready : s.ctx.state = .ready) (hsrc : s.srcRegion.legal = true)
    (hdst : s.dstRegion.legal = true) : UnpackedInv s.lcfg s.pend.ops.dstCap.toNat (unpackStream s) := by
  have hstart : ∀ pos ≤ s.pend.ops.srcLen.toNat, UnpackInv s.lcfg s.pend.ops.dstCap.toNat
      { unpackStart s with dec := { (unpackStart s).dec with rc := { (unpackStart s).dec.rc with pos := pos } } } :=
    fun pos hpos => ⟨⟨rcurOk_start hsrc hpos, h.shape hready⟩, h.memOk, ringOk_clear h.ringOk, Nat.zero_le _, rfl⟩
  unfold unpackStream
  dsimp only
  split
  · exact hstart 0 (Nat.zero_le _)
  · rename_i hlen
    split
    · exact hstart 0 (Nat.zero_le _)
    · have hloop := unpackLoop_inv (h.lcfg hready) (h.dict_le hready) (Region.end_le_of_legal hdst)
        (n := 8 * s.pend.ops.srcLen.toNat + 1) (hstart 8 (by omega))
      split
      · rename_i e he
        rw [he] at hloop
        exact hloop
      · rename_i u1 h1
        rw [h1] at hloop
        split
        · exact hloop
        · rename_i r hr
          have hu1 : UnpackInv s.lcfg s.pend.ops.dstCap.toNat u1 := hloop
          exact hu1.withDec ⟨checkEnd_ok hr hu1.dec.rc, hu1.dec.tabs⟩

theorem inv_decompressDone {s : State} {u : Unpack} (h : Inv s) (hready : s.ctx.state = .ready)
    (hdst : s.dstRegion.legal = true) (hu : UnpackInv s.lcfg s.pend.ops.dstCap.toNat u) : Inv (decompressDone s u) := by
  have hfit := Region.end_le_of_legal hdst
  have hout := hu.out
  have hproduced := hu.produced
  have hmem : MemOk (decompressDone s u).mem := by
    rw [decompressDone_mem]
    split
    · exact hu.mem
    · exact ⟨Mem.writeList_wf _ _ hu.mem.wf, Mem.writeList_below _ _ (by rw [List.length_reverse]; omega) hu.mem.below⟩
  have hdone := h.withStarted hready (d := true) fun _ => rfl
  have htab := hdone.withTab hu.dec.tabs fun hd => by cases hd
  exact (((htab.withMem hmem).withWin hu.ring).withRc hu.dec.rc).congr rfl

theorem inv_decompressBroken {s : State} {u : Unpack} (h : Inv s) (hready : s.ctx.state = .ready)
    (hu : UnpackInv s.lcfg s.pend.ops.dstCap.toNat u) : Inv (decompressBroken s u) := by
  have hdone := h.withStarted hready (d := true) fun _ => rfl
  have htab := hdone.withTab (freeTabs_shape s.draws s.lcfg.dict) fun hd => by cases hd
  exact (((htab.withMem hu.mem).withWin (ringOk_free s.draws (h.dict_le hready))).withRc (freeRCur_ok s.draws)).congr rfl

end Sys2Proof.Machine
end

section
/-!
PROOFS. Every command and every event keeps the invariant: one lemma per command whose last state differs from the one before by
more than results, then the dispatch, then the port, the host's memory accesses and the step.
-/

namespace Sys2Proof.Machine

open Sys2Proof.Safety

/-! ## Configuration and context (49_context.md) -/

theorem lcfgOk_decomp {p : Config.Platform} {c : CfgRegs} (h : sharedCfgOk p c = true) : LCfgOk p (decompLCfg c) := by
  simp only [sharedCfgOk, Bool.and_eq_true, decide_eq_true_eq] at h
  obtain ⟨⟨⟨⟨⟨hdict, hmax⟩, hrate⟩, hrate'⟩, hint⟩, hslow⟩ := h
  exact ⟨hdict, hmax, Nat.zero_le _, hrate, hrate', hint, Nat.le_of_lt_succ c.maxInterval.isLt, hslow,
    Nat.le_of_lt_succ c.slowRate.isLt⟩

theorem lcfgOk_comp {p : Config.Platform} {c : CfgRegs} (h : compCfgOk p c = true) : LCfgOk p (compLCfg c) := by
  simp only [compCfgOk, Bool.and_eq_true, decide_eq_true_eq] at h
  obtain ⟨⟨hshared, hlevel⟩, _⟩ := h
  have hd := lcfgOk_decomp hshared
  exact ⟨hd.dict_ge, hd.dict_le, hlevel, hd.rate_ge, hd.rate_le, hd.maxint_ge, hd.maxint_le, hd.slow_ge, hd.slow_le⟩

theorem inv_cinit {s : State} (h : Inv s) : Yields Inv (execCinit s) := by
  refine yields_requireState h.complete fun _ => yields_requireConfig h.complete fun hcfg =>
    yields_next (Inv.complete ?_ .ok)
  exact inv_freshStream h ⟨rfl, rfl, rfl⟩ rfl (.inl rfl) (lcfgOk_comp hcfg)

theorem inv_dinit {s : State} (h : Inv s) : Yields Inv (execDinit s) := by
  refine yields_requireState h.complete fun _ => yields_requireConfig h.complete fun hcfg =>
    yields_next (Inv.complete ?_ .ok)
  exact inv_freshStream h ⟨rfl, rfl, rfl⟩ rfl (.inr rfl) (lcfgOk_decomp hcfg)

theorem inv_close {s : State} (h : Inv s) : Yields Inv (execClose s) := by
  refine yields_requireState h.complete fun _ => yields_next (inv_of_not_ready h.plat h.memOk ?_ ?_ (freeWCur_ok s.draws)
    (freeRCur_ok s.draws) (ringOk_free s.draws (freeLCfg_dict s.draws).2))
  · exact .inr (.inl ⟨rfl, rfl, rfl, rfl⟩)
  · exact fun hc => by cases hc

theorem inv_reinit {s : State} (h : Inv s) : Yields Inv (execReinit s) := by
  refine yields_requireState h.complete fun hr => ?_
  obtain ⟨hready, hrole⟩ := s.isReady_iff.mp hr
  split
  · refine yields_requireConfig h.complete fun hcfg => yields_next (Inv.complete ?_ .ok)
    exact inv_freshStream h ⟨rfl, rfl, rfl⟩ hready hrole (lcfgOk_decomp hcfg)
  · exact yields_next ((inv_freshStream h ⟨rfl, rfl, rfl⟩ hready hrole (h.lcfg hready)).complete .ok)

/-! ## Streams and codes -/

theorem inv_compress {s : State} (h : Inv s) (final : Bool) : Yields Inv (execCompress final s) := by
  refine yields_execCompress h.complete (fun hm _ => ?_) fun k a u hm hdst hs hc => ?_
  · exact (inv_compressBroken h (s.mayCompress_iff.mp hm).1).complete _
  · exact (inv_compressChunk h hm hdst hs hc).complete .ok

theorem inv_decompress {s : State} (h : Inv s) : Yields Inv (execDecompress s) := by
  refine yields_execDecompress h.complete (fun u hm hsrc hdst hu => ?_) fun x u hm hsrc hdst hu => ?_
  · obtain ⟨hready, _⟩ := s.mayDecompress_iff.mp hm
    have hinv := unpackStream_inv h hready hsrc hdst
    rw [hu] at hinv
    exact (inv_decompressDone h hready hdst hinv).complete .ok
  · obtain ⟨hready, _⟩ := s.mayDecompress_iff.mp hm
    have hinv := unpackStream_inv h hready hsrc hdst
    rw [hu] at hinv
    exact (inv_decompressBroken h hready hinv).complete _

/-- HBUILD's records fit in the destination it has checked (43_prefix_code.md R500). -/
theorem inv_hbuild {s : State} (h : Inv s) : Yields Inv (execHbuild s) := by
  refine yields_requireState h.complete fun _ => yields_requireOperand h.complete
    (yields_requireRegions h.complete fun _ hdst => ?_)
  split
  · exact yields_next (h.complete _)
  · rename_i hroom
    refine yields_afterAccesses (yields_next (Inv.congr (h.withMem ⟨Mem.writeList_wf _ _ h.mem_wf,
      Mem.writeList_below _ _ ?_ h.mem_below⟩) rfl))
    have hend := Region.end_le_of_legal hdst
    rw [length_recordBytes (length_canonical _).symm, length_buildLengths, length_readFreqs]
    omega

/-! ## Tables and cursors -/

theorem inv_tenc {s : State} (h : Inv s) (c : SymClass) : Yields Inv (execTenc c s) := by
  refine yields_requireState h.complete fun hr => yields_requireOperand h.complete
    (yields_finishStore h.complete fun u hu => ?_)
  obtain ⟨hready, _⟩ := s.isReady_iff.mp hr
  obtain ⟨e, he, rfl⟩ := map_ok hu
  have htab := inv_withKeptTab h hready (encSym_tabs (h.lcfg hready) he)
  exact (inv_withSink htab ((encSym_sink he).inv (inv_sink h))).congr rfl

theorem inv_tdec {s : State} (h : Inv s) (c : SymClass) : Yields Inv (execTdec c s) := by
  refine yields_requireState h.complete fun hr => yields_finishRead h.complete fun u hu => ?_
  obtain ⟨hready, _⟩ := s.isReady_iff.mp hr
  obtain ⟨q, hq, rfl⟩ := map_ok hu
  obtain ⟨hrc, _⟩ := decodeSym_ok (decSym_ok hq).1 h.rc
  exact ((inv_withKeptTab h hready (decSym_tabs (h.lcfg hready) hq)).withRc hrc).congr rfl

theorem inv_putbits {s : State} (h : Inv s) : Yields Inv (execPutbits s) := by
  refine yields_requireState h.complete fun _ => yields_requireOperand h.complete
    (yields_finishStore h.complete fun u hu => ?_)
  obtain ⟨k, hk, rfl⟩ := map_ok hu
  exact (inv_withSink h ((putbits_sink hk).inv (inv_sink h))).complete .ok

theorem inv_wflush {s : State} (h : Inv s) : Yields Inv (execWflush s) := by
  refine yields_requireState h.complete fun _ => yields_finishStore h.complete fun u hu => ?_
  obtain ⟨k, hk, rfl⟩ := map_ok hu
  exact (inv_withSink h ((flush_sink hk).inv (inv_sink h))).congr rfl

theorem inv_getbits {s : State} (h : Inv s) : Yields Inv (execGetbits s) := by
  refine yields_requireState h.complete fun _ => yields_requireOperand h.complete
    (yields_finishRead h.complete fun u hu => ?_)
  obtain ⟨q, hq, rfl⟩ := map_ok hu
  exact (h.withRc (getbits_rcOk hq h.rc)).congr rfl

/-! ## The dispatch (40_command_model.md R403) -/

/-- Every command keeps the invariant. A command that leaves no more than results needs only `Inv.congr`. -/
theorem exec_inv {s : State} (h : Inv s) (i : Instr) : Yields Inv (exec i s) := by
  have he := h.complete
  cases i with
  | cinit => exact inv_cinit h
  | dinit => exact inv_dinit h
  | reinit => exact inv_reinit h
  | close => exact inv_close h
  | compress final => exact inv_compress h final
  | decompress => exact inv_decompress h
  | hbuild => exact inv_hbuild h
  | treset c =>
    refine yields_requireState he fun hr => yields_next (Inv.complete ?_ .ok)
    obtain ⟨hready, _⟩ := s.isReady_iff.mp hr
    exact inv_withKeptTab h hready (tabsKept_reset (h.lcfg hready) s.tab c)
  | tenc c => exact inv_tenc h c
  | tdec c => exact inv_tdec h c
  | tcost c => exact yields_requireState he fun _ => yields_requireOperand he (yields_next (h.congr rfl))
  | tread c => exact yields_requireState he fun _ => yields_requireOperand he (yields_next (h.congr rfl))
  | tstat c => exact yields_requireState he fun _ => yields_next (h.congr rfl)
  | wsetup =>
    exact yields_requireState he fun _ => yields_requireRegion he fun hl =>
      yields_next ((h.withWc (wcurOk_start hl)).complete .ok)
  | putbits => exact inv_putbits h
  | wflush => exact inv_wflush h
  | rsetup =>
    exact yields_requireState he fun _ => yields_requireRegion he fun hl =>
      yields_next ((h.withRc (rcurOk_start hl (Nat.zero_le _))).complete .ok)
  | getbits => exact inv_getbits h
  | ralign => exact yields_requireState he fun _ => yields_next ((h.withRc (align_rcOk h.rc)).congr rfl)
  | wput =>
    refine yields_requireState he fun hr => yields_next (Inv.complete ?_ .ok)
    exact h.withWin (ringOk_append (h.dict_le (s.isReady_iff.mp hr).1) _ h.ringOk)
  | wget => exact yields_requireState he fun _ => yields_requireOperand he (yields_next (h.congr rfl))
  | mfind =>
    exact yields_requireState he fun _ => yields_requireRegion he fun _ =>
      yields_afterAccesses (yields_next (h.congr rfl))
  | cost =>
    exact yields_requireState he fun _ => yields_requireOperand he
      (yields_requireRegion he fun _ => yields_afterAccesses (yields_next (h.congr rfl)))
  | ainit => exact yields_requireState he fun _ => yields_next (h.congr rfl)
  | aupdate =>
    exact yields_requireState he fun _ => yields_requireRegion he fun _ =>
      yields_afterAccesses (yields_next (h.congr rfl))

theorem completion_inv {s : State} (h : Inv s) : Yields Inv s.completion :=
  yields_completion (h.complete _) (exec_inv h)

theorem engineTurn_inv {s : State} (h : Inv s) : Yields Inv s.engineTurn := by
  unfold State.engineTurn
  split
  · exact completion_inv h
  · exact yields_next h

/-! ## The host's accesses -/

theorem readReg_inv {s : State} (h : Inv s) (r : Reg) : Inv (s.readReg r) := by
  obtain hr | ⟨_, hr⟩ | ⟨_, _, _, hr⟩ := readReg_cases s r <;> exact hr ▸ h.congr rfl

theorem readOffset_inv {s : State} (h : Inv s) (offset : Nat) : Inv (s.readOffset offset) := by
  unfold State.readOffset
  split
  · exact readReg_inv h _
  · exact h.congr rfl

/-- Of the register writes only the soft reset touches what the invariant reads. -/
theorem writeReg_inv {s : State} (h : Inv s) (r : Reg) (v : Word) : Inv (s.writeReg r v) := by
  cases r with
  | srst =>
    unfold State.writeReg
    dsimp only
    split
    · exact h.softReset
    · exact h
  | cmd =>
    unfold State.writeReg
    dsimp only
    split <;> exact h.congr rfl
  | irqEn | irqPend | cfgDictLog2 | cfgLevel | cfgUpdateRate | cfgMaxInterval | cfgSlowRate | cfgHelpers | cfgDflags
  | srcAddr | srcLen | dstAddr | dstCap | arg0 | arg1 => exact h.congr rfl
  | id | status | result | res0 | res1 | adler | wcPos | wcNbits | wcAcc | rcPos | rcBit | winTotalLo | winTotalHi =>
    exact h

theorem writeOffset_inv {s : State} (h : Inv s) (offset : Nat) (v : Word) : Inv (s.writeOffset offset v) := by
  unfold State.writeOffset
  split
  · exact writeReg_inv h _ v
  · exact h

theorem hostRead_inv {s : State} (h : Inv s) (a : Nat) : Yields Inv (s.hostRead a) := by
  intro t ht
  obtain ⟨_, ht⟩ := unlessRefused_next ht
  split at ht <;>
    (injection ht with ht
     exact ht ▸ h.congr rfl)

theorem hostWrite_inv {s : State} (h : Inv s) (a : Word) (b : Byte) : Yields Inv (s.hostWrite a.toNat b) := by
  intro t ht
  obtain ⟨_, ht⟩ := unlessRefused_next ht
  split at ht
  · cases ht
  · injection ht with ht
    exact ht ▸ h.withMem ⟨Mem.write_wf _ _ h.mem_wf, Mem.write_below b a.isLt h.mem_below⟩

/-! ## The step -/

theorem deliver_inv {s : State} (h : Inv s) (e : Event) : Yields Inv (s.deliver e) := by
  cases e with
  | engine => exact engineTurn_inv h
  | wait => exact yields_next (readReg_inv h .status)
  | read bits offset =>
    unfold State.deliver
    dsimp only
    split
    · exact yields_next (readOffset_inv h _)
    · exact yields_refused _
  | write bits offset v =>
    unfold State.deliver
    dsimp only
    split
    · exact yields_next (writeOffset_inv h _ v)
    · exact yields_refused _
  | clearAtCompletion v => exact engineTurn_inv (h.congr rfl)
  | memRead a => exact hostRead_inv h a.toNat
  | memWrite a b => exact hostWrite_inv h a b

/-- A step is the engine's turn, a completion at a wait, or one event delivered. -/
theorem step_inv {s : State} (h : Inv s) : Yields Inv (step s) := by
  unfold step State.turn
  split
  · exact engineTurn_inv h
  · split
    · exact completion_inv h
    · exact yields_next (readReg_inv (h.withInputs _) .status)
  · exact deliver_inv (h.withInputs _) _

/-- Settles O25, by the cases of the step: every completion and every access of the host keeps the invariant. -/
theorem stepKeepsInv : Obligations.StepKeepsInv := by
  unfold Obligations.StepKeepsInv
  exact fun s t h hstep => step_inv h t hstep

end Sys2Proof.Machine
end

section
/-!
PROOFS. What a failed region check answers, and what makes a region illegal or two regions overlap (20_memory.md R202, R203).
-/

namespace Sys2Proof.Machine

open Sys2Proof.Safety

/-- An illegal region is RangeError, whatever would come after (20_memory.md R202). -/
theorem requireRegion_illegal {r : Region} {s : State} {body : Result} (h : r.legal = false) :
    requireRegion r s body = .next (s.complete .rangeError) := by
  simp [requireRegion, h]

/-- Regions of which one is illegal, or which overlap, are RangeError (20_memory.md R202, R203). -/
theorem requireRegions_illegal {src dst : Region} {s : State} {body : Result}
    (h : src.legal = false ∨ dst.legal = false ∨ src.overlaps dst = true) :
    requireRegions src dst s body = .next (s.complete .rangeError) := by
  obtain h | h | h := h <;> simp [requireRegions, h]

/-- A non-empty region that ends past host memory is illegal (20_memory.md R202). -/
theorem Region.not_legal_of_past_end {r : Region} (hne : 0 < r.len) (hend : 2 ^ 32 < r.base + r.len) :
    r.legal = false :=
  Bool.or_eq_false_iff.mpr ⟨decide_eq_false (Nat.ne_of_gt hne), decide_eq_false (Nat.not_le_of_gt hend)⟩

/-- Regions that share an address overlap (20_memory.md R203). -/
theorem Region.overlaps_of_contains {r t : Region} {a : Nat} (hr : r.contains a = true) (ht : t.contains a = true) :
    r.overlaps t = true := by
  simp only [Region.contains, Region.overlaps, Bool.and_eq_true, decide_eq_true_eq] at *
  omega

theorem Region.contains_iff {r : Region} {a : Nat} : r.contains a = true ↔ r.base ≤ a ∧ a < r.base + r.len := by
  simp [Region.contains]

theorem Region.contains_eq_false_iff {r : Region} {a : Nat} :
    r.contains a = false ↔ a < r.base ∨ r.base + r.len ≤ a := by
  rw [← Bool.not_eq_true, Region.contains_iff]
  omega

/-- The commands that name only a source region, over one that is illegal. -/
theorem exec_source_illegal {s : State} (hr : s.isReady = true) (hl : s.srcRegion.legal = false) :
    exec .rsetup s = .next (s.complete .rangeError) ∧ exec .aupdate s = .next (s.complete .rangeError) ∧
    (s.isComp = true → exec .mfind s = .next (s.complete .rangeError)) ∧
    (3 ≤ s.pend.ops.arg0.toNat → s.pend.ops.arg0.toNat ≤ 258 → s.pend.ops.arg0.toNat ≤ s.pend.ops.srcLen.toNat →
      1 ≤ s.pend.ops.arg1.toNat → s.pend.ops.arg1.toNat ≤ 2 ^ s.lcfg.dict →
      exec .cost s = .next (s.complete .rangeError)) := by
  have hopen := State.isReady_not_closed hr
  refine ⟨(requireState_ready hr).trans (requireRegion_illegal hl),
    (requireState_ready hr).trans (requireRegion_illegal hl),
    fun hc => (requireState_pass hopen hc).trans (requireRegion_illegal hl), fun h3 h258 hlen h1 hw => ?_⟩
  refine (requireState_ready hr).trans ((requireOperand_pass ?_).trans (requireRegion_illegal hl))
  simp [minMatch, maxMatch, windowSize, h3, h258, hlen, h1, hw]

/-- COMPRESS, DECOMPRESS and HBUILD, over a region that is illegal or over regions that overlap. -/
theorem exec_regions_illegal {s : State} (final : Bool)
    (hl : s.srcRegion.legal = false ∨ s.dstRegion.legal = false ∨ s.srcRegion.overlaps s.dstRegion = true) :
    (s.mayCompress = true → exec (.compress final) s = .next (s.complete .rangeError)) ∧
    (s.mayDecompress = true → exec .decompress s = .next (s.complete .rangeError)) ∧
    (s.isReady = true → 1 ≤ s.pend.ops.arg0.toNat → s.pend.ops.arg0.toNat ≤ 1024 →
      4 * s.pend.ops.arg0.toNat ≤ s.pend.ops.srcLen.toNat → exec .hbuild s = .next (s.complete .rangeError)) := by
  have hopen : s.ctx.state = .ready → s.ctx.state ≠ .closed := fun h => by simp [h]
  refine ⟨fun hm => ?_, fun hm => ?_, fun hr h1 h1024 hlen => ?_⟩
  · exact (requireState_pass (hopen (s.mayCompress_iff.mp hm).1) hm).trans (requireRegions_illegal hl)
  · exact (requireState_pass (hopen (s.mayDecompress_iff.mp hm).1) hm).trans (requireRegions_illegal hl)
  · refine (requireState_ready hr).trans ((requireOperand_pass ?_).trans (requireRegions_illegal hl))
    simp [hbMaxSyms, h1, h1024, hlen]

/-- Settles O12: the three kinds of bad region all fail the region check, which comes before every effect. -/
theorem regionChecks : Obligations.RegionChecks := by
  unfold Obligations.RegionChecks
  refine ⟨fun s hr hne hend => exec_source_illegal hr (Region.not_legal_of_past_end hne hend),
    fun s hr hne hend => ?_, fun s final h => exec_regions_illegal final ?_⟩
  · exact (requireState_ready hr).trans (requireRegion_illegal (Region.not_legal_of_past_end hne hend))
  · obtain ⟨hne, hend⟩ | ⟨hne, hend⟩ | ⟨a, hsrc, hsrc', hdst, hdst'⟩ := h
    · exact .inl (Region.not_legal_of_past_end hne hend)
    · exact .inr (.inl (Region.not_legal_of_past_end hne hend))
    · exact .inr (.inr (Region.overlaps_of_contains (Region.contains_iff.mpr ⟨hsrc, hsrc'⟩)
        (Region.contains_iff.mpr ⟨hdst, hdst'⟩)))

end Sys2Proof.Machine
end

section
/-!
PROOFS. The host's accesses to its memory (20_memory.md R211; 70_reset_and_hazards.md R922), idle and with a command in flight.
-/

namespace Sys2Proof.Machine

open Sys2Proof.Safety

/-- The byte a host may read early is the one a completion stores, or the one that stands there when there is none. -/
theorem byteAfter_cases (s : State) (a : Nat) :
    s.byteAfter a = Mem.read a s.mem ∨ ∃ u, s.completion = .next u ∧ s.byteAfter a = Mem.read a u.mem := by
  unfold State.byteAfter
  cases hc : s.completion with
  | next u => exact .inr ⟨u, rfl, rfl⟩
  | fault _ => exact .inl rfl
  | refused _ => exact .inl rfl

/-- What a host read the platform allows answers: the byte as it stands, or, for a destination byte in flight, that byte or
the one after completion (20_memory.md R211 (c); log 13). -/
theorem hostRead_cases {s : State} {a : Nat} (hp : hostAccessRefusal s.plat a = none) :
    s.hostRead a = .next { s with mdata := Mem.read a s.mem } ∨
    (s.busy = true ∧ s.flightRegions.2.contains a = true ∧ ∃ b, (b = Mem.read a s.mem ∨ b = s.byteAfter a) ∧
      s.hostRead a = .next { s with mdata := b, draws := s.draws + 1 }) := by
  rw [State.hostRead, hp, unlessRefused_none]
  split
  · rename_i hflight
    obtain ⟨hbusy, hdst⟩ := Bool.and_eq_true_iff.mp hflight
    refine .inr ⟨hbusy, hdst, _, ?_, rfl⟩
    split
    · exact .inr rfl
    · exact .inl rfl
  · exact .inl rfl

/-- A host write into a region in flight is refused (20_memory.md R211 (d); log 15). -/
theorem hostWrite_inFlight {s : State} {a : Nat} (b : Byte) (hp : hostAccessRefusal s.plat a = none) (hb : s.busy = true)
    (hr : s.flightRegions.1.contains a = true ∨ s.flightRegions.2.contains a = true) :
    s.hostWrite a b = .refused .hostWriteInFlight := by
  obtain hr | hr := hr <;> simp [State.hostWrite, hp, hb, hr]

/-- Any other host write the platform allows stores its byte (20_memory.md R211). -/
theorem hostWrite_stores {s : State} {a : Nat} (b : Byte) (hp : hostAccessRefusal s.plat a = none)
    (h : s.busy = false ∨ (s.flightRegions.1.contains a = false ∧ s.flightRegions.2.contains a = false)) :
    s.hostWrite a b = .next { s with mem := Mem.write a b s.mem } := by
  obtain hb | ⟨hsrc, hdst⟩ := h
  · simp [State.hostWrite, hp, hb]
  · simp [State.hostWrite, hp, hsrc, hdst]

/-- The regions in flight do not depend on the events still to come. -/
@[simp] theorem flightRegions_withInputs (s : State) (es : List Event) :
    State.flightRegions { s with inputs := es } = s.flightRegions := rfl

/-- Settles O23: a host access is one event, and answers as the byte lies inside or outside the regions in flight. -/
theorem hostMemoryAccess : Obligations.HostMemoryAccess := by
  unfold Obligations.HostMemoryAccess
  refine ⟨fun s a rest hin hp => ?_, fun s a b rest hin hp => ⟨fun ⟨hb, hr⟩ => ?_, fun h => ?_⟩⟩
  · rw [step_event hin (by simp)]
    obtain h | ⟨hb, hdst, v, hv, h⟩ := hostRead_cases (s := { s with inputs := rest }) hp
    · exact ⟨_, h, rfl, fun _ => rfl, .inl rfl⟩
    · refine ⟨_, h, rfl, fun hout => ?_, ?_⟩
      · obtain hidle | hout := hout
        · exact absurd (hb.symm.trans hidle) (by decide)
        · exact absurd (hdst.symm.trans hout) (by decide)
      · obtain rfl | rfl := hv
        · exact .inl rfl
        · exact byteAfter_cases { s with inputs := rest } a.toNat
  · rw [step_event hin (by simp)]
    exact hostWrite_inFlight (s := { s with inputs := rest }) b hp hb hr
  · rw [step_event hin (by simp)]
    exact hostWrite_stores (s := { s with inputs := rest }) b hp h

end Sys2Proof.Machine
end

section
/-!
PROOFS. The frame of host memory (20_memory.md R201): whatever a command stores, it stores inside its destination region. The
write side goes through one cursor, the read side of DECOMPRESS counts what it has produced, and neither needs the invariant:
the room check of 41_bitstream.md R431 and the capacity check of 48_decompress.md R665 come before every store.
-/

namespace Sys2Proof.Machine

open Sys2Proof.Safety

/-! ## Every writer is made of `putbits` and `flush` -/

/-- A relation between the cursor before and after a write that holds of doing nothing, of two writes in turn, and of the two
operations of the cursor (41_bitstream.md R432, R433). -/
structure SinkRule (R : Sink → Sink → Prop) : Prop where
  refl    : ∀ k, R k k
  trans   : ∀ {k k' k''}, R k k' → R k' k'' → R k k''
  putbits : ∀ {n v k k'}, putbits n v k = .ok k' → R k k'
  flush   : ∀ {k k'}, flush k = .ok k' → R k k'

section
variable {R : Sink → Sink → Prop} (hR : SinkRule R)
include hR

theorem SinkRule.encSym {lc : LCfg} {c : SymClass} {sym : Nat} {e e' : Enc} (h : encSym lc c sym e = .ok e') :
    R e.sink e'.sink :=
  hR.putbits (encSym_ok h).1

theorem SinkRule.emitRaw {n v : Nat} {e e' : Enc} (h : emitRaw n v e = .ok e') : R e.sink e'.sink := by
  obtain ⟨k, hk, rfl⟩ := map_ok h
  exact hR.putbits hk

theorem SinkRule.emitLiteral {lc : LCfg} {b : Byte} {e e' : Enc} (h : emitLiteral lc b e = .ok e') :
    R e.sink e'.sink := by
  obtain ⟨e1, htyp, hlit⟩ := bind_ok h
  exact hR.trans (hR.encSym htyp) (hR.encSym hlit)

theorem SinkRule.emitMatch {lc : LCfg} {l d : Nat} {e e' : Enc} (h : emitMatch lc l d e = .ok e') :
    R e.sink e'.sink := by
  obtain ⟨e1, htyp, h⟩ := bind_ok h
  obtain ⟨e2, hlen, h⟩ := bind_ok h
  obtain ⟨e3, hlenx, h⟩ := bind_ok h
  obtain ⟨e4, hdist, hdistx⟩ := bind_ok h
  have hlength := hR.trans (hR.encSym hlen) (hR.emitRaw hlenx)
  have hdistance := hR.trans (hR.encSym hdist) (hR.emitRaw hdistx)
  exact hR.trans (hR.encSym htyp) (hR.trans hlength hdistance)

theorem SinkRule.parse {lc : LCfg} {bs : List Byte} {skip : Nat} {k k' : Comp} (h : parse lc bs skip k = .ok k') :
    R k.enc.sink k'.enc.sink := by
  induction bs generalizing skip k with
  | nil => cases skip <;> (injection h with h; exact h ▸ hR.refl _)
  | cons b bs ih =>
    cases skip with
    | succ n => exact ih h
    | zero =>
      rw [Machine.parse] at h
      split at h
      · split at h
        · cases h
        · rename_i e he
          exact hR.trans (hR.emitMatch he) (ih h)
      · split at h
        · cases h
        · rename_i e he
          exact hR.trans (hR.emitLiteral he) (ih h)

theorem SinkRule.putBytes {bs : List Byte} {k k' : Sink} (h : putBytes bs k = .ok k') : R k k' := by
  induction bs generalizing k with
  | nil => injection h with h; exact h ▸ hR.refl _
  | cons b bs ih =>
    rw [Machine.putBytes] at h
    split at h
    · cases h
    · rename_i k1 hk1
      exact hR.trans (hR.putbits hk1) (ih h)

theorem SinkRule.compressEnd {lc : LCfg} {a : Word} {e e' : Enc} (h : compressEnd lc a e = .ok e') :
    R e.sink e'.sink := by
  obtain ⟨e1, heos, h⟩ := bind_ok h
  obtain ⟨k, hflush, h⟩ := bind_ok h
  obtain ⟨k1, htrailer, h⟩ := bind_ok h
  injection h with h
  subst h
  exact hR.trans (hR.encSym heos) (hR.trans (hR.flush hflush) (hR.putBytes htrailer))

end

/-! ## A write through the cursor stays inside its region -/

/-- A write that, if it stores at all, ends inside the cursor's region. Of the cursor it asks nothing, not even R152. -/
structure SinkInside (k k' : Sink) : Prop where
  step : SinkStep k k'
  room : k.wc.pos < k'.wc.pos → k'.wc.pos ≤ k.wc.cap.toNat

theorem SinkInside.trans {k k' k'' : Sink} (h : SinkInside k k') (h' : SinkInside k' k'') : SinkInside k k'' where
  step := h.step.trans h'.step
  room hlt := by
    have hcap := h.step.cap
    have hle := h'.step.pos_le
    by_cases hmoved : k'.wc.pos < k''.wc.pos
    · exact hcap ▸ h'.room hmoved
    · have hsame : k''.wc.pos = k'.wc.pos := by omega
      rw [hsame] at hlt ⊢
      exact h.room hlt

/-- A byte outside the cursor's region is as it was. -/
theorem SinkInside.read_outside {k k' : Sink} (h : SinkInside k k') {a : Nat}
    (ha : Region.contains ⟨k.wc.base.toNat, k.wc.cap.toNat⟩ a = false) : Mem.read a k'.mem = Mem.read a k.mem := by
  have hout := Region.contains_eq_false_iff.mp ha
  have hroom := h.room
  refine h.step.outside a ?_
  dsimp only at hout
  omega

/-- The position never runs ahead of the count of bits written, whatever the pending count (41_bitstream.md R431). -/
theorem putbitsLoop_pos_le (n v : Nat) (k : Sink) :
    (putbitsLoop n v k).wc.pos ≤ k.wc.pos + (k.wc.nacc + n) / 8 := by
  induction n generalizing k with
  | zero => exact Nat.le_add_right _ _
  | succ n ih =>
    refine Nat.le_trans (ih _) ?_
    unfold putbit
    dsimp only
    split <;> dsimp only <;> omega

theorem putbits_inside {n v : Nat} {k k' : Sink} (h : putbits n v k = .ok k') : SinkInside k k' := by
  obtain ⟨hroom, rfl, hstep⟩ := putbits_ok h
  have hpos := putbitsLoop_pos_le n v k
  simp only [WCur.room, decide_eq_true_eq] at hroom
  exact ⟨hstep, fun _ => Nat.le_trans hpos hroom⟩

theorem flush_inside {k k' : Sink} (h : flush k = .ok k') : SinkInside k k' := by
  obtain ⟨hstep, _, hpos, hroom⟩ := flush_ok h
  refine ⟨hstep, fun hlt => ?_⟩
  split at hpos
  · omega
  · rename_i hpending
    exact hpos ▸ hroom hpending

theorem sinkInside_rule : SinkRule SinkInside where
  refl k := ⟨SinkStep.refl k, fun h => absurd h (Nat.lt_irrefl _)⟩
  trans := SinkInside.trans
  putbits := putbits_inside
  flush := flush_inside

/-! ## COMPRESS (47_parser_compress.md R640) -/

/-- The header stays inside the destination, on which the cursor is set up. -/
theorem compressStart_inside {s : State} {k : Comp} {a : Word} (h : compressStart s = .ok (k, a)) :
    ∃ wc : WCur, wc.base = s.pend.ops.dstAddr ∧ wc.cap = s.pend.ops.dstCap ∧ SinkInside ⟨wc, s.mem⟩ k.enc.sink := by
  unfold compressStart at h
  dsimp only at h
  split at h
  · injection h with h
    injection h with h
    subst h
    exact ⟨_, rfl, rfl, sinkInside_rule.refl _⟩
  · split at h
    · cases h
    · rename_i k' hk
      injection h with h
      injection h with h
      subst h
      exact ⟨_, rfl, rfl, sinkInside_rule.putBytes hk⟩

theorem compressChunk_inside {final : Bool} {s u : State} {k : Comp} {a : Word}
    (h : compressChunk final s k a = .ok u) : SinkInside k.enc.sink ⟨u.wc, u.mem⟩ := by
  obtain ⟨k1, e, hparse, hend, rfl⟩ := compressChunk_ok h
  refine (sinkInside_rule.parse hparse).trans ?_
  split at hend
  · exact sinkInside_rule.compressEnd hend
  · injection hend with hend
    exact hend ▸ sinkInside_rule.refl _

/-! ## DECOMPRESS (48_decompress.md R660) -/

/-- What holds at every token of a stream unpacked into a region: the bytes produced fit in it, they are all staged, and
memory outside it is what it was. -/
structure UnpackInside (r : Region) (m : Mem) (u : Unpack) : Prop where
  produced : u.produced ≤ r.len
  staged   : u.out.length = u.produced
  outside  : ∀ a, r.contains a = false → Mem.read a u.mem = Mem.read a m

theorem UnpackInside.withDec {r : Region} {m : Mem} {u : Unpack} (h : UnpackInside r m u) (d : Dec) :
    UnpackInside r m { u with dec := d } :=
  ⟨h.produced, h.staged, h.outside⟩

/-- The same of decoding's outcome: of the whole stream, or of what stood before its error. -/
def UnpackedInside (r : Region) (m : Mem) : Except (ReadStop × Unpack) Unpack → Prop
  | .ok u => UnpackInside r m u
  | .error e => UnpackInside r m e.2

section
variable {lc : LCfg} {dst cap : Nat} {m : Mem}

theorem emitByte_inside {u : Unpack} (b : Byte) (h : UnpackInside ⟨dst, cap⟩ m u) (hroom : u.produced < cap) :
    UnpackInside ⟨dst, cap⟩ m (emitByte lc dst b u) := by
  refine ⟨hroom, congrArg (· + 1) h.staged, fun a ha => ?_⟩
  rw [← h.outside a ha]
  have hout := Region.contains_eq_false_iff.mp ha
  unfold emitByte
  dsimp only at hout ⊢
  split
  · exact Mem.read_write_other _ _ (by omega)
  · rfl

theorem copyMatch_inside {n d : Nat} {u : Unpack} (h : UnpackInside ⟨dst, cap⟩ m u) (hroom : u.produced + n ≤ cap) :
    UnpackInside ⟨dst, cap⟩ m (copyMatch lc dst n d u) := by
  induction n generalizing u with
  | zero => exact h
  | succ n ih =>
    refine ih (emitByte_inside _ h (by omega)) ?_
    show u.produced + 1 + n ≤ cap
    omega

/-- A token checks that its bytes fit before it emits the first (48_decompress.md R665). -/
theorem unpackToken_inside {u : Unpack} {q : Bool × Unpack} (hu : UnpackInside ⟨dst, cap⟩ m u)
    (h : unpackToken lc dst cap u = .ok q) : UnpackInside ⟨dst, cap⟩ m q.2 := by
  obtain ⟨⟨t, d1⟩, _, h⟩ := bind_ok h
  dsimp only at h
  split at h
  · obtain ⟨⟨b, d2⟩, _, h⟩ := bind_ok h
    dsimp only at h
    split at h
    · cases h
    · rename_i hroom
      injection h with h
      subst h
      exact emitByte_inside _ (hu.withDec d2) (Nat.lt_of_le_of_ne hu.produced hroom)
  · split at h
    · obtain ⟨⟨lv, d2⟩, _, h⟩ := bind_ok h
      obtain ⟨⟨dv, d3⟩, _, h⟩ := bind_ok h
      dsimp only at h
      split at h
      · cases h
      · split at h
        · cases h
        · rename_i hroom
          injection h with h
          subst h
          exact copyMatch_inside (hu.withDec d3) (Nat.le_of_not_gt hroom)
    · injection h with h
      subst h
      exact hu.withDec d1

theorem unpackLoop_inside {n : Nat} {u : Unpack} (hu : UnpackInside ⟨dst, cap⟩ m u) :
    UnpackedInside ⟨dst, cap⟩ m (unpackLoop lc dst cap n u) := by
  induction n generalizing u with
  | zero => exact hu
  | succ n ih =>
    rw [unpackLoop]
    split
    · exact hu
    · rename_i u1 htoken
      exact unpackToken_inside hu htoken
    · rename_i u1 htoken
      exact ih (unpackToken_inside hu htoken)

end

theorem unpackStream_inside (s : State) : UnpackedInside s.dstRegion s.mem (unpackStream s) := by
  have hstart : UnpackInside s.dstRegion s.mem (unpackStart s) := ⟨Nat.zero_le _, rfl, fun _ _ => rfl⟩
  unfold unpackStream
  dsimp only
  split
  · exact hstart
  · split
    · exact hstart
    · have hloop := unpackLoop_inside (lc := s.lcfg) (n := 8 * s.pend.ops.srcLen.toNat + 1)
        (hstart.withDec { (unpackStart s).dec with rc := { (unpackStart s).dec.rc with pos := 8 } })
      split
      · rename_i e he
        rw [he] at hloop
        exact hloop
      · rename_i u1 hu1
        rw [hu1] at hloop
        split
        · exact hloop
        · exact UnpackInside.withDec hloop _

/-- In buffered mode the staged bytes are stored at the end, and they fit (48_decompress.md R661). -/
theorem decompressDone_outside {s : State} {u : Unpack} (h : UnpackInside s.dstRegion s.mem u) {a : Nat}
    (ha : s.dstRegion.contains a = false) : Mem.read a (decompressDone s u).mem = Mem.read a s.mem := by
  rw [← h.outside a ha, decompressDone_mem]
  have hout := Region.contains_eq_false_iff.mp ha
  have hfit := h.produced
  have hstaged := h.staged
  split
  · rfl
  · refine Mem.read_writeList_other _ _ _ ?_
    simp only [State.dstRegion] at hout hfit
    rw [List.length_reverse]
    omega

/-! ## Each command -/

/-- The byte of host memory at an address is as it was. -/
def ByteKept (a : Nat) (s t : State) : Prop :=
  Mem.read a t.mem = Mem.read a s.mem

section
variable {s : State} {a : Nat}

theorem byteKept_compress (final : Bool) (ha : s.dstRegion.contains a = false) :
    Yields (ByteKept a s) (execCompress final s) := by
  refine yields_execCompress (fun _ => rfl) (fun _ _ => freeRegion_other s.mem ha) fun k adler0 u _ _ hs hc => ?_
  obtain ⟨wc, hbase, hcap, hstart⟩ := compressStart_inside hs
  refine (hstart.trans (compressChunk_inside hc)).read_outside ?_
  rw [hbase, hcap]
  exact ha

theorem byteKept_decompress (ha : s.dstRegion.contains a = false) : Yields (ByteKept a s) (execDecompress s) := by
  have hstream := unpackStream_inside s
  refine yields_execDecompress (fun _ => rfl) (fun u _ _ _ hu => ?_) fun x u _ _ _ hu => ?_
  · rw [hu] at hstream
    exact decompressDone_outside hstream ha
  · rw [hu] at hstream
    exact hstream.outside a ha

/-- HBUILD checks that its 4n bytes of records fit (43_prefix_code.md R500). -/
theorem byteKept_hbuild (ha : s.dstRegion.contains a = false) : Yields (ByteKept a s) (execHbuild s) := by
  refine yields_requireState (fun _ => rfl) fun _ => yields_requireOperand (fun _ => rfl)
    (yields_requireRegions (fun _ => rfl) fun _ _ => ?_)
  split
  · exact yields_next rfl
  · rename_i hroom
    refine yields_afterAccesses (yields_next (Mem.read_writeList_other _ _ _ ?_))
    have hout := Region.contains_eq_false_iff.mp ha
    simp only [State.dstRegion] at hout
    rw [length_recordBytes (length_canonical _).symm, length_buildLengths, length_readFreqs]
    omega

/-- A primitive whose write through the cursor stays inside the cursor's region. -/
theorem byteKept_finishStore {r : Except Full State} (ha : s.wcRegion.contains a = false)
    (hr : ∀ u, r = .ok u → SinkInside ⟨s.wc, s.mem⟩ ⟨u.wc, u.mem⟩) : Yields (ByteKept a s) (finishStore r s) :=
  yields_finishStore (fun _ => rfl) fun u hu => (hr u hu).read_outside ha

theorem exec_byteKept (i : Instr) (ha : (regionsOf i s).2.contains a = false) : Yields (ByteKept a s) (exec i s) := by
  have he : ∀ e, ByteKept a s (s.complete e) := fun _ => rfl
  cases i with
  | cinit | dinit => exact yields_requireState he fun _ => yields_requireConfig he fun _ => yields_next rfl
  | reinit =>
    refine yields_requireState he fun _ => ?_
    split
    · exact yields_requireConfig he fun _ => yields_next rfl
    · exact yields_next rfl
  | compress final => exact byteKept_compress final ha
  | decompress => exact byteKept_decompress ha
  | hbuild => exact byteKept_hbuild ha
  | close | treset c | tstat c | ralign | wput | ainit => exact yields_requireState he fun _ => yields_next rfl
  | tcost c | tread c | wget => exact yields_requireState he fun _ => yields_requireOperand he (yields_next rfl)
  | wsetup | rsetup => exact yields_requireState he fun _ => yields_requireRegion he fun _ => yields_next rfl
  | mfind | aupdate =>
    exact yields_requireState he fun _ => yields_requireRegion he fun _ => yields_afterAccesses (yields_next rfl)
  | cost =>
    exact yields_requireState he fun _ => yields_requireOperand he
      (yields_requireRegion he fun _ => yields_afterAccesses (yields_next rfl))
  | tenc c =>
    refine yields_requireState he fun _ => yields_requireOperand he (byteKept_finishStore ha fun u hu => ?_)
    obtain ⟨e, hsym, rfl⟩ := map_ok hu
    exact sinkInside_rule.encSym hsym
  | putbits =>
    refine yields_requireState he fun _ => yields_requireOperand he (byteKept_finishStore ha fun u hu => ?_)
    obtain ⟨k, hk, rfl⟩ := map_ok hu
    exact putbits_inside hk
  | wflush =>
    refine yields_requireState he fun _ => byteKept_finishStore ha fun u hu => ?_
    obtain ⟨k, hk, rfl⟩ := map_ok hu
    exact flush_inside hk
  | tdec c =>
    refine yields_requireState he fun _ => yields_finishRead he fun u hu => ?_
    obtain ⟨q, _, rfl⟩ := map_ok hu
    rfl
  | getbits =>
    refine yields_requireState he fun _ => yields_requireOperand he (yields_finishRead he fun u hu => ?_)
    obtain ⟨q, _, rfl⟩ := map_ok hu
    rfl

end

/-- Settles O16, command by command: every store of a command lies inside the region it checked for room. -/
theorem engineWritesOnlyDestination : Obligations.EngineWritesOnlyDestination := by
  unfold Obligations.EngineWritesOnlyDestination
  exact fun i s t a h ha => exec_byteKept i ha t h

end Sys2Proof.Machine
end

section
/-!
PROOFS. The command word (30_encoding.md R300 to R304, R350): the decoder read over the four fields of a word, what each row
of the opcode map decodes to and what R301 asks of it, and from these that decoding undoes encoding.
-/

namespace Sys2Proof.Machine

/-- The fields of a word lose no bit of it (30_encoding.md R300). -/
theorem ofWord_injective {v w : Word} (h : CmdFields.ofWord v = CmdFields.ofWord w) : v = w := by
  obtain ⟨hopc, hsel, hfin, hres⟩ := CmdFields.mk.inj h
  have bits : ∀ {start len k : Nat}, v.extractLsb' start len = w.extractLsb' start len → k < len →
      v.getLsbD (start + k) = w.getLsbD (start + k) := fun {start len k} he hk => by
    simpa [hk] using congrArg (fun x => x.getLsbD k) he
  refine BitVec.eq_of_getLsbD_eq fun k hk => ?_
  obtain hk' | hk' | rfl | hk' : k < 8 ∨ (8 ≤ k ∧ k < 10) ∨ k = 10 ∨ 11 ≤ k := by omega
  · simpa using bits hopc hk'
  · simpa [Nat.add_sub_cancel' hk'.1] using bits hsel (k := k - 8) (by omega)
  · exact hfin
  · simpa [Nat.add_sub_cancel' hk'] using bits hres (k := k - 11) (by omega)

/-- The decoder over the fields of a word. -/
def decodeFields (f : CmdFields) : Except IllFormed Instr :=
  if f.reserved ≠ 0 then .error .reservedBits else decodeOpcode f.opc.toNat f.sel f.final

theorem decode_eq_decodeFields (w : Word) : decode w = decodeFields (CmdFields.ofWord w) := rfl

theorem decodePlain_ok_iff {sel : BitVec 2} {final : Bool} {i j : Instr} :
    decodePlain sel final j = .ok i ↔ sel = 0 ∧ final = false ∧ j = i := by
  unfold decodePlain
  split <;> rename_i hsel
  · exact ⟨nofun, fun h => absurd h.1 hsel⟩
  · cases final <;> simp [not_not.mp hsel]

theorem decodeClassed_ok_iff {sel : BitVec 2} {final : Bool} {i : Instr} {mk : SymClass → Instr} :
    decodeClassed sel final mk = .ok i ↔ final = false ∧ mk (classOfSel sel) = i := by
  cases final <;> simp [decodeClassed]

theorem decodeFinal_ok_iff {sel : BitVec 2} {final : Bool} {i : Instr} {mk : Bool → Instr} :
    decodeFinal sel final mk = .ok i ↔ sel = 0 ∧ mk final = i := by
  unfold decodeFinal
  split <;> rename_i hsel
  · exact ⟨nofun, fun h => absurd h.1 hsel⟩
  · simp [not_not.mp hsel]

/-- SEL names its class and the class its SEL (30_encoding.md R340). -/
theorem selBits_classOfSel : ∀ sel : BitVec 2, (classOfSel sel).selBits = sel := by decide

/-- The four kinds of row of the opcode map (30_encoding.md R302, R303): how the decoder reads SEL and FINAL there, what R301
asks of them when bits [31:11] are 0, and the fields of the commands of the row. -/
inductive OpcRow (opc : BitVec 8) : Prop
  | plain (i : Instr) (hdec : ∀ sel final, decodeOpcode opc.toNat sel final = decodePlain sel final i)
      (hwf : ∀ sel final, CmdFields.wellFormed ⟨opc, sel, final, 0#21⟩ = (sel == 0#2 && !final))
      (hfields : i.fields = ⟨opc, 0, false, 0⟩)
  | classed (mk : SymClass → Instr)
      (hdec : ∀ sel final, decodeOpcode opc.toNat sel final = decodeClassed sel final mk)
      (hwf : ∀ sel final, CmdFields.wellFormed ⟨opc, sel, final, 0#21⟩ = !final)
      (hfields : ∀ c, (mk c).fields = ⟨opc, c.selBits, false, 0⟩)
  | final (mk : Bool → Instr) (hdec : ∀ sel final, decodeOpcode opc.toNat sel final = decodeFinal sel final mk)
      (hwf : ∀ sel final, CmdFields.wellFormed ⟨opc, sel, final, 0#21⟩ = (sel == 0#2))
      (hfields : ∀ final, (mk final).fields = ⟨opc, 0, final, 0⟩)
  | reserved (hdec : ∀ sel final, decodeOpcode opc.toNat sel final = .error .unknownOpcode)
      (hwf : ∀ sel final, CmdFields.wellFormed ⟨opc, sel, final, 0#21⟩ = false)

/-- Every OPC is a row of one of the four kinds. -/
theorem opcRow (opc : BitVec 8) : OpcRow opc := by
  by_cases hknown : CmdFields.opcKnown ⟨opc, 0, false, 0⟩ = true
  case neg =>
    refine .reserved (fun sel final => ?_) (fun sel final => ?_)
    · have hopc : opc = BitVec.ofNat 8 opc.toNat := (BitVec.ofNat_toNat 8 opc).trans (BitVec.setWidth_eq opc) |>.symm
      unfold decodeOpcode
      split
      on_goal 26 => rfl
      all_goals
        rename_i hnat
        rw [hnat] at hopc
        subst hopc
        exact absurd rfl hknown
    · simp only [CmdFields.wellFormed, Bool.and_eq_false_iff]
      exact .inl (.inl (.inl (Bool.not_eq_true _ ▸ hknown)))
  case pos =>
    simp only [CmdFields.opcKnown, List.contains_eq_mem, decide_eq_true_eq, List.mem_cons, List.not_mem_nil,
      or_false] at hknown
    rcases hknown with rfl | rfl | rfl | rfl | rfl | rfl | rfl | rfl | rfl | rfl | rfl | rfl | rfl | rfl | rfl |
      rfl | rfl | rfl | rfl | rfl | rfl | rfl | rfl | rfl | rfl
    · exact .plain .cinit (fun _ _ => rfl) (by decide) rfl
    · exact .plain .dinit (fun _ _ => rfl) (by decide) rfl
    · exact .plain .reinit (fun _ _ => rfl) (by decide) rfl
    · exact .plain .close (fun _ _ => rfl) (by decide) rfl
    · exact .final .compress (fun _ _ => rfl) (by decide) fun _ => rfl
    · exact .plain .decompress (fun _ _ => rfl) (by decide) rfl
    · exact .plain .hbuild (fun _ _ => rfl) (by decide) rfl
    · exact .classed .treset (fun _ _ => rfl) (by decide) fun _ => rfl
    · exact .classed .tenc (fun _ _ => rfl) (by decide) fun _ => rfl
    · exact .classed .tdec (fun _ _ => rfl) (by decide) fun _ => rfl
    · exact .classed .tcost (fun _ _ => rfl) (by decide) fun _ => rfl
    · exact .classed .tread (fun _ _ => rfl) (by decide) fun _ => rfl
    · exact .classed .tstat (fun _ _ => rfl) (by decide) fun _ => rfl
    · exact .plain .wsetup (fun _ _ => rfl) (by decide) rfl
    · exact .plain .putbits (fun _ _ => rfl) (by decide) rfl
    · exact .plain .wflush (fun _ _ => rfl) (by decide) rfl
    · exact .plain .rsetup (fun _ _ => rfl) (by decide) rfl
    · exact .plain .getbits (fun _ _ => rfl) (by decide) rfl
    · exact .plain .ralign (fun _ _ => rfl) (by decide) rfl
    · exact .plain .wput (fun _ _ => rfl) (by decide) rfl
    · exact .plain .wget (fun _ _ => rfl) (by decide) rfl
    · exact .plain .mfind (fun _ _ => rfl) (by decide) rfl
    · exact .plain .cost (fun _ _ => rfl) (by decide) rfl
    · exact .plain .ainit (fun _ _ => rfl) (by decide) rfl
    · exact .plain .aupdate (fun _ _ => rfl) (by decide) rfl

/-- The fields of a command decode to it. -/
theorem decodeFields_fields (i : Instr) : decodeFields i.fields = .ok i := by
  cases i with
  | treset c | tenc c | tdec c | tcost c | tread c | tstat c => cases c <;> rfl
  | _ => rfl

/-- Fields that decode to a command are the fields of that command. -/
theorem fields_of_decodeFields {f : CmdFields} {i : Instr} (h : decodeFields f = .ok i) : f = i.fields := by
  obtain ⟨opc, sel, final, reserved⟩ := f
  unfold decodeFields at h
  split at h
  · cases h
  · rename_i hres
    obtain rfl : reserved = 0 := not_not.mp hres
    cases opcRow opc with
    | plain j hdec _ hfields =>
      obtain ⟨rfl, rfl, rfl⟩ := decodePlain_ok_iff.mp ((hdec sel final).symm.trans h)
      exact hfields.symm
    | classed mk hdec _ hfields =>
      obtain ⟨rfl, rfl⟩ := decodeClassed_ok_iff.mp ((hdec sel final).symm.trans h)
      rw [hfields, selBits_classOfSel]
    | final mk hdec _ hfields =>
      obtain ⟨rfl, rfl⟩ := decodeFinal_ok_iff.mp ((hdec sel final).symm.trans h)
      exact (hfields final).symm
    | reserved hdec _ => cases (hdec sel final).symm.trans h

/-- R301's checks pass exactly for the fields that decode. -/
theorem wellFormed_iff_decodeFields (f : CmdFields) : f.wellFormed = true ↔ ∃ i, decodeFields f = .ok i := by
  obtain ⟨opc, sel, final, reserved⟩ := f
  by_cases hres : reserved = 0#21
  · subst hres
    have hopc : decodeFields ⟨opc, sel, final, 0#21⟩ = decodeOpcode opc.toNat sel final := rfl
    rw [hopc]
    cases opcRow opc with
    | plain j hdec hwf _ => simp [hdec, hwf, decodePlain_ok_iff]
    | classed mk hdec hwf _ => simp [hdec, hwf, decodeClassed_ok_iff]
    | final mk hdec hwf _ => simp [hdec, hwf, decodeFinal_ok_iff]
    | reserved hdec hwf => simp [hdec, hwf]
  · have hill : CmdFields.reservedOk ⟨opc, sel, final, reserved⟩ = false := beq_eq_false_iff_ne.mpr hres
    have hdec : decodeFields ⟨opc, sel, final, reserved⟩ = .error .reservedBits := if_pos hres
    simp [CmdFields.wellFormed, hill, hdec]

/-- The word the encoder writes for a command has the fields of the command's row. -/
theorem ofWord_encode (i : Instr) : CmdFields.ofWord (encode i) = i.fields := by
  cases i with
  | compress final => exact (Laws.CommandWord.compress final).1
  | treset c => exact (Laws.CommandWord.treset c).1
  | tenc c => exact (Laws.CommandWord.tenc c).1
  | tdec c => exact (Laws.CommandWord.tdec c).1
  | tcost c => exact (Laws.CommandWord.tcost c).1
  | tread c => exact (Laws.CommandWord.tread c).1
  | tstat c => exact (Laws.CommandWord.tstat c).1
  | _ => rfl

theorem decode_encode (i : Instr) : decode (encode i) = .ok i := by
  rw [decode_eq_decodeFields, ofWord_encode, decodeFields_fields]

/-- Settles O1: a word that decodes to a command has that command's fields, and so is the word the encoder writes. -/
theorem decodeInvertsEncode : Obligations.DecodeInvertsEncode := by
  unfold Obligations.DecodeInvertsEncode
  refine fun w i => ⟨fun h => ?_, fun h => h ▸ decode_encode i⟩
  exact ofWord_injective ((fields_of_decodeFields (decode_eq_decodeFields w ▸ h)).trans (ofWord_encode i).symm)

/-- A word is well-formed exactly when it decodes (30_encoding.md R301, R304). -/
theorem wellFormed_iff_decode (w : Word) : (CmdFields.ofWord w).wellFormed = true ↔ ∃ i, decode w = .ok i :=
  wellFormed_iff_decodeFields (CmdFields.ofWord w)

/-- With no event left the command in flight completes (40_command_model.md R404; log 1). -/
theorem step_no_event {s : State} (hbusy : s.busy = true) (hin : s.inputs = []) : step s = s.completion := by
  simp [step, State.turn, State.engineTurn, hin, hbusy]

/-- An ill-formed word completes with IllegalCommand (40_command_model.md R406 step 1). -/
theorem completion_illFormed {s : State} (h : (CmdFields.ofWord s.pend.cmd).wellFormed = false) :
    s.completion = .next (s.complete .illegalCommand) := by
  unfold State.completion
  split
  · rfl
  · rename_i i hdec
    simp [(wellFormed_iff_decode s.pend.cmd).mpr ⟨i, hdec⟩] at h

/-- Settles O2: R301's checks agree with the decoder, so a word that fails them meets the decoder's error branch. -/
theorem illFormedWordIsIllegalCommand : Obligations.IllFormedWordIsIllegalCommand := by
  unfold Obligations.IllFormedWordIsIllegalCommand
  exact ⟨wellFormed_iff_decode, fun s hbusy hin hill => (step_no_event hbusy hin).trans (completion_illFormed hill)⟩

/-- Settles O3: the decoded words are what the encoder writes, each of the others fails one check of R301. -/
theorem sampleWordsDecode : Obligations.SampleWordsDecode := by
  unfold Obligations.SampleWordsDecode
  exact ⟨decode_encode .cinit, decode_encode .close, decode_encode (.compress false), decode_encode (.compress true),
    decode_encode .decompress, decode_encode .hbuild, decode_encode (.tenc .dist), decode_encode (.tdec .lit),
    decode_encode .putbits, decode_encode .wget, decode_encode .mfind, decode_encode .aupdate, rfl, rfl, rfl, rfl, rfl⟩

end Sys2Proof.Machine
end

section
/-!
PROOFS. Value bucketing (30_encoding.md R342). From 4 on, a value is `(2 + b) * 2^j + x` with one bit `b`, `1 <= j` and
`x < 2^j`, and its symbol is `2 * (j + 1) + b`: every statement about a bucket is read off this form.
-/

namespace Sys2Proof.Machine

theorem bucket_small {v : Nat} (h : v < 4) : bucket v = (v, 0, 0) := if_pos h

theorem nextra_small {sym : Nat} (h : sym < 4) : nextra sym = 0 := if_pos h

theorem unbucket_small {sym : Nat} (x : Nat) (h : sym < 4) : unbucket sym x = sym := if_pos h

/-- The bucket of a value in its form. -/
theorem bucket_form {j b x : Nat} (hj : 1 ≤ j) (hb : b < 2) (hx : x < 2 ^ j) :
    bucket ((2 + b) * 2 ^ j + x) = (2 * (j + 1) + b, j, x) := by
  have hpow : 2 ≤ 2 ^ j := Nat.le_self_pow (by omega) 2
  have hlow : 2 * 2 ^ j ≤ (2 + b) * 2 ^ j := Nat.mul_le_mul_right _ (by omega)
  have hhigh : (2 + b) * 2 ^ j ≤ 3 * 2 ^ j := Nat.mul_le_mul_right _ (by omega)
  have hlog : Nat.log2 ((2 + b) * 2 ^ j + x) = j + 1 :=
    (Nat.log2_eq_iff (by omega)).mpr ⟨by rw [Nat.pow_succ]; omega, by rw [Nat.pow_succ, Nat.pow_succ]; omega⟩
  have htop : ((2 + b) * 2 ^ j + x) >>> j &&& 1 = b := by
    rw [Nat.shiftRight_eq_div_pow, Nat.and_one_is_mod, Nat.add_comm, Nat.add_mul_div_right _ _ (by omega),
      Nat.div_eq_of_lt hx]
    omega
  have hrest : ((2 + b) * 2 ^ j + x) &&& (2 ^ j - 1) = x := by
    rw [Nat.and_two_pow_sub_one_eq_mod, Nat.mul_add_mod_of_lt hx]
  rw [bucket, if_neg (by omega)]
  simp [hlog, htop, hrest]

theorem nextra_form {j b : Nat} (hj : 1 ≤ j) (hb : b < 2) : nextra (2 * (j + 1) + b) = j := by
  rw [nextra, if_neg (by omega), Nat.shiftRight_eq_div_pow]
  omega

theorem unbucket_form {j b : Nat} (x : Nat) (hj : 1 ≤ j) (hb : b < 2) :
    unbucket (2 * (j + 1) + b) x = (2 + b) * 2 ^ j + x := by
  have hbit : (2 * (j + 1) + b) &&& 1 = b := by rw [Nat.and_one_is_mod]; omega
  have hsh : (2 * (j + 1) + b) >>> 1 - 1 = j := by rw [Nat.shiftRight_eq_div_pow]; omega
  have hor : ∀ b < 2, 2 ||| b = 2 + b := by decide
  rw [unbucket, if_neg (by omega), hbit, hsh, hor b hb, Nat.shiftLeft_eq]

/-- Every symbol from 4 on is the symbol of some form. -/
theorem exists_symbol_form {sym : Nat} (h : 4 ≤ sym) : ∃ j b, 1 ≤ j ∧ b < 2 ∧ sym = 2 * (j + 1) + b :=
  ⟨sym / 2 - 1, sym % 2, by omega, by omega, by omega⟩

/-- Every value from 4 on has the form. -/
theorem exists_value_form {v : Nat} (h : 4 ≤ v) :
    ∃ j b x, 1 ≤ j ∧ b < 2 ∧ x < 2 ^ j ∧ v = (2 + b) * 2 ^ j + x := by
  have hexp : 2 ≤ Nat.log2 v := (Nat.le_log2 (by omega)).mpr h
  obtain ⟨j, hj⟩ : ∃ j, Nat.log2 v = j + 1 := ⟨Nat.log2 v - 1, by omega⟩
  obtain ⟨hlow, hhigh⟩ := (Nat.log2_eq_iff (by omega)).mp hj
  have hpos : 0 < 2 ^ j := Nat.two_pow_pos j
  have htwo : 2 ≤ v / 2 ^ j := (Nat.le_div_iff_mul_le hpos).mpr (by rw [Nat.pow_succ] at hlow; omega)
  have hfour : v / 2 ^ j < 4 := (Nat.div_lt_iff_lt_mul hpos).mpr (by rw [Nat.pow_succ, Nat.pow_succ] at hhigh; omega)
  refine ⟨j, v / 2 ^ j - 2, v % 2 ^ j, by omega, by omega, Nat.mod_lt v hpos, ?_⟩
  rw [Nat.add_sub_cancel' htwo, Nat.div_add_mod']

/-- The interval of a symbol from 4 on: the values with its leading two bits. -/
theorem bucket_fst_eq_iff {v j b : Nat} (hj : 1 ≤ j) (hb : b < 2) :
    (bucket v).1 = 2 * (j + 1) + b ↔ (2 + b) * 2 ^ j ≤ v ∧ v < (3 + b) * 2 ^ j := by
  have hwidth : (3 + b) * 2 ^ j = (2 + b) * 2 ^ j + 2 ^ j := by ring
  constructor
  · intro hsym
    have hv : 4 ≤ v := Nat.le_of_not_lt fun hv => by
      rw [bucket_small hv] at hsym
      dsimp only at hsym
      omega
    obtain ⟨j', b', x, hj', hb', hx, rfl⟩ := exists_value_form hv
    rw [bucket_form hj' hb' hx] at hsym
    obtain ⟨rfl, rfl⟩ : j' = j ∧ b' = b := by dsimp only at hsym; omega
    omega
  · rintro ⟨hlow, hhigh⟩
    obtain ⟨x, rfl⟩ := Nat.exists_eq_add_of_le hlow
    rw [bucket_form hj hb (by omega)]

/-- Unbucketing undoes bucketing, and the extra field has `nextra` bits. -/
theorem unbucket_bucket (v : Nat) :
    unbucket (bucket v).1 (bucket v).2.2 = v ∧ (bucket v).2.1 = nextra (bucket v).1 ∧
      (bucket v).2.2 < 2 ^ (bucket v).2.1 := by
  obtain hv | hv := Nat.lt_or_ge v 4
  · simp [bucket_small hv, unbucket_small 0 hv, nextra_small hv]
  · obtain ⟨j, b, x, hj, hb, hx, rfl⟩ := exists_value_form hv
    simp [bucket_form hj hb hx, unbucket_form x hj hb, nextra_form hj hb, hx]

/-- Bucketing undoes unbucketing of an extra field of `nextra` bits. -/
theorem bucket_unbucket {sym x : Nat} (hx : x < 2 ^ nextra sym) : bucket (unbucket sym x) = (sym, nextra sym, x) := by
  obtain hsym | hsym := Nat.lt_or_ge sym 4
  · rw [nextra_small hsym] at hx ⊢
    obtain rfl : x = 0 := by omega
    rw [unbucket_small 0 hsym, bucket_small hsym]
  · obtain ⟨j, b, hj, hb, rfl⟩ := exists_symbol_form hsym
    rw [nextra_form hj hb] at hx ⊢
    rw [unbucket_form x hj hb, bucket_form hj hb hx]

/-- A value below `2^k` has a symbol below `2 * k`. -/
theorem bucket_fst_lt {v k : Nat} (hk : 1 ≤ k) (hv : v < 2 ^ k) : (bucket v).1 < 2 * k := by
  obtain h | h := Nat.lt_or_ge v 4
  · rw [bucket_small h]
    obtain rfl | hk2 : k = 1 ∨ 2 ≤ k := by omega
    · exact hv
    · exact h.trans_le (by omega)
  · obtain ⟨j, b, x, hj, hb, hx, rfl⟩ := exists_value_form h
    have hlead : 2 ^ (j + 1) < 2 ^ k := by
      have : 2 * 2 ^ j ≤ (2 + b) * 2 ^ j := Nat.mul_le_mul_right _ (by omega)
      rw [Nat.pow_succ]
      omega
    have hexp : j + 1 < k := (Nat.pow_lt_pow_iff_right (by decide)).mp hlead
    rw [bucket_form hj hb hx]
    dsimp only
    omega

/-- Settles O60, from the form `(2 + b) * 2^j + x` of the values and symbols from 4 on. -/
theorem bucketsAreInverse : Obligations.BucketsAreInverse := by
  unfold Obligations.BucketsAreInverse
  refine ⟨unbucket_bucket, fun sym x hx => bucket_unbucket hx, fun v k hk => ?_, fun v k hk hv => bucket_fst_lt hk hv⟩
  obtain ⟨j, rfl⟩ : ∃ j, k = j + 1 := ⟨k - 1, by omega⟩
  have hpow : 2 ^ (j + 1) = 2 * 2 ^ j := Nat.pow_succ'
  have hpow' : 2 ^ (j + 1 + 1) = 4 * 2 ^ j := by rw [Nat.pow_succ', hpow]; ring
  rw [Nat.add_sub_cancel, hpow, hpow']
  exact ⟨bucket_fst_eq_iff (b := 0) (by omega) (by decide), bucket_fst_eq_iff (b := 1) (by omega) (by decide)⟩

end Sys2Proof.Machine
end

section
/-!
PROOFS. The operand checks (30_encoding.md R310; 40_command_model.md R406 step 4): what a failed check answers.
-/

namespace Sys2Proof.Machine

/-- A failed operand check is IllegalCommand, whatever would come after. -/
theorem requireOperand_illegal {ok : Bool} {s : State} {body : Result} (h : ok = false) :
    requireOperand ok s body = .next (s.complete .illegalCommand) := by
  simp [requireOperand, h]

/-- A primitive in READY whose operand check fails. -/
theorem requireReadyOperand_illegal {ok : Bool} {s : State} {body : Result} (hr : s.isReady = true) (h : ok = false) :
    requireState s.isReady s (requireOperand ok s body) = .next (s.complete .illegalCommand) :=
  (requireState_ready hr).trans (requireOperand_illegal h)

/-- A symbol outside its table is no operand (44_adaptive_codec.md R541, R543, R544). -/
theorem State.symOk_eq_false {s : State} {c : SymClass} (h : (s.tab.get c).n ≤ s.pend.ops.arg0.toNat) :
    s.symOk c = false :=
  decide_eq_false (Nat.not_lt.mpr h)

/-- Settles O11: in READY each command goes past the state requirement to its operand check, which fails. -/
theorem operandChecks : Obligations.OperandChecks := by
  unfold Obligations.OperandChecks
  refine fun s c hr => ⟨fun h => requireReadyOperand_illegal hr ?hbuild, fun h => ?symbol, fun h => ?count,
    fun h => requireReadyOperand_illegal hr ?wget, fun h => requireReadyOperand_illegal hr ?cost⟩
  case hbuild =>
    simp only [Bool.and_eq_false_iff, decide_eq_false_iff_not]
    simp only [Nat.not_le, hbMaxSyms]
    omega
  case symbol =>
    have hsym := State.symOk_eq_false h
    exact ⟨requireReadyOperand_illegal hr hsym, requireReadyOperand_illegal hr hsym, requireReadyOperand_illegal hr hsym⟩
  case count =>
    have hcount := decide_eq_false (Nat.not_le.mpr h)
    exact ⟨requireReadyOperand_illegal hr hcount, requireReadyOperand_illegal hr hcount⟩
  case wget =>
    simp only [Bool.and_eq_false_iff, decide_eq_false_iff_not]
    simp only [Nat.not_le, Win.fill, windowSize]
    omega
  case cost =>
    simp only [Bool.and_eq_false_iff, decide_eq_false_iff_not]
    simp only [Nat.not_le, minMatch, maxMatch, windowSize]
    omega

end Sys2Proof.Machine
end

section
/-!
PROOFS. The issue of a command and the engine's turn (40_command_model.md R400 to R404): what a CMD write does, when the engine
moves, and that a step of the engine is the command the latched word stands for.
-/

namespace Sys2Proof.Machine

/-! ## The engine's turn -/

/-- The completion of a decoded word is its command's meaning (40_command_model.md R403). -/
theorem completion_decoded {s : State} {i : Instr} (h : decode s.pend.cmd = .ok i) : s.completion = exec i s := by
  simp [State.completion, h]

/-- At an engine event the command in flight completes, the event being taken from the list first (log 1). -/
theorem step_engine {s : State} {rest : List Event} (hbusy : s.busy = true) (hin : s.inputs = .engine :: rest) :
    step s = State.completion { s with inputs := rest } :=
  (step_event hin (by simp)).trans (if_pos hbusy)

/-- While the host waits the command in flight completes, and the wait stays in the list (log 1). -/
theorem step_wait_busy {s : State} {rest : List Event} (hbusy : s.busy = true) (hin : s.inputs = .wait :: rest) :
    step s = s.completion := by
  simp [step, State.turn, hin, hbusy]

/-- Whatever events are waiting, the engine moves next after `withCommand`, on the registers latched as they stand. -/
theorem step_withCommand (s : State) (w : Word) : step (s.withCommand w) = State.completion (s.issue w) := by
  cases hin : s.inputs with
  | nil =>
    have hissue : s.withCommand w = s.issue w := by simp [State.withCommand, State.issue, engineFirst, hin]
    have hempty : (s.withCommand w).inputs = [] := by simp [State.withCommand, engineFirst, hin]
    exact (step_no_event rfl hempty).trans (congrArg State.completion hissue)
  | cons e rest =>
    have hfirst : (s.withCommand w).inputs = .engine :: e :: rest := by simp [State.withCommand, engineFirst, hin]
    rw [step_engine rfl hfirst, ← hin]
    rfl

/-- Settles O4: in each of the three places the step is the completion of the latched word. -/
theorem stepRunsDecodedCommand : Obligations.StepRunsDecodedCommand := by
  unfold Obligations.StepRunsDecodedCommand
  refine ⟨fun s i hbusy hdec => ⟨fun hin => ?_, fun rest hin => ?_, fun rest hin => ?_⟩, fun s nbits w i hdec => ?_⟩
  · exact (step_no_event hbusy hin).trans (completion_decoded hdec)
  · exact (step_engine hbusy hin).trans (completion_decoded hdec)
  · exact (step_wait_busy hbusy hin).trans (completion_decoded hdec)
  · exact (step_withCommand s (tableWord nbits w)).trans (completion_decoded hdec)

/-! ## The CMD write -/

theorem writeReg_cmd_idle (w : Word) {s : State} (h : s.busy = false) : s.writeReg .cmd w = s.issue w := by
  simp [State.writeReg, h]

/-- A CMD write is a write of the register CMD (10_state.md R100). -/
theorem step_write_cmd {s : State} {w : Word} {rest : List Event} (hin : s.inputs = .write 32 0x04#8 w :: rest) :
    step s = .next (State.writeReg .cmd w { s with inputs := rest }) :=
  (step_write hin).trans (if_pos rfl)

/-- A READY context reads ACTIVE while busy (10_state.md R105). -/
theorem stateField_active {s : State} (hbusy : s.busy = true) (hready : s.ctx.state = .ready) : s.stateField = 2 := by
  simp [State.stateField, hbusy, hready]

/-- Settles O5: the CMD write is the issue while idle and the LOST bit while busy; the fields of STATUS show the issue. -/
theorem cmdWriteIssuesOrIsLost : Obligations.CmdWriteIssuesOrIsLost := by
  unfold Obligations.CmdWriteIssuesOrIsLost
  refine fun s w rest hin => ⟨fun hidle => ⟨State.issue w { s with inputs := rest }, ?_, rfl, fun started done => ?_⟩,
    fun hbusy => ?_⟩
  · exact (step_write_cmd hin).trans (congrArg _ (writeReg_cmd_idle w (s := { s with inputs := rest }) hidle))
  · obtain ⟨hstate, _, hbit, _⟩ := statusWith_fields (State.issue w { s with inputs := rest }) started done
    exact ⟨hbit, fun hready => hstate.trans (congrArg (BitVec.ofNat 2) (stateField_active rfl hready))⟩
  · exact (step_write_cmd hin).trans (congrArg _ (writeReg_cmd_busy w (s := { s with inputs := rest }) hbusy))

end Sys2Proof.Machine
end

section
/-!
PROOFS. Noninterference of the live registers (40_command_model.md R402; 70_reset_and_hazards.md R911): every check of R406 and
every end of a command reads the latch, so a state with other operand and configuration registers goes the same way.
-/

namespace Sys2Proof.Machine

open Sys2Proof.Safety

/-- A state with other values in the operand and configuration registers. -/
def State.withRegs (ops : OpRegs) (cfg : CfgRegs) (s : State) : State :=
  { s with ops := ops, cfg := cfg }

/-! ## One rule for each check and each end of a command -/

section
variable {ops : OpRegs} {cfg : CfgRegs} {s : State} {body body' : Result}

theorem withRegs_unlessRefused (r : Option Refusal) (h : body' = mapNext (State.withRegs ops cfg) body) :
    unlessRefused r body' = mapNext (State.withRegs ops cfg) (unlessRefused r body) := by
  cases r with
  | none => exact h
  | some x => rfl

theorem withRegs_afterAccesses {rs : List Region} (h : body' = mapNext (State.withRegs ops cfg) body) :
    afterAccesses rs (s.withRegs ops cfg) body' = mapNext (State.withRegs ops cfg) (afterAccesses rs s body) :=
  withRegs_unlessRefused (busRefusal s.plat rs) h

theorem withRegs_requireState {ok : Bool} (h : body' = mapNext (State.withRegs ops cfg) body) :
    requireState ok (s.withRegs ops cfg) body' = mapNext (State.withRegs ops cfg) (requireState ok s body) := by
  have hctx : (s.withRegs ops cfg).ctx = s.ctx := rfl
  unfold requireState
  rw [hctx]
  split
  · rfl
  · split
    · exact h
    · rfl

theorem withRegs_requireOperand {ok : Bool} (h : body' = mapNext (State.withRegs ops cfg) body) :
    requireOperand ok (s.withRegs ops cfg) body' = mapNext (State.withRegs ops cfg) (requireOperand ok s body) := by
  cases ok with
  | true => exact h
  | false => rfl

theorem withRegs_requireConfig {ok : Bool} (h : body' = mapNext (State.withRegs ops cfg) body) :
    requireConfig ok (s.withRegs ops cfg) body' = mapNext (State.withRegs ops cfg) (requireConfig ok s body) := by
  cases ok with
  | true => exact h
  | false => rfl

theorem withRegs_requireRegion {r : Region} (h : body' = mapNext (State.withRegs ops cfg) body) :
    requireRegion r (s.withRegs ops cfg) body' = mapNext (State.withRegs ops cfg) (requireRegion r s body) := by
  unfold requireRegion
  split
  · exact withRegs_unlessRefused (sideEffectRefusal s.plat r) h
  · rfl

theorem withRegs_requireRegions {src dst : Region} (h : body' = mapNext (State.withRegs ops cfg) body) :
    requireRegions src dst (s.withRegs ops cfg) body' =
      mapNext (State.withRegs ops cfg) (requireRegions src dst s body) := by
  unfold requireRegions
  split
  · exact withRegs_unlessRefused (sideEffectRefusal s.plat src)
      (withRegs_unlessRefused (sideEffectRefusal s.plat dst) h)
  · rfl

theorem withRegs_requireCursor {accessed r : Region} (h : body' = mapNext (State.withRegs ops cfg) body) :
    requireCursor accessed r (s.withRegs ops cfg) body' =
      mapNext (State.withRegs ops cfg) (requireCursor accessed r s body) := by
  unfold requireCursor
  split
  · exact h
  · split
    · exact withRegs_unlessRefused (sideEffectRefusal s.plat r) (withRegs_afterAccesses h)
    · rfl

/-- A primitive that ends in `finishStore`, given that what it wrote does not depend on the registers. -/
theorem withRegs_finishStore {α : Type} (x : Except Full α) {f g : α → State}
    (h : ∀ a, f a = (g a).withRegs ops cfg) :
    finishStore (x.map f) (s.withRegs ops cfg) = mapNext (State.withRegs ops cfg) (finishStore (x.map g) s) := by
  obtain rfl : f = fun a => (g a).withRegs ops cfg := funext h
  cases x with
  | error e => rfl
  | ok a => exact withRegs_requireCursor rfl

theorem withRegs_finishRead {α : Type} (x : Except ReadStop α) {f g : α → State}
    (h : ∀ a, f a = (g a).withRegs ops cfg) :
    finishRead (x.map f) (s.withRegs ops cfg) = mapNext (State.withRegs ops cfg) (finishRead (x.map g) s) := by
  obtain rfl : f = fun a => (g a).withRegs ops cfg := funext h
  cases x with
  | error e => exact withRegs_requireCursor rfl
  | ok a => exact withRegs_requireCursor rfl

end

/-! ## COMPRESS and DECOMPRESS -/

theorem withRegs_bind {ops : OpRegs} {cfg : CfgRegs} {ε α : Type} (x : Except ε α) {f g : α → Except ε State}
    (h : ∀ a, f a = (g a).map (State.withRegs ops cfg)) : (x >>= f) = (x >>= g).map (State.withRegs ops cfg) := by
  cases x with
  | error e => rfl
  | ok a => exact h a

section
variable (ops : OpRegs) (cfg : CfgRegs) (s : State)

theorem compressStart_withRegs : compressStart (s.withRegs ops cfg) = compressStart s := rfl

theorem compressChunk_withRegs (final : Bool) (k : Comp) (adler0 : Word) :
    compressChunk final (s.withRegs ops cfg) k adler0 =
      (compressChunk final s k adler0).map (State.withRegs ops cfg) := by
  refine withRegs_bind _ fun k1 => ?_
  cases final with
  | true => exact withRegs_bind _ fun _ => rfl
  | false => exact withRegs_bind _ fun _ => rfl

theorem unpackStream_withRegs : unpackStream (s.withRegs ops cfg) = unpackStream s := rfl

theorem execCompress_withRegs (final : Bool) :
    execCompress final (s.withRegs ops cfg) = mapNext (State.withRegs ops cfg) (execCompress final s) := by
  refine withRegs_requireState (withRegs_requireRegions ?_)
  rw [compressStart_withRegs]
  cases compressStart s with
  | error f => exact withRegs_afterAccesses rfl
  | ok start =>
    obtain ⟨k, adler0⟩ := start
    dsimp only
    rw [compressChunk_withRegs]
    cases compressChunk final s k adler0 with
    | error f => exact withRegs_afterAccesses rfl
    | ok t => exact withRegs_afterAccesses rfl

theorem execDecompress_withRegs :
    execDecompress (s.withRegs ops cfg) = mapNext (State.withRegs ops cfg) (execDecompress s) := by
  refine withRegs_requireState (withRegs_requireRegions ?_)
  rw [unpackStream_withRegs]
  cases unpackStream s with
  | ok u => exact withRegs_afterAccesses rfl
  | error e => exact withRegs_afterAccesses rfl

end

/-! ## Every command -/

theorem exec_withRegs (i : Instr) (s : State) (ops : OpRegs) (cfg : CfgRegs) :
    exec i (s.withRegs ops cfg) = mapNext (State.withRegs ops cfg) (exec i s) := by
  cases i with
  | cinit | dinit => exact withRegs_requireState (withRegs_requireConfig rfl)
  | reinit =>
    have hctx : (s.withRegs ops cfg).ctx = s.ctx := rfl
    refine withRegs_requireState ?_
    rw [hctx]
    split
    · exact withRegs_requireConfig rfl
    · rfl
  | compress final => exact execCompress_withRegs ops cfg s final
  | decompress => exact execDecompress_withRegs ops cfg s
  | hbuild =>
    have hpend : (s.withRegs ops cfg).pend = s.pend := rfl
    refine withRegs_requireState (withRegs_requireOperand (withRegs_requireRegions ?_))
    rw [hpend]
    split
    · rfl
    · exact withRegs_afterAccesses rfl
  | close | treset c | tstat c | ralign | wput | ainit => exact withRegs_requireState rfl
  | tcost c | tread c | wget => exact withRegs_requireState (withRegs_requireOperand rfl)
  | wsetup | rsetup => exact withRegs_requireState (withRegs_requireRegion rfl)
  | mfind | aupdate => exact withRegs_requireState (withRegs_requireRegion (withRegs_afterAccesses rfl))
  | cost =>
    exact withRegs_requireState (withRegs_requireOperand (withRegs_requireRegion (withRegs_afterAccesses rfl)))
  | tenc c | putbits =>
    exact withRegs_requireState (withRegs_requireOperand (withRegs_finishStore _ fun _ => rfl))
  | wflush => exact withRegs_requireState (withRegs_finishStore _ fun _ => rfl)
  | tdec c => exact withRegs_requireState (withRegs_finishRead _ fun _ => rfl)
  | getbits => exact withRegs_requireState (withRegs_requireOperand (withRegs_finishRead _ fun _ => rfl))

/-! ## The latch under register writes -/

/-- Of the register writes only the soft reset, and a CMD write while idle, change the latch (40_command_model.md R402). -/
theorem writeReg_pend {s : State} (hbusy : s.busy = true) {r : Reg} (v : Word) (hr : r ≠ .srst) :
    (s.writeReg r v).pend = s.pend := by
  cases r with
  | srst => exact absurd rfl hr
  | cmd => rw [writeReg_cmd_busy v hbusy]
  | _ => rfl

/-- SRST stands at one offset only (10_state.md R100). -/
theorem regAt_ne_srst {offset : Nat} {r : Reg} (h : regAt offset = some r) (hne : offset ≠ 0x14) : r ≠ .srst := by
  rintro rfl
  have honly : ∀ p ∈ registerMap, p.2 = .srst → p.1 = 0x14 := by decide
  exact hne (honly _ (mem_of_regAt h) rfl)

theorem writeOffset_pend {s : State} (hbusy : s.busy = true) {offset : Nat} (v : Word) (hne : offset ≠ 0x14) :
    (s.writeOffset offset v).pend = s.pend := by
  cases h : regAt offset with
  | none => rw [writeOffset_of_none h]
  | some r => rw [writeOffset_of_some h, writeReg_pend hbusy v (regAt_ne_srst h hne)]

/-- Settles O6: every command commutes with a change of the live registers, and no write but SRST reaches the latch. -/
theorem commandsReadTheLatchOnly : Obligations.CommandsReadTheLatchOnly := by
  unfold Obligations.CommandsReadTheLatchOnly
  exact ⟨fun i s ops cfg => exec_withRegs i s ops cfg, fun s offset v hbusy hne => writeOffset_pend hbusy v hne⟩

end Sys2Proof.Machine
end

section
/-!
PROOFS. The read side, said once for every reader of a stream: where the read cursor stands after a success and how far it had
come at an error (41_bitstream.md R440; 43_prefix_code.md R490; 48_decompress.md R660), and which codes an error can have.
-/

namespace Sys2Proof.Machine

open Sys2Proof.Safety

/-- The cursor came from `r` to `r'` by reading: inside the same region, and well placed if it was (10_state.md R153). -/
def RCur.Moves (r r' : RCur) : Prop :=
  RCurOk r → RCurOk r' ∧ r'.base = r.base ∧ r'.len = r.len

theorem RCur.Moves.refl (r : RCur) : r.Moves r := fun h => ⟨h, rfl, rfl⟩

theorem RCur.Moves.trans {r r' r'' : RCur} (h : r.Moves r') (h' : r'.Moves r'') : r.Moves r'' := fun hr => by
  obtain ⟨hr', hbase, hlen⟩ := h hr
  obtain ⟨hr'', hbase', hlen'⟩ := h' hr'
  exact ⟨hr'', hbase'.trans hbase, hlen'.trans hlen⟩

/-- The codes a reader of a stream can stop with (48_decompress.md R673). -/
def streamErrors : List ErrCode :=
  [.truncatedStream, .corruptStream, .outputBufferTooSmall, .checksumMismatch]

/-- None of them is a code of the check steps 1 to 6. -/
theorem streamErrors_late : ∀ e ∈ streamErrors, earlyError e = false := by decide

/-- A reader that started at `r` stopped: with one of these codes, and with the cursor where `r` moved to. -/
structure StopsFrom (r : RCur) (e : ReadStop) : Prop where
  code  : e.err ∈ streamErrors
  reach : r.Moves e.reach

theorem StopsFrom.of_code {r reach : RCur} {code : ErrCode} (hm : r.Moves reach) (hc : code ∈ streamErrors) :
    StopsFrom r ⟨code, reach⟩ :=
  ⟨hc, hm⟩

theorem StopsFrom.after {r r' : RCur} {e : ReadStop} (h : r.Moves r') (he : StopsFrom r' e) : StopsFrom r e :=
  ⟨he.code, h.trans he.reach⟩

/-- What a reader that started at `r` answers: the cursor of its result is where `r` moved to, and so is that of its error. -/
def ReadsFrom {α : Type} (r : RCur) (cur : α → RCur) : Except ReadStop α → Prop
  | .ok a => r.Moves (cur a)
  | .error e => StopsFrom r e

theorem ReadsFrom.ok {α : Type} {r : RCur} {cur : α → RCur} {x : Except ReadStop α} {a : α} (h : ReadsFrom r cur x)
    (hx : x = .ok a) : r.Moves (cur a) := by
  subst hx
  exact h

theorem ReadsFrom.error {α : Type} {r : RCur} {cur : α → RCur} {x : Except ReadStop α} {e : ReadStop}
    (h : ReadsFrom r cur x) (hx : x = .error e) : StopsFrom r e := by
  subst hx
  exact h

theorem ReadsFrom.after {α : Type} {r r' : RCur} {cur : α → RCur} {x : Except ReadStop α} (hm : r.Moves r')
    (h : ReadsFrom r' cur x) : ReadsFrom r cur x := by
  cases x with
  | ok a => exact hm.trans h
  | error e => exact StopsFrom.after hm h

theorem ReadsFrom.bind {α β : Type} {r : RCur} {cur : α → RCur} {cur' : β → RCur} {x : Except ReadStop α}
    {f : α → Except ReadStop β} (hx : ReadsFrom r cur x) (hf : ∀ a, ReadsFrom (cur a) cur' (f a)) :
    ReadsFrom r cur' (x >>= f) := by
  cases x with
  | ok a => exact ReadsFrom.after hx (hf a)
  | error e => exact hx

/-! ## Bits and symbols -/

theorem takeBit_moves {m : Mem} {r : RCur} (hu : 1 ≤ r.unread) : r.Moves (takeBit m r).2 := fun hr => by
  obtain ⟨hok, _, _, hbase, hlen⟩ := takeBit_rcOk (m := m) hr hu
  exact ⟨hok, hbase, hlen⟩

theorem getbit_reads (m : Mem) (r : RCur) : ReadsFrom r Prod.snd (getbit m r) := by
  cases h : getbit m r with
  | ok p =>
    obtain ⟨hu, rfl⟩ := getbit_ok h
    exact takeBit_moves hu
  | error e =>
    obtain ⟨rfl, _⟩ := getbit_error h
    exact StopsFrom.of_code (RCur.Moves.refl r) (by decide)

theorem getbits_reads (m : Mem) (n : Nat) (r : RCur) : ReadsFrom r Prod.snd (getbits m n r) := by
  cases h : getbits m n r with
  | ok p =>
    obtain ⟨hu, rfl⟩ := getbits_ok h
    intro hr
    obtain ⟨hok, _, hbase, hlen⟩ := getbitsLoop_rcOk (m := m) n 0 hr hu
    exact ⟨hok, hbase, hlen⟩
  | error e =>
    obtain ⟨rfl, _⟩ := getbits_error h
    exact StopsFrom.of_code (RCur.Moves.refl r) (by decide)

theorem decodeLoop_reads (m : Mem) (len : List Nat) (n l code : Nat) (r : RCur) :
    ReadsFrom r Prod.snd (decodeLoop m len n l code r) := by
  induction n generalizing l code r with
  | zero => exact StopsFrom.of_code (RCur.Moves.refl r) (by decide)
  | succ n ih =>
    rw [decodeLoop]
    have hbit := getbit_reads m r
    split
    · rename_i e he
      exact hbit.error he
    · rename_i b r1 hb
      have hmoved : r.Moves r1 := hbit.ok hb
      dsimp only
      split
      · exact hmoved
      · exact ReadsFrom.after hmoved (ih (l + 1) _ r1)

theorem decSym_reads (m : Mem) (lc : LCfg) (c : SymClass) (d : Dec) :
    ReadsFrom d.rc (fun p => p.2.rc) (decSym m lc c d) := by
  have hsym : ReadsFrom d.rc Prod.snd (decodeSym m (d.tab.get c).len d.rc) := decodeLoop_reads ..
  unfold decSym
  dsimp only
  split
  · rename_i e he
    exact hsym.error he
  · rename_i sym r hr
    exact hsym.ok hr

theorem decValue_reads (m : Mem) (lc : LCfg) (c : SymClass) (d : Dec) :
    ReadsFrom d.rc (fun p => p.2.rc) (decValue m lc c d) :=
  (decSym_reads m lc c d).bind fun p => (getbits_reads m (nextra p.1) p.2.rc).bind fun q => RCur.Moves.refl q.2

/-! ## Tokens -/

@[simp] theorem emitByte_dec (lc : LCfg) (dst : Nat) (b : Byte) (u : Unpack) : (emitByte lc dst b u).dec = u.dec := rfl

@[simp] theorem copyMatch_dec (lc : LCfg) (dst n d : Nat) (u : Unpack) : (copyMatch lc dst n d u).dec = u.dec := by
  induction n generalizing u with
  | zero => rfl
  | succ n ih => rw [copyMatch, ih, emitByte_dec]

theorem unpackToken_reads (lc : LCfg) (dst cap : Nat) (u : Unpack) :
    ReadsFrom u.dec.rc (fun p => p.2.dec.rc) (unpackToken lc dst cap u) := by
  refine (decSym_reads u.mem lc .typ u.dec).bind fun ⟨_, d1⟩ => ?_
  dsimp only
  split
  · refine (decSym_reads u.mem lc .lit d1).bind fun ⟨_, d2⟩ => ?_
    dsimp only
    split
    · exact StopsFrom.of_code (RCur.Moves.refl _) (by decide)
    · exact RCur.Moves.refl _
  · split
    · refine (decValue_reads u.mem lc .len d1).bind fun ⟨lv, d2⟩ =>
        (decValue_reads u.mem lc .dist d2).bind fun ⟨dv, d3⟩ => ?_
      dsimp only
      split
      · exact StopsFrom.of_code (RCur.Moves.refl _) (by decide)
      · split
        · exact StopsFrom.of_code (RCur.Moves.refl _) (by decide)
        · have hdec := copyMatch_dec lc dst (lv + minMatch) (dv + 1) { u with dec := d3 }
          exact congrArg Dec.rc hdec ▸ RCur.Moves.refl _
    · exact RCur.Moves.refl _

/-- What decoding a stream from `r` answers: an error comes with what stood before it. -/
def UnpacksFrom (r : RCur) : Except (ReadStop × Unpack) Unpack → Prop
  | .ok u => r.Moves u.dec.rc
  | .error e => StopsFrom r e.1

theorem UnpacksFrom.after {r r' : RCur} {x : Except (ReadStop × Unpack) Unpack} (hm : r.Moves r')
    (h : UnpacksFrom r' x) : UnpacksFrom r x := by
  cases x with
  | ok u => exact hm.trans h
  | error e => exact StopsFrom.after hm h

theorem unpackLoop_reads (lc : LCfg) (dst cap n : Nat) (u : Unpack) :
    UnpacksFrom u.dec.rc (unpackLoop lc dst cap n u) := by
  induction n generalizing u with
  | zero => exact StopsFrom.of_code (RCur.Moves.refl _) (by decide)
  | succ n ih =>
    have htoken := unpackToken_reads lc dst cap u
    rw [unpackLoop]
    split
    · rename_i e he
      exact htoken.error he
    · rename_i u1 h1
      exact htoken.ok h1
    · rename_i u1 h1
      exact UnpacksFrom.after (htoken.ok h1) (ih u1)

/-! ## The end of the stream -/

theorem checkPadding_reads (m : Mem) (r : RCur) : ReadsFrom r id (checkPadding m r) := by
  unfold checkPadding
  split
  · have hbits := getbits_reads m (8 - r.bit) r
    split
    · rename_i e he
      exact hbits.error he
    · rename_i x r1 h1
      have hmoved : r.Moves r1 := hbits.ok h1
      split
      · exact hmoved
      · exact StopsFrom.of_code hmoved (by decide)
  · exact RCur.Moves.refl r

/-- Four bytes on from a byte boundary, where they are unread. -/
theorem trailer_moves {r r1 : RCur} (hm : r.Moves r1) (hbit : RCurOk r → r1.bit = 0)
    (hlen : ¬ r1.len.toNat - r1.pos < 4) : r.Moves { r1 with pos := r1.pos + 4 } := fun hr => by
  obtain ⟨hr1, hbase, hlen1⟩ := hm hr
  have hplace := hr1.place
  have hbit1 := hbit hr
  refine ⟨⟨?_, hr1.legal⟩, hbase, hlen1⟩
  dsimp only
  omega

theorem checkTrailer_reads {lc : LCfg} {m : Mem} {a : Word} {r r1 : RCur} (hm : r.Moves r1)
    (hbit : RCurOk r → r1.bit = 0) : ReadsFrom r id (checkTrailer lc m a r1) := by
  unfold checkTrailer
  split
  · exact StopsFrom.of_code hm (by decide)
  · rename_i hlen
    have hend := trailer_moves hm hbit hlen
    split
    · exact StopsFrom.of_code hend (by decide)
    · split
      · exact StopsFrom.of_code hend (by decide)
      · exact hend

theorem checkEnd_reads (lc : LCfg) (u : Unpack) : ReadsFrom u.dec.rc id (checkEnd lc u) := by
  have hpad := checkPadding_reads u.mem u.dec.rc
  unfold checkEnd
  split
  · rename_i e he
    exact hpad.error he
  · rename_i r1 h1
    exact checkTrailer_reads (hpad.ok h1) fun hr => (checkPadding_ok h1 hr).2

theorem unpackStream_reads (s : State) : UnpacksFrom (unpackStart s).dec.rc (unpackStream s) := by
  unfold unpackStream
  dsimp only
  split
  · exact StopsFrom.of_code (RCur.Moves.refl _) (by decide)
  · rename_i hlen
    have hheader : (unpackStart s).dec.rc.Moves { (unpackStart s).dec.rc with pos := 8 } := fun hr => by
      refine ⟨⟨?_, hr.legal⟩, rfl, rfl⟩
      dsimp only [unpackStart]
      omega
    split
    · exact StopsFrom.of_code hheader (by decide)
    · have hloop := unpackLoop_reads s.lcfg s.pend.ops.dstAddr.toNat s.pend.ops.dstCap.toNat
        (8 * s.pend.ops.srcLen.toNat + 1)
        { unpackStart s with dec := { (unpackStart s).dec with rc := { (unpackStart s).dec.rc with pos := 8 } } }
      have hstream := UnpacksFrom.after hheader hloop
      split
      · rename_i e he
        rw [he] at hstream
        exact hstream
      · rename_i u1 h1
        rw [h1] at hstream
        have hend := checkEnd_reads s.lcfg u1
        split
        · rename_i e he
          exact StopsFrom.after hstream (hend.error he)
        · rename_i r hr
          exact hstream.trans (hend.ok hr)

/-! ## The bytes read -/

/-- A byte read on the way from `r` to `r'` lies in the cursor's region. -/
theorem readTo_inside {r r' : RCur} (hr : RCurOk r) (hm : r.Moves r') {a : Nat}
    (ha : (r.readTo r').contains a = true) : Region.contains ⟨r.base.toNat, r.len.toNat⟩ a = true := by
  obtain ⟨hr', _, hlen⟩ := hm hr
  have hplace := hr'.place
  rw [hlen] at hplace
  rw [Region.contains_iff] at ha ⊢
  simp only [RCur.readTo] at ha ⊢
  split at ha
  · omega
  · split at ha <;> omega

end Sys2Proof.Machine
end

section
/-!
PROOFS. What a completion reports and keeps (40_command_model.md R404, R407, R411; 60_exceptions.md R802): every command ends in
one of three ways, and each of the statements about errors and about the frame of a completion is read off them.
-/

namespace Sys2Proof.Machine

open Sys2Proof.Safety

/-- What no command touches before its report: IRQ_PEND, the registers the host writes, the latch, the platform, and the model's
own fields on the host's side. -/
def State.hostView (s : State) :
    BitVec 2 × BitVec 2 × OpRegs × CfgRegs × Latch × Config.Platform × List Event × Word × Byte :=
  (s.irqPend, s.irqEn, s.ops, s.cfg, s.pend, s.plat, s.inputs, s.rdata, s.mdata)

/-- The three ways a command ends: with the report of a code alone, with its effects and OK, or, for COMPRESS and DECOMPRESS at
step 7, with a broken stream and a code that no earlier step gives (40_command_model.md R406 to R412). -/
inductive Completes (i : Instr) (s : State) : State → Prop
  | report (e : ErrCode) : Completes i s (s.complete e)
  | effects (u : State) (hview : u.hostView = s.hostView) : Completes i s (u.complete .ok)
  | broken (u : State) (e : ErrCode) (hview : u.hostView = s.hostView) (hstream : primitive i = false)
      (hlate : earlyError e = false) : Completes i s (u.complete e)

theorem exec_completes (i : Instr) (s : State) : Yields (Completes i s) (exec i s) := by
  have he : ∀ e, Completes i s (s.complete e) := .report
  cases i with
  | cinit | dinit => exact yields_requireState he fun _ => yields_requireConfig he fun _ => yields_next (.effects _ rfl)
  | reinit =>
    refine yields_requireState he fun _ => ?_
    split
    · exact yields_requireConfig he fun _ => yields_next (.effects _ rfl)
    · exact yields_next (.effects _ rfl)
  | compress final =>
    refine yields_execCompress he (fun _ _ => .broken _ _ rfl rfl rfl) fun k a u _ _ _ hc => ?_
    obtain ⟨k1, e, _, _, rfl⟩ := compressChunk_ok hc
    exact .effects _ rfl
  | decompress =>
    refine yields_execDecompress he (fun u _ _ _ _ => .effects _ rfl) fun x u _ _ _ hu => ?_
    have hstop := unpackStream_reads s
    rw [hu] at hstop
    exact .broken _ _ rfl rfl (streamErrors_late x.err hstop.code)
  | hbuild =>
    refine yields_requireState he fun _ => yields_requireOperand he (yields_requireRegions he fun _ _ => ?_)
    split
    · exact yields_next (he _)
    · exact yields_afterAccesses (yields_next (.effects _ rfl))
  | close | treset c | tstat c | ralign | wput | ainit =>
    exact yields_requireState he fun _ => yields_next (.effects _ rfl)
  | tcost c | tread c | wget =>
    exact yields_requireState he fun _ => yields_requireOperand he (yields_next (.effects _ rfl))
  | wsetup | rsetup =>
    exact yields_requireState he fun _ => yields_requireRegion he fun _ => yields_next (.effects _ rfl)
  | mfind | aupdate =>
    exact yields_requireState he fun _ => yields_requireRegion he fun _ =>
      yields_afterAccesses (yields_next (.effects _ rfl))
  | cost =>
    exact yields_requireState he fun _ => yields_requireOperand he
      (yields_requireRegion he fun _ => yields_afterAccesses (yields_next (.effects _ rfl)))
  | tenc c | putbits =>
    refine yields_requireState he fun _ => yields_requireOperand he (yields_finishStore he fun u hu => ?_)
    obtain ⟨_, _, rfl⟩ := map_ok hu
    exact .effects _ rfl
  | wflush =>
    refine yields_requireState he fun _ => yields_finishStore he fun u hu => ?_
    obtain ⟨_, _, rfl⟩ := map_ok hu
    exact .effects _ rfl
  | tdec c =>
    refine yields_requireState he fun _ => yields_finishRead he fun u hu => ?_
    obtain ⟨_, _, rfl⟩ := map_ok hu
    exact .effects _ rfl
  | getbits =>
    refine yields_requireState he fun _ => yields_requireOperand he (yields_finishRead he fun u hu => ?_)
    obtain ⟨_, _, rfl⟩ := map_ok hu
    exact .effects _ rfl

/-! ## What the three ways have in common -/

/-- Whichever way a command ends, its last act is the report, over a state with the host's side as it was. -/
theorem Completes.reported {i : Instr} {s t : State} (h : Completes i s t) :
    ∃ (u : State) (e : ErrCode), u.hostView = s.hostView ∧ t = u.complete e := by
  cases h with
  | report e => exact ⟨s, e, rfl, rfl⟩
  | effects u hview => exact ⟨u, .ok, hview, rfl⟩
  | broken u e hview _ _ => exact ⟨u, e, hview, rfl⟩

/-- Settles O7: the report of a completion, over a state with the host's side as it was. -/
theorem completionReports : Obligations.CompletionReports := by
  unfold Obligations.CompletionReports
  intro i s t h
  obtain ⟨u, e, hview, rfl⟩ := (exec_completes i s t h).reported
  simp only [State.hostView, Prod.mk.injEq] at hview
  obtain ⟨hpending, hen, hops, hcfg, hpend, hplat, hinputs, hrdata, hmdata⟩ := hview
  exact ⟨rfl, congrArg (· ||| 1) hpending, hen, hops, hcfg, hpend, hplat, hinputs, hrdata, hmdata⟩

/-! ## Errors that change only the report -/

/-- An error of the check steps 1 to 6 is a report alone (40_command_model.md R407). -/
theorem Completes.eq_report_of_early {i : Instr} {s t : State} (h : Completes i s t) (herr : earlyError t.err = true) :
    t = s.complete t.err := by
  cases h with
  | report e => rfl
  | effects u _ => cases herr
  | broken u e _ _ hlate => exact absurd (hlate.symm.trans herr) (by decide)

/-- A primitive's error is a report alone (40_command_model.md R411). -/
theorem Completes.eq_report_of_primitive {i : Instr} {s t : State} (h : Completes i s t) (hp : primitive i = true)
    (herr : t.err ≠ .ok) : t = s.complete t.err := by
  cases h with
  | report e => rfl
  | effects u _ => exact absurd rfl herr
  | broken u e _ hstream _ => exact absurd (hstream.symm.trans hp) (by decide)

/-- Settles O13: of the three ways to end only the report alone has such a code, and so has an ill-formed word. -/
theorem earlyErrorsChangeOnlyTheReport : Obligations.EarlyErrorsChangeOnlyTheReport := by
  unfold Obligations.EarlyErrorsChangeOnlyTheReport
  intro s t
  exact yields_completion (P := fun t => earlyError t.err = true → t = s.complete t.err) (fun _ => rfl)
    (fun i u h => (exec_completes i s u h).eq_report_of_early) t

/-- Settles O14: a primitive has no broken stream to leave, so what is not OK is the report alone. -/
theorem primitiveErrorsChangeOnlyTheReport : Obligations.PrimitiveErrorsChangeOnlyTheReport := by
  unfold Obligations.PrimitiveErrorsChangeOnlyTheReport
  exact fun i s t hp h herr => (exec_completes i s t h).eq_report_of_primitive hp herr

end Sys2Proof.Machine
end

section
/-!
PROOFS. Every command completes (40_command_model.md R410; 60_exceptions.md R821, R822). In a state that meets the invariant a
command can stop for two reasons only, both of the platform: a region of its own that has side effects, and an access of its
own that the bus rejects. The proof shows for each command that its accesses lie in the regions it names.
-/

namespace Sys2Proof.Machine

open Sys2Proof.Safety

/-- The address lies in one of the two regions. -/
def InRegions (rs : Region × Region) (a : Nat) : Prop :=
  rs.1.contains a = true ∨ rs.2.contains a = true

/-- How a command over these regions can end: with a next state, with the refusal of a byte of them that the bus rejects, or with
the refusal of one of them that has side effects. There is no fault among them. -/
inductive Ends (p : Config.Platform) (rs : Region × Region) : Result → Prop
  | next (t : State) : Ends p rs (.next t)
  | rejected (a : Nat) (hin : InRegions rs a) (hrej : busRejects p ⟨a, 1⟩ = true) : Ends p rs (.refused .busFault)
  | sideEffect (x : Refusal) (h : sideEffectRefusal p rs.1 = some x ∨ sideEffectRefusal p rs.2 = some x) :
      Ends p rs (.refused x)

/-! ## One rule for each check and each end of a command -/

/-- A region that meets a rejected range has a rejected byte. -/
theorem exists_rejected_byte {p : Config.Platform} {r : Region} (h : busRejects p r = true) :
    ∃ a, r.contains a = true ∧ busRejects p ⟨a, 1⟩ = true := by
  simp only [busRejects, List.any_eq_true, Region.meets, Region.overlaps, Bool.and_eq_true, decide_eq_true_eq] at h
  obtain ⟨g, hg, ⟨⟨hr, hlen⟩, hlo⟩, hhi⟩ := h
  refine ⟨max r.base g.base, Region.contains_iff.mpr (by omega), List.any_eq_true.mpr ⟨g, hg, ?_⟩⟩
  simp only [Region.meets, Region.overlaps, Bool.and_eq_true, decide_eq_true_eq]
  omega

section
variable {s : State} {rs : Region × Region} {body : Result}

theorem ends_requireState {ok : Bool} (hb : ok = true → Ends s.plat rs body) :
    Ends s.plat rs (requireState ok s body) := by
  unfold requireState
  split
  · exact .next _
  · split
    · rename_i ho
      exact hb ho
    · exact .next _

theorem ends_requireOperand {ok : Bool} (hb : ok = true → Ends s.plat rs body) :
    Ends s.plat rs (requireOperand ok s body) := by
  cases ok with
  | true => exact hb rfl
  | false => exact .next _

theorem ends_requireConfig {ok : Bool} (hb : Ends s.plat rs body) : Ends s.plat rs (requireConfig ok s body) := by
  cases ok with
  | true => exact hb
  | false => exact .next _

/-- The refusal of one of the command's own regions. -/
theorem ends_unlessSideEffect {r : Region} (hr : r = rs.1 ∨ r = rs.2) (hb : Ends s.plat rs body) :
    Ends s.plat rs (unlessRefused (sideEffectRefusal s.plat r) body) := by
  cases h : sideEffectRefusal s.plat r with
  | none => exact hb
  | some x =>
    obtain rfl | rfl := hr
    · exact .sideEffect x (.inl h)
    · exact .sideEffect x (.inr h)

/-- Accesses inside the command's own regions. -/
theorem ends_afterAccesses {accesses : List Region}
    (hin : ∀ r ∈ accesses, ∀ a, r.contains a = true → InRegions rs a) (hb : Ends s.plat rs body) :
    Ends s.plat rs (afterAccesses accesses s body) := by
  unfold afterAccesses busRefusal
  split
  · rename_i hrej
    obtain ⟨r, hr, hrej⟩ := List.any_eq_true.mp hrej
    obtain ⟨a, ha, hbyte⟩ := exists_rejected_byte hrej
    exact .rejected a (hin r hr a ha) hbyte
  · exact hb

theorem ends_requireRegion {r : Region} (hr : r = rs.1 ∨ r = rs.2) (hb : r.legal = true → Ends s.plat rs body) :
    Ends s.plat rs (requireRegion r s body) := by
  unfold requireRegion
  split
  · rename_i hl
    exact ends_unlessSideEffect hr (hb hl)
  · exact .next _

theorem ends_requireRegions (hb : rs.1.legal = true → rs.2.legal = true → Ends s.plat rs body) :
    Ends s.plat rs (requireRegions rs.1 rs.2 s body) := by
  unfold requireRegions
  split
  · rename_i hl
    simp only [Bool.and_eq_true] at hl
    obtain ⟨⟨hsrc, hdst⟩, _⟩ := hl
    exact ends_unlessSideEffect (.inl rfl) (ends_unlessSideEffect (.inr rfl) (hb hsrc hdst))
  · exact .next _

/-- A cursor's region is legal in every state a run reaches, so its accesses never fault (log 9). -/
theorem ends_requireCursor {accessed r : Region} (hr : r = rs.1 ∨ r = rs.2) (hl : r.legal = true)
    (hin : ∀ a, accessed.contains a = true → r.contains a = true) (hb : Ends s.plat rs body) :
    Ends s.plat rs (requireCursor accessed r s body) := by
  unfold requireCursor
  rw [if_pos hl]
  split
  · exact hb
  · refine ends_unlessSideEffect hr (ends_afterAccesses (fun x hx a ha => ?_) hb)
    obtain rfl := List.mem_singleton.mp hx
    have ha := hin a ha
    obtain rfl | rfl := hr
    · exact .inl ha
    · exact .inr ha

/-- A write through the cursor stays inside the cursor's region. -/
theorem ends_finishStore {x : Except Full State} (h : WCurOk s.wc)
    (hx : ∀ u, x = .ok u → SinkInside ⟨s.wc, s.mem⟩ ⟨u.wc, u.mem⟩) :
    Ends s.plat (noRegion, s.wcRegion) (finishStore x s) := by
  cases x with
  | error e => exact .next _
  | ok u =>
    have hroom := (hx u rfl).room
    refine ends_requireCursor (.inr rfl) (Region.legal_of_end_le h.legal) (fun a ha => ?_) (.next _)
    rw [Region.contains_iff] at ha ⊢
    dsimp only [State.wcRegion] at ha hroom ⊢
    omega

/-- A read through the cursor stays inside the cursor's region, whether it succeeds or stops. -/
theorem ends_finishRead {α : Type} {x : Except ReadStop α} {cur : α → RCur} {f : α → State} (h : RCurOk s.rc)
    (hx : ReadsFrom s.rc cur x) (hf : ∀ p, (f p).rc = cur p) :
    Ends s.plat (s.rcRegion, noRegion) (finishRead (x.map f) s) := by
  have hl : s.rcRegion.legal = true := Region.legal_of_end_le h.legal
  cases x with
  | error e => exact ends_requireCursor (.inl rfl) hl (fun a ha => readTo_inside h hx.reach ha) (.next _)
  | ok p =>
    have hmoved : s.rc.Moves (f p).rc := (hf p).symm ▸ hx
    exact ends_requireCursor (.inl rfl) hl (fun a ha => readTo_inside h hmoved ha) (.next _)

end

/-! ## COMPRESS (47_parser_compress.md R640, R642) -/

/-- Bytes from the base of a region on that fit in it. -/
theorem Region.contains_of_prefix {base n len a : Nat} (hn : n ≤ len)
    (h : Region.contains ⟨base, n⟩ a = true) : Region.contains ⟨base, len⟩ a = true := by
  rw [Region.contains_iff] at h ⊢
  dsimp only at h ⊢
  omega

theorem compressStart_full {s : State} {x : Full} (hdst : s.dstRegion.legal = true)
    (h : compressStart s = .error x) : x.stored ≤ s.pend.ops.dstCap.toNat := by
  unfold compressStart at h
  dsimp only at h
  split at h
  · cases h
  · split at h
    · rename_i e he
      injection h with h
      exact h ▸ (putBytes_full he).le (wcurOk_start hdst)
    · cases h

theorem compressChunk_full {final : Bool} {s : State} {k : Comp} {a : Word} {x : Full}
    (h : compressChunk final s k a = .error x) : FullOk k.enc.sink x := by
  obtain hparse | ⟨k1, hparse, h⟩ := bind_error h
  · exact parse_full hparse
  · refine (parse_sink hparse).full ?_
    cases final with
    | true =>
      obtain hend | ⟨_, _, h⟩ := bind_error h
      · exact compressEnd_full hend
      · cases h
    | false => cases h

/-- The cursor COMPRESS writes its chunk through meets R152 over the destination. -/
theorem compressStart_cursor {s : State} {k : Comp} {a : Word} (h : Inv s) (hdst : s.dstRegion.legal = true)
    (hs : compressStart s = .ok (k, a)) :
    WCurOk k.enc.sink.wc ∧ k.enc.sink.wc.cap = s.pend.ops.dstCap := by
  obtain ⟨hsink, _⟩ := compressStart_ok h hdst hs
  obtain ⟨wc, _, hcap, hinside⟩ := compressStart_inside hs
  exact ⟨hsink.wc, hinside.step.cap.trans hcap⟩

theorem ends_compressFails {s : State} {read : Region} {x : Full}
    (hread : ∀ a, read.contains a = true → s.srcRegion.contains a = true)
    (hx : x.stored ≤ s.pend.ops.dstCap.toNat) :
    Ends s.plat (s.srcRegion, s.dstRegion) (compressFails read x s) := by
  refine ends_afterAccesses (fun r hr a ha => ?_) (.next _)
  obtain rfl | rfl : r = read ∨ r = ⟨s.pend.ops.dstAddr.toNat, x.stored⟩ := by simpa using hr
  · exact .inl (hread a ha)
  · exact .inr (Region.contains_of_prefix hx ha)

theorem ends_compress {s : State} (h : Inv s) (final : Bool) :
    Ends s.plat (s.srcRegion, s.dstRegion) (execCompress final s) := by
  refine ends_requireState fun hm => ends_requireRegions (rs := (s.srcRegion, s.dstRegion)) fun _ hdst => ?_
  split
  · rename_i x hx
    exact ends_compressFails (fun a ha => absurd ha (by simp [noRegion, Region.contains])) (compressStart_full hdst hx)
  · rename_i k adler0 hs
    obtain ⟨hwc, hcap⟩ := compressStart_cursor h hdst hs
    split
    · rename_i x hx
      exact ends_compressFails (fun _ ha => ha) (hcap ▸ (compressChunk_full hx).le hwc)
    · rename_i u hu
      have hpos := (inv_compressChunk h hm hdst hs hu).wc.pos_le
      rw [(compressChunk_inside hu).step.cap, hcap] at hpos
      refine ends_afterAccesses (fun r hr a ha => ?_) (.next _)
      obtain rfl | rfl : r = s.srcRegion ∨ r = ⟨s.pend.ops.dstAddr.toNat, u.wc.pos⟩ := by simpa using hr
      · exact .inl ha
      · exact .inr (Region.contains_of_prefix hpos ha)

/-! ## DECOMPRESS (48_decompress.md R660, R672) -/

/-- The accesses of DECOMPRESS: the source up to where the cursor came, and the bytes produced. -/
theorem ends_unpackAccesses {s : State} {reach : RCur} {n : Nat} {body : Result} (hsrc : s.srcRegion.legal = true)
    (hreach : (unpackStart s).dec.rc.Moves reach) (hn : n ≤ s.pend.ops.dstCap.toNat)
    (hb : Ends s.plat (s.srcRegion, s.dstRegion) body) :
    Ends s.plat (s.srcRegion, s.dstRegion)
      (afterAccesses [unpackRead s reach, ⟨s.pend.ops.dstAddr.toNat, n⟩] s body) := by
  refine ends_afterAccesses (fun r hr a ha => ?_) hb
  obtain rfl | rfl : r = unpackRead s reach ∨ r = ⟨s.pend.ops.dstAddr.toNat, n⟩ := by simpa using hr
  · exact .inl (readTo_inside (rcurOk_start hsrc (Nat.zero_le _)) hreach ha)
  · exact .inr (Region.contains_of_prefix hn ha)

theorem ends_decompress (s : State) : Ends s.plat (s.srcRegion, s.dstRegion) (execDecompress s) := by
  refine ends_requireState fun _ => ends_requireRegions (rs := (s.srcRegion, s.dstRegion)) fun hsrc _ => ?_
  have hreads := unpackStream_reads s
  have hinside := unpackStream_inside s
  split
  · rename_i u hu
    rw [hu] at hreads hinside
    exact ends_unpackAccesses hsrc hreads hinside.produced (.next _)
  · rename_i x u hu
    rw [hu] at hreads hinside
    have hproduced : u.produced ≤ s.pend.ops.dstCap.toNat := hinside.produced
    refine ends_unpackAccesses hsrc hreads.reach ?_ (.next _)
    split
    · exact hproduced
    · exact Nat.zero_le _

/-! ## Every command -/

/-- HBUILD reads and writes 4n bytes, which it has checked to fit (43_prefix_code.md R500). -/
theorem ends_hbuild (s : State) : Ends s.plat (s.srcRegion, s.dstRegion) (execHbuild s) := by
  refine ends_requireState fun _ => ends_requireOperand fun hok =>
    ends_requireRegions (rs := (s.srcRegion, s.dstRegion)) fun _ _ => ?_
  simp only [Bool.and_eq_true, decide_eq_true_eq] at hok
  obtain ⟨_, hsrc⟩ := hok
  split
  · exact .next _
  · rename_i hdst
    refine ends_afterAccesses (fun r hr a ha => ?_) (.next _)
    obtain rfl | rfl : r = ⟨s.pend.ops.srcAddr.toNat, 4 * s.pend.ops.arg0.toNat⟩ ∨
        r = ⟨s.pend.ops.dstAddr.toNat, 4 * s.pend.ops.arg0.toNat⟩ := by simpa using hr
    · exact .inl (Region.contains_of_prefix hsrc ha)
    · exact .inr (Region.contains_of_prefix (Nat.le_of_not_lt hdst) ha)

/-- A command that reads the first `n` bytes of its source region. -/
theorem ends_sourceAccess {s : State} {n : Nat} {body : Result} (hn : n ≤ s.pend.ops.srcLen.toNat)
    (hb : Ends s.plat (s.srcRegion, noRegion) body) :
    Ends s.plat (s.srcRegion, noRegion) (afterAccesses [⟨s.pend.ops.srcAddr.toNat, n⟩] s body) := by
  refine ends_afterAccesses (fun r hr a ha => ?_) hb
  obtain rfl := List.mem_singleton.mp hr
  exact .inl (Region.contains_of_prefix hn ha)

theorem exec_ends {s : State} (h : Inv s) (i : Instr) : Ends s.plat (regionsOf i s) (exec i s) := by
  cases i with
  | cinit | dinit => exact ends_requireState fun _ => ends_requireConfig (.next _)
  | reinit =>
    refine ends_requireState fun _ => ?_
    split
    · exact ends_requireConfig (.next _)
    · exact .next _
  | compress final => exact ends_compress h final
  | decompress => exact ends_decompress s
  | hbuild => exact ends_hbuild s
  | close | treset c | tstat c | ralign | wput | ainit => exact ends_requireState fun _ => .next _
  | tcost c | tread c | wget => exact ends_requireState fun _ => ends_requireOperand fun _ => .next _
  | wsetup => exact ends_requireState fun _ => ends_requireRegion (.inr rfl) fun _ => .next _
  | rsetup => exact ends_requireState fun _ => ends_requireRegion (.inl rfl) fun _ => .next _
  | mfind =>
    exact ends_requireState fun _ => ends_requireRegion (.inl rfl) fun _ =>
      ends_sourceAccess (Nat.min_le_left _ _) (.next _)
  | aupdate =>
    exact ends_requireState fun _ => ends_requireRegion (.inl rfl) fun _ =>
      ends_sourceAccess (Nat.le_refl _) (.next _)
  | cost =>
    refine ends_requireState fun _ => ends_requireOperand fun hok => ends_requireRegion (.inl rfl) fun _ =>
      ends_sourceAccess ?_ (.next _)
    simp only [Bool.and_eq_true, decide_eq_true_eq] at hok
    obtain ⟨⟨⟨_, hlen⟩, _⟩, _⟩ := hok
    exact hlen
  | tenc c =>
    refine ends_requireState fun _ => ends_requireOperand fun _ => ends_finishStore h.wc fun u hu => ?_
    obtain ⟨e, hsym, rfl⟩ := map_ok hu
    exact sinkInside_rule.encSym hsym
  | putbits =>
    refine ends_requireState fun _ => ends_requireOperand fun _ => ends_finishStore h.wc fun u hu => ?_
    obtain ⟨k, hk, rfl⟩ := map_ok hu
    exact putbits_inside hk
  | wflush =>
    refine ends_requireState fun _ => ends_finishStore h.wc fun u hu => ?_
    obtain ⟨k, hk, rfl⟩ := map_ok hu
    exact flush_inside hk
  | tdec c =>
    exact ends_requireState fun _ => ends_finishRead h.rc (decSym_reads s.mem s.lcfg c ⟨s.rc, s.tab⟩) fun _ => rfl
  | getbits =>
    exact ends_requireState fun _ => ends_requireOperand fun _ =>
      ends_finishRead h.rc (getbits_reads s.mem s.pend.ops.arg0.toNat s.rc) fun _ => rfl

/-- The completion of the word in flight, decoded or ill-formed. -/
theorem completion_ends {s : State} (h : Inv s) : Ends s.plat s.flightRegions s.completion := by
  unfold State.completion State.flightRegions
  cases decode s.pend.cmd with
  | error e => exact .next _
  | ok i => exact exec_ends h i

/-- After a completion the engine is idle (40_command_model.md R404). -/
theorem completion_idle (s : State) : Yields (fun t => t.busy = false) s.completion :=
  yields_completion rfl fun i t h => by
    obtain ⟨_, _, _, rfl⟩ := (exec_completes i s t h).reported
    rfl

/-- Over regions without side effects there are two ways left. -/
theorem Ends.next_or_rejected {p : Config.Platform} {rs : Region × Region} {r : Result} (h : Ends p rs r)
    (hsrc : sideEffectRefusal p rs.1 = none) (hdst : sideEffectRefusal p rs.2 = none) :
    (∃ t, r = .next t) ∨ (r = .refused .busFault ∧ ∃ a, InRegions rs a ∧ busRejects p ⟨a, 1⟩ = true) := by
  cases h with
  | next t => exact .inl ⟨t, rfl⟩
  | rejected a hin hrej => exact .inr ⟨rfl, a, hin, hrej⟩
  | sideEffect x hx =>
    obtain hx | hx := hx
    · cases hsrc.symm.trans hx
    · cases hdst.symm.trans hx

/-! ## No step faults -/

/-- An outcome that is no fault. -/
def NoFault (r : Result) : Prop :=
  ∀ f, r ≠ .fault f

theorem noFault_next (t : State) : NoFault (.next t) := nofun

theorem noFault_refused (x : Refusal) : NoFault (.refused x) := nofun

theorem Ends.noFault {p : Config.Platform} {rs : Region × Region} {r : Result} (h : Ends p rs r) : NoFault r := by
  cases h <;> exact nofun

theorem noFault_unlessRefused {r : Option Refusal} {body : Result} (h : NoFault body) :
    NoFault (unlessRefused r body) := by
  cases r with
  | none => exact h
  | some x => exact noFault_refused x

theorem noFault_ite {c : Prop} [Decidable c] {x y : Result} (hx : NoFault x) (hy : NoFault y) :
    NoFault (if c then x else y) := by
  split
  · exact hx
  · exact hy

theorem engineTurn_noFault {s : State} (h : Inv s) : NoFault s.engineTurn :=
  noFault_ite (completion_ends h).noFault (noFault_next s)

theorem deliver_noFault {s : State} (h : Inv s) (e : Event) : NoFault (s.deliver e) := by
  cases e with
  | engine => exact engineTurn_noFault h
  | wait => exact noFault_next _
  | read bits offset | write bits offset v => exact noFault_ite (noFault_next _) (noFault_refused _)
  | clearAtCompletion v => exact engineTurn_noFault (h.congr rfl)
  | memRead a => exact noFault_unlessRefused (noFault_ite (noFault_next _) (noFault_next _))
  | memWrite a b => exact noFault_unlessRefused (noFault_ite (noFault_refused _) (noFault_next _))

theorem step_noFault {s : State} (h : Inv s) : NoFault (step s) := by
  unfold step State.turn
  split
  · exact engineTurn_noFault h
  · exact noFault_ite (completion_ends h).noFault (noFault_next _)
  · exact deliver_noFault (h.withInputs _) _

/-- Settles O8: over regions without side effects a completion ends in a next state or at a rejected byte, and no end is a fault. -/
theorem everyCommandCompletes : Obligations.EveryCommandCompletes := by
  unfold Obligations.EveryCommandCompletes
  refine ⟨fun s h _ hsrc hdst => ?_, fun s f h => step_noFault h f⟩
  obtain ⟨t, ht⟩ | ⟨hrefused, a, hin, hrej⟩ := (completion_ends h).next_or_rejected hsrc hdst
  · exact .inl ⟨t, ht, completion_idle s t ht⟩
  · exact .inr ⟨hrefused, a, hin, hrej⟩

end Sys2Proof.Machine
end

section
/-!
PROOFS. Laws of the bit strings the cursors stand for (20_memory.md R206, 41_bitstream.md R432, R440): their lengths, how they
split, and the bit the operations of R432 and R440 take out of a number.
-/

namespace Sys2Proof.Machine

open Sys2Proof.Safety

/-- The bit of a number that R432 and R440 compute by a shift and a mask. -/
theorem shiftRight_and_one (v i : Nat) : (v >>> i) &&& 1 = (v.testBit i).toNat := by
  rw [Nat.toNat_testBit, Nat.and_one_is_mod, Nat.shiftRight_eq_div_pow]

@[simp] theorem length_msbBits (n v : Nat) : (msbBits n v).length = n := by
  induction n with
  | zero => rfl
  | succ n ih => simp [msbBits, ih]

theorem getElem_msbBits {n i : Nat} (v : Nat) (h : i < (msbBits n v).length) :
    (msbBits n v)[i] = v.testBit (n - 1 - i) := by
  induction n generalizing i with
  | zero => simp at h
  | succ n ih =>
    cases i with
    | zero => simp [msbBits]
    | succ i =>
      have hexp : n + 1 - 1 - (i + 1) = n - 1 - i := by omega
      simp only [msbBits, List.getElem_cons_succ, ih, hexp]

/-- The bits of a number split at a place: the number shifted down, then its low bits. -/
theorem msbBits_add (n k v : Nat) : msbBits (n + k) v = msbBits n (v >>> k) ++ msbBits k v := by
  induction n with
  | zero => simp [msbBits]
  | succ n ih => rw [Nat.succ_add, msbBits, ih, msbBits, Nat.testBit_shiftRight, Nat.add_comm n k, List.cons_append]

/-- Only the low bits of the number count. -/
theorem msbBits_mod {n k : Nat} (v : Nat) (h : n ≤ k) : msbBits n (v % 2 ^ k) = msbBits n v := by
  induction n with
  | zero => rfl
  | succ n ih =>
    have hn : n < k := h
    rw [msbBits, msbBits, ih (Nat.le_of_succ_le h), Nat.testBit_mod_two_pow, decide_eq_true hn, Bool.true_and]

/-- A number appended below by one bit (41_bitstream.md R432). -/
theorem msbBits_append_bit (n v : Nat) (b : Bool) : msbBits (n + 1) ((v <<< 1) ||| b.toNat) = msbBits n v ++ [b] := by
  have hhigh : ((v <<< 1) ||| b.toNat) >>> 1 = v := by
    cases b <;> simp [Nat.shiftRight_or_distrib]
  have hlow : ((v <<< 1) ||| b.toNat).testBit 0 = b := by
    cases b <;> simp
  rw [msbBits_add, hhigh, msbBits, msbBits, hlow]

/-- The low bits of a number shifted up are zeros. -/
theorem msbBits_shiftLeft {n k : Nat} (v : Nat) (h : n ≤ k) : msbBits n (v <<< k) = List.replicate n false := by
  induction n with
  | zero => rfl
  | succ n ih =>
    have hk : ¬ k ≤ n := by omega
    rw [msbBits, ih (Nat.le_of_succ_le h), Nat.testBit_shiftLeft, decide_eq_false hk, Bool.false_and, List.replicate_succ]

/-- A number padded below with zero bits (41_bitstream.md R433). -/
theorem msbBits_pad (n k v : Nat) : msbBits (n + k) (v <<< k) = msbBits n v ++ List.replicate k false := by
  rw [msbBits_add, Nat.shiftLeft_shiftRight, msbBits_shiftLeft v (Nat.le_refl k)]

theorem bytesBits_cons (b : Byte) (bs : List Byte) : bytesBits (b :: bs) = msbBits 8 b.toNat ++ bytesBits bs := rfl

@[simp] theorem length_bytesBits (bs : List Byte) : (bytesBits bs).length = 8 * bs.length := by
  induction bs with
  | nil => rfl
  | cons b bs ih => rw [bytesBits_cons, List.length_append, length_msbBits, ih, List.length_cons, Nat.mul_succ, Nat.add_comm]

theorem bytesBits_append (bs cs : List Byte) : bytesBits (bs ++ cs) = bytesBits bs ++ bytesBits cs :=
  List.flatMap_append

/-- One byte more at the end. -/
theorem bytesBits_concat_ofNat (bs : List Byte) (v : Nat) :
    bytesBits (bs ++ [BitVec.ofNat 8 v]) = bytesBits bs ++ msbBits 8 v := by
  have hbyte : bytesBits [BitVec.ofNat 8 v] = msbBits 8 v := by
    rw [bytesBits_cons, BitVec.toNat_ofNat, msbBits_mod v (Nat.le_refl 8)]
    exact List.append_nil _
  rw [bytesBits_append, hbyte]

/-! ## Lists of bytes in memory (20_memory.md R204) -/

theorem Mem.readList_succ (a n : Nat) (m : Mem) : Mem.readList a (n + 1) m = Mem.readList a n m ++ [Mem.read (a + n) m] := by
  simp [Mem.readList, List.range_succ]

theorem Mem.readList_cons (a n : Nat) (m : Mem) : Mem.readList a (n + 1) m = Mem.read a m :: Mem.readList (a + 1) n m := by
  simp [Mem.readList, List.range_succ_eq_map, Nat.add_assoc, Nat.add_comm 1]

/-- A byte stored just after a list of bytes extends it. -/
theorem Mem.readList_write_end (a n : Nat) (b : Byte) {m : Mem} (hm : m.wf = true) :
    Mem.readList a (n + 1) (Mem.write (a + n) b m) = Mem.readList a n m ++ [b] := by
  have hbefore : Mem.readList a n (Mem.write (a + n) b m) = Mem.readList a n m :=
    Mem.readList_congr fun i hi => Mem.read_write_other b m (by omega)
  rw [Mem.readList_succ, hbefore, Mem.read_write_same _ _ hm]

end Sys2Proof.Machine
end

section
/-!
PROOFS. Writing through the cursor (41_bitstream.md R431 to R433, R445 to R447): `putbits` and `flush` append exactly their
bits to the bits written so far.
-/

namespace Sys2Proof.Machine

open Sys2Proof.Safety

/-! ## Appending bits -/

theorem wroteBits_refl {w : WCur} (m : Mem) (h : w.nacc < 8) : WroteBits [] w m w m where
  base := rfl
  cap := rfl
  pos := by simp only [List.length_nil]; omega
  nacc := by simp only [List.length_nil]; omega
  written := (List.append_nil _).symm
  outside _ _ := rfl

theorem wroteBits_trans {xs ys : List Bool} {w w' w'' : WCur} {m m' m'' : Mem} (h : WroteBits xs w m w' m')
    (h' : WroteBits ys w' m' w'' m'') : WroteBits (xs ++ ys) w m w'' m'' where
  base := h'.base.trans h.base
  cap := h'.cap.trans h.cap
  pos := by rw [h'.pos, h.pos, h.nacc, List.length_append]; omega
  nacc := by rw [h'.nacc, h.nacc, List.length_append]; omega
  written := by rw [h'.written, h.written, List.append_assoc]
  outside a ha := by
    have hpos := h.pos
    have hpos' := h'.pos
    have hbase := h.base
    rw [h'.outside a (by rw [hbase]; omega), h.outside a (by omega)]

/-- A byte stored at the position, which held the pending bits and those that complete it, leaves no pending bit. -/
theorem wroteBits_store_byte {bits : List Bool} {w : WCur} {m : Mem} {v : Nat} (hm : m.wf = true)
    (hlen : w.nacc + bits.length = 8) (hv : msbBits 8 v = msbBits w.nacc w.acc ++ bits) :
    WroteBits bits w m { w with pos := w.pos + 1, acc := 0, nacc := 0 }
      (Mem.write (w.base.toNat + w.pos) (BitVec.ofNat 8 v) m) where
  base := rfl
  cap := rfl
  pos := by rw [hlen]
  nacc := by rw [hlen]
  written := by
    unfold writtenBits
    dsimp only
    rw [Mem.readList_write_end _ _ _ hm, bytesBits_concat_ofNat, hv]
    simp only [msbBits, List.append_nil, List.append_assoc]
  outside a ha := Mem.read_write_other _ _ (by dsimp only at ha; omega)

/-- `putbit` appends one bit (41_bitstream.md R432). -/
theorem putbit_wrote (b : Bool) {k : Sink} (hn : k.wc.nacc < 8) (hm : k.mem.wf = true) :
    WroteBits [b] k.wc k.mem (putbit b.toNat k).wc (putbit b.toNat k).mem := by
  have hbits := msbBits_append_bit k.wc.nacc k.wc.acc b
  unfold putbit
  dsimp only
  split
  · rename_i hfull
    rw [hfull] at hbits
    exact wroteBits_store_byte hm hfull hbits
  · rename_i hroom
    exact {
      base := rfl
      cap := rfl
      pos := by dsimp only [List.length_singleton]; omega
      nacc := by dsimp only [List.length_singleton]; omega
      written := by simp only [writtenBits, hbits, List.append_assoc]
      outside := fun _ _ => rfl }

theorem putbitsLoop_wrote (n v : Nat) {k : Sink} (hn : k.wc.nacc < 8) (hm : k.mem.wf = true) :
    WroteBits (msbBits n v) k.wc k.mem (putbitsLoop n v k).wc (putbitsLoop n v k).mem := by
  induction n generalizing k with
  | zero => exact wroteBits_refl k.mem hn
  | succ n ih =>
    have hbit := putbit_wrote (v.testBit n) hn hm
    have hrest := ih (k := putbit (v.testBit n).toNat k) (by have := hbit.nacc; omega) ((putbit_step _ k).mem_wf hm)
    rw [putbitsLoop, shiftRight_and_one]
    exact wroteBits_trans hbit hrest

/-- With room for them `putbits` appends the n low bits of v, most significant first (41_bitstream.md R431, R432). -/
theorem putbits_wrote {n v : Nat} {k k' : Sink} (h : putbits n v k = .ok k') (hn : k.wc.nacc < 8) (hm : k.mem.wf = true) :
    WroteBits (msbBits n v) k.wc k.mem k'.wc k'.mem := by
  obtain ⟨_, rfl, _⟩ := putbits_ok h
  exact putbitsLoop_wrote n v hn hm

/-- `flush` appends zero bits up to a byte boundary (41_bitstream.md R433). -/
theorem flush_wrote {k k' : Sink} (h : flush k = .ok k') (hn : k.wc.nacc < 8) (hm : k.mem.wf = true) :
    WroteBits (List.replicate ((8 - k.wc.nacc) % 8) false) k.wc k.mem k'.wc k'.mem := by
  unfold flush at h
  split at h
  · rename_i hpending
    have hpad : (8 - k.wc.nacc) % 8 = 8 - k.wc.nacc := Nat.mod_eq_of_lt (by omega)
    have hlen : k.wc.nacc + (8 - k.wc.nacc) = 8 := by omega
    have hbyte := msbBits_pad k.wc.nacc (8 - k.wc.nacc) k.wc.acc
    rw [hlen, ← msbBits_mod _ (Nat.le_refl 8), ← Nat.and_two_pow_sub_one_eq_mod] at hbyte
    split at h
    · cases h
    · injection h with h
      subst h
      rw [hpad]
      exact wroteBits_store_byte hm (by rw [List.length_replicate, hlen]) hbyte
  · rename_i hnone
    injection h with h
    subst h
    have hzero : k.wc.nacc = 0 := by omega
    rw [hzero]
    exact wroteBits_refl k.mem hn

/-! ## The end of a primitive that writes (step 7) -/

/-- A primitive whose accesses through a legal cursor the platform allows goes on. -/
theorem requireCursor_allowed {accessed r : Region} {s : State} {body : Result} (hl : r.legal = true)
    (h : cursorAllows s r accessed) : requireCursor accessed r s body = body := by
  obtain hempty | ⟨hside, hbus⟩ := h
  · exact requireCursor_idle hempty
  · exact requireCursor_pass hl hside hbus

/-- A primitive that appended bits stores exactly the bytes of `storedBytes` (41_bitstream.md R432). -/
theorem finishStore_wrote {bits : List Bool} {s u : State} (hw : WCurOk s.wc) (h : WroteBits bits s.wc s.mem u.wc u.mem)
    (ha : cursorAllows s s.wcRegion (storedBytes bits.length s.wc)) : finishStore (.ok u) s = .next (u.complete .ok) := by
  have hstored : (⟨s.wc.base.toNat + s.wc.pos, u.wc.pos - s.wc.pos⟩ : Region) = storedBytes bits.length s.wc := by
    rw [storedBytes, h.pos, Nat.add_sub_cancel_left]
  exact requireCursor_allowed (Region.legal_of_end_le hw.legal) (hstored.symm ▸ ha)

/-! ## The commands -/

/-- PUTBITS in READY with at most 32 bits goes past its checks. -/
theorem exec_putbits_ready {s : State} (hr : s.isReady = true) (hn : s.pend.ops.arg0.toNat ≤ 32) :
    exec .putbits s =
      finishStore ((putbits s.pend.ops.arg0.toNat s.pend.ops.arg1.toNat ⟨s.wc, s.mem⟩).map (fun k => s.withSink k)) s :=
  (requireState_ready hr).trans (requireOperand_pass (decide_eq_true hn))

/-- WFLUSH in READY goes past its check. -/
theorem exec_wflush_ready {s : State} (hr : s.isReady = true) :
    exec .wflush s = finishStore ((flush ⟨s.wc, s.mem⟩).map
      (fun k => { s.withSink k with result := BitVec.ofNat 32 k.wc.pos })) s :=
  requireState_ready hr

/-- Settles O42: with room, `putbits` appends its bits and the command ends; without, it ends before any store. -/
theorem putbitsAppends : Obligations.PutbitsAppends := by
  unfold Obligations.PutbitsAppends
  rintro s n hr hw hm rfl hn
  rw [exec_putbits_ready hr hn]
  cases hput : putbits s.pend.ops.arg0.toNat s.pend.ops.arg1.toNat ⟨s.wc, s.mem⟩ with
  | ok k =>
    obtain ⟨hroom, _, _⟩ := putbits_ok hput
    have hfits := of_decide_eq_true hroom
    have hwrote := putbits_wrote hput hw.nacc_lt hm
    refine ⟨fun _ hallow => ?_, fun hfull => absurd hfits (Nat.not_le.mpr hfull)⟩
    have hend := finishStore_wrote (u := s.withSink k) hw hwrote (by rwa [length_msbBits])
    exact ⟨_, hend, rfl, hwrote, putbits_wcOk hput hw⟩
  | error e =>
    obtain ⟨_, hroom⟩ := putbits_error hput
    have hfull := of_decide_eq_false hroom
    exact ⟨fun hfits => absurd hfits hfull, fun _ => rfl⟩

/-- Settles O43: with a byte of room, or no pending bit, `flush` pads; with pending bits at the end it ends before any store. -/
theorem wflushPads : Obligations.WflushPads := by
  unfold Obligations.WflushPads
  intro s hr hw hm
  rw [exec_wflush_ready hr]
  cases hflush : flush ⟨s.wc, s.mem⟩ with
  | ok k =>
    obtain ⟨_, hnacc, _, hroom⟩ := flush_ok hflush
    have hwrote := flush_wrote hflush hw.nacc_lt hm
    refine ⟨fun _ hallow => ?_, fun ⟨hpending, hend⟩ => ?_⟩
    · have hend := finishStore_wrote (u := { s.withSink k with result := BitVec.ofNat 32 k.wc.pos }) hw hwrote
        (by rwa [List.length_replicate])
      exact ⟨_, hend, rfl, hwrote, hnacc.trans (ite_eq_right_iff.mpr id)⟩
    · have hspace := hroom hpending
      dsimp only at hspace
      omega
  | error e =>
    obtain ⟨_, hpending, hfull⟩ := flush_error hflush
    dsimp only at hpending hfull
    exact ⟨fun hroom _ => by omega, fun _ => rfl⟩

end Sys2Proof.Machine
end

section
/-!
PROOFS. Reading through the cursor (41_bitstream.md R440, R441, R445, R448 to R450): `getbits` takes the next unread bits as a
number, and `align` skips to a byte boundary; and the setup of either cursor.
-/

namespace Sys2Proof.Machine

open Sys2Proof.Safety

/-! ## The unread bits and the cursor -/

theorem length_unreadBits (r : RCur) (m : Mem) : (unreadBits r m).length = r.unread := by
  simp [unreadBits, RCur.unread]

theorem rcurOk_bit_lt {r : RCur} (h : RCurOk r) : r.bit < 8 := by
  have hplace := h.place
  omega

@[simp] theorem advanceRead_zero {r : RCur} (h : r.bit < 8) : advanceRead 0 r = r := by
  have hpos : r.pos + (r.bit + 0) / 8 = r.pos := by omega
  have hbit : (r.bit + 0) % 8 = r.bit := by omega
  simp only [advanceRead, hpos, hbit]

theorem advanceRead_advanceRead (j n : Nat) (r : RCur) : advanceRead n (advanceRead j r) = advanceRead (j + n) r := by
  have hpos : r.pos + (r.bit + j) / 8 + ((r.bit + j) % 8 + n) / 8 = r.pos + (r.bit + (j + n)) / 8 := by omega
  have hbit : ((r.bit + j) % 8 + n) % 8 = (r.bit + (j + n)) % 8 := by omega
  simp only [advanceRead, hpos, hbit]

/-- Up to the next byte boundary. -/
theorem advanceRead_to_boundary {j : Nat} {r : RCur} (h : r.bit + j = 8) :
    advanceRead j r = { r with pos := r.pos + 1, bit := 0 } := by
  simp only [advanceRead, h]

/-- Inside a byte. -/
theorem advanceRead_inside {j : Nat} {r : RCur} (h : r.bit + j < 8) : advanceRead j r = { r with bit := r.bit + j } := by
  simp only [advanceRead, Nat.div_eq_of_lt h, Nat.mod_eq_of_lt h, Nat.add_zero]

/-- A step of `getbit` moves the cursor by one bit (41_bitstream.md R440). -/
theorem takeBit_cursor (m : Mem) {r : RCur} (h : r.bit < 8) : (takeBit m r).2 = advanceRead 1 r := by
  unfold takeBit
  dsimp only
  split
  · rename_i hlast
    exact (advanceRead_to_boundary hlast).symm
  · exact (advanceRead_inside (by omega)).symm

/-- The bit taken, from the byte at the position (41_bitstream.md R440). -/
theorem takeBit_bit (m : Mem) (r : RCur) :
    (takeBit m r).1 = ((Mem.read (r.base.toNat + r.pos) m).toNat.testBit (7 - r.bit)).toNat := by
  rw [← shiftRight_and_one]
  unfold takeBit
  dsimp only
  split <;> rfl

/-- Inside the region the unread bits are the rest of the byte at the position, then those of the bytes after it. -/
theorem unreadBits_at_byte {r : RCur} (m : Mem) (hpos : r.pos < r.len.toNat) (hbit : r.bit ≤ 8) :
    unreadBits r m = (msbBits 8 (Mem.read (r.base.toNat + r.pos) m).toNat).drop r.bit ++
      unreadBits { r with pos := r.pos + 1, bit := 0 } m := by
  have hcount : r.len.toNat - r.pos = r.len.toNat - (r.pos + 1) + 1 := by omega
  unfold unreadBits
  dsimp only
  rw [hcount, Mem.readList_cons, bytesBits_cons, List.drop_append_of_le_length (by rwa [length_msbBits]),
    List.drop_zero, Nat.add_assoc]

/-- The first unread bit is the one `getbit` takes, and the others stay unread (41_bitstream.md R440). -/
theorem unreadBits_eq_cons {r : RCur} (m : Mem) (h : RCurOk r) (hu : 1 ≤ r.unread) :
    unreadBits r m = (Mem.read (r.base.toNat + r.pos) m).toNat.testBit (7 - r.bit) :: unreadBits (advanceRead 1 r) m := by
  have hbit := rcurOk_bit_lt h
  have hpos : r.pos < r.len.toNat := by
    unfold RCur.unread at hu
    omega
  have hin : r.bit < (msbBits 8 (Mem.read (r.base.toNat + r.pos) m).toNat).length := by rwa [length_msbBits]
  rw [unreadBits_at_byte m hpos hbit.le, List.drop_eq_getElem_cons hin, getElem_msbBits, List.cons_append]
  congr 1
  by_cases hlast : r.bit + 1 = 8
  · rw [advanceRead_to_boundary hlast, hlast, List.drop_eq_nil_of_le (length_msbBits ..).le, List.nil_append]
  · have hinside : r.bit + 1 < 8 := by omega
    rw [advanceRead_inside hinside, unreadBits_at_byte (r := { r with bit := r.bit + 1 }) m hpos hinside.le]

/-- A bit appended below a number (41_bitstream.md R440). -/
theorem shiftLeft_or_bit (v : Nat) (b : Bool) : (v <<< 1) ||| b.toNat = 2 * v + b.toNat := by
  rw [← Nat.shiftLeft_add_eq_or_of_lt (Bool.toNat_lt b), Nat.shiftLeft_eq, Nat.pow_one, Nat.mul_comm]

/-- The loop of `getbits` appends the next unread bits below the value so far and moves by as many bits. -/
theorem getbitsLoop_eq (m : Mem) (n v : Nat) {r : RCur} (h : RCurOk r) (hu : n ≤ r.unread) :
    getbitsLoop m n v r =
      (((unreadBits r m).take n).foldl (fun v b => 2 * v + b.toNat) v, advanceRead n r) := by
  induction n generalizing v r with
  | zero => rw [advanceRead_zero (rcurOk_bit_lt h)]; rfl
  | succ n ih =>
    obtain ⟨hok, hunread, _⟩ := takeBit_rcOk (m := m) h (by omega)
    rw [takeBit_cursor m (rcurOk_bit_lt h)] at hok hunread
    rw [getbitsLoop, takeBit_bit, takeBit_cursor m (rcurOk_bit_lt h), shiftLeft_or_bit, ih _ hok (by omega),
      unreadBits_eq_cons m h (by omega), List.take_succ_cons, List.foldl_cons, advanceRead_advanceRead, Nat.add_comm 1 n]

/-- `getbits` gives the value of the next n unread bits and moves the cursor by n bits (41_bitstream.md R440). -/
theorem getbits_reads_bits {m : Mem} {n : Nat} {r : RCur} {p : Nat × RCur} (h : getbits m n r = .ok p) (hr : RCurOk r) :
    p = (bitsValue ((unreadBits r m).take n), advanceRead n r) := by
  obtain ⟨hu, rfl⟩ := getbits_ok h
  exact getbitsLoop_eq m n 0 hr hu

/-- `align` moves to the next byte boundary, by no bit when it stands at one (41_bitstream.md R441). -/
theorem align_eq {r : RCur} (h : r.bit < 8) : align r = ((8 - r.bit) % 8, advanceRead ((8 - r.bit) % 8) r) := by
  unfold align
  split
  · rename_i hzero
    have hskip : (8 - r.bit) % 8 = 0 := by omega
    rw [hskip, advanceRead_zero h]
  · have hskip : (8 - r.bit) % 8 = 8 - r.bit := by omega
    rw [hskip, advanceRead_to_boundary (by omega)]

/-! ## The end of a primitive that reads (step 7) -/

@[simp] theorem readTo_self (r : RCur) : (r.readTo r).len = 0 := if_pos rfl

/-- The bytes read on the way over n bits are exactly those of `readBytes` (41_bitstream.md R440). -/
theorem readTo_advanceRead (n : Nat) {r : RCur} (h : r.bit < 8) : r.readTo (advanceRead n r) = readBytes n r := by
  by_cases hn : n = 0
  · subst hn
    simp [RCur.readTo, readBytes, h]
  · have hmoved : advanceRead n r ≠ r := fun heq => by
      have hpos : r.pos + (r.bit + n) / 8 = r.pos := congrArg RCur.pos heq
      have hbit : (r.bit + n) % 8 = r.bit := congrArg RCur.bit heq
      omega
    have hcount : r.pos + (r.bit + n) / 8 + (if (r.bit + n) % 8 = 0 then 0 else 1) - r.pos = (r.bit + n + 7) / 8 := by
      split <;> omega
    simp only [RCur.readTo, readBytes, if_neg hn, if_neg hmoved]
    exact congrArg (Region.mk _) hcount

/-- A primitive that moved the cursor over n bits reads exactly the bytes of `readBytes`. -/
theorem finishRead_advanced {n : Nat} {s u : State} (hr : RCurOk s.rc) (hu : u.rc = advanceRead n s.rc)
    (ha : cursorAllows s s.rcRegion (readBytes n s.rc)) : finishRead (.ok u) s = .next (u.complete .ok) := by
  have hread : s.rc.readTo u.rc = readBytes n s.rc := by rw [hu, readTo_advanceRead n (rcurOk_bit_lt hr)]
  exact requireCursor_allowed (Region.legal_of_end_le hr.legal) (hread ▸ ha)

/-- A primitive that stopped before it read a bit accesses nothing. -/
theorem finishRead_unmoved {code : ErrCode} {s : State} : finishRead (.error ⟨code, s.rc⟩) s = .next (s.complete code) :=
  requireCursor_idle (readTo_self s.rc)

/-! ## The commands -/

/-- GETBITS in READY with at most 32 bits goes past its checks. -/
theorem exec_getbits_ready {s : State} (hr : s.isReady = true) (hn : s.pend.ops.arg0.toNat ≤ 32) :
    exec .getbits s = finishRead ((getbits s.mem s.pend.ops.arg0.toNat s.rc).map
      (fun p => { s with res0 := BitVec.ofNat 32 p.1, rc := p.2 })) s :=
  (requireState_ready hr).trans (requireOperand_pass (decide_eq_true hn))

/-- Settles O44: `getbits` either takes the next bits, and the command ends, or stops before it reads one. -/
theorem getbitsReads : Obligations.GetbitsReads := by
  unfold Obligations.GetbitsReads
  rintro s n hr hrc rfl hn
  rw [exec_getbits_ready hr hn, length_unreadBits]
  cases hget : getbits s.mem s.pend.ops.arg0.toNat s.rc with
  | ok p =>
    obtain ⟨hunread, _⟩ := getbits_ok hget
    obtain rfl := getbits_reads_bits hget hrc
    exact ⟨fun _ hallow => finishRead_advanced hrc rfl hallow, fun hfew => absurd hunread (Nat.not_le.mpr hfew)⟩
  | error e =>
    obtain ⟨rfl, hfew⟩ := getbits_error hget
    exact ⟨fun hunread => absurd hunread (Nat.not_le.mpr hfew), fun _ => finishRead_unmoved⟩

/-- Settles O41: in READY a legal region without side effects passes its check, and the cursor is set up. -/
theorem cursorSetupCompletes : Obligations.CursorSetupCompletes := by
  unfold Obligations.CursorSetupCompletes
  exact fun s hr =>
    ⟨fun hend hside => (requireState_ready hr).trans (requireRegion_pass (Region.legal_of_end_le hend) hside),
      fun hend hside => (requireState_ready hr).trans (requireRegion_pass (Region.legal_of_end_le hend) hside)⟩

/-- Settles O45: `align` is a move of the cursor by the bits that are left of its byte, which ends at a boundary. -/
theorem ralignSkips : Obligations.RalignSkips := by
  unfold Obligations.RalignSkips
  intro s hr hrc
  have hbit := rcurOk_bit_lt hrc
  have hboundary : (s.rc.bit + (8 - s.rc.bit) % 8) % 8 = 0 := by omega
  refine ⟨?_, hboundary⟩
  have hexec : exec .ralign s = .next (State.complete .ok
      { s with res0 := BitVec.ofNat 32 (align s.rc).1, rc := (align s.rc).2 }) := requireState_ready hr
  rw [hexec, align_eq hbit]

end Sys2Proof.Machine
end

section
/-!
PROOFS. The Checksum Accumulator (42_checksum.md R460, R461, R470, R471): `adler_update` is a fold over the two halves of the
running value, which fit their 16 bits, so that folds compose; and AINIT and AUPDATE write ADLER alone.
-/

namespace Sys2Proof.Machine

open Sys2Proof.Safety

/-! ## The two halves of the running value (42_checksum.md R460) -/

/-- A (bits [15:0]) and B (bits [31:16]) of a running value, as the loop of R460 starts from them. -/
def adlerHalves (v : Word) : Nat × Nat :=
  (v.toNat % 65536, v.toNat / 65536)

/-- The running value with the given A and B, as the loop of R460 returns it. -/
def adlerPack (p : Nat × Nat) : Word :=
  BitVec.ofNat 32 (p.2 * 65536 + p.1)

/-- Both halves are below a bound: 65536 for those of any word, 65521 for those of R461. -/
def AdlerBelow (n : Nat) (p : Nat × Nat) : Prop :=
  p.1 < n ∧ p.2 < n

theorem adlerUpdate_eq (v : Word) (s : List Byte) :
    adlerUpdate v s = adlerPack (s.foldl adlerStep (adlerHalves v)) := rfl

theorem adlerHalves_below (v : Word) : AdlerBelow 65536 (adlerHalves v) :=
  ⟨Nat.mod_lt _ (by decide), Nat.div_lt_of_lt_mul v.isLt⟩

theorem adlerPack_adlerHalves (v : Word) : adlerPack (adlerHalves v) = v := by
  have hsplit : v.toNat / 65536 * 65536 + v.toNat % 65536 = v.toNat := Nat.div_add_mod' ..
  unfold adlerPack adlerHalves
  rw [hsplit, BitVec.ofNat_toNat, BitVec.setWidth_eq]

theorem toNat_adlerPack {p : Nat × Nat} (h : AdlerBelow 65536 p) : (adlerPack p).toNat = p.2 * 65536 + p.1 := by
  obtain ⟨hA, hB⟩ := h
  exact BitVec.toNat_ofNat .. |>.trans (Nat.mod_eq_of_lt (by omega))

theorem adlerHalves_adlerPack {p : Nat × Nat} (h : AdlerBelow 65536 p) : adlerHalves (adlerPack p) = p := by
  unfold adlerHalves
  rw [toNat_adlerPack h]
  obtain ⟨hA, _⟩ := h
  exact Prod.ext (by dsimp only; omega) (by dsimp only; omega)

/-! ## The loop of `adler_update` -/

/-- One byte leaves both halves below the modulus, whatever they were (42_checksum.md R460). -/
theorem adlerStep_below (p : Nat × Nat) (b : Byte) : AdlerBelow 65521 (adlerStep p b) :=
  ⟨Nat.mod_lt _ (by decide), Nat.mod_lt _ (by decide)⟩

/-- The loop keeps both halves below any bound that is not below the modulus. -/
theorem foldl_adlerStep_below {n : Nat} (hn : 65521 ≤ n) (s : List Byte) {p : Nat × Nat} (h : AdlerBelow n p) :
    AdlerBelow n (s.foldl adlerStep p) := by
  induction s generalizing p with
  | nil => exact h
  | cons b s ih =>
    obtain ⟨hA, hB⟩ := adlerStep_below p b
    exact ih ⟨hA.trans_le hn, hB.trans_le hn⟩

/-- The halves of the result are those the loop ends with: the packing into a word loses nothing. -/
theorem adlerHalves_adlerUpdate (v : Word) (s : List Byte) :
    adlerHalves (adlerUpdate v s) = s.foldl adlerStep (adlerHalves v) :=
  adlerHalves_adlerPack (foldl_adlerStep_below (by decide) s (adlerHalves_below v))

theorem adlerUpdate_nil (v : Word) : adlerUpdate v [] = v :=
  adlerPack_adlerHalves v

theorem adlerUpdate_adlerUpdate (v : Word) (s t : List Byte) :
    adlerUpdate (adlerUpdate v s) t = adlerUpdate v (s ++ t) := by
  rw [adlerUpdate_eq _ t, adlerHalves_adlerUpdate, ← List.foldl_append, ← adlerUpdate_eq]

theorem adlerUpdate_below {v : Word} (s : List Byte) (h : AdlerBelow 65521 (adlerHalves v)) :
    AdlerBelow 65521 (adlerHalves (adlerUpdate v s)) :=
  adlerHalves_adlerUpdate v s ▸ foldl_adlerStep_below le_rfl s h

/-- The two halves as bit ranges of the word. -/
theorem extractLsb'_adlerHalves (v : Word) :
    v.extractLsb' 0 16 = BitVec.ofNat 16 (adlerHalves v).1 ∧
      v.extractLsb' 16 16 = BitVec.ofNat 16 (adlerHalves v).2 := by
  unfold adlerHalves
  exact ⟨extractLsb'_of_digit (by dsimp only; omega), extractLsb'_of_digit (by dsimp only; omega)⟩

/-- One byte: the two assignments in the loop of R460. -/
theorem adlerHalves_adlerUpdate_singleton (v : Word) (b : Byte) :
    adlerHalves (adlerUpdate v [b]) = adlerStep (adlerHalves v) b :=
  adlerHalves_adlerUpdate v [b]

/-- Settles O59: `adler_update` is a left fold over its halves, each of which the packing keeps. -/
theorem adlerFolds : Obligations.AdlerFolds := by
  unfold Obligations.AdlerFolds
  refine ⟨adlerUpdate_nil, adlerUpdate_adlerUpdate, fun v b => ?_, fun v s hA hB => adlerUpdate_below s ⟨hA, hB⟩⟩
  obtain ⟨hA, hB⟩ := extractLsb'_adlerHalves (adlerUpdate v [b])
  rw [adlerHalves_adlerUpdate_singleton] at hA hB
  exact ⟨hA, hB⟩

/-! ## The commands -/

/-- AUPDATE in READY over a nameable source that the bus allows goes past its checks (42_checksum.md R471). -/
theorem exec_aupdate_ready {s : State} (hr : s.isReady = true) (hsrc : nameable s s.srcRegion)
    (hbus : busAllows s [s.srcRegion]) :
    exec .aupdate s = .next (State.complete .ok { s with
      adler := adlerUpdate s.adler (Mem.readList s.pend.ops.srcAddr.toNat s.pend.ops.srcLen.toNat s.mem) }) := by
  obtain ⟨hlegal, hside⟩ := hsrc
  calc exec .aupdate s
      = execAupdate s := rfl
    _ = requireRegion s.srcRegion s _ := requireState_ready hr
    _ = afterAccesses [s.srcRegion] s _ := requireRegion_pass hlegal hside
    _ = _ := afterAccesses_pass hbus

/-- Settles O58: in READY both commands pass their checks and end with ADLER written. -/
theorem checksumCommandsComplete : Obligations.ChecksumCommandsComplete := by
  unfold Obligations.ChecksumCommandsComplete
  intro s hr
  have hainit : exec .ainit s = .next (State.complete .ok { s with adler := 0x00000001 }) := requireState_ready hr
  refine ⟨hainit, ?_⟩
  rintro hsrc hbus bytes rfl
  exact exec_aupdate_ready hr hsrc hbus

end Sys2Proof.Machine
end

section
/-!
PROOFS. The lengths of one Huffman pass (43_prefix_code.md R481, R482, R484): the merging loop ends with one tree over the
present symbols, whose leaf depths meet the Kraft equality, and the lengths are these depths.
-/

namespace Sys2Proof.Machine

open Sys2Proof.Safety

/-! ## The present symbols (43_prefix_code.md R481) -/

/-- An entry that is not the default stands in the list. -/
theorem lt_length_of_pos_getD {f : List Nat} {i : Nat} (h : 0 < f.getD i 0) : i < f.length := by
  by_contra hi
  rw [List.getD_eq_default _ _ (by omega)] at h
  exact Nat.lt_irrefl 0 h

theorem getD_mem_of_pos {l : List Nat} {i : Nat} (h : 0 < l.getD i 0) : l.getD i 0 ∈ l := by
  have hlt := lt_length_of_pos_getD h
  exact List.getD_eq_getElem _ _ hlt ▸ List.getElem_mem hlt

/-- The ids of the present symbols, rising. -/
def presentSymbols (f : List Nat) : List Nat :=
  (presentFrom 0 f).map Prod.snd

theorem presentFrom_eq_filter (k : Nat) (f : List Nat) :
    presentFrom k f = (f.zipIdx k).filter (fun p => decide (0 < p.1)) := by
  induction f generalizing k with
  | nil => rfl
  | cons w f ih =>
    rw [presentFrom, List.zipIdx_cons, List.filter_cons, ih]
    by_cases hw : w = 0
    · simp [hw]
    · simp [hw, Nat.pos_of_ne_zero hw]

theorem mem_presentSymbols {f : List Nat} {i : Nat} : i ∈ presentSymbols f ↔ 0 < f.getD i 0 := by
  simp only [presentSymbols, presentFrom_eq_filter, List.mem_map, List.mem_filter, List.mem_zipIdx_iff_getElem?,
    Prod.exists, decide_eq_true_eq, exists_eq_right, List.getD_eq_getElem?_getD]
  cases f[i]? with
  | none => simp
  | some w => simp

theorem nodup_presentSymbols (f : List Nat) : (presentSymbols f).Nodup := by
  rw [presentSymbols, presentFrom_eq_filter]
  have hall : ((f.zipIdx 0).map Prod.snd).Nodup := by
    rw [List.zipIdx_map_snd]
    exact List.nodup_range' ..
  exact (List.filter_sublist.map Prod.snd).nodup hall

theorem length_presentSymbols (f : List Nat) : (presentSymbols f).length = presentCount f := by
  have hmap : f = (f.zipIdx 0).map Prod.fst := (List.zipIdx_map_fst ..).symm
  rw [presentSymbols, presentCount, presentFrom_eq_filter, List.length_map]
  conv_rhs => rw [hmap, List.filter_map, List.length_map]
  rfl

/-! ## Trees (43_prefix_code.md R482) -/

/-- The symbols at the leaves, left to right. -/
def HTree.syms : HTree → List Nat
  | .leaf s => [s]
  | .node l r => l.syms ++ r.syms

/-- The depth of the deepest leaf below the root. -/
def HTree.height : HTree → Nat
  | .leaf _ => 0
  | .node l r => max l.height r.height + 1

/-- Each leaf has one depth. -/
theorem HTree.map_fst_depths (t : HTree) (d : Nat) : (t.depths d).map Prod.fst = t.syms := by
  induction t generalizing d with
  | leaf s => rfl
  | node l r ihl ihr => rw [HTree.depths, List.map_append, ihl, ihr, HTree.syms]

theorem HTree.exists_depth (t : HTree) (d : Nat) : ∃ p, p ∈ t.depths d := by
  induction t generalizing d with
  | leaf s => exact ⟨_, List.mem_singleton_self _⟩
  | node l r ihl _ =>
    obtain ⟨p, hp⟩ := ihl (d + 1)
    exact ⟨p, List.mem_append_left _ hp⟩

theorem HTree.depth_ge {t : HTree} {d : Nat} {p : Nat × Nat} (h : p ∈ t.depths d) : d ≤ p.2 := by
  induction t generalizing d with
  | leaf s => exact (List.mem_singleton.mp h) ▸ le_rfl
  | node l r ihl ihr =>
    rcases List.mem_append.mp h with h | h
    · exact Nat.le_of_succ_le (ihl h)
    · exact Nat.le_of_succ_le (ihr h)

theorem HTree.depth_le {t : HTree} {d : Nat} {p : Nat × Nat} (h : p ∈ t.depths d) : p.2 ≤ d + t.height := by
  induction t generalizing d with
  | leaf s => exact (List.mem_singleton.mp h) ▸ le_rfl
  | node l r ihl ihr =>
    rw [HTree.height]
    rcases List.mem_append.mp h with h | h
    · have := ihl h; omega
    · have := ihr h; omega

/-- A leaf of a tree with two leaves or more lies below the root. -/
theorem HTree.depth_pos {t : HTree} (ht : 2 ≤ t.syms.length) {d : Nat} {p : Nat × Nat} (h : p ∈ t.depths d) :
    d < p.2 := by
  cases t with
  | leaf s => exact absurd ht (by simp [HTree.syms])
  | node l r =>
    rcases List.mem_append.mp h with h | h
    · exact HTree.depth_ge h
    · exact HTree.depth_ge h

/-- The Kraft equality of a tree: the leaves share out the root's part of the code space (43_prefix_code.md R484 (a)). -/
theorem HTree.kraft {t : HTree} {d K : Nat} (h : ∀ p ∈ t.depths d, p.2 ≤ K) :
    ((t.depths d).map (fun p => 2 ^ (K - p.2))).sum = 2 ^ (K - d) := by
  induction t generalizing d with
  | leaf s => simp [HTree.depths]
  | node l r ihl ihr =>
    simp only [HTree.depths, List.mem_append] at h
    have hl := ihl (d := d + 1) fun p hp => h p (.inl hp)
    have hr := ihr (d := d + 1) fun p hp => h p (.inr hp)
    have hd : d < K := by
      obtain ⟨p, hp⟩ := l.exists_depth (d + 1)
      exact (HTree.depth_ge hp).trans (h p (.inl hp))
    have hsucc : K - d = K - (d + 1) + 1 := by omega
    rw [HTree.depths, List.map_append, List.sum_append, hl, hr, hsucc, pow_succ]
    omega

/-! ## The two queues (43_prefix_code.md R482) -/

/-- Lightest first. -/
def ByWeight (l : List HItem) : Prop :=
  l.Pairwise (fun p q => p.1 ≤ q.1)

theorem takeLightest_none {ps qs : List HItem} : takeLightest ps qs = none ↔ ps = [] ∧ qs = [] := by
  unfold takeLightest
  split
  · simp
  · simp
  · simp
  · split <;> simp

/-- Everything `take()` can answer: the head of one queue, not heavier than the head of the other. -/
theorem takeLightest_some {ps qs ps' qs' : List HItem} {a : HItem} (h : takeLightest ps qs = some (a, ps', qs')) :
    (ps = a :: ps' ∧ qs = qs' ∧ ∀ q ∈ qs.head?, a.1 ≤ q.1) ∨
    (ps = ps' ∧ qs = a :: qs' ∧ ∀ p ∈ ps.head?, a.1 ≤ p.1) := by
  unfold takeLightest at h
  split at h
  · cases h
  · cases h; simp
  · cases h; simp
  · split at h
    · rename_i hle
      cases h
      exact .inl ⟨rfl, rfl, by simpa using hle⟩
    · rename_i hlt
      cases h
      exact .inr ⟨rfl, rfl, by simpa using Nat.le_of_not_le hlt⟩

theorem takeLightest_perm {ps qs ps' qs' : List HItem} {a : HItem} (h : takeLightest ps qs = some (a, ps', qs')) :
    (ps ++ qs).Perm (a :: (ps' ++ qs')) := by
  obtain ⟨rfl, rfl, _⟩ | ⟨rfl, rfl, _⟩ := takeLightest_some h
  · exact .refl _
  · exact List.perm_middle

/-- No item is lighter than a head that is not heavier than the first. -/
theorem ByWeight.le_of_head {l : List HItem} (hl : ByWeight l) {w : Nat} (h : ∀ q ∈ l.head?, w ≤ q.1) :
    ∀ q ∈ l, w ≤ q.1 := by
  cases l with
  | nil => simp
  | cons x l =>
    have hx : w ≤ x.1 := h x rfl
    intro q hq
    rcases List.mem_cons.mp hq with rfl | hq
    · exact hx
    · exact hx.trans (List.rel_of_pairwise_cons hl hq)

/-- From queues in order, `take()` takes an item lightest of all and leaves queues in order. -/
theorem takeLightest_byWeight {ps qs ps' qs' : List HItem} {a : HItem} (h : takeLightest ps qs = some (a, ps', qs'))
    (hps : ByWeight ps) (hqs : ByWeight qs) :
    ByWeight ps' ∧ ByWeight qs' ∧ ∀ x ∈ ps' ++ qs', a.1 ≤ x.1 := by
  simp only [List.mem_append]
  obtain ⟨rfl, rfl, hq⟩ | ⟨rfl, rfl, hp⟩ := takeLightest_some h
  · exact ⟨hps.of_cons, hqs, fun x hx => hx.elim (List.rel_of_pairwise_cons hps) (hqs.le_of_head hq x)⟩
  · exact ⟨hps, hqs.of_cons, fun x hx => hx.elim (hps.le_of_head hp x) (List.rel_of_pairwise_cons hqs)⟩

/-- What every round of the merging loop keeps, the last item left has; and with as many rounds as items one is left. -/
theorem mergeLoop_rule {I : List HItem → List HItem → Prop}
    (hstep : ∀ {ps qs ps1 qs1 ps2 qs2 : List HItem} {a b : HItem}, I ps qs → takeLightest ps qs = some (a, ps1, qs1) →
      takeLightest ps1 qs1 = some (b, ps2, qs2) → I ps2 (qs2 ++ [(a.1 + b.1, HTree.node a.2 b.2)]))
    {n : Nat} {ps qs : List HItem} (hI : I ps qs) (hpos : 0 < (ps ++ qs).length) (hn : (ps ++ qs).length ≤ n) :
    ∃ (a : HItem) (ps' qs' : List HItem), mergeLoop n ps qs = some a.2 ∧ I ps' qs' ∧ (ps' ++ qs').Perm [a] := by
  induction n generalizing ps qs with
  | zero => omega
  | succ n ih =>
    rw [mergeLoop]
    cases h1 : takeLightest ps qs with
    | none =>
      obtain ⟨rfl, rfl⟩ := takeLightest_none.mp h1
      exact absurd hpos (Nat.lt_irrefl 0)
    | some x =>
      obtain ⟨a, ps1, qs1⟩ := x
      have hlen1 := (takeLightest_perm h1).length_eq
      dsimp only
      cases h2 : takeLightest ps1 qs1 with
      | none =>
        obtain ⟨rfl, rfl⟩ := takeLightest_none.mp h2
        exact ⟨a, ps, qs, rfl, hI, takeLightest_perm h1⟩
      | some y =>
        obtain ⟨b, ps2, qs2⟩ := y
        have hlen2 := (takeLightest_perm h2).length_eq
        simp only [List.length_append, List.length_cons] at hlen1 hlen2 hn
        exact ih (hstep hI h1 h2) (by simp) (by simp only [List.length_append, List.length_singleton]; omega)

/-- The symbols of all trees of the two queues. -/
def queueSyms (l : List HItem) : List Nat :=
  l.flatMap (fun a => a.2.syms)

/-- A round of the merging loop keeps the symbols. -/
theorem queueSyms_merge {ps qs ps1 qs1 ps2 qs2 : List HItem} {a b : HItem}
    (h1 : takeLightest ps qs = some (a, ps1, qs1)) (h2 : takeLightest ps1 qs1 = some (b, ps2, qs2)) :
    (queueSyms (ps2 ++ (qs2 ++ [(a.1 + b.1, HTree.node a.2 b.2)]))).Perm (queueSyms (ps ++ qs)) := by
  have hall : (ps ++ qs).Perm (a :: b :: (ps2 ++ qs2)) := (takeLightest_perm h1).trans ((takeLightest_perm h2).cons a)
  refine .trans ?_ (hall.symm.flatMap_right _)
  rw [← List.append_assoc]
  refine (List.perm_append_comm.flatMap_right _).trans ?_
  simp [HTree.syms]

/-- The merging loop ends with one tree over all the symbols of the queue (log 19: it has rounds enough). -/
theorem mergeLoop_syms {ps : List HItem} (h : ps ≠ []) :
    ∃ t, mergeLoop ps.length ps [] = some t ∧ t.syms.Perm (queueSyms ps) := by
  obtain ⟨a, ps', qs', ht, hI, ha⟩ := mergeLoop_rule (I := fun ps' qs' => (queueSyms (ps' ++ qs')).Perm (queueSyms ps))
    (fun hI h1 h2 => (queueSyms_merge h1 h2).trans hI) (n := ps.length) (ps := ps) (qs := []) (by simp)
    (by simpa using List.length_pos_iff.mpr h) (by simp)
  have hroot : (queueSyms (ps' ++ qs')).Perm a.2.syms := by simpa [queueSyms] using ha.flatMap_right (fun a => a.2.syms)
  exact ⟨a.2, ht, hroot.symm.trans hI⟩

/-! ## The leaf queue -/

theorem insertLeaf_perm (p : Nat × Nat) (l : List (Nat × Nat)) : (insertLeaf p l).Perm (p :: l) := by
  induction l with
  | nil => exact .refl _
  | cons q l ih =>
    rw [insertLeaf]
    split
    · exact .refl _
    · exact (ih.cons q).trans (.swap ..)

theorem foldr_insertLeaf_perm (l : List (Nat × Nat)) : (l.foldr insertLeaf []).Perm l := by
  induction l with
  | nil => exact .refl _
  | cons p l ih => exact (insertLeaf_perm ..).trans (ih.cons p)

/-- The leaf queue is the present symbols, each with its weight, in some order. -/
theorem leafQueue_perm (f : List Nat) :
    (leafQueue f).Perm ((presentFrom 0 f).map (fun p => (p.1, HTree.leaf p.2))) :=
  (foldr_insertLeaf_perm _).map _

/-- An item of the leaf queue is a leaf with the positive weight of its symbol. -/
theorem mem_leafQueue {f : List Nat} {a : HItem} (h : a ∈ leafQueue f) : ∃ w s, a = (w, HTree.leaf s) ∧ w ∈ f ∧ 0 < w := by
  obtain ⟨p, hp, rfl⟩ := List.mem_map.mp ((leafQueue_perm f).subset h)
  rw [presentFrom_eq_filter, List.mem_filter, decide_eq_true_eq] at hp
  obtain ⟨hp, hpos⟩ := hp
  exact ⟨p.1, p.2, rfl, List.fst_mem_of_mem_zipIdx hp, hpos⟩

theorem queueSyms_leafQueue (f : List Nat) : (queueSyms (leafQueue f)).Perm (presentSymbols f) := by
  refine ((leafQueue_perm f).flatMap_right _).trans (.of_eq ?_)
  rw [List.flatMap_map, presentSymbols, List.map_eq_flatMap]
  rfl

theorem length_leafQueue (f : List Nat) : (leafQueue f).length = presentCount f := by
  rw [(leafQueue_perm f).length_eq, List.length_map, ← length_presentSymbols, presentSymbols, List.length_map]

/-! ## The lengths of a list of depths -/

theorem getD_lengthsOf {n i : Nat} (d : List (Nat × Nat)) (hi : i < n) :
    (lengthsOf n d).getD i 0 = (d.lookup i).getD 0 := by
  simp [lengthsOf, hi]

/-- Where each symbol has one depth at most, its depth is the one looked up. -/
theorem lookup_of_mem {d : List (Nat × Nat)} (hd : (d.map Prod.fst).Nodup) {p : Nat × Nat} (hp : p ∈ d) :
    d.lookup p.1 = some p.2 := by
  obtain ⟨before, after, rfl⟩ := List.append_of_mem hp
  refine List.lookup_eq_some_iff.mpr ⟨before, after, rfl, fun q hq => bne_iff_ne.mpr fun heq => ?_⟩
  rw [List.map_append, List.nodup_append] at hd
  obtain ⟨-, -, hdisjoint⟩ := hd
  exact hdisjoint q.1 (List.mem_map_of_mem hq) p.1 (by simp) heq.symm

/-- The symbols with a depth are those whose length is positive. -/
theorem pos_lookup_iff {d : List (Nat × Nat)} (hd : (d.map Prod.fst).Nodup) (hpos : ∀ p ∈ d, 0 < p.2) {i : Nat} :
    0 < (d.lookup i).getD 0 ↔ i ∈ d.map Prod.fst := by
  constructor
  · intro h
    by_contra hi
    have hnone : d.lookup i = none :=
      List.lookup_eq_none_iff.mpr fun p hp => bne_iff_ne.mpr fun heq => hi (heq ▸ List.mem_map_of_mem hp)
    simp [hnone] at h
  · intro h
    obtain ⟨p, hp, rfl⟩ := List.mem_map.mp h
    rw [lookup_of_mem hd hp]
    exact hpos p hp

/-- Where each symbol below `n` has one depth at most, the positive lengths are the depths. -/
theorem filter_lengthsOf_perm {n : Nat} {d : List (Nat × Nat)} (hd : (d.map Prod.fst).Nodup)
    (hlt : ∀ i ∈ d.map Prod.fst, i < n) (hpos : ∀ p ∈ d, 0 < p.2) :
    ((lengthsOf n d).filter (fun x => decide (0 < x))).Perm (d.map Prod.snd) := by
  have hsnd : d.map Prod.snd = (d.map Prod.fst).map (fun i => (d.lookup i).getD 0) := by
    rw [List.map_map]
    exact List.map_congr_left fun p hp => by simp [lookup_of_mem hd hp]
  rw [lengthsOf, List.filter_map, hsnd]
  refine List.Perm.map _ ((List.perm_ext_iff_of_nodup (List.nodup_range.filter _) hd).mpr fun i => ?_)
  simp only [List.mem_filter, List.mem_range, Function.comp_apply, decide_eq_true_eq, pos_lookup_iff hd hpos]
  exact ⟨And.right, fun h => ⟨hlt i h, h⟩⟩

/-! ## One pass (43_prefix_code.md R482, R484) -/

/-- Everything `huff_once` can answer: no symbol, one symbol, or the depths of the tree the merging loop ends with. -/
theorem huffOnce_cases (f : List Nat) :
    (leafQueue f = [] ∧ huffOnce f = lengthsOf f.length []) ∨
    (∃ a, leafQueue f = [a] ∧ huffOnce f = lengthsOf f.length (a.2.depths 1)) ∨
    (∃ t, 2 ≤ presentCount f ∧ mergeLoop (leafQueue f).length (leafQueue f) [] = some t ∧
      t.syms.Perm (presentSymbols f) ∧ huffOnce f = lengthsOf f.length (t.depths 0)) := by
  have hcount := length_leafQueue f
  have hsyms := queueSyms_leafQueue f
  unfold huffOnce
  cases hq : leafQueue f with
  | nil => exact .inl ⟨rfl, rfl⟩
  | cons p l =>
    cases l with
    | nil => exact .inr (.inl ⟨p, rfl, rfl⟩)
    | cons q l =>
      rw [hq] at hcount hsyms
      obtain ⟨t, ht, hperm⟩ := mergeLoop_syms (ps := p :: q :: l) (by simp)
      refine .inr (.inr ⟨t, ?_, ht, hperm.trans hsyms, ?_⟩)
      · simp only [List.length_cons] at hcount
        omega
      · dsimp only
        rw [ht]

/-- What the depths of the leaves of one pass over `f` have: each present symbol has one, and R484 (a), (b). -/
structure DepthsFor (f : List Nat) (d : List (Nat × Nat)) : Prop where
  symbols : (d.map Prod.fst).Perm (presentSymbols f)
  pos     : ∀ p ∈ d, 0 < p.2
  kraft   : 2 ≤ presentCount f → ∀ K, (∀ p ∈ d, p.2 ≤ K) → (d.map (fun p => 2 ^ (K - p.2))).sum = 2 ^ K
  single  : presentCount f = 1 → d.map Prod.snd = [1]

theorem huffOnce_depths (f : List Nat) : ∃ d, DepthsFor f d ∧ huffOnce f = lengthsOf f.length d := by
  have hcount := length_leafQueue f
  have hsyms := queueSyms_leafQueue f
  obtain ⟨hq, hlen⟩ | ⟨a, hq, hlen⟩ | ⟨t, htwo, _, hperm, hlen⟩ := huffOnce_cases f
  · rw [hq] at hcount hsyms
    have hzero : presentCount f = 0 := hcount.symm
    exact ⟨[], ⟨hsyms, by simp, by omega, by omega⟩, hlen⟩
  · rw [hq] at hcount hsyms
    have hone : presentCount f = 1 := hcount.symm
    obtain ⟨w, s, rfl, -, -⟩ := mem_leafQueue (hq ▸ List.mem_singleton_self a)
    exact ⟨[(s, 1)], ⟨hsyms, by simp, by omega, fun _ => rfl⟩, hlen⟩
  · have hleaves : 2 ≤ t.syms.length := by rw [hperm.length_eq, length_presentSymbols]; exact htwo
    exact ⟨t.depths 0, ⟨t.map_fst_depths 0 ▸ hperm, fun p hp => HTree.depth_pos hleaves hp,
      fun _ K hK => HTree.kraft hK, by omega⟩, hlen⟩

/-- What R481 and R484 say of the lengths built for `f`. -/
structure LengthsFor (f len : List Nat) : Prop where
  length   : len.length = f.length
  pos_iff  : ∀ i, 0 < len.getD i 0 ↔ 0 < f.getD i 0
  count    : (len.filter (fun x => decide (0 < x))).length = presentCount f
  kraft    : 2 ≤ presentCount f → ∀ K, (∀ x ∈ len, x ≤ K) →
               ((len.filter (fun x => decide (0 < x))).map (fun x => 2 ^ (K - x))).sum = 2 ^ K
  single   : presentCount f = 1 → len.filter (fun x => decide (0 < x)) = [1]

/-- The lengths a pass gives are those of its depths. -/
theorem DepthsFor.lengthsFor {f : List Nat} {d : List (Nat × Nat)} (h : DepthsFor f d) :
    LengthsFor f (lengthsOf f.length d) := by
  have hmem {i : Nat} : i ∈ d.map Prod.fst ↔ 0 < f.getD i 0 := h.symbols.mem_iff.trans mem_presentSymbols
  have hnodup : (d.map Prod.fst).Nodup := h.symbols.nodup_iff.mpr (nodup_presentSymbols f)
  have hperm := filter_lengthsOf_perm (n := f.length) hnodup (fun i hi => lt_length_of_pos_getD (hmem.mp hi)) h.pos
  constructor
  case length => simp
  case pos_iff =>
    intro i
    by_cases hi : i < f.length
    · rw [getD_lengthsOf d hi, pos_lookup_iff hnodup h.pos, hmem]
    · rw [List.getD_eq_default _ _ (by simpa using hi), List.getD_eq_default _ _ (by simpa using hi)]
  case count => rw [hperm.length_eq, ← length_presentSymbols, ← h.symbols.length_eq, List.length_map, List.length_map]
  case kraft =>
    intro htwo K hK
    have hdepth : ∀ p ∈ d, p.2 ≤ K := fun p hp =>
      hK p.2 (List.mem_of_mem_filter (hperm.symm.subset (List.mem_map_of_mem hp)))
    rw [(hperm.map _).sum_eq, List.map_map, ← h.kraft htwo K hdepth]
    rfl
  case single =>
    intro hone
    rw [h.single hone] at hperm
    exact List.perm_singleton.mp hperm

/-- One pass gives lengths as R481 and R484 say (43_prefix_code.md R482). -/
theorem huffOnce_lengthsFor (f : List Nat) : LengthsFor f (huffOnce f) := by
  obtain ⟨d, hd, hlen⟩ := huffOnce_depths f
  exact hlen ▸ hd.lengthsFor

end Sys2Proof.Machine
end

section
/-!
PROOFS. Length limiting (43_prefix_code.md R480, R483; log 19): halving keeps the present symbols present, and it ends,
because a pass over equal weights builds a tree too shallow to exceed the limit.
-/

namespace Sys2Proof.Machine

open Sys2Proof.Safety

/-! ## The greatest element -/

theorem maxOf_nil : maxOf [] = 0 := rfl

/-- The greatest element of a list that has one. -/
theorem maxOf_mem_and_ge {l : List Nat} (h : l ≠ []) : maxOf l ∈ l ∧ ∀ x ∈ l, x ≤ maxOf l := by
  obtain ⟨m, hm⟩ := Option.ne_none_iff_exists'.mp (mt List.max?_eq_none_iff.mp h)
  have hmax : maxOf l = m := by rw [maxOf, List.foldl_max, hm, Option.getD_some, Nat.zero_max]
  rw [hmax]
  exact List.max?_eq_some_iff.mp hm

theorem maxOf_le_iff {l : List Nat} {n : Nat} : maxOf l ≤ n ↔ ∀ x ∈ l, x ≤ n := by
  by_cases hl : l = []
  · simp [hl, maxOf_nil]
  · obtain ⟨hmem, hge⟩ := maxOf_mem_and_ge hl
    exact ⟨fun h x hx => (hge x hx).trans h, fun h => h _ hmem⟩

/-! ## Halving keeps the present symbols (43_prefix_code.md R483) -/

theorem halve_pos_iff {x : Nat} : 0 < halve x ↔ 0 < x := by
  unfold halve
  split <;> omega

theorem halve_lt {x n : Nat} (h : x < 2 ^ (n + 1 + 1)) : halve x < 2 ^ (n + 1) := by
  have htwo : 2 ≤ 2 ^ (n + 1) := Nat.le_self_pow (Nat.succ_ne_zero n) 2
  rw [pow_succ] at h
  rw [halve, Nat.shiftRight_one]
  split <;> omega

theorem presentCount_halved (f : List Nat) : presentCount (f.map halve) = presentCount f := by
  simp only [presentCount, List.filter_map, List.length_map]
  exact congrArg List.length (List.filter_congr fun x _ => by simp [halve_pos_iff])

theorem pos_getD_halved (f : List Nat) (i : Nat) : 0 < (f.map halve).getD i 0 ↔ 0 < f.getD i 0 := by
  have hget : (f.map halve).getD i 0 = halve (f.getD i 0) := List.getD_map f 0 halve
  rw [hget, halve_pos_iff]

/-- Lengths for the halved weights are lengths for the weights. -/
theorem LengthsFor.of_halved {f len : List Nat} (h : LengthsFor (f.map halve) len) : LengthsFor f len := by
  obtain ⟨hlength, hpos, hcount, hkraft, hsingle⟩ := h
  rw [presentCount_halved] at hcount hkraft hsingle
  exact ⟨hlength.trans (by simp), fun i => (hpos i).trans (pos_getD_halved f i), hcount, hkraft, hsingle⟩

theorem limitLoop_lengthsFor (n : Nat) (f : List Nat) (passes : Nat) : LengthsFor f (limitLoop n f passes).1 := by
  induction n generalizing f passes with
  | zero => exact huffOnce_lengthsFor f
  | succ n ih =>
    rw [limitLoop]
    split
    · exact huffOnce_lengthsFor f
    · exact (ih _ _).of_halved

/-- The built lengths are as R481 and R484 say, however many halving passes were taken. -/
theorem buildLengths_lengthsFor (f : List Nat) : LengthsFor f (buildLengths f).1 :=
  limitLoop_lengthsFor _ f 0

/-! ## Equal weights give shallow trees (43_prefix_code.md R483, log 19) -/

/-- A bound from below on the weight of a tree whose merged trees were never lighter than half of each other: one level more
makes it half as heavy again. -/
def lightest : Nat → Nat
  | 0 => 1
  | h + 1 => lightest h + (lightest h + 1) / 2

theorem lightest_mono : Monotone lightest :=
  monotone_nat_of_le_succ fun _ => Nat.le_add_right ..

/-- Merging two trees, the heavier at most twice as heavy as the lighter. -/
theorem lightest_merge {g h w v : Nat} (hw : lightest g ≤ w) (hv : lightest h ≤ v) (hle : w ≤ v) (hratio : v ≤ 2 * w) :
    lightest (max g h + 1) ≤ w + v := by
  rw [lightest]
  rcases Nat.le_total g h with hgh | hgh
  · rw [Nat.max_eq_right hgh]
    omega
  · rw [Nat.max_eq_left hgh]
    omega

/-- What the merging loop keeps when it starts from equal weights, besides their total `m`: the queues stay in order, no item
is heavier than twice another one, and every item is heavy for its height. -/
structure Balanced (m : Nat) (ps qs : List HItem) : Prop where
  leaves : ByWeight ps
  nodes  : ByWeight qs
  total  : ((ps ++ qs).map Prod.fst).sum = m
  ratio  : ∀ x ∈ ps ++ qs, ∀ y ∈ ps ++ qs, x.1 ≤ 2 * y.1
  heavy  : ∀ x ∈ ps ++ qs, lightest x.2.height ≤ x.1

theorem balanced_leaves {ps : List HItem} (hone : ∀ x ∈ ps, x.1 = 1) (hleaf : ∀ x ∈ ps, x.2.height = 0) :
    Balanced ps.length ps [] where
  leaves := List.pairwise_of_forall_mem_list fun x hx y hy => by rw [hone x hx, hone y hy]
  nodes := List.Pairwise.nil
  total := by
    rw [List.append_nil, List.map_congr_left hone, List.map_const', List.sum_replicate, smul_eq_mul, mul_one]
  ratio := by
    rw [List.append_nil]
    exact fun x hx y hy => by rw [hone x hx, hone y hy]; decide
  heavy := by
    rw [List.append_nil]
    exact fun x hx => by rw [hone x hx, hleaf x hx]; decide

/-- A round of the merging loop keeps the balance: the new node is not lighter than the items left, nor heavier than twice
one of them. -/
theorem balanced_merge {m : Nat} {ps qs ps1 qs1 ps2 qs2 : List HItem} {a b : HItem} (hI : Balanced m ps qs)
    (h1 : takeLightest ps qs = some (a, ps1, qs1)) (h2 : takeLightest ps1 qs1 = some (b, ps2, qs2)) :
    Balanced m ps2 (qs2 ++ [(a.1 + b.1, HTree.node a.2 b.2)]) := by
  have hperm1 := takeLightest_perm h1
  have hperm2 := takeLightest_perm h2
  obtain ⟨hps1, hqs1, hmin1⟩ := takeLightest_byWeight h1 hI.leaves hI.nodes
  obtain ⟨hps2, hqs2, hmin2⟩ := takeLightest_byWeight h2 hps1 hqs1
  have hall : (ps ++ qs).Perm (a :: b :: (ps2 ++ qs2)) := hperm1.trans (hperm2.cons a)
  have hmem {x : HItem} (hx : x ∈ a :: b :: (ps2 ++ qs2)) : x ∈ ps ++ qs := hall.symm.subset hx
  have ha : a ∈ ps ++ qs := hmem (by simp)
  have hb : b ∈ ps ++ qs := hmem (by simp)
  have hold {x : HItem} (hx : x ∈ ps2 ++ qs2) : x ∈ ps ++ qs := hmem (by simp [hx])
  have hitem {x : HItem} (hx : x ∈ ps2 ++ (qs2 ++ [(a.1 + b.1, HTree.node a.2 b.2)])) :
      x ∈ ps2 ++ qs2 ∨ x = (a.1 + b.1, HTree.node a.2 b.2) := by
    rwa [← List.append_assoc, List.mem_append, List.mem_singleton] at hx
  have hab : a.1 ≤ b.1 := hmin1 b (hperm2.symm.subset (by simp))
  have hnew_ge : ∀ x ∈ ps2 ++ qs2, x.1 ≤ a.1 + b.1 := fun x hx => by
    have := hI.ratio x (hold hx) a ha
    omega
  have hnew_le : ∀ x ∈ ps2 ++ qs2, a.1 + b.1 ≤ 2 * x.1 := fun x hx => by
    have := hmin2 x hx
    omega
  constructor
  case leaves => exact hps2
  case nodes =>
    refine List.pairwise_append.mpr ⟨hqs2, List.pairwise_singleton .., fun x hx y hy => ?_⟩
    rw [List.mem_singleton.mp hy]
    exact hnew_ge x (by simp [hx])
  case total =>
    have hsum := (hall.map Prod.fst).sum_eq
    rw [hI.total] at hsum
    simp only [List.map_cons, List.sum_cons, List.map_append, List.sum_append, List.map_nil, List.sum_nil] at hsum ⊢
    omega
  case ratio =>
    intro x hx y hy
    obtain hx | rfl := hitem hx <;> obtain hy | rfl := hitem hy
    · exact hI.ratio x (hold hx) y (hold hy)
    · exact (hnew_ge x hx).trans (Nat.le_mul_of_pos_left _ two_pos)
    · exact hnew_le y hy
    · exact Nat.le_mul_of_pos_left _ two_pos
  case heavy =>
    intro x hx
    obtain hx | rfl := hitem hx
    · exact hI.heavy x (hold hx)
    · exact lightest_merge (hI.heavy a ha) (hI.heavy b hb) hab (hI.ratio b hb a ha)

/-- From leaves of weight 1 the loop ends with a tree that is as heavy as their number and heavy for its height. -/
theorem mergeLoop_balanced {ps : List HItem} (hne : ps ≠ []) (hone : ∀ x ∈ ps, x.1 = 1)
    (hleaf : ∀ x ∈ ps, x.2.height = 0) {t : HTree} (ht : mergeLoop ps.length ps [] = some t) : lightest t.height ≤ ps.length := by
  obtain ⟨a, ps', qs', ha, hI, hroot⟩ := mergeLoop_rule (I := Balanced ps.length) balanced_merge (balanced_leaves hone hleaf)
    (by simpa using List.length_pos_iff.mpr hne) (n := ps.length) (by simp)
  have htotal := (hroot.map Prod.fst).sum_eq
  rw [hI.total] at htotal
  obtain rfl : a.2 = t := Option.some.inj (ha.symm.trans ht)
  exact (hI.heavy a (hroot.symm.subset (by simp))).trans (by simp [htotal])

theorem lengthsOf_le {n m : Nat} {d : List (Nat × Nat)} (h : ∀ p ∈ d, p.2 ≤ m) : ∀ x ∈ lengthsOf n d, x ≤ m := by
  intro x hx
  obtain ⟨i, _, rfl⟩ := List.mem_map.mp hx
  cases hi : d.lookup i with
  | none => exact Nat.zero_le m
  | some k =>
    obtain ⟨before, after, rfl, _⟩ := List.lookup_eq_some_iff.mp hi
    exact h (i, k) (by simp)

/-- Weights of at most 1 need no halving, for up to 1024 symbols. -/
theorem huffOnce_le_of_ones {f : List Nat} (hf : ∀ w ∈ f, w ≤ 1) (hlen : f.length ≤ 1024) :
    ∀ x ∈ huffOnce f, x ≤ maxCodeLen := by
  have hone : ∀ a ∈ leafQueue f, a.1 = 1 := by
    intro a ha
    obtain ⟨w, _, rfl, hw, hpos⟩ := mem_leafQueue ha
    exact Nat.le_antisymm (hf w hw) hpos
  have hleaf : ∀ a ∈ leafQueue f, a.2.height = 0 := by
    intro a ha
    obtain ⟨_, _, rfl, _, _⟩ := mem_leafQueue ha
    rfl
  have hcount : (leafQueue f).length ≤ 1024 :=
    (length_leafQueue f).trans_le ((List.length_filter_le ..).trans hlen)
  obtain ⟨_, hout⟩ | ⟨a, hq, hout⟩ | ⟨t, htwo, ht, _, hout⟩ := huffOnce_cases f <;> rw [hout]
  · exact lengthsOf_le (by simp)
  · have hzero : a.2.height = 0 := hleaf a (hq ▸ List.mem_singleton_self a)
    refine lengthsOf_le fun p hp => (HTree.depth_le hp).trans ?_
    rw [hzero]
    decide
  · have hne : leafQueue f ≠ [] := List.length_pos_iff.mp (by rw [length_leafQueue]; omega)
    have hheavy := (mergeLoop_balanced hne hone hleaf ht).trans hcount
    have hheight : t.height ≤ maxCodeLen := by
      by_contra hgt
      have hdeep : lightest (maxCodeLen + 1) ≤ lightest t.height := lightest_mono (by omega)
      exact absurd (hdeep.trans hheavy) (by decide)
    exact lengthsOf_le fun p hp => (HTree.depth_le hp).trans (by omega)

/-- With a halving pass for each doubling of the largest weight the loop ends at a length in range. -/
theorem limitLoop_le {n : Nat} {f : List Nat} (passes : Nat) (hlen : f.length ≤ 1024) (hf : ∀ w ∈ f, w < 2 ^ (n + 1)) :
    ∀ x ∈ (limitLoop n f passes).1, x ≤ maxCodeLen := by
  induction n generalizing f passes with
  | zero => exact huffOnce_le_of_ones (fun w hw => Nat.le_of_lt_succ (hf w hw)) hlen
  | succ n ih =>
    rw [limitLoop]
    split
    · exact maxOf_le_iff.mp ‹_›
    · refine ih _ (by simpa using hlen) fun w hw => ?_
      obtain ⟨v, hv, rfl⟩ := List.mem_map.mp hw
      exact halve_lt (hf v hv)

/-- No built length exceeds 16 (43_prefix_code.md R480). -/
theorem buildLengths_le {f : List Nat} (hlen : f.length ≤ 1024) : ∀ x ∈ (buildLengths f).1, x ≤ maxCodeLen := by
  refine limitLoop_le 0 hlen fun w hw => ?_
  have hmax : w ≤ maxOf f := maxOf_le_iff.mp le_rfl w hw
  have hlog : maxOf f < 2 ^ (Nat.log2 (maxOf f) + 1) := Nat.lt_log2_self
  exact (hmax.trans_lt hlog).trans_le (Nat.pow_le_pow_right (by decide) (Nat.le_succ _))

/-- Settles O31: a pass gives a length to each present symbol, and halving keeps them present until the lengths fit, at the
latest when every weight is 1. -/
theorem codeLengthsBounded : Obligations.CodeLengthsBounded := by
  unfold Obligations.CodeLengthsBounded
  intro f hf
  obtain ⟨hlength, hpos, -⟩ := buildLengths_lengthsFor f
  refine ⟨hlength, buildLengths_le hf, fun i _ => ?_⟩
  have := hpos i
  omega

end Sys2Proof.Machine
end

section
/-!
PROOFS. Canonical codes (43_prefix_code.md R484 to R486), seen in the space of 16-bit numbers: the numbers that begin with the
codes of one length follow those of the shorter lengths, so each number of the space begins with one code.
-/

namespace Sys2Proof.Machine

open Sys2Proof.Safety

/-! ## Bit strings and their numbers (41_bitstream.md R440) -/

theorem bitsValue_concat (bits : List Bool) (b : Bool) : bitsValue (bits ++ [b]) = (bitsValue bits <<< 1) ||| b.toNat := by
  rw [shiftLeft_or_bit, bitsValue, List.foldl_append]
  rfl

theorem bitsValue_lt (bits : List Bool) : bitsValue bits < 2 ^ bits.length := by
  induction bits using List.reverseRecOn with
  | nil => decide
  | append_singleton bits b ih =>
    have hb := Bool.toNat_lt b
    rw [bitsValue_concat, shiftLeft_or_bit, List.length_append, List.length_singleton, pow_succ]
    omega

theorem msbBits_bitsValue (bits : List Bool) : msbBits bits.length (bitsValue bits) = bits := by
  induction bits using List.reverseRecOn with
  | nil => rfl
  | append_singleton bits b ih =>
    rw [bitsValue_concat, List.length_append, List.length_singleton, msbBits_append_bit, ih]

theorem bitsValue_msbBits {n v : Nat} (h : v < 2 ^ n) : bitsValue (msbBits n v) = v := by
  have hlt := bitsValue_lt (msbBits n v)
  have hbits := msbBits_bitsValue (msbBits n v)
  rw [length_msbBits] at hlt hbits
  refine Nat.eq_of_testBit_eq fun i => ?_
  by_cases hi : i < n
  · have hplace : n - 1 - (n - 1 - i) = i := by omega
    have hget (u : Nat) : (msbBits n u)[n - 1 - i]? = some (u.testBit i) := by
      rw [List.getElem?_eq_getElem (by rw [length_msbBits]; omega), getElem_msbBits, hplace]
    exact Option.some.inj ((hget _).symm.trans ((congrArg (·[n - 1 - i]?) hbits).trans (hget v)))
  · have hpow : 2 ^ n ≤ 2 ^ i := Nat.pow_le_pow_right two_pos (by omega)
    rw [Nat.testBit_lt_two_pow (hlt.trans_le hpow), Nat.testBit_lt_two_pow (h.trans_le hpow)]

/-- A bit string begins with the `n` bits of a number when its own number, cut to its first `n` bits, is that number. -/
theorem msbBits_prefix_iff {n c : Nat} {bits : List Bool} (hn : n ≤ bits.length) (hc : c < 2 ^ n) :
    msbBits n c <+: bits ↔ bitsValue bits >>> (bits.length - n) = c := by
  have hsplit := msbBits_add n (bits.length - n) (bitsValue bits)
  rw [Nat.add_sub_cancel' hn, msbBits_bitsValue] at hsplit
  have hhigh : bitsValue bits >>> (bits.length - n) < 2 ^ n := by
    rw [Nat.shiftRight_eq_div_pow, Nat.div_lt_iff_lt_mul (Nat.two_pow_pos _), ← pow_add, Nat.add_sub_cancel' hn]
    exact bitsValue_lt bits
  constructor
  · intro h
    have hpre : msbBits n c = msbBits n (bitsValue bits >>> (bits.length - n)) :=
      (List.prefix_of_prefix_length_le h ⟨_, hsplit.symm⟩ (by simp)).eq_of_length (by simp)
    rw [← bitsValue_msbBits hhigh, ← hpre, bitsValue_msbBits hc]
  · rintro rfl
    exact ⟨_, hsplit.symm⟩

/-! ## Ranks within one length -/

theorem blCount_eq_count (len : List Nat) {l : Nat} (hl : 0 < l) : blCount len l = len.count l := by
  rw [blCount, if_neg hl.ne', List.count_eq_length_filter]

/-- Symbol `i` counts among those of its length at every later place. -/
theorem count_take_lt {len : List Nat} {i j : Nat} (hi : 0 < len.getD i 0) (hij : i < j) :
    (len.take i).count (len.getD i 0) < (len.take j).count (len.getD i 0) := by
  have hlt := lt_length_of_pos_getD hi
  have hprefix : len.take (i + 1) <+: len.take j := List.take_prefix_take_left hij
  have hself : (len.take (i + 1)).count (len.getD i 0) = (len.take i).count (len.getD i 0) + 1 := by
    rw [List.take_add_one, List.getElem?_eq_getElem hlt, List.getD_eq_getElem _ _ hlt, Option.toList_some,
      List.count_append, List.count_singleton_self]
  have := hprefix.sublist.count_le (len.getD i 0)
  omega

/-- The rank of a symbol among those of its length is below their number. -/
theorem rank_lt {len : List Nat} {i : Nat} (hi : 0 < len.getD i 0) :
    (len.take i).count (len.getD i 0) < blCount len (len.getD i 0) := by
  have h := count_take_lt hi (lt_length_of_pos_getD hi)
  rwa [List.take_length, ← blCount_eq_count len hi] at h

/-- Symbols of one length have different ranks. -/
theorem eq_of_rank_eq {len : List Nat} {i j : Nat} (hi : 0 < len.getD i 0) (hlen : len.getD i 0 = len.getD j 0)
    (h : (len.take i).count (len.getD i 0) = (len.take j).count (len.getD j 0)) : i = j := by
  rcases Nat.lt_trichotomy i j with hij | hij | hij
  · have := count_take_lt hi hij
    rw [h, ← hlen] at this
    exact absurd this (Nat.lt_irrefl _)
  · exact hij
  · have := count_take_lt (hlen ▸ hi) hij
    rw [← h, hlen] at this
    exact absurd this (Nat.lt_irrefl _)

/-- Each rank below the number of symbols of a length is some symbol's. -/
theorem exists_rank (len : List Nat) {l k : Nat} (hk : k < len.count l) :
    ∃ i < len.length, len.getD i 0 = l ∧ (len.take i).count l = k := by
  induction len generalizing k with
  | nil => simp at hk
  | cons x len ih =>
    rw [List.count_cons] at hk
    by_cases hx : x = l
    · cases k with
      | zero => exact ⟨0, by simp, hx, rfl⟩
      | succ k =>
        obtain ⟨i, hi, hl, hrank⟩ := ih (k := k) (by simpa [hx] using hk)
        exact ⟨i + 1, by simpa using hi, by simpa using hl, by simp [hx, hrank]⟩
    · obtain ⟨i, hi, hl, hrank⟩ := ih (by simpa [hx] using hk)
      exact ⟨i + 1, by simpa using hi, by simpa using hl, by simp [hx, hrank]⟩

/-! ## The codes (43_prefix_code.md R485) -/

theorem getD_modify_succ {next : List Nat} {x l : Nat} (hl : l < next.length) :
    (next.modify x (fun c => c + 1)).getD l 0 = next.getD l 0 + if x = l then 1 else 0 := by
  simp only [List.getD_eq_getElem?_getD, List.getElem?_modify, List.getElem?_eq_getElem hl]
  split <;> rfl

/-- The assignment loop gives a symbol the next code of its length, moved on once by each earlier symbol of that length. -/
theorem getD_assignCodes {len next : List Nat} {i : Nat} (hnext : ∀ x ∈ len, x < next.length) (hi : 0 < len.getD i 0) :
    (assignCodes len next).getD i 0 = next.getD (len.getD i 0) 0 + (len.take i).count (len.getD i 0) := by
  induction len generalizing next i with
  | nil => exact absurd hi (Nat.lt_irrefl 0)
  | cons x len ih =>
    obtain ⟨hx, hnext⟩ := List.forall_mem_cons.mp hnext
    cases i with
    | zero =>
      rw [List.getD_cons_zero] at hi ⊢
      rw [assignCodes, if_pos hi]
      rfl
    | succ i =>
      rw [List.getD_cons_succ] at hi ⊢
      rw [List.take_succ_cons, List.count_cons, assignCodes]
      split
      · rw [List.getD_cons_succ, ih (by simpa using hnext) hi, getD_modify_succ (hnext _ (getD_mem_of_pos hi))]
        simp only [beq_iff_eq]
        omega
      · have hne : x ≠ len.getD i 0 := by omega
        rw [List.getD_cons_succ, ih hnext hi, beq_false_of_ne hne]
        rfl

/-- The code of a symbol is the first of its length plus its rank. -/
theorem getD_canonical {len : List Nat} (hle : ∀ x ∈ len, x ≤ 16) {i : Nat} (hi : 0 < len.getD i 0) :
    (canonical len).getD i 0 = firstCode len (len.getD i 0) + (len.take i).count (len.getD i 0) := by
  have hlast : len.getD i 0 ≤ 16 := hle _ (getD_mem_of_pos hi)
  rw [canonical, getD_assignCodes (fun x hx => by simpa [maxCodeLen, Nat.lt_succ_iff] using hle x hx) hi]
  rw [List.getD_eq_getElem _ _ (by simpa [maxCodeLen] using Nat.lt_succ_iff.mpr hlast), List.getElem_map,
    List.getElem_range]

/-! ## The code space: the 16-bit numbers that begin with a code of at most a given length -/

/-- Where the codes of length `l` end in the space of 16-bit numbers: those of lengths up to `l` fill it from 0 to here. -/
def codeEnd (len : List Nat) (l : Nat) : Nat :=
  (firstCode len l + blCount len l) * 2 ^ (16 - l)

theorem codeEnd_zero (len : List Nat) : codeEnd len 0 = 0 := by
  rw [codeEnd, firstCode, blCount, if_pos rfl, Nat.zero_add, Nat.zero_mul]

/-- The codes of the next length start where those of this length end. -/
theorem firstCode_succ_mul (len : List Nat) {l : Nat} (hl : l < 16) :
    firstCode len (l + 1) * 2 ^ (16 - (l + 1)) = codeEnd len l := by
  have hexp : 16 - l = 16 - (l + 1) + 1 := by omega
  rw [firstCode, Nat.shiftLeft_eq, codeEnd, hexp, pow_succ]
  ring

theorem codeEnd_succ (len : List Nat) {l : Nat} (hl : l < 16) :
    codeEnd len (l + 1) = codeEnd len l + len.count (l + 1) * 2 ^ (16 - (l + 1)) := by
  rw [codeEnd, add_mul, firstCode_succ_mul len hl, blCount_eq_count len (Nat.succ_pos l)]

theorem codeEnd_mono (len : List Nat) {l m : Nat} (hlm : l ≤ m) (hm : m ≤ 16) : codeEnd len l ≤ codeEnd len m := by
  induction hlm with
  | refl => exact le_rfl
  | step _ ih =>
    rw [codeEnd_succ len hm]
    exact (ih (Nat.le_of_succ_le hm)).trans (Nat.le_add_right ..)

/-- The part of the code space that the symbols of lengths 1 to `l` take (43_prefix_code.md R484 (a)). -/
def kraftUpTo (len : List Nat) (l : Nat) : Nat :=
  ((len.filter (fun x => decide (0 < x ∧ x ≤ l))).map (fun x => 2 ^ (16 - x))).sum

theorem kraftUpTo_cons_counted {x l : Nat} (len : List Nat) (h : 0 < x ∧ x ≤ l) :
    kraftUpTo (x :: len) l = 2 ^ (16 - x) + kraftUpTo len l := by
  rw [kraftUpTo, List.filter_cons_of_pos (by simpa using h), List.map_cons, List.sum_cons, kraftUpTo]

theorem kraftUpTo_cons_uncounted {x l : Nat} (len : List Nat) (h : ¬(0 < x ∧ x ≤ l)) :
    kraftUpTo (x :: len) l = kraftUpTo len l := by
  rw [kraftUpTo, List.filter_cons_of_neg (by simpa using h), kraftUpTo]

theorem kraftUpTo_succ (len : List Nat) (l : Nat) :
    kraftUpTo len (l + 1) = kraftUpTo len l + len.count (l + 1) * 2 ^ (16 - (l + 1)) := by
  induction len with
  | nil => rw [List.count_nil, Nat.zero_mul]; rfl
  | cons x len ih =>
    by_cases hx : x = l + 1
    · rw [hx, kraftUpTo_cons_counted len (by omega), kraftUpTo_cons_uncounted len (by omega), List.count_cons_self, ih,
        Nat.succ_mul]
      omega
    · rw [List.count_cons_of_ne hx]
      by_cases hin : 0 < x ∧ x ≤ l
      · rw [kraftUpTo_cons_counted len hin, kraftUpTo_cons_counted len (by omega), ih, Nat.add_assoc]
      · rw [kraftUpTo_cons_uncounted len hin, kraftUpTo_cons_uncounted len (by omega), ih]

theorem codeEnd_eq_kraftUpTo (len : List Nat) {l : Nat} (hl : l ≤ 16) : codeEnd len l = kraftUpTo len l := by
  induction l with
  | zero =>
    have hnone : len.filter (fun x => decide (0 < x ∧ x ≤ 0)) = [] := List.filter_eq_nil_iff.mpr fun x _ => by
      rw [decide_eq_true_eq]
      omega
    rw [kraftUpTo, hnone, codeEnd_zero]
    rfl
  | succ l ih => rw [codeEnd_succ len hl, kraftUpTo_succ, ih (Nat.le_of_succ_le hl)]

/-- The end of the whole code is the Kraft sum. -/
theorem codeEnd_last {len : List Nat} (hle : ∀ x ∈ len, x ≤ 16) :
    codeEnd len 16 = ((len.filter (fun x => decide (0 < x))).map (fun x => 2 ^ (16 - x))).sum := by
  rw [codeEnd_eq_kraftUpTo len le_rfl, kraftUpTo]
  congr 2
  exact List.filter_congr fun x hx => by simp [hle x hx]

/-- A number's first bits are a code value of their length when the number lies in that length's part of the space. -/
theorem shiftRight_inside_iff (len : List Nat) {v l : Nat} (hl : l < 16) :
    firstCode len (l + 1) ≤ v >>> (16 - (l + 1)) ∧
      v >>> (16 - (l + 1)) < firstCode len (l + 1) + blCount len (l + 1) ↔
    codeEnd len l ≤ v ∧ v < codeEnd len (l + 1) := by
  rw [Nat.shiftRight_eq_div_pow, Nat.le_div_iff_mul_le (Nat.two_pow_pos _), Nat.div_lt_iff_lt_mul (Nat.two_pow_pos _),
    firstCode_succ_mul len hl, ← codeEnd]

/-- A number below some end lies in the part of one length. -/
theorem exists_codeEnd_around {len : List Nat} {v n : Nat} (h : v < codeEnd len n) :
    ∃ l < n, codeEnd len l ≤ v ∧ v < codeEnd len (l + 1) := by
  induction n with
  | zero =>
    rw [codeEnd_zero] at h
    exact absurd h (Nat.not_lt_zero v)
  | succ n ih =>
    by_cases hv : v < codeEnd len n
    · obtain ⟨l, hl, hplace⟩ := ih hv
      exact ⟨l, Nat.lt_succ_of_lt hl, hplace⟩
    · exact ⟨n, Nat.lt_succ_self n, Nat.le_of_not_lt hv, h⟩

/-! ## Prefix freedom and completeness (43_prefix_code.md R484 (a), R486) -/

/-- The lengths are in range and take no more than the whole code space: the Kraft inequality of R486. -/
structure Kraft (len : List Nat) : Prop where
  le  : ∀ x ∈ len, x ≤ 16
  fit : codeEnd len 16 ≤ 2 ^ 16

/-- The 16 bits of `v` begin with the code of `i`. -/
def BeginsWith (len : List Nat) (v i : Nat) : Prop :=
  0 < len.getD i 0 ∧ v >>> (16 - len.getD i 0) = (canonical len).getD i 0

section
variable {len : List Nat} {v i j : Nat}

theorem Kraft.getD_le (h : Kraft len) (i : Nat) : len.getD i 0 ≤ 16 := by
  by_cases hi : i < len.length
  · exact List.getD_eq_getElem _ _ hi ▸ h.le _ (List.getElem_mem hi)
  · exact List.getD_eq_default _ _ (Nat.le_of_not_lt hi) ▸ Nat.zero_le 16

/-- Every code of length l is below `2^l` (43_prefix_code.md R485). -/
theorem Kraft.code_lt (h : Kraft len) (hi : 0 < len.getD i 0) : (canonical len).getD i 0 < 2 ^ len.getD i 0 := by
  have hle := h.getD_le i
  have hend := (codeEnd_mono len hle le_rfl).trans h.fit
  have hpow : 2 ^ 16 = 2 ^ len.getD i 0 * 2 ^ (16 - len.getD i 0) := by rw [← pow_add, Nat.add_sub_cancel' hle]
  rw [codeEnd, hpow] at hend
  rw [getD_canonical h.le hi]
  exact (Nat.add_lt_add_left (rank_lt hi) _).trans_le (Nat.le_of_mul_le_mul_right hend (Nat.two_pow_pos _))

/-- A number that begins with a code lies in the part of the space of that code's length. -/
theorem BeginsWith.inside (h : Kraft len) (hv : BeginsWith len v i) :
    codeEnd len (len.getD i 0 - 1) ≤ v ∧ v < codeEnd len (len.getD i 0) := by
  obtain ⟨hi, hcode⟩ := hv
  have hle := h.getD_le i
  have hrank := rank_lt hi
  rw [getD_canonical h.le hi] at hcode
  obtain ⟨l, hl⟩ : ∃ l, len.getD i 0 = l + 1 := ⟨len.getD i 0 - 1, by omega⟩
  rw [hl] at hle hcode hrank ⊢
  exact (shiftRight_inside_iff len hle).mp (by omega)

/-- No number begins with two codes. -/
theorem BeginsWith.unique (h : Kraft len) (hvi : BeginsWith len v i) (hvj : BeginsWith len v j) : i = j := by
  obtain ⟨hi_ge, hi_lt⟩ := hvi.inside h
  obtain ⟨hj_ge, hj_lt⟩ := hvj.inside h
  obtain ⟨hi, hicode⟩ := hvi
  obtain ⟨hj, hjcode⟩ := hvj
  have hlen : len.getD i 0 = len.getD j 0 := by
    have hile := h.getD_le i
    have hjle := h.getD_le j
    rcases Nat.lt_trichotomy (len.getD i 0) (len.getD j 0) with hlt | heq | hlt
    · have := codeEnd_mono len (l := len.getD i 0) (m := len.getD j 0 - 1) (by omega) (by omega)
      omega
    · exact heq
    · have := codeEnd_mono len (l := len.getD j 0) (m := len.getD i 0 - 1) (by omega) (by omega)
      omega
  rw [getD_canonical h.le hi] at hicode
  rw [getD_canonical h.le hj, ← hlen, hicode] at hjcode
  exact eq_of_rank_eq hi hlen (by rw [← hlen]; omega)

/-- Every number in the space the lengths take begins with a code. -/
theorem exists_beginsWith (h : Kraft len) (hv : v < codeEnd len 16) : ∃ i, BeginsWith len v i := by
  obtain ⟨l, hl, hplace⟩ := exists_codeEnd_around hv
  obtain ⟨hfirst, hlast⟩ := (shiftRight_inside_iff len hl).mpr hplace
  rw [blCount_eq_count len (Nat.succ_pos l)] at hlast
  obtain ⟨k, hk⟩ := Nat.exists_eq_add_of_le hfirst
  obtain ⟨i, -, hlen, hrank⟩ := exists_rank len (Nat.lt_of_add_lt_add_left (hk ▸ hlast))
  have hi : 0 < len.getD i 0 := hlen ▸ Nat.succ_pos l
  exact ⟨i, hi, by rw [getD_canonical h.le hi, hlen, hrank, hk]⟩

/-- A string of 16 bits begins with a symbol's code when its number does. -/
theorem codeBits_prefix_iff (h : Kraft len) (hi : 0 < len.getD i 0) {bits : List Bool} (hbits : bits.length = 16) :
    codeBits len (canonical len) i <+: bits ↔ BeginsWith len (bitsValue bits) i := by
  rw [codeBits, msbBits_prefix_iff (hbits ▸ h.getD_le i) (h.code_lt hi), hbits, BeginsWith, and_iff_right hi]

/-- No code begins with another one: padded with zeros to 16 bits it would begin with both (43_prefix_code.md R486). -/
theorem code_prefix_free (h : Kraft len) (hi : 0 < len.getD i 0) (hj : 0 < len.getD j 0) (hij : i ≠ j)
    (hle : len.getD i 0 ≤ len.getD j 0) :
    (canonical len).getD j 0 >>> (len.getD j 0 - len.getD i 0) ≠ (canonical len).getD i 0 := by
  intro heq
  have hexp : 16 - len.getD i 0 = (16 - len.getD j 0) + (len.getD j 0 - len.getD i 0) := by
    have := h.getD_le j
    omega
  have hvj : BeginsWith len ((canonical len).getD j 0 <<< (16 - len.getD j 0)) j := ⟨hj, Nat.shiftLeft_shiftRight ..⟩
  have hvi : BeginsWith len ((canonical len).getD j 0 <<< (16 - len.getD j 0)) i :=
    ⟨hi, by rw [hexp, Nat.shiftRight_add, Nat.shiftLeft_shiftRight, heq]⟩
  exact hij (hvi.unique h hvj)

end

/-! ## The built codes -/

/-- Two or more present symbols share out the whole code space, one takes half of it, none takes nothing. -/
theorem buildLengths_kraft {f : List Nat} (hf : f.length ≤ 1024) : Kraft (buildLengths f).1 := by
  have hle : ∀ x ∈ (buildLengths f).1, x ≤ 16 := buildLengths_le hf
  obtain ⟨-, -, hcount, hkraft, hsingle⟩ := buildLengths_lengthsFor f
  refine ⟨hle, ?_⟩
  rw [codeEnd_last hle]
  obtain hzero | hone | htwo : presentCount f = 0 ∨ presentCount f = 1 ∨ 2 ≤ presentCount f := by omega
  · rw [List.length_eq_zero_iff.mp (hcount.trans hzero)]
    decide
  · rw [hsingle hone]
    decide
  · exact (hkraft htwo 16 hle).le

/-- A lone symbol's code is the single bit 0 (43_prefix_code.md R484 (b)). -/
theorem codeBits_single {f : List Nat} (hf : f.length ≤ 1024) (hone : presentCount f = 1) {i : Nat} (hi : 0 < f.getD i 0) :
    codeBits (buildLengths f).1 (canonical (buildLengths f).1) i = [false] := by
  have hbuilt := buildLengths_lengthsFor f
  have hpos := (hbuilt.pos_iff i).mpr hi
  have hmem := List.mem_filter (p := fun x => decide (0 < x)).mpr ⟨getD_mem_of_pos hpos, decide_eq_true hpos⟩
  rw [hbuilt.single hone, List.mem_singleton] at hmem
  have hfew : (buildLengths f).1.count 1 ≤ 1 := by
    rw [← List.count_filter (p := fun x => decide (0 < x)) (by decide), hbuilt.single hone]
    decide
  have hrank := rank_lt hpos
  have hcode := getD_canonical (buildLengths_le hf) hpos
  rw [hmem, blCount_eq_count _ one_pos] at hrank
  rw [hmem] at hcode
  have hfirst : firstCode (buildLengths f).1 1 = 0 := rfl
  have hzero : (canonical (buildLengths f).1).getD i 0 = 0 := by omega
  rw [codeBits, hmem, hzero]
  rfl

/-- Settles O33: a code is the first of its length plus the symbol's rank, and the codes lie one after another in the code
space. -/
theorem canonicalCodesArePrefixFree : Obligations.CanonicalCodesArePrefixFree := by
  unfold Obligations.CanonicalCodesArePrefixFree
  intro f i j hf _ _ hi hj
  have hkraft := buildLengths_kraft hf
  have hbuilt := buildLengths_lengthsFor f
  have hi := (hbuilt.pos_iff i).mpr hi
  have hj := (hbuilt.pos_iff j).mpr hj
  refine ⟨hkraft.code_lt hi, fun hlen hij => ?_, code_prefix_free hkraft hi hj⟩
  rw [getD_canonical hkraft.le hi, getD_canonical hkraft.le hj, ← hlen]
  exact Nat.add_lt_add_left (count_take_lt hi hij) _

/-- Settles O32: the codes of two or more present symbols fill the code space, where each number lies in one code's part. -/
theorem codesAreComplete : Obligations.CodesAreComplete := by
  unfold Obligations.CodesAreComplete
  intro f hf
  have hkraft := buildLengths_kraft hf
  have hbuilt := buildLengths_lengthsFor f
  refine ⟨fun htwo => ?_, fun hone i _ hi => codeBits_single hf hone hi⟩
  have hsum := hbuilt.kraft htwo 16 hkraft.le
  refine ⟨hsum, fun bits hbits => ?_⟩
  have hv : bitsValue bits < codeEnd (buildLengths f).1 16 := by
    rw [codeEnd_last hkraft.le, hsum, ← hbits]
    exact bitsValue_lt bits
  obtain ⟨i, hi⟩ := exists_beginsWith hkraft hv
  have hpresent := (hbuilt.pos_iff i).mp hi.1
  refine ⟨i, ⟨lt_length_of_pos_getD hpresent, hpresent, (codeBits_prefix_iff hkraft hi.1 hbits).mpr hi⟩, ?_⟩
  rintro j ⟨_, hj, hprefix⟩
  exact ((codeBits_prefix_iff hkraft ((hbuilt.pos_iff j).mpr hj) hbits).mp hprefix).unique hkraft hi

end Sys2Proof.Machine
end

section
/-!
PROOFS. HBUILD (43_prefix_code.md R500): the frequencies it reads, the records it stores and what they leave unchanged.
-/

namespace Sys2Proof.Machine

open Sys2Proof.Safety

/-! ## What is read and what is stored (20_memory.md R204, R205 (a)) -/

/-- The little-endian value of four bytes of memory. -/
theorem leValue_readList_four (a : Nat) (m : Mem) :
    leValue (Mem.readList a 4 m) = (Mem.read a m).toNat + 2 ^ 8 * (Mem.read (a + 1) m).toNat
      + 2 ^ 16 * (Mem.read (a + 2) m).toNat + 2 ^ 24 * (Mem.read (a + 3) m).toNat := by
  simp only [Mem.readList_cons, leValue, Nat.add_assoc, Nat.reduceAdd]
  simp only [Mem.readList, List.range_zero, List.map_nil, leValue]
  omega

theorem readFreqs_eq {a n : Nat} {m : Mem} {freqs : List Nat} (hlen : freqs.length = n)
    (h : ∀ i < n, freqs.getD i 0 = leValue (Mem.readList (a + 4 * i) 4 m)) : readFreqs a n m = freqs := by
  refine List.ext_getElem (by simp [hlen]) fun i hi hi' => ?_
  have := h i (hlen ▸ hi')
  rw [List.getD_eq_getElem _ _ hi'] at this
  simp [readFreqs, this]

/-- A part of what `MemWrite` stored reads back as that part of the list. -/
theorem Mem.readList_writeList_part (bs : List Byte) (a : Nat) {k n : Nat} {m : Mem} (hm : m.wf = true)
    (h : k + n ≤ bs.length) : Mem.readList (a + k) n (Mem.writeList a bs m) = (bs.drop k).take n := by
  refine List.ext_getElem (by simp; omega) fun i hi _ => ?_
  rw [Mem.length_readList] at hi
  rw [Mem.readList_getElem, Nat.add_assoc, Mem.read_writeList_same bs a (k + i) hm (by omega)]
  simp

/-- Record `i`: its length, 0, and its code, low byte first (43_prefix_code.md R500). -/
theorem recordBytes_part {lens codes : List Nat} (h : lens.length = codes.length) {i : Nat} (hi : i < lens.length) :
    ((recordBytes lens codes).drop (4 * i)).take 4 =
      [BitVec.ofNat 8 (lens.getD i 0), 0, BitVec.ofNat 8 (codes.getD i 0 % 256), BitVec.ofNat 8 (codes.getD i 0 / 256)] := by
  induction lens generalizing codes i with
  | nil => exact absurd hi (Nat.not_lt_zero i)
  | cons l lens ih =>
    cases codes with
    | nil => cases h
    | cons c codes =>
      cases i with
      | zero =>
        have hlow : c &&& 0xFF = c % 256 := Nat.and_two_pow_sub_one_eq_mod c 8
        have hhigh : c >>> 8 = c / 256 := Nat.shiftRight_eq_div_pow c 8
        rw [recordBytes, hlow, hhigh]
        rfl
      | succ i => exact ih (Nat.succ.inj h) (Nat.lt_of_succ_lt_succ hi)

/-! ## The command (43_prefix_code.md R500) -/

/-- The code HBUILD builds: that of the frequency array at the source. -/
def hbuildCode (s : State) : List Nat × Nat :=
  buildLengths (readFreqs s.pend.ops.srcAddr.toNat s.pend.ops.arg0.toNat s.mem)

/-- The effects of HBUILD, before it reports. -/
def hbuildDone (s : State) : State :=
  { s with
    mem := Mem.writeList s.pend.ops.dstAddr.toNat (recordBytes (hbuildCode s).1 (canonical (hbuildCode s).1)) s.mem
    result := BitVec.ofNat 32 (4 * s.pend.ops.arg0.toNat)
    res0 := BitVec.ofNat 32 (maxOf (hbuildCode s).1)
    res1 := BitVec.ofNat 32 (hbuildCode s).2 }

section
variable {s : State}

/-- HBUILD in READY with its operands in range, over regions it may name, goes past its checks. -/
theorem exec_hbuild_checked (hr : s.isReady = true) (hregions : bothNameable s) (hmin : 1 ≤ s.pend.ops.arg0.toNat)
    (hmax : s.pend.ops.arg0.toNat ≤ 1024) (hsrc : 4 * s.pend.ops.arg0.toNat ≤ s.pend.ops.srcLen.toNat) :
    exec .hbuild s =
      if s.pend.ops.dstCap.toNat < 4 * s.pend.ops.arg0.toNat then .next (s.complete .outputBufferTooSmall)
      else afterAccesses [⟨s.pend.ops.srcAddr.toNat, 4 * s.pend.ops.arg0.toNat⟩,
          ⟨s.pend.ops.dstAddr.toNat, 4 * s.pend.ops.arg0.toNat⟩] s (.next (State.complete .ok (hbuildDone s))) := by
  obtain ⟨⟨hslegal, hsside⟩, ⟨hdlegal, hdside⟩, hoverlap⟩ := hregions
  calc exec .hbuild s
      = execHbuild s := rfl
    _ = requireOperand _ s _ := requireState_ready hr
    _ = requireRegions s.srcRegion s.dstRegion s _ := requireOperand_pass (by simp [hmin, hmax, hsrc, hbMaxSyms])
    _ = _ := requireRegions_pass hslegal hdlegal hoverlap hsside hdside

/-- One length and one code for each frequency make `4n` bytes of records. -/
theorem length_hbuildRecords :
    (recordBytes (hbuildCode s).1 (canonical (hbuildCode s).1)).length = 4 * s.pend.ops.arg0.toNat := by
  rw [length_recordBytes (length_canonical _).symm, hbuildCode, length_buildLengths, length_readFreqs]

/-- The records stand at the destination. -/
theorem hbuildDone_record (hm : s.mem.wf = true) {i : Nat} (hi : i < s.pend.ops.arg0.toNat) :
    Mem.readList (s.pend.ops.dstAddr.toNat + 4 * i) 4 (hbuildDone s).mem =
      [BitVec.ofNat 8 ((hbuildCode s).1.getD i 0), 0, BitVec.ofNat 8 ((canonical (hbuildCode s).1).getD i 0 % 256),
        BitVec.ofNat 8 ((canonical (hbuildCode s).1).getD i 0 / 256)] := by
  have hlen : (hbuildCode s).1.length = s.pend.ops.arg0.toNat := by simp [hbuildCode]
  exact (Mem.readList_writeList_part _ _ hm (by rw [length_hbuildRecords]; omega)).trans
    (recordBytes_part (length_canonical _).symm (hlen.symm ▸ hi))

/-- No byte outside the first `4n` of the destination changes. -/
theorem hbuildDone_outside {a : Nat}
    (ha : a < s.pend.ops.dstAddr.toNat ∨ s.pend.ops.dstAddr.toNat + 4 * s.pend.ops.arg0.toNat ≤ a) :
    Mem.read a (hbuildDone s).mem = Mem.read a s.mem :=
  Mem.read_writeList_other _ _ _ (by rwa [length_hbuildRecords])

/-- RES0 holds the greatest length: it is at most 16. -/
theorem hbuildDone_res0 (hmax : s.pend.ops.arg0.toNat ≤ 1024) : (hbuildDone s).res0.toNat = maxOf (hbuildCode s).1 := by
  have hle : maxOf (hbuildCode s).1 ≤ 16 := maxOf_le_iff.mpr (buildLengths_le (by simpa using hmax))
  exact (BitVec.toNat_ofNat ..).trans (Nat.mod_eq_of_lt (by omega))

/-- RES0 is not below any length, and is one of them. -/
theorem hbuildDone_res0_greatest (hmin : 1 ≤ s.pend.ops.arg0.toNat) (hmax : s.pend.ops.arg0.toNat ≤ 1024) :
    (∀ i < s.pend.ops.arg0.toNat, (hbuildCode s).1.getD i 0 ≤ (hbuildDone s).res0.toNat) ∧
      ∃ i < s.pend.ops.arg0.toNat, (hbuildCode s).1.getD i 0 = (hbuildDone s).res0.toNat := by
  have hlen : (hbuildCode s).1.length = s.pend.ops.arg0.toNat := by simp [hbuildCode]
  have hne : (hbuildCode s).1 ≠ [] := List.length_pos_iff.mp (hlen.symm ▸ hmin)
  obtain ⟨hmem, hge⟩ := maxOf_mem_and_ge hne
  obtain ⟨j, hj, hmaxOf⟩ := List.getElem_of_mem hmem
  rw [hbuildDone_res0 hmax, ← hlen]
  refine ⟨fun i hi => ?_, j, hj, (List.getD_eq_getElem _ _ hj).trans hmaxOf⟩
  rw [List.getD_eq_getElem _ _ hi]
  exact hge _ (List.getElem_mem hi)

end

/-- Settles O34: HBUILD passes its checks and then stops for want of room or ends with `hbuildDone`. -/
theorem hbuildCompletes : Obligations.HbuildCompletes := by
  unfold Obligations.HbuildCompletes
  rintro s n freqs lens codes passes hr hregions rfl hmin hmax hsrc hlen hfreqs hbuilt rfl
  have hread := readFreqs_eq hlen fun i hi => (hfreqs i hi).trans (leValue_readList_four _ _).symm
  obtain ⟨rfl, rfl⟩ := Prod.mk.inj (hbuilt.trans (congrArg buildLengths hread.symm))
  have hexec := exec_hbuild_checked hr hregions hmin hmax hsrc
  refine ⟨fun hfull => hexec.trans (if_pos hfull), fun hroom hm hbus => ?_⟩
  have hdone := (hexec.trans (if_neg (Nat.not_lt.mpr hroom))).trans (afterAccesses_pass hbus)
  exact ⟨_, hdone, rfl, fun i hi => hbuildDone_record hm hi, fun a ha => hbuildDone_outside ha,
    hbuildDone_res0_greatest hmin hmax⟩

end Sys2Proof.Machine
end

section
/-!
PROOFS. The code of equal frequencies whose number is a power of two (43_prefix_code.md R482): items of a power of two in weight
can only merge in pairs of one weight, so every codeword has the same length.
-/

namespace Sys2Proof.Machine

open Sys2Proof.Safety

/-- What the merging loop keeps when it starts from `2^k` leaves of weight 1: every item weighs as much as the leaves of a
perfect tree of its height. -/
structure Perfect (k : Nat) (ps qs : List HItem) : Prop where
  balanced : Balanced (2 ^ k) ps qs
  weight   : ∀ x ∈ ps ++ qs, x.1 = 2 ^ x.2.height

/-- Of powers of two whose sum is a power of two, a lightest one is not alone in its weight. -/
theorem not_lt_of_sum_two_pow {k g h : Nat} {l : List Nat} (hsum : 2 ^ g + (2 ^ h + l.sum) = 2 ^ k)
    (hl : ∀ x ∈ l, ∃ j, h ≤ j ∧ x = 2 ^ j) : ¬ g < h := by
  intro hlt
  have hdvd {j : Nat} (hj : h ≤ j) : 2 ^ (g + 1) ∣ 2 ^ j := Nat.pow_dvd_pow 2 (by omega)
  have hgk : g < k := (Nat.pow_lt_pow_iff_right one_lt_two).mp (by have := Nat.two_pow_pos h; omega)
  have hrest : 2 ^ (g + 1) ∣ 2 ^ h + l.sum := (hdvd le_rfl).add (List.dvd_sum fun x hx => by
    obtain ⟨j, hj, rfl⟩ := hl x hx
    exact hdvd hj)
  have hself : 2 ^ (g + 1) ∣ 2 ^ g := (Nat.dvd_add_left hrest).mp (hsum ▸ Nat.pow_dvd_pow 2 hgk)
  exact absurd ((Nat.pow_dvd_pow_iff_le_right one_lt_two).mp hself) (Nat.not_succ_le_self g)

/-- A round of the merging loop merges two trees of one height. -/
theorem perfect_merge {k : Nat} {ps qs ps1 qs1 ps2 qs2 : List HItem} {a b : HItem} (hI : Perfect k ps qs)
    (h1 : takeLightest ps qs = some (a, ps1, qs1)) (h2 : takeLightest ps1 qs1 = some (b, ps2, qs2)) :
    Perfect k ps2 (qs2 ++ [(a.1 + b.1, HTree.node a.2 b.2)]) := by
  obtain ⟨hbalanced, hweight⟩ := hI
  have hperm2 := takeLightest_perm h2
  obtain ⟨hps1, hqs1, hmin1⟩ := takeLightest_byWeight h1 hbalanced.leaves hbalanced.nodes
  obtain ⟨-, -, hmin2⟩ := takeLightest_byWeight h2 hps1 hqs1
  have hall : (ps ++ qs).Perm (a :: b :: (ps2 ++ qs2)) := (takeLightest_perm h1).trans (hperm2.cons a)
  have hwt {x : HItem} (hx : x ∈ a :: b :: (ps2 ++ qs2)) : x.1 = 2 ^ x.2.height := hweight x (hall.symm.subset hx)
  have ha : a.1 = 2 ^ a.2.height := hwt (by simp)
  have hb : b.1 = 2 ^ b.2.height := hwt (by simp)
  have hle {x y : HItem} (hx : x.1 = 2 ^ x.2.height) (hy : y.1 = 2 ^ y.2.height) (hxy : x.1 ≤ y.1) :
      x.2.height ≤ y.2.height := (Nat.pow_le_pow_iff_right one_lt_two).mp (hx ▸ hy ▸ hxy)
  have hsum := (hall.map Prod.fst).sum_eq
  rw [hbalanced.total, List.map_cons, List.map_cons, List.sum_cons, List.sum_cons, ha, hb] at hsum
  have hsame : a.2.height = b.2.height := by
    refine Nat.le_antisymm (hle ha hb (hmin1 b (hperm2.symm.subset (by simp)))) (Nat.le_of_not_lt ?_)
    refine not_lt_of_sum_two_pow hsum.symm fun x hx => ?_
    obtain ⟨y, hy, rfl⟩ := List.mem_map.mp hx
    have hyw := hwt (x := y) (by simp [List.mem_append.mp hy])
    exact ⟨_, hle hb hyw (hmin2 y hy), hyw⟩
  refine ⟨balanced_merge hbalanced h1 h2, fun x hx => ?_⟩
  rw [← List.append_assoc, List.mem_append, List.mem_singleton] at hx
  obtain hx | rfl := hx
  · exact hwt (by simp [List.mem_append.mp hx])
  · rw [HTree.height, ha, hb, hsame, Nat.max_self, pow_succ]
    omega

/-- The leaves of weights of at most 1. -/
theorem leafQueue_of_ones {f : List Nat} (hf : ∀ w ∈ f, w ≤ 1) {a : HItem} (ha : a ∈ leafQueue f) :
    a.1 = 1 ∧ a.2.height = 0 := by
  obtain ⟨w, _, rfl, hw, hpos⟩ := mem_leafQueue ha
  exact ⟨Nat.le_antisymm (hf w hw) hpos, rfl⟩

/-- From `2^k` leaves of weight 1 the loop ends with a tree of height `k`. -/
theorem mergeLoop_perfect {k : Nat} {ps : List HItem} (hlen : ps.length = 2 ^ k) (hps : ∀ x ∈ ps, x.1 = 1 ∧ x.2.height = 0)
    {t : HTree} (ht : mergeLoop ps.length ps [] = some t) : t.height = k := by
  have hstart : Perfect k ps [] :=
    { balanced := hlen ▸ balanced_leaves (fun x hx => (hps x hx).1) fun x hx => (hps x hx).2
      weight := fun x hx => by
        obtain ⟨hone, hleaf⟩ := hps x (by simpa using hx)
        rw [hone, hleaf, pow_zero] }
  obtain ⟨a, ps', qs', ha, hI, hroot⟩ := mergeLoop_rule (I := Perfect k) perfect_merge hstart
    (by simp [hlen]) (n := ps.length) (by simp)
  obtain rfl : a.2 = t := Option.some.inj (ha.symm.trans ht)
  have htotal := (hroot.map Prod.fst).sum_eq
  rw [hI.balanced.total, List.map_singleton, List.sum_singleton, hI.weight a (hroot.symm.subset (by simp))] at htotal
  exact (Nat.pow_right_injective le_rfl htotal).symm

theorem presentCount_replicate_one (n : Nat) : presentCount (List.replicate n 1) = n := by
  simp [presentCount]

/-- No length of `2^k` equal frequencies exceeds `k`. -/
theorem huffOnce_pow_ones_le {k : Nat} (hk : 1 ≤ k) : ∀ x ∈ huffOnce (List.replicate (2 ^ k) 1), x ≤ k := by
  have hones : ∀ w ∈ List.replicate (2 ^ k) 1, w ≤ 1 := fun w hw => (List.eq_of_mem_replicate hw).le
  have hcount : (leafQueue (List.replicate (2 ^ k) 1)).length = 2 ^ k :=
    (length_leafQueue _).trans (presentCount_replicate_one _)
  have htwo : 2 ≤ 2 ^ k := Nat.le_self_pow (by omega) 2
  obtain ⟨hq, -⟩ | ⟨a, hq, -⟩ | ⟨t, -, ht, -, hout⟩ := huffOnce_cases (List.replicate (2 ^ k) 1)
  · rw [hq, List.length_nil] at hcount
    omega
  · rw [hq, List.length_singleton] at hcount
    omega
  · have hheight := mergeLoop_perfect hcount (fun x hx => leafQueue_of_ones hones hx) ht
    rw [hout]
    exact lengthsOf_le fun p hp => (HTree.depth_le hp).trans (by omega)

/-- Lengths within the limit need no halving pass (43_prefix_code.md R483). -/
theorem buildLengths_of_le {f : List Nat} (h : ∀ x ∈ huffOnce f, x ≤ maxCodeLen) : (buildLengths f).1 = huffOnce f := by
  rw [buildLengths, limitLoop, if_pos (maxOf_le_iff.mpr h)]

/-- `2^k` equal frequencies give lengths of `k` bits: shorter ones would take more than the whole code space. -/
theorem buildLengths_pow_ones {k : Nat} (hk : 1 ≤ k) (hmax : k ≤ 16) :
    (buildLengths (List.replicate (2 ^ k) 1)).1 = List.replicate (2 ^ k) k := by
  have hle := huffOnce_pow_ones_le hk
  rw [buildLengths_of_le fun x hx => (hle x hx).trans hmax]
  obtain ⟨hlength, -, hcount, hkraft, -⟩ := huffOnce_lengthsFor (List.replicate (2 ^ k) 1)
  rw [List.length_replicate] at hlength
  rw [presentCount_replicate_one] at hcount hkraft
  have hall := List.filter_eq_self.mpr (List.length_filter_eq_length_iff.mp (hcount.trans hlength.symm))
  have hsum := hkraft (Nat.le_self_pow (by omega) 2) k hle
  rw [hall] at hsum
  refine List.eq_replicate_iff.mpr ⟨hlength, fun x hx => Nat.le_antisymm (hle x hx) (Nat.le_of_not_lt fun hlt => ?_)⟩
  have hmore := List.sum_lt_sum (l := huffOnce (List.replicate (2 ^ k) 1)) (fun _ => 1) (fun x => 2 ^ (k - x))
    (fun y _ => Nat.one_le_two_pow) ⟨x, hx, Nat.one_lt_two_pow (by omega)⟩
  rw [hsum, List.map_const', List.sum_replicate, hlength, smul_eq_mul, mul_one] at hmore
  exact Nat.lt_irrefl _ hmore

end Sys2Proof.Machine
end

section
/-!
PROOFS. The adaptive tables (44_adaptive_codec.md R521 to R528, R550) and the commands that reset and read one (R540, R543 to
R545): the initial tables, the schedule of the update, and what TRESET, TCOST, TREAD and TSTAT leave unchanged.
-/

namespace Sys2Proof.Machine

open Sys2Proof.Safety

/-! ## The initial tables (44_adaptive_codec.md R550) -/

/-- The lengths of `a + b` symbols, of which the first `a` have one bit more than the others. -/
def twoLengths (a b l : Nat) : List Nat :=
  List.replicate a (l + 1) ++ List.replicate b l

section
variable {a b l i : Nat}

@[simp] theorem length_twoLengths : (twoLengths a b l).length = a + b := by
  simp [twoLengths]

theorem mem_twoLengths {x : Nat} (h : x ∈ twoLengths a b l) : l ≤ x ∧ x ≤ l + 1 := by
  obtain h | h := List.mem_append.mp h <;> rw [List.eq_of_mem_replicate h] <;> omega

theorem getD_twoLengths_long (hi : i < a) : (twoLengths a b l).getD i 0 = l + 1 := by
  rw [twoLengths, List.getD_append _ _ _ _ (by simpa using hi), List.getD_replicate _ hi]

theorem getD_twoLengths_short (hi : a ≤ i) (hin : i < a + b) : (twoLengths a b l).getD i 0 = l := by
  rw [twoLengths, List.getD_append_right _ _ _ _ (by simpa using hi),
    List.getD_replicate _ (by rw [List.length_replicate]; omega)]

theorem count_take_twoLengths_long (hi : i ≤ a) : ((twoLengths a b l).take i).count (l + 1) = i := by
  rw [twoLengths, List.take_append_of_le_length (by simpa using hi), List.take_replicate, List.count_replicate_self,
    Nat.min_eq_left hi]

theorem count_take_twoLengths_short (hi : a ≤ i) (hin : i ≤ a + b) : ((twoLengths a b l).take i).count l = i - a := by
  rw [twoLengths, List.take_append, List.take_of_length_le (by simpa using hi), List.take_replicate, List.length_replicate,
    List.count_append, List.count_replicate_self, List.count_replicate, if_neg (by simp)]
  omega

/-- The first code of a length below which no symbol lies is 0 (43_prefix_code.md R485). -/
theorem firstCode_eq_zero {len : List Nat} (h : ∀ x ∈ len, l ≤ x) : firstCode len l = 0 := by
  induction l with
  | zero => rfl
  | succ l ih =>
    have hnone : len.filter (fun x => x == l) = [] := List.filter_eq_nil_iff.mpr fun x hx => by
      have := h x hx
      rw [beq_iff_eq]
      omega
    rw [firstCode, ih fun x hx => Nat.le_of_succ_le (h x hx), blCount, hnone, List.length_nil, ite_self]
    rfl

theorem firstCode_twoLengths_short : firstCode (twoLengths a b l) l = 0 :=
  firstCode_eq_zero fun _ hx => (mem_twoLengths hx).1

theorem firstCode_twoLengths_long (hl : 1 ≤ l) : firstCode (twoLengths a b l) (l + 1) = 2 * b := by
  have hcount := count_take_twoLengths_short (a := a) (b := b) (l := l) (Nat.le_add_right a b) le_rfl
  rw [List.take_of_length_le (by simp), Nat.add_sub_cancel_left] at hcount
  rw [firstCode, firstCode_twoLengths_short, blCount_eq_count _ hl, hcount, Nat.zero_add, Nat.shiftLeft_eq, Nat.pow_one,
    Nat.mul_comm]

/-- The shorter codes are 0 to `b - 1`, and the longer ones follow from `2b` on (43_prefix_code.md R485). -/
theorem canonical_twoLengths (hl : 1 ≤ l) (hmax : l + 1 ≤ 16) :
    canonical (twoLengths a b l) = (List.range a).map (fun s => 2 * b + s) ++ List.range b := by
  have hcode {i : Nat} := getD_canonical (fun x hx => (mem_twoLengths (a := a) (b := b) hx).2.trans hmax) (i := i)
  refine List.ext_getElem (by simp) fun i hi _ => ?_
  rw [← List.getD_eq_getElem _ 0 hi]
  rw [length_canonical, length_twoLengths] at hi
  by_cases hia : i < a
  · have hlen := getD_twoLengths_long (b := b) (l := l) hia
    rw [hcode (by omega), hlen, firstCode_twoLengths_long hl, count_take_twoLengths_long hia.le,
      List.getElem_append_left (by simpa using hia), List.getElem_map, List.getElem_range]
  · have hai : a ≤ i := Nat.le_of_not_lt hia
    have hlen := getD_twoLengths_short (l := l) hai hi
    rw [hcode (by omega), hlen, firstCode_twoLengths_short, count_take_twoLengths_short hai hi.le, Nat.zero_add,
      List.getElem_append_right (by simpa using hai), List.getElem_range, List.length_map, List.length_range]

end

/-- An initial code over two lengths, whatever the configuration. -/
theorem initTable_twoLengths (lc : LCfg) {n a b l : Nat} (hl : 1 ≤ l) (hmax : l + 1 ≤ 16)
    (h : (buildLengths (List.replicate n 1)).1 = twoLengths a b l) :
    (initTable lc n).len = twoLengths a b l ∧
      (initTable lc n).code = (List.range a).map (fun s => 2 * b + s) ++ List.range b :=
  ⟨h, (congrArg canonical h).trans (canonical_twoLengths hl hmax)⟩

/-- The initial code of an alphabet of `2^(l+1)` symbols: the codes have one length, and each symbol's code is its id. -/
theorem initTable_two_pow (lc : LCfg) {l : Nat} (hl : 1 ≤ l) (hmax : l + 1 ≤ 16) :
    (initTable lc (2 ^ (l + 1))).len = List.replicate (2 ^ (l + 1)) (l + 1) ∧
      (initTable lc (2 ^ (l + 1))).code = List.range (2 ^ (l + 1)) := by
  have hbuilt := buildLengths_pow_ones (Nat.le_add_left 1 l) hmax
  obtain ⟨-, hcode⟩ := initTable_twoLengths lc (b := 0) hl hmax (hbuilt.trans (List.append_nil _).symm)
  exact ⟨hbuilt, hcode.trans (by simp)⟩

/-- Settles O35: equal frequencies give at most two lengths, the longer ones first, and the codes follow from the lengths. -/
theorem initialTables : Obligations.InitialTables := by
  unfold Obligations.InitialTables
  intro lc
  obtain ⟨hlen3, hcode3⟩ := initTable_twoLengths lc (n := 3) (a := 2) (b := 1) (l := 1) (by decide) (by decide) (by decide)
  obtain ⟨hlen256, hcode256⟩ := initTable_two_pow lc (l := 7) (by decide) (by decide)
  obtain ⟨hlen16, hcode16⟩ := initTable_two_pow lc (l := 3) (by decide) (by decide)
  obtain ⟨hlen40, hcode40⟩ := initTable_twoLengths lc (n := 40) (a := 16) (b := 24) (l := 5) (by decide) (by decide)
    (by decide +kernel)
  obtain ⟨hlen30, hcode30⟩ := initTable_twoLengths lc (n := 30) (a := 28) (b := 2) (l := 4) (by decide) (by decide)
    (by decide +kernel)
  exact ⟨hlen3, hcode3, hlen256, hcode256, hlen16, hcode16, hlen40, hcode40, hlen30, hcode30⟩

/-! ## The update schedule (44_adaptive_codec.md R525 to R528) -/

/-- Counting a symbol of the alphabet adds one to the sum of the frequencies. -/
theorem sum_modify_succ {f : List Nat} {i : Nat} (h : i < f.length) :
    (f.modify i (fun x => x + 1)).sum = f.sum + 1 := by
  induction f generalizing i with
  | nil => exact absurd h (Nat.not_lt_zero i)
  | cons x f ih =>
    cases i with
    | zero => simp only [List.modify_zero_cons, List.sum_cons]; omega
    | succ i => simp only [List.modify_succ_cons, List.sum_cons, ih (Nat.lt_of_succ_lt_succ h)]; omega

theorem grownInterval_eq (lc : LCfg) (i : Nat) : grownInterval lc i = min lc.maxint (i * lc.slow / 16) := by
  rw [grownInterval, Nat.shiftRight_eq_div_pow]

/-- A rebuild never shortens the interval: SLOW_RATE is at least 16 sixteenths (44_adaptive_codec.md R528 (e)). -/
theorem le_grownInterval {lc : LCfg} {i : Nat} (hmax : i ≤ lc.maxint) (hslow : 16 ≤ lc.slow) : i ≤ grownInterval lc i := by
  have hgrow : i * 16 ≤ i * lc.slow := Nat.mul_le_mul_left i hslow
  rw [grownInterval_eq]
  omega

/-- The decay of the frequencies one symbol later: they are halved when their sum passed the limit (R526). -/
theorem decayFreqs_counted {f : List Nat} {i : Nat} (h : i < f.length) :
    decayFreqs (f.modify i (fun x => x + 1)) =
      if 65536 < f.sum + 1 then (f.modify i (fun x => x + 1)).map (fun x => max 1 (x / 2))
      else f.modify i (fun x => x + 1) := by
  simp only [decayFreqs, sum_modify_succ h, freqSumLimit, Nat.shiftRight_one, gt_iff_lt]

theorem update_interval_ge {lc : LCfg} {n : Nat} {t : Table} (hslow : 16 ≤ lc.slow) (sym : Nat) (h : TableSound lc n t) :
    t.interval ≤ (t.update lc sym).interval := by
  by_cases hc : t.countdown - 1 = 0
  · rw [update_renewing lc sym hc]
    exact le_grownInterval h.interval_le hslow
  · rw [update_counting lc sym hc]

/-- Settles O36: before the countdown ends the symbol is only counted, and at its end the table is renewed. -/
theorem updateFollowsTheSchedule : Obligations.UpdateFollowsTheSchedule := by
  unfold Obligations.UpdateFollowsTheSchedule
  intro p lc n sym t hlc ht hsym hn
  have hin : sym < t.freq.length := ht.shape.freq_length.symm ▸ hsym
  refine ⟨fun hc => update_counting lc sym (by omega), fun hc => ?_, update_interval_ge hlc.slow_ge sym ht,
    update_sound hlc (Nat.one_le_of_lt hsym) sym ht, ?_⟩
  · rw [update_renewing lc sym (by omega)]
    exact ⟨decayFreqs_counted hin, rfl, rfl, grownInterval_eq lc t.interval, rfl⟩
  · have hsum := ht.freq_sum
    have hinterval := ht.interval_le
    have hmax := hlc.maxint_le
    omega

/-! ## TRESET (44_adaptive_codec.md R540) -/

/-- Settles O37: in READY the class's table becomes the initial one for its alphabet. -/
theorem tresetCompletes : Obligations.TresetCompletes := by
  unfold Obligations.TresetCompletes
  intro s c hr
  have hexec : exec (.treset c) s = .next (State.complete .ok
      { s with tab := s.tab.set c (initTable s.lcfg (s.tab.get c).n) }) := requireState_ready hr
  refine ⟨_, hexec, rfl, fun d hd => Tabs.get_set_other _ _ hd, ?_⟩
  simp only [complete_tab, Tabs.get_set_same]
  exact ⟨rfl, rfl, rfl, rfl, rfl, rfl⟩

/-! ## The commands that read a table (44_adaptive_codec.md R543 to R545) -/

/-- A command over a symbol of its class's alphabet, in READY, goes past its checks. -/
theorem requireSymbol_pass {s : State} {c : SymClass} {body : Result} (hr : s.isReady = true)
    (hsym : s.pend.ops.arg0.toNat < (s.tab.get c).n) :
    requireState s.isReady s (requireOperand (s.symOk c) s body) = body :=
  (requireState_ready hr).trans (requireOperand_pass (decide_eq_true hsym))

/-- Settles O40: past their checks the three commands write result registers only. -/
theorem tableReadsComplete : Obligations.TableReadsComplete := by
  unfold Obligations.TableReadsComplete
  rintro s c t sym hr rfl rfl
  exact ⟨fun hsym => ⟨requireSymbol_pass hr hsym, requireSymbol_pass hr hsym⟩, requireState_ready hr⟩

end Sys2Proof.Machine
end

section
/-!
PROOFS. Coding one symbol (44_adaptive_codec.md R530, R531, R541, R542): TENC appends the symbol's code, and decoding inverts
it: the canonical code's first bits are a code value of their own length only when they are all of it (43_prefix_code.md R490,
R491).
-/

namespace Sys2Proof.Machine

open Sys2Proof.Safety

/-! ## TENC (44_adaptive_codec.md R541) -/

/-- Encoding a symbol whose code fits (44_adaptive_codec.md R530). -/
theorem encSym_of_putbits {lc : LCfg} {c : SymClass} {sym : Nat} {e : Enc} {k : Sink}
    (h : putbits ((e.tab.get c).len.getD sym 0) ((e.tab.get c).code.getD sym 0) e.sink = .ok k) :
    encSym lc c sym e = .ok ⟨k, e.tab.set c ((e.tab.get c).update lc sym)⟩ := by
  simp only [encSym, h]

/-- Encoding a symbol whose code does not fit (44_adaptive_codec.md R530). -/
theorem encSym_of_full {lc : LCfg} {c : SymClass} {sym : Nat} {e : Enc} {x : Full}
    (h : putbits ((e.tab.get c).len.getD sym 0) ((e.tab.get c).code.getD sym 0) e.sink = .error x) :
    encSym lc c sym e = .error x := by
  simp only [encSym, h]

/-- TENC in READY of a symbol of the alphabet goes past its checks. -/
theorem exec_tenc_ready {s : State} {c : SymClass} (hr : s.isReady = true)
    (hsym : s.pend.ops.arg0.toNat < (s.tab.get c).n) :
    exec (.tenc c) s = finishStore ((encSym s.lcfg c s.pend.ops.arg0.toNat ⟨⟨s.wc, s.mem⟩, s.tab⟩).map
      (fun e => { s.withSink e.sink with tab := e.tab })) s :=
  requireSymbol_pass hr hsym

/-- Settles O38: with room, `putbits` appends the code and the table is updated; without, the command ends before any store. -/
theorem tencCompletes : Obligations.TencCompletes := by
  unfold Obligations.TencCompletes
  rintro s c sym hr hw hm rfl hsym
  rw [exec_tenc_ready hr hsym]
  cases hput : putbits ((s.tab.get c).len.getD s.pend.ops.arg0.toNat 0) ((s.tab.get c).code.getD s.pend.ops.arg0.toNat 0)
      ⟨s.wc, s.mem⟩ with
  | ok k =>
    obtain ⟨hroom, _, _⟩ := putbits_ok hput
    have hfits := of_decide_eq_true hroom
    have hwrote := putbits_wrote hput hw.nacc_lt hm
    rw [encSym_of_putbits (e := ⟨⟨s.wc, s.mem⟩, s.tab⟩) hput]
    refine ⟨fun _ hallow => ?_, fun hfull => absurd hfits (Nat.not_le.mpr hfull)⟩
    have hend := finishStore_wrote
      (u := { s.withSink k with tab := s.tab.set c ((s.tab.get c).update s.lcfg s.pend.ops.arg0.toNat) })
      hw hwrote (by rwa [length_msbBits])
    exact ⟨_, hend, rfl, hwrote, putbits_wcOk hput hw, fun d hd => Tabs.get_set_other _ _ hd, Tabs.get_set_same ..⟩
  | error e =>
    obtain ⟨_, hroom⟩ := putbits_error hput
    have hfull := of_decide_eq_false hroom
    rw [encSym_of_full (e := ⟨⟨s.wc, s.mem⟩, s.tab⟩) hput]
    exact ⟨fun hfits => absurd hfits hfull, fun _ => rfl⟩

/-! ## The symbols of one length (43_prefix_code.md R490) -/

/-- The symbol whose rank among those of its length is `k` stands at place `k` of the sorted symbols of that length. -/
theorem symbolsOfLength_rank {len : List Nat} {i : Nat} (s : Nat) (h : i < len.length) :
    (symbolsOfLength (len.getD i 0) s len).getD ((len.take i).count (len.getD i 0)) 0 = s + i := by
  induction len generalizing s i with
  | nil => exact absurd h (Nat.not_lt_zero i)
  | cons x len ih =>
    cases i with
    | zero => simp [symbolsOfLength]
    | succ i =>
      have hrest := ih (s + 1) (Nat.lt_of_succ_lt_succ h)
      rw [Nat.add_right_comm, Nat.add_assoc] at hrest
      rw [List.getD_cons_succ, List.take_succ_cons, symbolsOfLength]
      split
      · rename_i hx
        rw [List.count_cons, beq_iff_eq.mpr hx, if_pos rfl, List.getD_cons_succ, hrest]
      · rename_i hx
        rw [List.count_cons_of_ne hx, hrest]

section
variable {len : List Nat} {m : Mem} {r : RCur} {i k : Nat}

/-- A symbol's code, as a value of its length, is sorted to the symbol. -/
theorem sortedAt_code (h : Kraft len) (hi : 0 < len.getD i 0) :
    sortedAt len (len.getD i 0) ((canonical len).getD i 0 - firstCode len (len.getD i 0)) = i := by
  rw [getD_canonical h.le hi, Nat.add_sub_cancel_left, sortedAt, symbolsOfLength_rank 0 (lt_length_of_pos_getD hi),
    Nat.zero_add]

/-- A code without its last `k` bits is a code value of its own length only when `k` is 0 (43_prefix_code.md R486). -/
theorem code_cut_inside_iff (h : Kraft len) (hk : k < len.getD i 0) :
    (firstCode len (len.getD i 0 - k) ≤ (canonical len).getD i 0 >>> k ∧
      (canonical len).getD i 0 >>> k < firstCode len (len.getD i 0 - k) + blCount len (len.getD i 0 - k)) ↔ k = 0 := by
  have hle := h.getD_le i
  obtain ⟨l, hl⟩ : ∃ l, len.getD i 0 - k = l + 1 := ⟨len.getD i 0 - k - 1, by omega⟩
  have hbegins : BeginsWith len ((canonical len).getD i 0 <<< (16 - len.getD i 0)) i :=
    ⟨by omega, Nat.shiftLeft_shiftRight ..⟩
  obtain ⟨hfirst, hlast⟩ := hbegins.inside h
  have hexp : 16 - (l + 1) = 16 - len.getD i 0 + k := by omega
  have hcut : (canonical len).getD i 0 >>> k =
      ((canonical len).getD i 0 <<< (16 - len.getD i 0)) >>> (16 - (l + 1)) := by
    rw [hexp, Nat.shiftRight_add, Nat.shiftLeft_shiftRight]
  rw [hl, hcut, shiftRight_inside_iff len (by omega)]
  constructor
  · rintro ⟨_, hbelow⟩
    by_contra hne
    have := codeEnd_mono len (l := l + 1) (m := len.getD i 0 - 1) (by omega) (by omega)
    omega
  · rintro rfl
    rw [← hl, Nat.sub_zero, show l = len.getD i 0 - 1 by omega]
    exact ⟨hfirst, hlast⟩

/-! ## The loop of `decode_sym` along a code (43_prefix_code.md R490) -/

/-- A number without its last `k + 1` bits, then the bit before the last `k`. -/
theorem shiftRight_succ_append_bit (v k : Nat) : ((v >>> (k + 1)) <<< 1) ||| (v.testBit k).toNat = v >>> k := by
  rw [shiftLeft_or_bit, Nat.shiftRight_succ, Nat.toNat_testBit, ← Nat.shiftRight_eq_div_pow]
  exact Nat.div_add_mod ..

theorem getbit_of_unread {b : Bool} {bits : List Bool} (hr : RCurOk r) (h : unreadBits r m = b :: bits) :
    getbit m r = .ok (b.toNat, advanceRead 1 r) ∧ RCurOk (advanceRead 1 r) ∧ unreadBits (advanceRead 1 r) m = bits := by
  have hunread : 1 ≤ r.unread := by rw [← length_unreadBits r m, h]; exact Nat.succ_pos _
  obtain ⟨hok, -⟩ := takeBit_rcOk (m := m) hr hunread
  obtain ⟨hbit, hrest⟩ := List.cons.inj ((unreadBits_eq_cons m hr hunread).symm.trans h)
  have htake : takeBit m r = (b.toNat, advanceRead 1 r) :=
    Prod.ext (by rw [takeBit_bit, hbit]) (takeBit_cursor m (rcurOk_bit_lt hr))
  refine ⟨?_, by rwa [htake] at hok, hrest⟩
  rw [getbit, if_neg (Nat.not_lt.mpr hunread), htake]

/-- The loop's round at the bit of a code that has `k` bits after it: the symbol is found when the bit is the last one. -/
theorem decodeLoop_code_bit {n : Nat} {bits : List Bool} (h : Kraft len) (hk : k < len.getD i 0) (hr : RCurOk r)
    (hbits : unreadBits r m = ((canonical len).getD i 0).testBit k :: bits) :
    decodeLoop m len (n + 1) (len.getD i 0 - k) ((canonical len).getD i 0 >>> (k + 1)) r =
      if k = 0 then .ok (i, advanceRead 1 r)
      else decodeLoop m len n (len.getD i 0 - k + 1) ((canonical len).getD i 0 >>> k) (advanceRead 1 r) := by
  obtain ⟨hget, -, -⟩ := getbit_of_unread hr hbits
  rw [decodeLoop, hget]
  dsimp only
  rw [shiftRight_succ_append_bit, ← Bool.decide_and]
  simp only [decide_eq_true_eq, code_cut_inside_iff h hk]
  split
  · rename_i hzero
    subst hzero
    rw [Nat.sub_zero, Nat.shiftRight_zero, sortedAt_code h hk]
  · rfl

/-- The rest of a code, and whatever follows, decodes to its symbol and consumes that rest. -/
theorem decodeLoop_code {n : Nat} {rest : List Bool} (h : Kraft len) (hk : k < len.getD i 0) (hn : k < n) (hr : RCurOk r)
    (hbits : unreadBits r m = msbBits (k + 1) ((canonical len).getD i 0) ++ rest) :
    decodeLoop m len n (len.getD i 0 - k) ((canonical len).getD i 0 >>> (k + 1)) r = .ok (i, advanceRead (k + 1) r) := by
  induction k generalizing n r with
  | zero =>
    obtain ⟨n, rfl⟩ := Nat.exists_eq_add_one.mpr hn
    rw [decodeLoop_code_bit h hk hr hbits, if_pos rfl]
  | succ k ih =>
    obtain ⟨n, rfl⟩ := Nat.exists_eq_add_one.mpr (Nat.zero_lt_of_lt hn)
    obtain ⟨-, hok, hrest⟩ := getbit_of_unread hr hbits
    have hnext : len.getD i 0 - (k + 1) + 1 = len.getD i 0 - k := by omega
    rw [decodeLoop_code_bit h hk hr hbits, if_neg (Nat.succ_ne_zero k), hnext, ih (by omega) (by omega) hok hrest,
      advanceRead_advanceRead, Nat.add_comm 1]

/-- Without an unread bit the loop stops where it stands. -/
theorem decodeLoop_no_bit {n l code : Nat} (h : unreadBits r m = []) :
    decodeLoop m len (n + 1) l code r = .error ⟨.truncatedStream, r⟩ := by
  have hnone : r.unread = 0 := by rw [← length_unreadBits r m, h]; rfl
  rw [decodeLoop, getbit, if_pos (by omega)]

/-- Where the unread bits end inside the rest of a code, all of them are read and the stream is truncated. -/
theorem decodeLoop_truncated {n : Nat} {bits missing : List Bool} (h : Kraft len) (hk : k < len.getD i 0) (hn : k < n)
    (hr : RCurOk r) (hbits : unreadBits r m = bits) (hmissing : missing ≠ [])
    (hcode : bits ++ missing = msbBits (k + 1) ((canonical len).getD i 0)) :
    decodeLoop m len n (len.getD i 0 - k) ((canonical len).getD i 0 >>> (k + 1)) r =
      .error ⟨.truncatedStream, advanceRead bits.length r⟩ := by
  obtain ⟨n, rfl⟩ := Nat.exists_eq_add_one.mpr (Nat.zero_lt_of_lt hn)
  induction bits generalizing k n r with
  | nil => rw [decodeLoop_no_bit hbits, List.length_nil, advanceRead_zero (rcurOk_bit_lt hr)]
  | cons b bits ih =>
    obtain ⟨rfl, hrest⟩ := List.cons.inj hcode
    obtain ⟨-, hok, hunread⟩ := getbit_of_unread hr hbits
    cases k with
    | zero => exact absurd (List.append_eq_nil_iff.mp hrest).2 hmissing
    | succ k =>
      obtain ⟨n, rfl⟩ := Nat.exists_eq_add_one.mpr (show 0 < n by omega)
      have hnext : len.getD i 0 - (k + 1) + 1 = len.getD i 0 - k := by omega
      rw [decodeLoop_code_bit h hk hr hbits, if_neg (Nat.succ_ne_zero k), hnext,
        ih (by omega) hok hunread hrest n (by omega), advanceRead_advanceRead, List.length_cons, Nat.add_comm 1]

/-! ## `decode_sym` (43_prefix_code.md R490, R491) -/

/-- `decode_sym` starts before the first bit of any symbol's code. -/
theorem decodeSym_eq_decodeLoop_code (h : Kraft len) (hi : 0 < len.getD i 0) :
    decodeSym m len r = decodeLoop m len 16 (len.getD i 0 - (len.getD i 0 - 1))
      ((canonical len).getD i 0 >>> (len.getD i 0 - 1 + 1)) r := by
  have hfirst : len.getD i 0 - (len.getD i 0 - 1) = 1 := by omega
  have hnone : (canonical len).getD i 0 >>> (len.getD i 0 - 1 + 1) = 0 := by
    rw [Nat.sub_add_cancel hi, Nat.shiftRight_eq_div_pow, Nat.div_eq_of_lt (h.code_lt hi)]
  rw [hfirst, hnone, decodeSym, maxCodeLen]

/-- When the unread bits begin with a symbol's code, `decode_sym` gives the symbol and consumes exactly its code. -/
theorem decodeSym_code {rest : List Bool} (h : Kraft len) (hi : 0 < len.getD i 0) (hr : RCurOk r)
    (hbits : unreadBits r m = codeBits len (canonical len) i ++ rest) :
    decodeSym m len r = .ok (i, advanceRead (len.getD i 0) r) := by
  have hle := h.getD_le i
  have hone : len.getD i 0 - 1 + 1 = len.getD i 0 := Nat.sub_add_cancel hi
  rw [decodeSym_eq_decodeLoop_code h hi, decodeLoop_code h (by omega) (by omega) hr (by rwa [hone]), hone]

/-- When the unread bits end inside a symbol's code, `decode_sym` reads them all and the stream is truncated. -/
theorem decodeSym_truncated {missing : List Bool} (h : Kraft len) (hi : 0 < len.getD i 0) (hr : RCurOk r)
    (hmissing : missing ≠ []) (hbits : unreadBits r m ++ missing = codeBits len (canonical len) i) :
    decodeSym m len r = .error ⟨.truncatedStream, advanceRead (unreadBits r m).length r⟩ := by
  have hle := h.getD_le i
  have hone : len.getD i 0 - 1 + 1 = len.getD i 0 := Nat.sub_add_cancel hi
  rw [decodeSym_eq_decodeLoop_code h hi, decodeLoop_truncated h (by omega) (by omega) hr rfl hmissing (by rwa [hone])]

end

/-! ## The code of a sound table (44_adaptive_codec.md R524, R528) -/

/-- A code that was built over symbols all present: every symbol has a codeword, the codes are canonical and take no more
than the code space, and with two or more symbols every 16 bits begin with one. -/
structure FullCode (n : Nat) (len code : List Nat) : Prop where
  code_eq  : code = canonical len
  kraft    : Kraft len
  len_pos  : ∀ i < n, 0 < len.getD i 0
  complete : 2 ≤ n → ∀ bits : List Bool, bits.length = 16 → ∃ i < n, codeBits len code i <+: bits

/-- All symbols of a list of frequencies without 0 are present. -/
theorem presentCount_of_pos {g : List Nat} (h : ∀ x ∈ g, 1 ≤ x) : presentCount g = g.length := by
  rw [presentCount, List.filter_eq_self.mpr fun x hx => decide_eq_true (Nat.lt_of_succ_le (h x hx))]

/-- A sound table's code was built over frequencies of at least 1. -/
theorem tableSound_fullCode {lc : LCfg} {n : Nat} {t : Table} (h : TableSound lc n t) (hn : n ≤ 1024) :
    FullCode n t.len t.code := by
  obtain ⟨g, rfl, hg, hlen, hcode⟩ := h.built
  have hkraft := buildLengths_kraft hn
  have hcomplete := codesAreComplete g hn
  rw [← hlen] at hkraft hcomplete
  rw [presentCount_of_pos hg, ← hcode] at hcomplete
  refine ⟨hcode, hkraft, fun i hi => ?_, fun htwo bits hbits => ?_⟩
  · rw [hlen, (buildLengths_lengthsFor g).pos_iff, List.getD_eq_getElem _ _ hi]
    exact hg _ (List.getElem_mem hi)
  · obtain ⟨i, ⟨hi, -, hprefix⟩, -⟩ := (hcomplete.1 htwo).2 bits hbits
    exact ⟨i, hi, hprefix⟩

/-! ## TDEC (44_adaptive_codec.md R542) -/

/-- Decoding a symbol whose code can be read (44_adaptive_codec.md R531). -/
theorem decSym_of_decodeSym {m : Mem} {lc : LCfg} {c : SymClass} {d : Dec} {sym : Nat} {r : RCur}
    (h : decodeSym m (d.tab.get c).len d.rc = .ok (sym, r)) :
    decSym m lc c d = .ok (sym, ⟨r, d.tab.set c ((d.tab.get c).update lc sym)⟩) := by
  simp only [decSym, h]

/-- Decoding a symbol whose code cannot be read (44_adaptive_codec.md R531). -/
theorem decSym_of_stop {m : Mem} {lc : LCfg} {c : SymClass} {d : Dec} {e : ReadStop}
    (h : decodeSym m (d.tab.get c).len d.rc = .error e) : decSym m lc c d = .error e := by
  simp only [decSym, h]

/-- TDEC in READY goes past its check. -/
theorem exec_tdec_ready {s : State} {c : SymClass} (hr : s.isReady = true) :
    exec (.tdec c) s = finishRead ((decSym s.mem s.lcfg c ⟨s.rc, s.tab⟩).map
      (fun p => { s with res0 := BitVec.ofNat 32 p.1, rc := p.2.rc, tab := p.2.tab })) s :=
  requireState_ready hr

/-- A primitive that stopped after n bits has read exactly the bytes of `readBytes`. -/
theorem finishRead_stopped {n : Nat} {code : ErrCode} {s : State} (hr : RCurOk s.rc)
    (ha : cursorAllows s s.rcRegion (readBytes n s.rc)) :
    finishRead (.error ⟨code, advanceRead n s.rc⟩) s = .next (s.complete code) := by
  have hread := readTo_advanceRead n (rcurOk_bit_lt hr)
  exact requireCursor_allowed (Region.legal_of_end_le hr.legal) (hread ▸ ha)

/-- Settles O39: the code of a sound table is canonical, complete and within the code space, so `decode_sym` follows the
unread bits along a symbol's code to its end, or to theirs. -/
theorem tdecInvertsTenc : Obligations.TdecInvertsTenc := by
  unfold Obligations.TdecInvertsTenc
  intro s c n hr hrc htwo hn ht
  obtain ⟨hcanonical, hkraft, hpos, hcomplete⟩ := tableSound_fullCode ht (by omega)
  rw [exec_tdec_ready hr]
  refine ⟨fun sym rest hsym hbits hallow => ?_, fun hmany => ?_, fun sym missing hsym hmissing hbits hallow => ?_⟩
  · rw [hcanonical] at hbits
    rw [decSym_of_decodeSym (d := ⟨s.rc, s.tab⟩) (decodeSym_code hkraft (hpos sym hsym) hrc hbits)]
    exact ⟨_, finishRead_advanced hrc rfl hallow, rfl, fun d hd => Tabs.get_set_other _ _ hd, Tabs.get_set_same ..⟩
  · obtain ⟨sym, hsym, hprefix⟩ := hcomplete htwo ((unreadBits s.rc s.mem).take 16) (List.length_take_of_le hmany)
    obtain ⟨rest, hrest⟩ := hprefix.trans (List.take_prefix ..)
    exact ⟨sym, rest, hsym, hrest.symm⟩
  · rw [hcanonical] at hbits
    rw [decSym_of_stop (d := ⟨s.rc, s.tab⟩) (decodeSym_truncated hkraft (hpos sym hsym) hrc hmissing hbits)]
    exact finishRead_stopped hrc hallow

end Sys2Proof.Machine
end

section
/-!
PROOFS of 45_window.md: a read at distance d after appends goes past the later ones to the byte that was appended d appends
ago (R572, R573), and the full answers of WPUT and WGET.
-/

namespace Sys2Proof.Machine

/-! ## One append (45_window.md R571) -/

/-- Short of its wrap, the counter goes up by one. -/
theorem append_total_toNat (w : Nat) (b : Byte) {v : Win} (ht : v.total.toNat + 1 < 2 ^ 64) :
    (v.append w b).total.toNat = v.total.toNat + 1 :=
  BitVec.toNat_add_of_lt ht

/-- Positions less than a ring apart have different slots. -/
theorem slot_ne_of_near {w t d : Nat} (hpos : 1 ≤ d) (hnear : d < w) (ht : d ≤ t) : (t - d) % w ≠ t % w := by
  intro hslot
  have hdvd : w ∣ t - (t - d) := (Nat.modEq_iff_dvd' (Nat.sub_le t d)).mp hslot
  rw [Nat.sub_sub_self ht] at hdvd
  exact Nat.not_le_of_lt hnear (Nat.le_of_dvd hpos hdvd)

/-- An append moves every earlier byte within the ring one further away. -/
theorem wread_append_succ {w d : Nat} (b : Byte) {v : Win} (ht : v.total.toNat + 1 < 2 ^ 64) (hpos : 1 ≤ d)
    (hring : d + 1 ≤ w) (hd : d ≤ v.total.toNat) : (v.append w b).wread w (d + 1) = v.wread w d := by
  rw [Win.wread, append_total_toNat w b ht, append_ring, Nat.add_sub_add_right]
  exact Mem.read_write_other b _ (slot_ne_of_near hpos hring hd)

/-! ## A list of appends (45_window.md R573) -/

/-- The appends of a list move every earlier byte within the ring away by the list's length. -/
theorem wread_appendList_before {w e : Nat} (bs : List Byte) {v : Win} (ht : v.total.toNat + bs.length < 2 ^ 64)
    (hpos : 1 ≤ e) (hring : e + bs.length ≤ w) (he : e ≤ v.total.toNat) :
    (v.appendList w bs).wread w (e + bs.length) = v.wread w e := by
  induction bs generalizing v e with
  | nil => rfl
  | cons b bs ih =>
    rw [List.length_cons] at ht hring ⊢
    have htotal : (v.append w b).total.toNat = v.total.toNat + 1 := append_total_toNat w b (by omega)
    calc (v.appendList w (b :: bs)).wread w (e + (bs.length + 1))
      _ = ((v.append w b).appendList w bs).wread w (e + 1 + bs.length) := by
        rw [Win.appendList, Nat.add_right_comm, Nat.add_assoc]
      _ = (v.append w b).wread w (e + 1) := ih (by omega) (by omega) (by omega) (by omega)
      _ = v.wread w e := wread_append_succ b (by omega) hpos (by omega) he

/-- A distance that stays inside the appended list reads from its end. -/
theorem wread_appendList_inside {w d : Nat} (bs : List Byte) {v : Win} (hv : v.ring.wf = true)
    (ht : v.total.toNat + bs.length < 2 ^ 64) (hpos : 1 ≤ d) (hring : d ≤ w) (hd : d ≤ bs.length) :
    (v.appendList w bs).wread w d = bs.getD (bs.length - d) 0 := by
  induction bs generalizing v with
  | nil => exact absurd (hpos.trans hd) (Nat.not_succ_le_zero 0)
  | cons b bs ih =>
    rw [List.length_cons] at ht hd ⊢
    have htotal : (v.append w b).total.toNat = v.total.toNat + 1 := append_total_toNat w b (by omega)
    rw [Win.appendList]
    obtain hlater | rfl := Nat.le_succ_iff.mp hd
    · rw [Nat.succ_sub hlater, List.getD_cons_succ]
      exact ih (append_ring_wf w b hv) (by omega) hlater
    · have hfirst : ((v.append w b).appendList w bs).wread w (1 + bs.length) = (v.append w b).wread w 1 :=
        wread_appendList_before bs (by omega) (Nat.le_refl 1) (by omega) (by omega)
      rw [Nat.sub_self, List.getD_cons_zero, Nat.succ_eq_one_add, hfirst]
      exact wread_append_one b (by omega) hv

/-- Settles O47: each append moves the earlier bytes one away, so a distance within the list ends at one of its bytes, and a
longer one at a byte from before it. -/
theorem windowReadsBack : Obligations.WindowReadsBack := by
  unfold Obligations.WindowReadsBack
  intro w v bytes d _ hv ht hpos hring
  refine ⟨fun hd => wread_appendList_inside bytes hv ht hpos hring hd, fun hd hfill => ?_⟩
  have hsplit : d - bytes.length + bytes.length = d := Nat.sub_add_cancel hd.le
  have hbefore : (v.appendList w bytes).wread w (d - bytes.length + bytes.length) = v.wread w (d - bytes.length) :=
    wread_appendList_before bytes ht (Nat.le_sub_of_add_le' hd) (hsplit.symm ▸ hring) (Nat.sub_le_of_le_add hfill)
  rwa [hsplit] at hbefore

/-! ## WPUT and WGET (45_window.md R575, R576) -/

/-- WPUT in READY goes past its check. -/
theorem exec_wput_ready {s : State} (hr : s.isReady = true) :
    exec .wput s = .next (State.complete .ok
      { s with win := s.win.append (windowSize s.lcfg) (s.pend.ops.arg0.setWidth 8) }) :=
  requireState_ready hr

/-- WGET in READY with a distance from 1 to the fill goes past its checks. -/
theorem exec_wget_ready {s : State} (hr : s.isReady = true) (hpos : 1 ≤ s.pend.ops.arg0.toNat)
    (hfill : s.pend.ops.arg0.toNat ≤ s.win.fill (windowSize s.lcfg)) :
    exec .wget s = .next (State.complete .ok
      { s with res0 := (s.win.wread (windowSize s.lcfg) s.pend.ops.arg0.toNat).setWidth 32 }) :=
  (requireState_ready hr).trans (requireOperand_pass (by rw [decide_eq_true hpos, decide_eq_true hfill]; rfl))

/-- Settles O46: past their checks, WPUT is one append to the ring of `2^lcfg.dict` slots and WGET one read of it. -/
theorem windowCommandsComplete : Obligations.WindowCommandsComplete := by
  unfold Obligations.WindowCommandsComplete
  exact fun s hr => ⟨exec_wput_ready hr, exec_wget_ready hr⟩

end Sys2Proof.Machine
end

section
/-!
PROOFS. Noninterference of the helper threads (46_match_finder.md R606): two states that differ only in the latched number
of helpers take every check of R406 alike, and no component reads that number (log 18).
-/

namespace Sys2Proof.Machine

open Sys2Proof.Safety

/-! ## The components, which have the configuration as an argument -/

/-- A latched configuration with another number of helper threads. -/
def LCfg.withHelpers (h : Nat) (lc : LCfg) : LCfg :=
  { lc with helpers := h }

section
variable (h : Nat) (lc : LCfg)

theorem parse_withHelpers (bs : List Byte) (skip : Nat) (k : Comp) :
    parse (lc.withHelpers h) bs skip k = parse lc bs skip k := by
  induction bs generalizing skip k with
  | nil => rfl
  | cons b rest ih =>
    cases skip with
    | succ skip => exact ih skip k
    | zero =>
      simp only [parse, ih]
      rfl

theorem copyMatch_withHelpers (dst n d : Nat) (u : Unpack) :
    copyMatch (lc.withHelpers h) dst n d u = copyMatch lc dst n d u := by
  induction n generalizing u with
  | zero => rfl
  | succ n ih => exact ih _

theorem unpackToken_withHelpers (dst cap : Nat) (u : Unpack) :
    unpackToken (lc.withHelpers h) dst cap u = unpackToken lc dst cap u := by
  simp only [unpackToken, copyMatch_withHelpers]
  rfl

theorem unpackLoop_withHelpers (dst cap n : Nat) (u : Unpack) :
    unpackLoop (lc.withHelpers h) dst cap n u = unpackLoop lc dst cap n u := by
  induction n generalizing u with
  | zero => rfl
  | succ n ih => simp only [unpackLoop, ih, unpackToken_withHelpers]

end

/-! ## Outcomes that agree but for the helpers -/

/-- Two outcomes that are equal once the number of helper threads is forgotten. -/
def AgreeButHelpers (r' r : Result) : Prop :=
  mapNext (withHelpers 0) r' = mapNext (withHelpers 0) r

theorem AgreeButHelpers.next {t' t : State} (ht : withHelpers 0 t' = withHelpers 0 t) :
    AgreeButHelpers (.next t') (.next t) :=
  congrArg Host.Outcome.next ht

section
variable {h : Nat} {s : State} {body body' : Result}

theorem unlessRefused_agree (r : Option Refusal) (hbody : AgreeButHelpers body' body) :
    AgreeButHelpers (unlessRefused r body') (unlessRefused r body) := by
  cases r with
  | none => exact hbody
  | some x => rfl

theorem afterAccesses_agree {rs : List Region} (hbody : AgreeButHelpers body' body) :
    AgreeButHelpers (afterAccesses rs (withHelpers h s) body') (afterAccesses rs s body) :=
  unlessRefused_agree (busRefusal s.plat rs) hbody

theorem requireState_agree {ok : Bool} (hbody : AgreeButHelpers body' body) :
    AgreeButHelpers (requireState ok (withHelpers h s) body') (requireState ok s body) := by
  have hctx : (withHelpers h s).ctx = s.ctx := rfl
  unfold requireState
  rw [hctx]
  split
  · rfl
  · cases ok with
    | true => exact hbody
    | false => rfl

theorem requireOperand_agree {ok : Bool} (hbody : AgreeButHelpers body' body) :
    AgreeButHelpers (requireOperand ok (withHelpers h s) body') (requireOperand ok s body) := by
  cases ok with
  | true => exact hbody
  | false => rfl

theorem requireConfig_agree {ok : Bool} (hbody : AgreeButHelpers body' body) :
    AgreeButHelpers (requireConfig ok (withHelpers h s) body') (requireConfig ok s body) := by
  cases ok with
  | true => exact hbody
  | false => rfl

theorem requireRegion_agree {r : Region} (hbody : AgreeButHelpers body' body) :
    AgreeButHelpers (requireRegion r (withHelpers h s) body') (requireRegion r s body) := by
  unfold requireRegion
  split
  · exact unlessRefused_agree (sideEffectRefusal s.plat r) hbody
  · rfl

theorem requireRegions_agree {src dst : Region} (hbody : AgreeButHelpers body' body) :
    AgreeButHelpers (requireRegions src dst (withHelpers h s) body') (requireRegions src dst s body) := by
  unfold requireRegions
  split
  · exact unlessRefused_agree _ (unlessRefused_agree (sideEffectRefusal s.plat dst) hbody)
  · rfl

theorem requireCursor_agree {accessed r : Region} (hbody : AgreeButHelpers body' body) :
    AgreeButHelpers (requireCursor accessed r (withHelpers h s) body') (requireCursor accessed r s body) := by
  unfold requireCursor
  split
  · exact hbody
  · split
    · exact unlessRefused_agree (sideEffectRefusal s.plat r) (afterAccesses_agree hbody)
    · rfl

/-- A primitive that ends in `finishStore`: what it wrote is the same, in a state with the other number of helpers. -/
theorem finishStore_agree {α : Type} (x : Except Full α) {f g : α → State} (hfg : ∀ a, f a = withHelpers h (g a)) :
    AgreeButHelpers (finishStore (x.map f) (withHelpers h s)) (finishStore (x.map g) s) := by
  obtain rfl : f = fun a => withHelpers h (g a) := funext hfg
  cases x with
  | error e => rfl
  | ok a => exact requireCursor_agree rfl

theorem finishRead_agree {α : Type} (x : Except ReadStop α) {f g : α → State} (hfg : ∀ a, f a = withHelpers h (g a)) :
    AgreeButHelpers (finishRead (x.map f) (withHelpers h s)) (finishRead (x.map g) s) := by
  obtain rfl : f = fun a => withHelpers h (g a) := funext hfg
  cases x with
  | error e => exact requireCursor_agree rfl
  | ok a => exact requireCursor_agree rfl

end

/-! ## COMPRESS and DECOMPRESS -/

section
variable (h : Nat) (s : State)

theorem compressStart_withHelpers : compressStart (withHelpers h s) = compressStart s := rfl

theorem compressChunk_withHelpers (final : Bool) (k : Comp) (adler0 : Word) :
    compressChunk final (withHelpers h s) k adler0 = (compressChunk final s k adler0).map (withHelpers h) := by
  have hparse : parse (withHelpers h s).lcfg = parse s.lcfg := funext₃ (parse_withHelpers h s.lcfg)
  unfold compressChunk
  rw [hparse]
  symm
  refine (map_bind (m := Except Full) (withHelpers h) _ _).trans (bind_congr fun k1 => ?_)
  cases final with
  | true => exact map_bind (m := Except Full) (withHelpers h) _ _
  | false => rfl

theorem unpackStream_withHelpers : unpackStream (withHelpers h s) = unpackStream s := by
  have hloop : unpackLoop (withHelpers h s).lcfg = unpackLoop s.lcfg :=
    funext fun dst => funext₃ (unpackLoop_withHelpers h s.lcfg dst)
  unfold unpackStream
  rw [hloop]
  rfl

theorem execCompress_agree (final : Bool) :
    AgreeButHelpers (execCompress final (withHelpers h s)) (execCompress final s) := by
  refine requireState_agree (requireRegions_agree ?_)
  rw [compressStart_withHelpers]
  cases compressStart s with
  | error f => exact afterAccesses_agree rfl
  | ok start =>
    obtain ⟨k, adler0⟩ := start
    dsimp only
    rw [compressChunk_withHelpers]
    cases compressChunk final s k adler0 with
    | error f => exact afterAccesses_agree rfl
    | ok t => exact afterAccesses_agree rfl

theorem execDecompress_agree : AgreeButHelpers (execDecompress (withHelpers h s)) (execDecompress s) := by
  refine requireState_agree (requireRegions_agree ?_)
  rw [unpackStream_withHelpers]
  cases unpackStream s with
  | ok u => exact afterAccesses_agree rfl
  | error e => exact afterAccesses_agree rfl

end

/-! ## Every command -/

theorem exec_agree (i : Instr) (s : State) (h : Nat) : AgreeButHelpers (exec i (withHelpers h s)) (exec i s) := by
  cases i with
  | cinit | dinit => exact requireState_agree (requireConfig_agree rfl)
  | reinit =>
    have hctx : (withHelpers h s).ctx = s.ctx := rfl
    refine requireState_agree ?_
    rw [hctx]
    split
    · exact requireConfig_agree rfl
    · rfl
  | compress final => exact execCompress_agree h s final
  | decompress => exact execDecompress_agree h s
  | hbuild =>
    have hpend : (withHelpers h s).pend = s.pend := rfl
    refine requireState_agree (requireOperand_agree (requireRegions_agree ?_))
    rw [hpend]
    split
    · rfl
    · exact afterAccesses_agree rfl
  | close | treset c | tstat c | ralign | wput | ainit => exact requireState_agree rfl
  | tcost c | tread c | wget => exact requireState_agree (requireOperand_agree rfl)
  | wsetup | rsetup => exact requireState_agree (requireRegion_agree rfl)
  | mfind | aupdate => exact requireState_agree (requireRegion_agree (afterAccesses_agree rfl))
  | cost => exact requireState_agree (requireOperand_agree (requireRegion_agree (afterAccesses_agree rfl)))
  | tenc c | putbits => exact requireState_agree (requireOperand_agree (finishStore_agree _ fun _ => rfl))
  | wflush => exact requireState_agree (finishStore_agree _ fun _ => rfl)
  | tdec c => exact requireState_agree (finishRead_agree _ fun _ => rfl)
  | getbits => exact requireState_agree (requireOperand_agree (finishRead_agree _ fun _ => rfl))

/-- Settles O17: every check goes the same way and every component computes the same, so the outcomes agree but for the
number of helpers. -/
theorem helpersHaveNoEffect : Obligations.HelpersHaveNoEffect := by
  unfold Obligations.HelpersHaveNoEffect
  exact exec_agree

end Sys2Proof.Machine
end

section
/-!
PROOFS of 46_match_finder.md: the count along the lookahead is the candidate's length (R590), the search keeps the best of
the examined candidates (R591, R593), and the full answer of MFIND (R600).
-/

namespace Sys2Proof.Machine

open Sys2Proof.Safety

/-! ## The length of a candidate (46_match_finder.md R590) -/

section
variable {back : Nat → Byte} {a : List Byte} {d : Nat}

/-- Counting on from j along the rest of the lookahead, where the first j bytes match, gives the length. -/
theorem matchLenFrom_length {rest : List Byte} {j : Nat} (hrest : a.drop j = rest) (hj : j ≤ min a.length 258)
    (hsame : ∀ i < j, sourceByte back a d i = a.getD i 0) :
    candidateLength back a d (matchLenFrom back a d rest j) := by
  induction rest generalizing j with
  | nil =>
    have hend : a.length ≤ j := List.drop_eq_nil_iff.mp hrest
    exact ⟨hj, hsame, fun hlt => absurd (hlt.trans_le (min_le_left _ _)) hend.not_gt⟩
  | cons b rest ih =>
    have hin : j < a.length := Nat.lt_of_not_le fun hle => by simp [List.drop_eq_nil_of_le hle] at hrest
    rw [List.drop_eq_getElem_cons hin, List.cons.injEq] at hrest
    obtain ⟨hb, htail⟩ := hrest
    have hget : a.getD j 0 = b := (List.getD_eq_getElem a 0 hin).trans hb
    rw [matchLenFrom]
    split
    · rename_i hnext
      rw [Bool.and_eq_true, decide_eq_true_eq, beq_iff_eq] at hnext
      obtain ⟨hmax, hbyte⟩ := hnext
      refine ih htail (Nat.le_min.mpr ⟨hin, hmax⟩) fun i hi => ?_
      obtain hlt | rfl := Nat.lt_succ_iff_lt_or_eq.mp hi
      · exact hsame i hlt
      · exact hbyte.trans hget.symm
    · rename_i hstop
      refine ⟨hj, hsame, fun hlt hbyte => hstop ?_⟩
      rw [Bool.and_eq_true, decide_eq_true_eq, beq_iff_eq]
      exact ⟨hlt.trans_le (min_le_right _ _), hbyte.trans hget⟩

theorem matchLen_length : candidateLength back a d (matchLen back a d) :=
  matchLenFrom_length rfl (Nat.zero_le _) fun _ hi => absurd hi (Nat.not_lt_zero _)

/-- A candidate has no two lengths: the bytes before the greater one match, the byte after the smaller one does not. -/
theorem candidateLength_le {l m : Nat} (hl : candidateLength back a d l) (hm : candidateLength back a d m) : m ≤ l := by
  obtain ⟨_, _, hstop⟩ := hl
  obtain ⟨hmax, hsame, _⟩ := hm
  exact Nat.le_of_not_lt fun hlt => hstop (hlt.trans_le hmax) (hsame l hlt)

theorem candidateLength_iff {l : Nat} : candidateLength back a d l ↔ l = matchLen back a d := by
  constructor
  · exact fun hl => (candidateLength_le matchLen_length hl).antisymm (candidateLength_le hl matchLen_length)
  · rintro rfl
    exact matchLen_length

/-! ## Candidates (46_match_finder.md R590) -/

theorem candidate_iff {fill : Nat} :
    candidate fill back a d = true ↔
      1 ≤ d ∧ d ≤ fill ∧ 3 ≤ a.length ∧ ∀ j < 3, sourceByte back a d j = a.getD j 0 := by
  have hthree : ∀ p : Nat → Prop, (∀ j < 3, p j) ↔ p 0 ∧ p 1 ∧ p 2 := fun p =>
    ⟨fun h => ⟨h 0 (by decide), h 1 (by decide), h 2 (by decide)⟩, fun ⟨h0, h1, h2⟩ j hj => by
      interval_cases j <;> assumption⟩
  simp only [candidate, Bool.and_eq_true, decide_eq_true_eq, beq_iff_eq, hthree, and_assoc]

/-- The search's own test, at a distance within the history and for a lookahead of three bytes. -/
theorem isCandidate_eq {fill : Nat} (hpos : 1 ≤ d) (hfill : d ≤ fill) (ha : 3 ≤ a.length) :
    isCandidate back a d = candidate fill back a d := by
  rw [Bool.eq_iff_iff, candidate_iff]
  simp [isCandidate, minMatch, hpos, hfill, ha]

/-- A candidate's first byte matches, so it is longer than no match. -/
theorem matchLen_pos {fill : Nat} (hc : candidate fill back a d = true) : 0 < matchLen back a d := by
  obtain ⟨_, _, ha, hsame⟩ := candidate_iff.mp hc
  obtain ⟨_, _, hstop⟩ := matchLen_length (back := back) (a := a) (d := d)
  refine Nat.pos_of_ne_zero fun hzero => ?_
  rw [hzero] at hstop
  exact hstop (by omega) (hsame 0 (by decide))

end

/-! ## The best of a set of distances (46_match_finder.md R593) -/

/-- The pair is (0, 0) over no distances, else the greatest length among them with the nearest distance that has it. -/
def BestOf (len : Nat → Nat) (p : Nat → Prop) (best : Nat × Nat) : Prop :=
  (best = (0, 0) ∧ ∀ e, ¬ p e) ∨
  (p best.2 ∧ best.1 = len best.2 ∧ ∀ e, p e → len e ≤ best.1 ∧ (len e = best.1 → best.2 ≤ e))

theorem BestOf.congr {len : Nat → Nat} {p q : Nat → Prop} {best : Nat × Nat} (h : BestOf len p best)
    (hpq : ∀ e, p e ↔ q e) : BestOf len q best := by
  obtain rfl : p = q := funext fun e => propext (hpq e)
  exact h

/-- One distance more, past all the others, takes over only when it is strictly longer. -/
theorem BestOf.extend {len : Nat → Nat} {p : Nat → Prop} {best : Nat × Nat} {d : Nat} (h : BestOf len p best)
    (hnear : ∀ e, p e → e < d) (hpos : 0 < len d) :
    BestOf len (fun e => p e ∨ e = d) (if len d > best.1 then (len d, d) else best) := by
  obtain ⟨rfl, hnone⟩ | ⟨hbest, hlen, hmax⟩ := h
  · rw [if_pos hpos]
    refine .inr ⟨.inr rfl, rfl, fun e he => ?_⟩
    obtain rfl := he.resolve_left (hnone e)
    exact ⟨le_rfl, fun _ => le_rfl⟩
  · split
    · rename_i hlonger
      refine .inr ⟨.inr rfl, rfl, ?_⟩
      rintro e (he | rfl)
      · have hshorter := (hmax e he).1.trans_lt hlonger
        exact ⟨hshorter.le, fun heq => absurd heq hshorter.ne⟩
      · exact ⟨le_rfl, fun _ => le_rfl⟩
    · rename_i hshort
      refine .inr ⟨.inl hbest, hlen, ?_⟩
      rintro e (he | rfl)
      · exact hmax e he
      · exact ⟨Nat.le_of_not_gt hshort, fun _ => (hnear _ hbest).le⟩

/-! ## The search (46_match_finder.md R591) -/

/-- The number of candidates nearer than the distance d. -/
def nearer (fill : Nat) (back : Nat → Byte) (a : List Byte) (d : Nat) : Nat :=
  Nat.count (fun e => candidate fill back a e = true) d

section
variable {back : Nat → Byte} {a : List Byte} {fill depth d : Nat}

theorem nearer_eq_length : nearer fill back a d = ((List.range d).filter (candidate fill back a)).length := by
  simp [nearer, Nat.count, List.countP_eq_length_filter]

theorem nearer_mono {e : Nat} (h : d ≤ e) : nearer fill back a d ≤ nearer fill back a e :=
  Nat.count_monotone _ h

theorem nearer_succ_of_candidate (hc : candidate fill back a d = true) :
    nearer fill back a (d + 1) = nearer fill back a d + 1 :=
  (Nat.count_succ _ d).trans (congrArg _ (if_pos hc))

theorem nearer_succ_of_not_candidate (hc : ¬ candidate fill back a d = true) :
    nearer fill back a (d + 1) = nearer fill back a d :=
  (Nat.count_succ _ d).trans (congrArg _ (if_neg hc))

theorem nearer_eq_zero (hnone : ∀ e < d, candidate fill back a e = false) : nearer fill back a d = 0 := by
  rw [nearer_eq_length, List.length_eq_zero_iff, List.filter_eq_nil_iff]
  exact fun e he => Bool.eq_false_iff.mp (hnone e (List.mem_range.mp he))

/-- Where the candidate at d uses up the depth, the distances with fewer nearer candidates are those up to d. -/
theorem nearer_lt_iff {e : Nat} (hbefore : nearer fill back a d < depth) (hafter : depth ≤ nearer fill back a (d + 1)) :
    nearer fill back a e < depth ↔ e < d + 1 := by
  constructor
  · exact fun he => Nat.lt_of_not_le fun hle => (he.trans_le hafter).not_ge (nearer_mono hle)
  · exact fun he => (nearer_mono (Nat.lt_succ_iff.mp he)).trans_lt hbefore

/-- The search from distance d on, given the best of the nearer candidates and their number: the best of the candidates
with fewer than `depth` nearer ones. -/
theorem findLoop_best (ha : 3 ≤ a.length) {n : Nat} {best : Nat × Nat} (hd : d + n = fill + 1) (hpos : 1 ≤ d)
    (hseen : nearer fill back a d < depth)
    (hbest : BestOf (matchLen back a) (fun e => candidate fill back a e = true ∧ e < d) best) :
    BestOf (matchLen back a) (fun e => candidate fill back a e = true ∧ nearer fill back a e < depth)
      (findLoop back a depth n d best (nearer fill back a d)) := by
  induction n generalizing d best with
  | zero =>
    refine hbest.congr fun e => and_congr_right fun he => ?_
    have hnear : e < d := by
      obtain ⟨_, hfill, _⟩ := candidate_iff.mp he
      omega
    exact iff_of_true hnear ((nearer_mono hnear.le).trans_lt hseen)
  | succ n ih =>
    rw [findLoop, isCandidate_eq (fill := fill) hpos (by omega) ha]
    split
    · rename_i hc
      have hcount := nearer_succ_of_candidate hc
      have hbest1 := (hbest.extend (fun _ he => he.2) (matchLen_pos hc)).congr
        (q := fun e => candidate fill back a e = true ∧ e < d + 1) fun e => by
          rw [Nat.lt_succ_iff_lt_or_eq, and_or_left]
          exact or_congr_right ⟨fun he => ⟨he ▸ hc, he⟩, And.right⟩
      dsimp only
      rw [← hcount]
      split
      · rename_i hlast
        exact hbest1.congr fun e => and_congr_right fun _ => (nearer_lt_iff hseen hlast.ge).symm
      · rename_i hmore
        exact ih (by omega) (by omega) (by omega) hbest1
    · rename_i hc
      have hcount := nearer_succ_of_not_candidate hc
      rw [← hcount]
      refine ih (by omega) (by omega) (hcount ▸ hseen) (hbest.congr fun e => and_congr_right fun he => ?_)
      have hne : e ≠ d := fun h => hc (h ▸ he)
      omega

end

theorem chainDepth_pos (level : Nat) : 0 < chainDepth level := by
  match level with
  | 0 | 1 | 2 | 3 | 4 => decide
  | _ + 5 => exact Nat.succ_pos 255

section
variable {level fill : Nat} {back : Nat → Byte} {a : List Byte}

theorem examined_iff {d : Nat} :
    examined level fill back a d ↔ candidate fill back a d = true ∧ nearer fill back a d < chainDepth level := by
  rw [examined, nearer_eq_length]
  rfl

/-- The nearest candidate is always examined, so without an examined one there is none. -/
theorem candidate_false_of_none_examined (hnone : ∀ e, ¬ examined level fill back a e) (d : Nat) :
    candidate fill back a d = false := by
  induction d using Nat.strongRecOn with
  | ind d ih =>
    refine Bool.eq_false_iff.mpr fun hc => hnone d (examined_iff.mpr ⟨hc, ?_⟩)
    rw [nearer_eq_zero ih]
    exact chainDepth_pos level

theorem bestMatch_of_bestOf {best : Nat × Nat}
    (h : BestOf (matchLen back a) (examined level fill back a) best) :
    bestMatch level fill back a best.1 best.2 := by
  obtain ⟨rfl, hnone⟩ | ⟨hbest, hlen, hmax⟩ := h
  · exact .inl ⟨rfl, rfl, candidate_false_of_none_examined hnone⟩
  · refine .inr ⟨hbest, candidateLength_iff.mpr hlen, fun e m he hm => ?_⟩
    rw [candidateLength_iff.mp hm]
    exact hmax e he

variable (level fill back a) in
/-- `find` gives the best of the examined candidates. -/
theorem findMatch_best :
    bestMatch level fill back a (findMatch level fill back a).1 (findMatch level fill back a).2 := by
  unfold findMatch
  split
  · rename_i hshort
    refine .inl ⟨rfl, rfl, fun e => Bool.eq_false_iff.mpr fun he => ?_⟩
    obtain ⟨_, _, ha, _⟩ := candidate_iff.mp he
    exact absurd ha hshort.not_ge
  · rename_i hlong
    have hcand : ∀ e, candidate fill back a e = true → 1 ≤ e := fun e he => (candidate_iff.mp he).1
    have hcount : nearer fill back a 1 = 0 :=
      nearer_eq_zero fun e he => Bool.eq_false_iff.mpr fun hc => absurd (hcand e hc) he.not_ge
    have hnone : BestOf (matchLen back a) (fun e => candidate fill back a e = true ∧ e < 1) (0, 0) :=
      .inl ⟨rfl, fun e ⟨he, hlt⟩ => absurd (hcand e he) hlt.not_ge⟩
    have hbest := findLoop_best (depth := chainDepth level) (not_lt.mp hlong) (Nat.add_comm 1 fill) le_rfl
      (hcount ▸ chainDepth_pos level) hnone
    rw [hcount] at hbest
    exact bestMatch_of_bestOf (hbest.congr fun _ => examined_iff.symm)

/-- What `find` returns is in range: a length up to MAX_MATCH and a distance within the history. -/
theorem bestMatch_range {l d : Nat} (h : bestMatch level fill back a l d) : l ≤ 258 ∧ d ≤ fill := by
  obtain ⟨rfl, rfl, _⟩ | ⟨⟨hc, _⟩, ⟨hmax, _⟩, _⟩ := h
  · exact ⟨Nat.zero_le _, Nat.zero_le _⟩
  · obtain ⟨_, hfill, _⟩ := candidate_iff.mp hc
    exact ⟨hmax.trans (min_le_right _ _), hfill⟩

end

/-! ## The first MAX_MATCH bytes of the lookahead decide (46_match_finder.md R590, R600) -/

section
variable (back : Nat → Byte) (a : List Byte)

theorem getD_take_maxMatch {j : Nat} (hj : j < 258) : (a.take maxMatch).getD j 0 = a.getD j 0 := by
  rw [maxMatch, List.getD_eq_getElem?_getD, List.getElem?_take_of_lt hj, ← List.getD_eq_getElem?_getD]

theorem sourceByte_take_maxMatch (d : Nat) {j : Nat} (hj : j < 258) :
    sourceByte back (a.take maxMatch) d j = sourceByte back a d j := by
  unfold sourceByte
  rw [getD_take_maxMatch a (by omega)]

theorem candidate_take_maxMatch (fill : Nat) : candidate fill back (a.take maxMatch) = candidate fill back a := by
  funext d
  have hlen : 3 ≤ (a.take maxMatch).length ↔ 3 ≤ a.length := by simp [maxMatch]
  have hsame : (∀ j < 3, sourceByte back (a.take maxMatch) d j = (a.take maxMatch).getD j 0) ↔
      ∀ j < 3, sourceByte back a d j = a.getD j 0 :=
    forall₂_congr fun j hj => by rw [sourceByte_take_maxMatch back a d (by omega), getD_take_maxMatch a (by omega)]
  rw [Bool.eq_iff_iff, candidate_iff, candidate_iff, hlen, hsame]

theorem candidateLength_take_maxMatch (d l : Nat) :
    candidateLength back (a.take maxMatch) d l ↔ candidateLength back a d l := by
  have hlen : min (a.take maxMatch).length 258 = min a.length 258 := by
    rw [List.length_take, maxMatch]
    omega
  unfold candidateLength
  rw [hlen]
  refine and_congr_right fun hl => and_congr (forall₂_congr fun j hj => ?_) (imp_congr_right fun hlt => ?_)
  · rw [sourceByte_take_maxMatch back a d (by omega), getD_take_maxMatch a (by omega)]
  · rw [sourceByte_take_maxMatch back a d (by omega), getD_take_maxMatch a (by omega)]

theorem bestMatch_take_maxMatch (level fill l d : Nat) :
    bestMatch level fill back (a.take maxMatch) l d ↔ bestMatch level fill back a l d := by
  simp only [bestMatch, examined, candidate_take_maxMatch, candidateLength_take_maxMatch]

end

/-- A shorter read is the beginning of a longer one (20_memory.md R204). -/
theorem Mem.readList_min (addr n k : Nat) (m : Mem) :
    Mem.readList addr (min n k) m = (Mem.readList addr n m).take k := by
  rw [Mem.readList, Mem.readList, ← List.map_take, List.take_range, Nat.min_comm]

/-! ## MFIND (46_match_finder.md R600) -/

/-- MFIND past its checks: `find` over what it reads, the first MAX_MATCH bytes of the lookahead. -/
theorem exec_mfind_comp {s : State} {m : Nat × Nat} (hc : s.isComp = true) (hsrc : nameable s s.srcRegion)
    (hbus : busAllows s [⟨s.pend.ops.srcAddr.toNat, min s.pend.ops.srcLen.toNat 258⟩])
    (hm : findHere s.lcfg s.win
      ((Mem.readList s.pend.ops.srcAddr.toNat s.pend.ops.srcLen.toNat s.mem).take maxMatch) = m) :
    exec .mfind s = .next (State.complete .ok { s with res0 := BitVec.ofNat 32 m.1, res1 := BitVec.ofNat 32 m.2 }) := by
  obtain ⟨hready, _⟩ := s.isComp_iff.mp hc
  have hopen : s.ctx.state ≠ .closed := by rw [hready]; decide
  obtain ⟨hlegal, hside⟩ := hsrc
  rw [← Mem.readList_min] at hm
  subst hm
  exact (requireState_pass hopen hc).trans ((requireRegion_pass hlegal hside).trans (afterAccesses_pass hbus))

/-- Settles O48: the search keeps the best of the examined candidates for the bytes it reads, and no later byte of the
lookahead changes which that is. -/
theorem mfindGivesTheBestMatch : Obligations.MfindGivesTheBestMatch := by
  unfold Obligations.MfindGivesTheBestMatch
  intro s hc hsrc hbus
  have hbest := (bestMatch_take_maxMatch ..).mp (findMatch_best s.lcfg.level
    (s.win.fill (windowSize s.lcfg)) (fun e => s.win.wread (windowSize s.lcfg) e)
    ((Mem.readList s.pend.ops.srcAddr.toNat s.pend.ops.srcLen.toNat s.mem).take maxMatch))
  obtain ⟨hlen, hdist⟩ := bestMatch_range hbest
  exact ⟨_, _, exec_mfind_comp hc hsrc hbus rfl, hlen, hdist, hbest⟩

end Sys2Proof.Machine
end

section
/-!
PROOFS. 
-/
namespace Sys2Proof.Machine
open Sys2Proof.Safety

/-- COST past its checks: the two costs and the choice (47_parser_compress.md R630). -/
theorem exec_cost_ready {s : State} (hr : s.isReady = true) (hlen : 3 ≤ s.pend.ops.arg0.toNat)
    (hmax : s.pend.ops.arg0.toNat ≤ 258) (hsrc : s.pend.ops.arg0.toNat ≤ s.pend.ops.srcLen.toNat)
    (hpos : 1 ≤ s.pend.ops.arg1.toNat) (hring : s.pend.ops.arg1.toNat ≤ 2 ^ s.lcfg.dict) (hname : nameable s s.srcRegion)
    (hbus : busAllows s [⟨s.pend.ops.srcAddr.toNat, s.pend.ops.arg0.toNat⟩]) {cm cl : Nat}
    (hcm : costMatch s.tab s.pend.ops.arg0.toNat s.pend.ops.arg1.toNat = cm)
    (hcl : costLits s.tab (Mem.readList s.pend.ops.srcAddr.toNat s.pend.ops.arg0.toNat s.mem) = cl) :
    exec .cost s = .next (State.complete .ok
      { s with res0 := BitVec.ofNat 32 cm, res1 := BitVec.ofNat 32 cl, result := if cm ≤ cl then 1 else 0 }) := by
  subst hcm hcl
  obtain ⟨hlegal, hside⟩ := hname
  have hoperands : (decide (minMatch ≤ s.pend.ops.arg0.toNat) && decide (s.pend.ops.arg0.toNat ≤ maxMatch) &&
      decide (s.pend.ops.arg0.toNat ≤ s.pend.ops.srcLen.toNat) && decide (1 ≤ s.pend.ops.arg1.toNat) &&
      decide (s.pend.ops.arg1.toNat ≤ windowSize s.lcfg)) = true := by
    simp only [Bool.and_eq_true, decide_eq_true_eq]
    exact ⟨⟨⟨⟨hlen, hmax⟩, hsrc⟩, hpos⟩, hring⟩
  exact (requireState_ready hr).trans <| (requireOperand_pass hoperands).trans <|
    (requireRegion_pass hlegal hside).trans (afterAccesses_pass hbus)

/-- Settles O49: past its checks COST is the two sums of R620 over the current code lengths and their comparison. -/
theorem costCompletes : Obligations.CostCompletes := by
  unfold Obligations.CostCompletes
  rintro s _ _ cm cl hr rfl rfl hlen hmax hsrc hpos hring hname hbus hcm hcl
  exact exec_cost_ready hr hlen hmax hsrc hpos hring hname hbus hcm.symm hcl.symm

end Sys2Proof.Machine
end

section
/-!
PROOFS of 47_parser_compress.md R625 to R627: the parse as the choice of tokens and their emission. The choice depends on the
chunk, the tables and the window only; emitting the tokens is all that the write cursor sees of it.
-/
namespace Sys2Proof.Machine
open Sys2Proof.Safety

/-! ## Coding bits after other bits (30_encoding.md R341) -/

section
variable (lc : LCfg) (xs : List Bool) (p : List Bool × Tabs)

theorem codeSymbol_append (c : SymClass) (sym : Nat) :
    codeSymbol lc c sym (xs ++ p.1, p.2) = (xs ++ (codeSymbol lc c sym p).1, (codeSymbol lc c sym p).2) := by
  simp only [codeSymbol, List.append_assoc]

theorem codeValue_append (c : SymClass) (v : Nat) :
    codeValue lc c v (xs ++ p.1, p.2) = (xs ++ (codeValue lc c v p).1, (codeValue lc c v p).2) := by
  simp only [codeValue, codeSymbol_append, List.append_assoc]

theorem codeToken_append (tok : Token) :
    codeToken lc (xs ++ p.1, p.2) tok = (xs ++ (codeToken lc p tok).1, (codeToken lc p tok).2) := by
  cases tok with
  | lit b => simp only [codeToken, codeSymbol_append]
  | copy length dist => simp only [codeToken, codeSymbol_append, codeValue_append]

end

/-- The bits of a token come after the bits so far, and with its tables they do not depend on them. -/
theorem codeToken_eq (lc : LCfg) (p : List Bool × Tabs) (tok : Token) :
    codeToken lc p tok = (p.1 ++ (codeToken lc ([], p.2) tok).1, (codeToken lc ([], p.2) tok).2) := by
  have h := codeToken_append lc p.1 ([], p.2) tok
  rwa [List.append_nil] at h

theorem codeTokens_cons (lc : LCfg) (tok : Token) (toks : List Token) (p : List Bool × Tabs) :
    codeTokens lc (tok :: toks) p = codeTokens lc toks (codeToken lc p tok) := rfl

theorem codeTokens_append (lc : LCfg) (toks toks' : List Token) (p : List Bool × Tabs) :
    codeTokens lc (toks ++ toks') p = codeTokens lc toks' (codeTokens lc toks p) :=
  List.foldl_append

/-- The bits of a list of tokens come after the bits so far, and with their tables they do not depend on them. -/
theorem codeTokens_eq (lc : LCfg) (toks : List Token) (p : List Bool × Tabs) :
    codeTokens lc toks p = (p.1 ++ (codeTokens lc toks ([], p.2)).1, (codeTokens lc toks ([], p.2)).2) := by
  induction toks generalizing p with
  | nil => simp [codeTokens]
  | cons tok toks ih =>
    rw [codeTokens_cons, codeTokens_cons, ih, ih (codeToken lc ([], p.2) tok), codeToken_eq, List.append_assoc]

/-! ## Emission (47_parser_compress.md R627) -/

/-- A token through the write cursor. -/
def emitToken (lc : LCfg) : Token → Enc → Except Full Enc
  | .lit b, e => emitLiteral lc b e
  | .copy length dist, e => emitMatch lc length dist e

/-- A list of tokens through the write cursor. -/
def emitTokens (lc : LCfg) : List Token → Enc → Except Full Enc
  | [], e => .ok e
  | tok :: toks, e => do
    let e1 ← emitToken lc tok e
    emitTokens lc toks e1

/-- Emitting a token leaves the tables that coding it leaves. -/
theorem emitToken_tab {lc : LCfg} {tok : Token} {e e' : Enc} (h : emitToken lc tok e = .ok e') :
    e'.tab = (codeToken lc ([], e.tab) tok).2 := by
  cases tok with
  | lit b =>
    obtain ⟨e1, htyp, hlit⟩ := bind_ok h
    rw [(encSym_ok hlit).2, (encSym_ok htyp).2]
    rfl
  | copy length dist =>
    obtain ⟨e1, htyp, h⟩ := bind_ok h
    obtain ⟨e2, hlen, h⟩ := bind_ok h
    obtain ⟨e3, hlenx, h⟩ := bind_ok h
    obtain ⟨e4, hdist, hdistx⟩ := bind_ok h
    rw [(emitRaw_ok hdistx).2, (encSym_ok hdist).2, (emitRaw_ok hlenx).2, (encSym_ok hlen).2, (encSym_ok htyp).2]
    rfl

/-! ## The choice (47_parser_compress.md R621, R625) -/

/-- The number of bytes a token stands for. -/
def tokenSize : Token → Nat
  | .lit _ => 1
  | .copy length _ => length

/-- The token the parser chooses at the head of the rest of a chunk. -/
def nextToken (lc : LCfg) (t : Tabs) (v : Win) (b : Byte) (rest : List Byte) : Token :=
  let m := considered lc v b rest
  if minMatch ≤ m.1 ∧ costMatch t m.1 m.2 ≤ costLits t ((b :: rest).take m.1) then .copy m.1 m.2 else .lit b

/-- What is known of the chosen token: a match the parser considers, at no more than the cost of the literals, or the literal. -/
theorem nextToken_cases (lc : LCfg) (t : Tabs) (v : Win) (b : Byte) (rest : List Byte) :
    (∃ length dist, considered lc v b rest = (length, dist) ∧ 3 ≤ length ∧
      costMatch t length dist ≤ costLits t ((b :: rest).take length) ∧
      nextToken lc t v b rest = .copy length dist) ∨
    nextToken lc t v b rest = .lit b := by
  unfold nextToken
  dsimp only
  split
  · rename_i h
    exact .inl ⟨_, _, rfl, h.1, h.2, rfl⟩
  · exact .inr rfl

theorem nextToken_size_pos (lc : LCfg) (t : Tabs) (v : Win) (b : Byte) (rest : List Byte) :
    1 ≤ tokenSize (nextToken lc t v b rest) := by
  obtain ⟨length, dist, _, hlength, _, h⟩ | h := nextToken_cases lc t v b rest <;> rw [h]
  · exact Nat.le_of_succ_le (Nat.le_of_succ_le hlength)
  · exact le_rfl

/-- The tokens the parser chooses for the rest of a chunk, of which the last token covers the first `skip` bytes. -/
def chosenTokens (lc : LCfg) : List Byte → Nat → Tabs → Win → List Token
  | [], _, _, _ => []
  | _ :: rest, skip + 1, t, v => chosenTokens lc rest skip t v
  | b :: rest, 0, t, v =>
    let tok := nextToken lc t v b rest
    tok :: chosenTokens lc rest (tokenSize tok - 1) (codeToken lc ([], t) tok).2
      (v.appendList (windowSize lc) ((b :: rest).take (tokenSize tok)))

/-! ## The parse is both (47_parser_compress.md R625) -/

/-- One round of the parse emits the chosen token and appends its bytes. -/
theorem parse_cons_zero (lc : LCfg) (b : Byte) (rest : List Byte) (k : Comp) :
    parse lc (b :: rest) 0 k =
      (emitToken lc (nextToken lc k.enc.tab k.win b rest) k.enc >>= fun e =>
        parse lc rest (tokenSize (nextToken lc k.enc.tab k.win b rest) - 1)
          ⟨e, k.win.appendList (windowSize lc) ((b :: rest).take (tokenSize (nextToken lc k.enc.tab k.win b rest)))⟩) := by
  rw [parse, nextToken]
  simp only [← Bool.decide_and, decide_eq_true_eq]
  split
  · simp only [emitToken, tokenSize]
    cases emitMatch lc (considered lc k.win b rest).1 (considered lc k.win b rest).2 k.enc <;> rfl
  · simp only [emitToken, tokenSize]
    cases emitLiteral lc b k.enc <;> rfl

theorem appendList_append (w : Nat) (xs ys : List Byte) (v : Win) :
    v.appendList w (xs ++ ys) = (v.appendList w xs).appendList w ys := by
  induction xs generalizing v with
  | nil => rfl
  | cons x xs ih => exact ih _

/-- The first bytes of a list, at least one, and those left of its tail. -/
theorem take_append_drop_tail (b : Byte) (rest : List Byte) {n : Nat} (hn : 1 ≤ n) :
    (b :: rest).take n ++ rest.drop (n - 1) = b :: rest := by
  obtain ⟨n, rfl⟩ := Nat.exists_eq_add_of_le' hn
  exact List.take_append_drop (n + 1) (b :: rest)

/-- The parse of a chunk emits the tokens it chooses and appends the chunk to the window. -/
theorem parse_eq (lc : LCfg) (bs : List Byte) (skip : Nat) (k : Comp) :
    parse lc bs skip k = (emitTokens lc (chosenTokens lc bs skip k.enc.tab k.win) k.enc).map
      (fun e => ⟨e, k.win.appendList (windowSize lc) (bs.drop skip)⟩) := by
  induction bs generalizing skip k with
  | nil => cases skip <;> rfl
  | cons b rest ih =>
    cases skip with
    | succ skip => exact ih skip k
    | zero =>
      rw [parse_cons_zero, chosenTokens, emitTokens]
      cases he : emitToken lc (nextToken lc k.enc.tab k.win b rest) k.enc with
      | error f => rfl
      | ok e =>
        have hrest := ih (tokenSize (nextToken lc k.enc.tab k.win b rest) - 1)
          ⟨e, k.win.appendList (windowSize lc) ((b :: rest).take (tokenSize (nextToken lc k.enc.tab k.win b rest)))⟩
        dsimp only at hrest
        rw [emitToken_tab he, ← appendList_append,
          take_append_drop_tail b rest (nextToken_size_pos lc k.enc.tab k.win b rest)] at hrest
        exact hrest

/-! ## COMPRESS as one emission (47_parser_compress.md R640) -/

section
variable (s : State)

/-- The cursor a COMPRESS starts with: on the destination, with the pending bits of the chunk before, if any. -/
def startCursor : WCur :=
  if s.ctx.started then { s.wc with base := s.pend.ops.dstAddr, cap := s.pend.ops.dstCap, pos := 0 }
  else { base := s.pend.ops.dstAddr, cap := s.pend.ops.dstCap, pos := 0, acc := 0, nacc := 0 }

/-- The bytes a COMPRESS writes before its tokens. -/
def startBytes : List Byte :=
  if s.ctx.started then [] else header s.lcfg

/-- The window a COMPRESS starts with. -/
def startWin : Win :=
  if s.ctx.started then s.win else s.win.clear

/-- The accumulator after a chunk. -/
def endAdler : Word :=
  adlerUpdate (if s.ctx.started then s.adler else 0x00000001) (chunkOf s)

/-- The tokens of the chunk of a COMPRESS. -/
def chunkTokens : List Token :=
  chosenTokens s.lcfg (chunkOf s) 0 s.tab (startWin s)

theorem compressStart_eq :
    compressStart s = (putBytes (startBytes s) ⟨startCursor s, s.mem⟩).map
      (fun k => (⟨⟨k, s.tab⟩, startWin s⟩, if s.ctx.started then s.adler else 0x00000001)) := by
  unfold compressStart startBytes startCursor startWin
  cases s.ctx.started with
  | true => rfl
  | false =>
    dsimp only [Bool.false_eq_true]
    simp only [Bool.false_eq_true, if_false]
    cases putBytes (header s.lcfg) _ <;> rfl

end

/-- The tokens of a chunk and, with FINAL, the end of the stream. -/
def emitChunk (final : Bool) (lc : LCfg) (adler : Word) (toks : List Token) (e : Enc) : Except Full Enc := do
  let e1 ← emitTokens lc toks e
  if final then compressEnd lc adler e1 else .ok e1

/-- The whole output of a COMPRESS through the write cursor. -/
def emitCompress (final : Bool) (s : State) : Except Full Enc := do
  let k ← putBytes (startBytes s) ⟨startCursor s, s.mem⟩
  emitChunk final s.lcfg (endAdler s) (chunkTokens s) ⟨k, s.tab⟩

/-- What a COMPRESS that emitted its output leaves before the report. -/
def compressDone (s : State) (final : Bool) (e : Enc) : State :=
  { s with
    mem := e.sink.mem
    wc := e.sink.wc
    tab := e.tab
    win := (startWin s).appendList (windowSize s.lcfg) (chunkOf s)
    adler := endAdler s
    ctx := { s.ctx with started := true, done := s.ctx.done || final }
    result := BitVec.ofNat 32 e.sink.wc.pos }

/-- The chunk of a COMPRESS is parsed and ended by one emission. -/
theorem compressChunk_eq (s : State) (final : Bool) (k : Sink) :
    compressChunk final s ⟨⟨k, s.tab⟩, startWin s⟩ (if s.ctx.started then s.adler else 0x00000001) =
      (emitChunk final s.lcfg (endAdler s) (chunkTokens s) ⟨k, s.tab⟩).map (compressDone s final) := by
  have hparse := parse_eq s.lcfg (chunkOf s) 0 ⟨⟨k, s.tab⟩, startWin s⟩
  unfold compressChunk
  dsimp only
  rw [← chunkOf, hparse, ← endAdler, emitChunk, chunkTokens]
  cases emitTokens s.lcfg (chosenTokens s.lcfg (chunkOf s) 0 s.tab (startWin s)) ⟨k, s.tab⟩ with
  | error f => rfl
  | ok e1 =>
    cases final with
    | false => rfl
    | true =>
      dsimp only [Except.map, bind, Except.bind]
      simp only [if_true]
      cases compressEnd s.lcfg (endAdler s) e1 <;> rfl

end Sys2Proof.Machine
end

section
/-!
PROOFS of 47_parser_compress.md R640, R642: the ways a COMPRESS ends, said once in both directions, and what a COMPRESS that
runs out of room leaves.
-/
namespace Sys2Proof.Machine
open Sys2Proof.Safety

/-- A COMPRESS that succeeds: its checks pass, its output fits, and the bus allows its accesses (47_parser_compress.md R640). -/
structure CompressRuns (final : Bool) (s : State) (e : Enc) : Prop where
  may   : s.mayCompress = true
  names : bothNameable s
  emits : emitCompress final s = .ok e
  bus   : busAllows s [s.srcRegion, ⟨s.pend.ops.dstAddr.toNat, e.sink.wc.pos⟩]

/-- The ways a COMPRESS ends: with an error of the check steps, with a broken stream (R642), or with its output stored (R640). -/
inductive CompressEnds (final : Bool) (s : State) : State → Prop
  | report (e : ErrCode) (hearly : earlyError e = true) : CompressEnds final s (s.complete e)
  | broken : CompressEnds final s ((compressBroken s).complete .outputBufferTooSmall)
  | stored {e : Enc} (h : CompressRuns final s e) : CompressEnds final s ((compressDone s final e).complete .ok)

/-- Past its checks a COMPRESS emits its output. -/
theorem execCompress_checked {final : Bool} {s : State} (hmay : s.mayCompress = true) (hnames : bothNameable s) :
    exec (.compress final) s =
      match putBytes (startBytes s) ⟨startCursor s, s.mem⟩ with
      | .error f => compressFails noRegion f s
      | .ok k =>
        match emitChunk final s.lcfg (endAdler s) (chunkTokens s) ⟨k, s.tab⟩ with
        | .error f => compressFails s.srcRegion f s
        | .ok e => afterAccesses [s.srcRegion, ⟨s.pend.ops.dstAddr.toNat, e.sink.wc.pos⟩] s
            (.next ((compressDone s final e).complete .ok)) := by
  obtain ⟨⟨hsrc, hsrcSide⟩, ⟨hdst, hdstSide⟩, hdisjoint⟩ := hnames
  obtain ⟨hready, _⟩ := s.mayCompress_iff.mp hmay
  have hopen : s.ctx.state ≠ .closed := by rw [hready]; decide
  refine (requireState_pass hopen hmay).trans ((requireRegions_pass hsrc hdst hdisjoint hsrcSide hdstSide).trans ?_)
  rw [compressStart_eq]
  cases putBytes (startBytes s) ⟨startCursor s, s.mem⟩ with
  | error f => rfl
  | ok k =>
    dsimp only [Except.map]
    rw [compressChunk_eq]
    cases emitChunk final s.lcfg (endAdler s) (chunkTokens s) ⟨k, s.tab⟩ <;> rfl

theorem exec_compress_ends (final : Bool) (s : State) : Yields (CompressEnds final s) (exec (.compress final) s) := by
  intro t h
  obtain ⟨_, rfl⟩ | ⟨_, _, rfl⟩ | ⟨_, hmay, hchecked⟩ := requireState_next h
  · exact .report _ rfl
  · exact .report _ rfl
  obtain ⟨_, rfl⟩ | ⟨hsrc, hdst, hdisjoint, hsrcSide, hdstSide, _⟩ := requireRegions_next hchecked
  · exact .report _ rfl
  have hnames : bothNameable s := ⟨⟨hsrc, hsrcSide⟩, ⟨hdst, hdstSide⟩, hdisjoint⟩
  have hbroken {r : Region} {f : Full} (h : compressFails r f s = .next t) : CompressEnds final s t := by
    obtain ⟨_, h⟩ := afterAccesses_next h
    injection h with h
    exact h ▸ .broken
  rw [execCompress_checked hmay hnames] at h
  split at h
  · exact hbroken h
  · rename_i k hstart
    split at h
    · exact hbroken h
    · rename_i e hchunk
      obtain ⟨hbus, h⟩ := afterAccesses_next h
      injection h with h
      have hemits : emitCompress final s = .ok e := by
        rw [emitCompress, hstart]
        exact hchunk
      exact h ▸ .stored ⟨hmay, hnames, hemits, hbus⟩

/-- A successful COMPRESS stored its output. -/
theorem compressRuns_of_ok {final : Bool} {s t : State} (h : exec (.compress final) s = .next t) (hok : t.err = .ok) :
    ∃ e : Enc, CompressRuns final s e ∧ t = (compressDone s final e).complete .ok := by
  cases exec_compress_ends final s t h with
  | report e hearly =>
    obtain rfl : e = .ok := hok
    cases hearly
  | broken => cases hok
  | stored hruns => exact ⟨_, hruns, rfl⟩

/-- A COMPRESS whose checks pass and whose output fits succeeds. -/
theorem CompressRuns.exec_eq {final : Bool} {s : State} {e : Enc} (h : CompressRuns final s e) :
    exec (.compress final) s = .next ((compressDone s final e).complete .ok) := by
  obtain ⟨hmay, hnames, hemits, hbus⟩ := h
  obtain ⟨k, hstart, hchunk⟩ := bind_ok hemits
  rw [execCompress_checked hmay hnames, hstart]
  dsimp only
  rw [hchunk]
  exact afterAccesses_pass hbus

/-- Settles O52: only a broken stream has this code, and its free bytes lie in the destination. -/
theorem compressErrorState : Obligations.CompressErrorState := by
  unfold Obligations.CompressErrorState
  intro s t final h herr
  cases exec_compress_ends final s t h with
  | report e hearly =>
    obtain rfl : e = .outputBufferTooSmall := herr
    cases hearly
  | broken => exact ⟨rfl, fun a ha => freeRegion_other _ (Region.contains_eq_false_iff.mpr ha)⟩
  | stored hruns => cases herr

end Sys2Proof.Machine
end

section
/-!
PROOFS of 47_parser_compress.md R628, R643 and 45_window.md R572 to R574: what the parser sees of the window is the bytes
appended to it. The tokens it chooses are a function of those bytes, and stand for the chunk.
-/
namespace Sys2Proof.Machine
open Sys2Proof.Safety

/-! ## The bytes a window holds (45_window.md R570, R572) -/

/-- A ring of `w` slots holds the last bytes of a history: the fill and the byte at each distance are the history's. -/
structure Holds (w : Nat) (hist : List Byte) (v : Win) : Prop where
  wf    : v.ring.wf = true
  fill  : v.fill w = min hist.length w
  wread : ∀ d, 1 ≤ d → d ≤ hist.length → d ≤ w → v.wread w d = hist.getD (hist.length - d) 0

/-- An emptied window holds no history, whatever its ring's bytes (45_window.md R574). -/
theorem holds_clear (w : Nat) {v : Win} (h : v.ring.wf = true) : Holds w [] v.clear where
  wf := h
  fill := by simp [Win.fill]
  wread d hpos hd := absurd (hpos.trans hd) (Nat.not_succ_le_zero 0)

/-- Every window holds the bytes at its distances, oldest first. -/
theorem holds_windowBytes (w : Nat) {v : Win} (h : v.ring.wf = true) : Holds w (windowBytes w v) v where
  wf := h
  fill := by simp [windowBytes, Win.fill]
  wread d hpos hd _ := by
    simp only [windowBytes, List.length_map, List.length_range] at hd ⊢
    have hback : min v.total.toNat w - (min v.total.toNat w - d) = d := Nat.sub_sub_self hd
    rw [List.getD_eq_getElem _ _ (by simpa using by omega), List.getElem_map, List.getElem_range, hback]

theorem getD_append_length (xs : List Byte) (b : Byte) : (xs ++ [b]).getD xs.length 0 = b := by
  simp

/-- An append extends the history (45_window.md R571). -/
theorem Holds.append {w : Nat} {hist : List Byte} {v : Win} (h : Holds w hist v) (b : Byte)
    (ht : v.total.toNat + 1 < 2 ^ 64) : Holds w (hist ++ [b]) (v.append w b) where
  wf := append_ring_wf w b h.wf
  fill := by
    have hfill := h.fill
    rw [Win.fill] at hfill
    rw [Win.fill, append_total_toNat w b ht, List.length_append, List.length_singleton]
    omega
  wread d hpos hd hring := by
    have hfill := h.fill
    rw [Win.fill] at hfill
    rw [List.length_append, List.length_singleton] at hd ⊢
    obtain rfl | ⟨e, rfl, he⟩ : d = 1 ∨ ∃ e, d = e + 1 ∧ 1 ≤ e := by
      rcases Nat.lt_or_ge 1 d with h1 | h1
      · exact .inr ⟨d - 1, by omega, by omega⟩
      · exact .inl (by omega)
    · rw [Nat.add_sub_cancel, getD_append_length]
      exact wread_append_one b ht h.wf
    · rw [wread_append_succ b ht he hring (by omega), h.wread e he (by omega) (by omega), Nat.add_sub_add_right,
        List.getD_append _ _ _ _ (by omega)]

theorem Holds.appendList {w : Nat} {hist : List Byte} {v : Win} (h : Holds w hist v) (bs : List Byte)
    (ht : v.total.toNat + bs.length < 2 ^ 64) : Holds w (hist ++ bs) (v.appendList w bs) := by
  induction bs generalizing hist v with
  | nil => rwa [List.append_nil]
  | cons b bs ih =>
    rw [List.length_cons] at ht
    have hrest := ih (h.append b (by omega)) (by rw [append_total_toNat w b (by omega)]; omega)
    rwa [List.append_assoc] at hrest

theorem appendList_total_toNat (w : Nat) (bs : List Byte) {v : Win} (ht : v.total.toNat + bs.length < 2 ^ 64) :
    (v.appendList w bs).total.toNat = v.total.toNat + bs.length := by
  have hlen : (BitVec.ofNat 64 bs.length).toNat = bs.length := Nat.mod_eq_of_lt (by omega)
  rw [appendList_total, BitVec.toNat_add_of_lt (by rwa [hlen]), hlen]

/-! ## The search looks at no other byte (46_match_finder.md R590, R591) -/

section
variable {back back' : Nat → Byte} {fill : Nat} (a : List Byte)

theorem sourceByte_congr (h : ∀ d, 1 ≤ d → d ≤ fill → back d = back' d) {d : Nat} (hd : d ≤ fill) (j : Nat) :
    sourceByte back a d j = sourceByte back' a d j := by
  unfold sourceByte
  split
  · exact h _ (by omega) (by omega)
  · rfl

theorem matchLenFrom_congr (h : ∀ d, 1 ≤ d → d ≤ fill → back d = back' d) {d : Nat} (hd : d ≤ fill) (rest : List Byte)
    (j : Nat) : matchLenFrom back a d rest j = matchLenFrom back' a d rest j := by
  induction rest generalizing j with
  | nil => rfl
  | cons b rest ih => rw [matchLenFrom, matchLenFrom, sourceByte_congr a h hd, ih]

theorem findLoop_congr (h : ∀ d, 1 ≤ d → d ≤ fill → back d = back' d) (depth : Nat) {n d : Nat} (hd : d + n = fill + 1)
    (best : Nat × Nat) (seen : Nat) :
    findLoop back a depth n d best seen = findLoop back' a depth n d best seen := by
  induction n generalizing d best seen with
  | zero => rfl
  | succ n ih =>
    have hcand : isCandidate back a d = isCandidate back' a d := by
      unfold isCandidate
      simp only [sourceByte_congr a h (show d ≤ fill by omega)]
    have hlen : matchLen back a d = matchLen back' a d := matchLenFrom_congr a h (by omega) a 0
    simp only [findLoop, hcand, hlen, ih (show d + 1 + n = fill + 1 by omega)]

theorem findMatch_congr (level : Nat) (h : ∀ d, 1 ≤ d → d ≤ fill → back d = back' d) :
    findMatch level fill back a = findMatch level fill back' a := by
  unfold findMatch
  rw [findLoop_congr a h _ (Nat.add_comm 1 fill)]

end

/-- `find` in a history: the fill and the bytes at each distance are those of a ring that holds it. -/
def findIn (lc : LCfg) (hist a : List Byte) : Nat × Nat :=
  findMatch lc.level (min hist.length (windowSize lc)) (fun d => hist.getD (hist.length - d) 0) a

section
variable {lc : LCfg} {hist : List Byte} {v : Win}

theorem Holds.findHere_eq (h : Holds (windowSize lc) hist v) (a : List Byte) : findHere lc v a = findIn lc hist a := by
  rw [findHere, findIn, h.fill]
  exact findMatch_congr a lc.level fun d hpos hd => h.wread d hpos (by omega) (by omega)

theorem Holds.findNext_eq (h : Holds (windowSize lc) hist v) (b : Byte) (a : List Byte) :
    findNext lc v b a = findIn lc (hist ++ [b]) a := by
  have hfill : min (v.fill (windowSize lc) + 1) (windowSize lc) = min (hist ++ [b]).length (windowSize lc) := by
    rw [h.fill, List.length_append, List.length_singleton]
    omega
  rw [findNext, findIn, hfill]
  refine findMatch_congr a lc.level fun d hpos hd => ?_
  rw [List.length_append, List.length_singleton] at hd ⊢
  split
  · rename_i hone
    rw [hone, Nat.add_sub_cancel, getD_append_length]
  · have hplace : hist.length + 1 - d = hist.length - (d - 1) := by omega
    rw [h.wread _ (by omega) (by omega) (by omega), hplace, List.getD_append _ _ _ _ (by omega)]

/-- What the parser considers depends on the window through the history alone (47_parser_compress.md R628). -/
theorem Holds.considered_eq {v' : Win} (h : Holds (windowSize lc) hist v) (h' : Holds (windowSize lc) hist v') (b : Byte)
    (rest : List Byte) : considered lc v b rest = considered lc v' b rest := by
  simp only [considered, lazyRejects, h.findHere_eq, h'.findHere_eq, h.findNext_eq, h'.findNext_eq]

theorem Holds.nextToken_eq {v' : Win} (h : Holds (windowSize lc) hist v) (h' : Holds (windowSize lc) hist v') (t : Tabs)
    (b : Byte) (rest : List Byte) : nextToken lc t v b rest = nextToken lc t v' b rest := by
  simp only [nextToken, h.considered_eq h']

/-! ## The tokens stand for the chunk (47_parser_compress.md R628) -/

/-- What the parser considers is no match, or the one `find` returns. -/
theorem considered_cases (lc : LCfg) (v : Win) (b : Byte) (rest : List Byte) :
    considered lc v b rest = (0, 0) ∨ considered lc v b rest = findHere lc v (b :: rest) := by
  unfold considered
  dsimp only
  split
  · exact .inl rfl
  · exact .inr rfl

/-- A match of the lookahead at distance `d`, copied byte by byte from where its first `k` bytes stand already. -/
theorem copyBack_match {a : List Byte} {d n k : Nat} (hpos : 1 ≤ d) (hd : d ≤ hist.length) (hn : k + n ≤ a.length)
    (hsame : ∀ j < k + n, sourceByte (fun e => hist.getD (hist.length - e) 0) a d j = a.getD j 0) :
    copyBack n d (hist ++ a.take k) = hist ++ a.take (k + n) := by
  induction n generalizing k with
  | zero => rfl
  | succ n ih =>
    have hlen : (hist ++ a.take k).length = hist.length + k := by
      rw [List.length_append, List.length_take_of_le (by omega)]
    have hbyte : (hist ++ a.take k).getD (hist.length + k - d) 0 = a.getD k 0 := by
      rw [← hsame k (by omega), sourceByte]
      split
      · have hplace : hist.length + k - d = hist.length - (d - k) := by omega
        rw [hplace, List.getD_append _ _ _ _ (by omega)]
      · have hplace : hist.length + k - d - hist.length = k - d := by omega
        rw [List.getD_append_right _ _ _ _ (by omega), hplace, List.getD_eq_getElem?_getD,
          List.getElem?_take_of_lt (by omega), ← List.getD_eq_getElem?_getD]
    have hnext : hist ++ a.take k ++ [a.getD k 0] = hist ++ a.take (k + 1) := by
      rw [List.append_assoc, List.take_add_one, List.getElem?_eq_getElem (by omega), List.getD_eq_getElem _ _ (by omega),
        Option.toList_some]
    have hcount : k + (n + 1) = k + 1 + n := by omega
    rw [copyBack, hlen, hbyte, hnext, hcount]
    exact ih (by omega) fun j hj => hsame j (by omega)

/-- A match that `find` returns expands to the bytes it covers, and lies in the ranges of 30_encoding.md R343. -/
theorem expand_findIn {a : List Byte} {length dist : Nat} (h : findIn lc hist a = (length, dist)) (hlength : 3 ≤ length) :
    (Token.copy length dist).expand lc.dict hist = some (hist ++ a.take length) := by
  have hbest := findMatch_best lc.level (min hist.length (windowSize lc)) (fun d => hist.getD (hist.length - d) 0) a
  rw [← findIn, h] at hbest
  obtain ⟨hzero, _⟩ | ⟨⟨hcand, _⟩, ⟨hmax, hsame, _⟩, _⟩ := hbest
  · dsimp only at hzero
    omega
  obtain ⟨hpos, hfill, _⟩ := candidate_iff.mp hcand
  dsimp only at hmax hsame hpos hfill
  have hcopy := copyBack_match (n := length) (k := 0) hpos (hfill.trans (min_le_left _ _)) (by omega)
    (fun j hj => hsame j (by omega))
  rw [List.take_zero, List.append_nil, Nat.zero_add] at hcopy
  rw [Token.expand, if_pos ⟨hlength, by omega, hpos, hfill⟩, hcopy]

/-- The chosen token stands for the bytes it covers. -/
theorem Holds.expand_nextToken (h : Holds (windowSize lc) hist v) (t : Tabs) (b : Byte) (rest : List Byte) :
    (nextToken lc t v b rest).expand lc.dict hist =
      some (hist ++ (b :: rest).take (tokenSize (nextToken lc t v b rest))) := by
  obtain ⟨length, dist, hm, hlength, _, htok⟩ | htok := nextToken_cases lc t v b rest <;> rw [htok]
  · obtain hnone | hfound := considered_cases lc v b rest
    · rw [hnone, Prod.mk.injEq] at hm
      omega
    · exact expand_findIn (h.findHere_eq _ ▸ hfound ▸ hm) hlength
  · rfl

/-- What a round of the choice passes on: the history with the token's bytes, and a counter that the rest of the chunk does
not wrap. -/
theorem Holds.round (h : Holds (windowSize lc) hist v) {b : Byte} {rest : List Byte} {n : Nat} (hn : 1 ≤ n)
    (ht : v.total.toNat + (b :: rest).length < 2 ^ 64) :
    Holds (windowSize lc) (hist ++ (b :: rest).take n) (v.appendList (windowSize lc) ((b :: rest).take n)) ∧
      (v.appendList (windowSize lc) ((b :: rest).take n)).total.toNat + (rest.drop (n - 1)).length < 2 ^ 64 := by
  have hsplit := congrArg List.length (take_append_drop_tail b rest hn)
  rw [List.length_append] at hsplit
  exact ⟨h.appendList _ (by omega), by rw [appendList_total_toNat _ _ (by omega)]; omega⟩

/-- The tokens of a chunk stand for it, after the history. -/
theorem Holds.expand_chosenTokens (h : Holds (windowSize lc) hist v) {bs : List Byte} {skip : Nat} (t : Tabs)
    (ht : v.total.toNat + (bs.drop skip).length < 2 ^ 64) :
    expandTokens lc.dict (chosenTokens lc bs skip t v) hist = some (hist ++ bs.drop skip) := by
  induction bs generalizing hist v skip t with
  | nil => cases skip <;> exact congrArg some (List.append_nil hist).symm
  | cons b rest ih =>
    cases skip with
    | succ skip => exact ih h t ht
    | zero =>
      have hpos := nextToken_size_pos lc t v b rest
      obtain ⟨hround, htotal⟩ := h.round hpos ht
      rw [chosenTokens, expandTokens, h.expand_nextToken, Option.bind_some, ih hround _ htotal, List.append_assoc,
        take_append_drop_tail b rest hpos, List.drop_zero]

/-- The tokens of a chunk depend on the window through the history alone (47_parser_compress.md R628). -/
theorem Holds.chosenTokens_eq {v' : Win} (h : Holds (windowSize lc) hist v) (h' : Holds (windowSize lc) hist v')
    {bs : List Byte} {skip : Nat} (ht : v.total.toNat + (bs.drop skip).length < 2 ^ 64)
    (ht' : v'.total.toNat + (bs.drop skip).length < 2 ^ 64) (t : Tabs) :
    chosenTokens lc bs skip t v = chosenTokens lc bs skip t v' := by
  induction bs generalizing hist v v' skip t with
  | nil => cases skip <;> rfl
  | cons b rest ih =>
    cases skip with
    | succ skip => exact ih h h' ht ht' t
    | zero =>
      have hpos := nextToken_size_pos lc t v' b rest
      obtain ⟨hround, htotal⟩ := h.round hpos ht
      obtain ⟨hround', htotal'⟩ := h'.round hpos ht'
      rw [chosenTokens, chosenTokens, h.nextToken_eq h', ih hround hround' htotal htotal']

end

/-! ## The start of a stream (47_parser_compress.md R643, 45_window.md R574) -/

/-- A chunk is shorter than the window's counter can count. -/
theorem length_chunkOf_lt (s : State) : (chunkOf s).length < 2 ^ 32 := by
  rw [chunkOf, Mem.length_readList]
  exact s.pend.ops.srcLen.isLt

/-- Settles O53: both windows hold no history after they are cleared, so the same tokens are chosen, and they are emitted
through the same cursor. -/
theorem streamStartForgetsThePast : Obligations.StreamStartForgetsThePast := by
  unfold Obligations.StreamStartForgetsThePast
  intro s s' t final _ hmay' hfresh hfresh' hlcfg htab hpend hmem hplat hring hring' hexec hok
  obtain ⟨e, ⟨_, hnames, hemits, hbus⟩, rfl⟩ := compressRuns_of_ok hexec hok
  have hlen := length_chunkOf_lt s
  have hchunk : chunkOf s' = chunkOf s := by rw [chunkOf, hpend, hmem, chunkOf]
  have hcursor : startCursor s' = startCursor s := by simp [startCursor, hfresh, hfresh', hpend]
  have hbytes : startBytes s' = startBytes s := by simp [startBytes, hfresh, hfresh', hlcfg]
  have hadler : endAdler s' = endAdler s := by simp [endAdler, hfresh, hfresh', hchunk]
  have htoks : chunkTokens s' = chunkTokens s := by
    simp only [chunkTokens, startWin, hfresh, hfresh', hlcfg, htab, hchunk, Bool.false_eq_true, if_false]
    exact (holds_clear _ hring').chosenTokens_eq (holds_clear _ hring) (by simpa using by omega) (by simpa using by omega) _
  have hruns : CompressRuns final s' e :=
    { may := hmay'
      names := by simpa only [bothNameable, nameable, State.srcRegion, State.dstRegion, hpend, hplat] using hnames
      emits := by rw [emitCompress, hcursor, hbytes, hadler, htoks, hlcfg, htab, hmem, ← emitCompress, hemits]
      bus := by simpa only [busAllows, State.srcRegion, hpend, hplat] using hbus }
  refine ⟨_, hruns.exec_eq, rfl, rfl, rfl, hadler, rfl, rfl, ?_⟩
  simp only [complete_win, compressDone, startWin, hfresh, hfresh', Bool.false_eq_true, if_false, appendList_total,
    clear_total, hchunk]

end Sys2Proof.Machine
end

section
/-!
PROOFS of 47_parser_compress.md R627, R640 and 30_encoding.md R330, R332, R336, R341: the bits a COMPRESS writes. Each part of the
output is written when the bits up to its end fit in the destination, and then it follows the bits before it.
-/
namespace Sys2Proof.Machine
open Sys2Proof.Safety

/-! ## Outcomes that have room or not -/

/-- An outcome of the write side: what it gives has the property, and it gives something when the room is there. -/
structure Meets {α : Type} (room : Prop) (P : α → Prop) (r : Except Full α) : Prop where
  holds : ∀ a, r = .ok a → P a
  fits  : room → ∃ a, r = .ok a

section
variable {α β : Type} {room room' : Prop} {P : α → Prop} {Q : β → Prop} {r : Except Full α}

theorem meets_ok {a : α} (h : P a) : Meets room P (.ok a) :=
  ⟨fun b hb => by injection hb with hb; exact hb ▸ h, fun _ => ⟨a, rfl⟩⟩

/-- Two parts in turn: room for both is room for the first. -/
theorem Meets.bind {f : α → Except Full β} (h : Meets room P r) (hroom : room' → room)
    (hf : ∀ a, P a → Meets room' Q (f a)) : Meets room' Q (r >>= f) := by
  refine ⟨fun b hb => ?_, fun hfit => ?_⟩
  · obtain ⟨a, ha, hb⟩ := bind_ok hb
    exact (hf a (h.holds a ha)).holds b hb
  · obtain ⟨a, ha⟩ := h.fits (hroom hfit)
    exact ha ▸ (hf a (h.holds a ha)).fits hfit

theorem Meets.map {f : α → β} (h : Meets room P r) (hf : ∀ a, P a → Q (f a)) : Meets room Q (r.map f) := by
  refine ⟨fun b hb => ?_, fun hfit => ?_⟩
  · obtain ⟨a, ha, rfl⟩ := map_ok hb
    exact hf a (h.holds a ha)
  · obtain ⟨a, ha⟩ := h.fits hfit
    exact ⟨f a, ha ▸ rfl⟩

end

/-! ## Bits written since a cursor was set up (41_bitstream.md R432, R433) -/

/-- Where a cursor stands that was set up on a region over the memory `m`: these bits are written or pending, and no byte
outside the stored ones changed. -/
structure Written (base cap : Word) (m : Mem) (bits : List Bool) (k : Sink) : Prop where
  base_eq : k.wc.base = base
  cap_eq  : k.wc.cap = cap
  nacc_lt : k.wc.nacc < 8
  mem_wf  : k.mem.wf = true
  bits_eq : writtenBits k.wc k.mem = bits
  outside : ∀ a, (a < base.toNat ∨ base.toNat + k.wc.pos ≤ a) → Mem.read a k.mem = Mem.read a m

/-- The whole bytes of a bit string fit in a region. -/
def Fits (cap : Word) (bits : List Bool) : Prop :=
  bits.length / 8 ≤ cap.toNat

theorem Fits.mono {cap : Word} {xs ys : List Bool} (h : xs.length ≤ ys.length) : Fits cap ys → Fits cap xs :=
  (Nat.div_le_div_right h).trans

theorem fits_of_append {cap : Word} {xs ys : List Bool} : Fits cap (xs ++ ys) → Fits cap xs :=
  Fits.mono (by rw [List.length_append]; exact Nat.le_add_right _ _)

section
variable {base cap : Word} {m : Mem} {bits xs : List Bool} {k k' : Sink}

/-- The position and the pending count are those of the number of bits. -/
theorem Written.length_eq (h : Written base cap m bits k) : bits.length = 8 * k.wc.pos + k.wc.nacc := by
  rw [← h.bits_eq, writtenBits, List.length_append, length_bytesBits, Mem.length_readList, length_msbBits]

theorem Written.append (h : Written base cap m bits k) (hw : WroteBits xs k.wc k.mem k'.wc k'.mem)
    (hm : k'.mem.wf = true) : Written base cap m (bits ++ xs) k' where
  base_eq := hw.base.trans h.base_eq
  cap_eq := hw.cap.trans h.cap_eq
  nacc_lt := hw.nacc ▸ Nat.mod_lt _ (by decide)
  mem_wf := hm
  bits_eq := by rw [hw.written, h.bits_eq]
  outside a ha := by
    have hbase := h.base_eq
    have hpos := hw.pos
    rw [hw.outside a (by rw [hbase]; omega), h.outside a (by omega)]

/-- `putbits` writes its bits when they fit (41_bitstream.md R431, R432). -/
theorem Written.putbits (h : Written base cap m bits k) (n v : Nat) :
    Meets (Fits cap (bits ++ msbBits n v)) (Written base cap m (bits ++ msbBits n v)) (putbits n v k) := by
  refine ⟨fun k' hk => h.append (putbits_wrote hk h.nacc_lt h.mem_wf) ((putbits_ok hk).2.2.mem_wf h.mem_wf), fun hfit => ?_⟩
  have hlen := h.length_eq
  have hcap := h.cap_eq
  rw [Fits, List.length_append, length_msbBits, hlen] at hfit
  have hroom : k.wc.room n = true := by
    rw [WCur.room, decide_eq_true_eq, hcap]
    omega
  exact ⟨_, if_pos hroom⟩

/-- `flush` writes zero bits up to a byte boundary when they fit (41_bitstream.md R433). -/
theorem Written.flush (h : Written base cap m bits k) :
    Meets (Fits cap (bits ++ padding bits)) (Written base cap m (bits ++ padding bits)) (flush k) := by
  have hlen := h.length_eq
  have hnacc := h.nacc_lt
  have hpad : padding bits = List.replicate ((8 - k.wc.nacc) % 8) false := by
    have hmod : bits.length % 8 = k.wc.nacc := by omega
    rw [padding, hmod]
  rw [hpad]
  refine ⟨fun k' hk => h.append (flush_wrote hk h.nacc_lt h.mem_wf) ((flush_ok hk).1.mem_wf h.mem_wf), fun hfit => ?_⟩
  cases hk : Machine.flush k with
  | ok k' => exact ⟨k', rfl⟩
  | error f =>
    obtain ⟨_, hpending, hfull⟩ := flush_error hk
    have hcap := h.cap_eq
    rw [Fits, List.length_append, List.length_replicate, hlen] at hfit
    rw [hcap] at hfull
    omega

/-- A list of bytes is written when it fits. -/
theorem Written.putBytes (h : Written base cap m bits k) (bs : List Byte) :
    Meets (Fits cap (bits ++ bytesBits bs)) (Written base cap m (bits ++ bytesBits bs)) (putBytes bs k) := by
  induction bs generalizing bits k with
  | nil => exact meets_ok (by simpa [bytesBits] using h)
  | cons b bs ih =>
    have hcons : Machine.putBytes (b :: bs) k = (Machine.putbits 8 b.toNat k >>= Machine.putBytes bs) := by
      rw [Machine.putBytes]
      cases Machine.putbits 8 b.toNat k <;> rfl
    rw [hcons, bytesBits_cons, ← List.append_assoc]
    exact (h.putbits 8 b.toNat).bind fits_of_append fun k' hk' => ih hk'

end

/-! ## Tokens written (30_encoding.md R341) -/

/-- Bits written through the cursor, with the tables that coding them leaves. -/
structure EncAt (base cap : Word) (m : Mem) (p : List Bool × Tabs) (e : Enc) : Prop where
  sink : Written base cap m p.1 e.sink
  tab  : e.tab = p.2

theorem codeSymbol_length_le (lc : LCfg) (c : SymClass) (sym : Nat) (p : List Bool × Tabs) :
    p.1.length ≤ (codeSymbol lc c sym p).1.length := by
  simp [codeSymbol]

theorem codeTokens_length_le (lc : LCfg) (toks : List Token) (p : List Bool × Tabs) :
    p.1.length ≤ (codeTokens lc toks p).1.length := by
  rw [codeTokens_eq]
  simp

section
variable {base cap : Word} {m : Mem} {p : List Bool × Tabs} {e : Enc} {lc : LCfg}

/-- A symbol is encoded when its code fits (44_adaptive_codec.md R530). -/
theorem EncAt.encSym (h : EncAt base cap m p e) (c : SymClass) (sym : Nat) :
    Meets (Fits cap (codeSymbol lc c sym p).1) (EncAt base cap m (codeSymbol lc c sym p)) (encSym lc c sym e) := by
  have hput := h.sink.putbits ((p.2.get c).len.getD sym 0) ((p.2.get c).code.getD sym 0)
  refine ⟨fun e' he => ?_, fun hfit => ?_⟩
  · obtain ⟨hk, htab⟩ := encSym_ok he
    rw [h.tab] at hk htab
    exact ⟨hput.holds _ hk, htab⟩
  · obtain ⟨k, hk⟩ := hput.fits hfit
    rw [← h.tab] at hk
    exact ⟨_, encSym_of_putbits hk⟩

/-- Raw bits are written when they fit. -/
theorem EncAt.emitRaw (h : EncAt base cap m p e) (n v : Nat) :
    Meets (Fits cap (p.1 ++ msbBits n v)) (EncAt base cap m (p.1 ++ msbBits n v, p.2)) (emitRaw n v e) :=
  (h.sink.putbits n v).map fun _ hk => ⟨hk, h.tab⟩

/-- A token is written when its codes fit (47_parser_compress.md R627). -/
theorem EncAt.emitToken (h : EncAt base cap m p e) (tok : Token) :
    Meets (Fits cap (codeToken lc p tok).1) (EncAt base cap m (codeToken lc p tok)) (emitToken lc tok e) := by
  cases tok with
  | lit b =>
    exact (h.encSym .typ 0).bind (Fits.mono (codeSymbol_length_le ..)) fun _ h1 => h1.encSym .lit b.toNat
  | copy length dist =>
    have hdist (q : List Bool × Tabs) : Fits cap (codeValue lc .dist (dist - 1) q).1 → Fits cap q.1 := fun hfit =>
      Fits.mono (codeSymbol_length_le ..) (fits_of_append hfit)
    have hlength (q : List Bool × Tabs) : Fits cap (codeValue lc .len (length - 3) q).1 → Fits cap q.1 := fun hfit =>
      Fits.mono (codeSymbol_length_le ..) (fits_of_append hfit)
    refine (h.encSym .typ 1).bind (fun hfit => hlength _ (hdist _ hfit)) fun _ h1 => ?_
    refine (h1.encSym .len _).bind (fun hfit => fits_of_append (hdist _ hfit)) fun _ h2 => ?_
    refine (h2.emitRaw _ _).bind (hdist _) fun _ h3 => ?_
    exact (h3.encSym .dist _).bind fits_of_append fun _ h4 => h4.emitRaw _ _

/-- A list of tokens is written when its codes fit. -/
theorem EncAt.emitTokens (h : EncAt base cap m p e) (toks : List Token) :
    Meets (Fits cap (codeTokens lc toks p).1) (EncAt base cap m (codeTokens lc toks p)) (emitTokens lc toks e) := by
  induction toks generalizing p e with
  | nil => exact meets_ok h
  | cons tok toks ih =>
    exact (h.emitToken tok).bind (Fits.mono (codeTokens_length_le ..)) fun _ h1 => ih h1

/-- What FINAL writes after the tokens: the end-of-stream token, the padding and the trailer (47_parser_compress.md R640). -/
def codeFinal (lc : LCfg) (adler : Word) (p : List Bool × Tabs) : List Bool × Tabs :=
  ((codeEos lc p).1 ++ padding (codeEos lc p).1 ++ bytesBits (trailer adler), (codeEos lc p).2)

theorem EncAt.compressEnd (h : EncAt base cap m p e) (adler : Word) :
    Meets (Fits cap (codeFinal lc adler p).1) (EncAt base cap m (codeFinal lc adler p)) (compressEnd lc adler e) := by
  refine (h.encSym .typ 2).bind (fun hfit => fits_of_append (fits_of_append hfit)) fun e1 h1 => ?_
  refine h1.sink.flush.bind fits_of_append fun k hk => ?_
  exact (hk.putBytes (trailer adler)).bind id fun k1 hk1 => meets_ok ⟨hk1, h1.tab⟩

/-- What a chunk writes: the codes of its tokens and, with FINAL, the end of the stream (47_parser_compress.md R640). -/
def codeChunk (lc : LCfg) (final : Bool) (adler : Word) (toks : List Token) (p : List Bool × Tabs) : List Bool × Tabs :=
  if final then codeFinal lc adler (codeTokens lc toks p) else codeTokens lc toks p

theorem EncAt.emitChunk (h : EncAt base cap m p e) (final : Bool) (adler : Word) (toks : List Token) :
    Meets (Fits cap (codeChunk lc final adler toks p).1) (EncAt base cap m (codeChunk lc final adler toks p))
      (emitChunk final lc adler toks e) := by
  cases final with
  | false => exact (h.emitTokens toks).bind id fun _ h1 => meets_ok h1
  | true =>
    refine (h.emitTokens toks).bind (fun hfit => ?_) fun _ h1 => h1.compressEnd adler
    exact Fits.mono (codeSymbol_length_le ..) (fits_of_append (fits_of_append hfit))

end

/-! ## The output of a COMPRESS (47_parser_compress.md R640) -/

/-- The bits before the tokens of a chunk: the pending ones or, at the first chunk, the header. -/
def startBits (s : State) : List Bool :=
  if s.ctx.started then msbBits s.wc.nacc s.wc.acc else bytesBits (header s.lcfg)

/-- The whole output of a COMPRESS, with the tables it leaves. -/
def chunkCode (final : Bool) (s : State) : List Bool × Tabs :=
  codeChunk s.lcfg final (endAdler s) (chunkTokens s) (startBits s, s.tab)

theorem written_startCursor {s : State} (hn : s.wc.nacc < 8) (hm : s.mem.wf = true) :
    Written s.pend.ops.dstAddr s.pend.ops.dstCap s.mem (if s.ctx.started then msbBits s.wc.nacc s.wc.acc else [])
      ⟨startCursor s, s.mem⟩ := by
  unfold startCursor
  split
  · exact ⟨rfl, rfl, hn, hm, rfl, fun _ _ => rfl⟩
  · exact ⟨rfl, rfl, Nat.succ_pos 7, hm, rfl, fun _ _ => rfl⟩

/-- The output of a COMPRESS is written to the destination when it fits. -/
theorem emitCompress_meets {s : State} (h : Inv s) (final : Bool) :
    Meets (Fits s.pend.ops.dstCap (chunkCode final s).1)
      (EncAt s.pend.ops.dstAddr s.pend.ops.dstCap s.mem (chunkCode final s)) (emitCompress final s) := by
  have hbits : (if s.ctx.started then msbBits s.wc.nacc s.wc.acc else []) ++ bytesBits (startBytes s) = startBits s := by
    unfold startBytes startBits
    cases s.ctx.started with
    | true => exact List.append_nil _
    | false => rfl
  have hstart := (written_startCursor h.wc.nacc_lt h.mem_wf).putBytes (startBytes s)
  rw [hbits] at hstart
  refine hstart.bind (fun hfit => ?_) fun k hk => EncAt.emitChunk (p := (startBits s, s.tab)) ⟨hk, rfl⟩ final _ _
  have htoks := codeTokens_length_le s.lcfg (chunkTokens s) (startBits s, s.tab)
  unfold chunkCode codeChunk at hfit
  split at hfit
  · exact Fits.mono htoks (Fits.mono (codeSymbol_length_le ..) (fits_of_append (fits_of_append hfit)))
  · exact Fits.mono htoks hfit

end Sys2Proof.Machine
end

section
/-!
PROOFS of 47_parser_compress.md R628, R640: what a successful COMPRESS leaves.
-/
namespace Sys2Proof.Machine
open Sys2Proof.Safety

/-! ## The trailer and the header (30_encoding.md R330, R336) -/

/-- The four bytes of a 32-bit value, most significant first, have its bits. -/
theorem bytesBits_trailer (v : Word) : bytesBits (trailer v) = msbBits 32 v.toNat := by
  have hbyte (k : Nat) : msbBits 8 (v.extractLsb' k 8).toNat = msbBits 8 (v.toNat >>> k) := by
    rw [BitVec.extractLsb'_toNat]
    exact msbBits_mod _ (Nat.le_refl 8)
  have hsplit : msbBits 32 v.toNat =
      msbBits 8 (v.toNat >>> 24) ++ (msbBits 8 (v.toNat >>> 16) ++ (msbBits 8 (v.toNat >>> 8) ++ msbBits 8 v.toNat)) := by
    rw [← msbBits_add 8 8 v.toNat, ← msbBits_add 8 16 v.toNat, ← msbBits_add 8 24 v.toNat]
  simp only [trailer, bytesBits_cons, hbyte, hsplit, Nat.shiftRight_zero]
  rfl

/-- The header with the interval's two bytes by division (30_encoding.md R330). -/
theorem header_eq (lc : LCfg) :
    header lc = [0x50, 0x5A, 0x01, BitVec.ofNat 8 lc.dict, BitVec.ofNat 8 lc.rate, BitVec.ofNat 8 (lc.maxint / 256),
      BitVec.ofNat 8 (lc.maxint % 256), BitVec.ofNat 8 lc.slow] := by
  rw [header, Nat.shiftRight_eq_div_pow, show (0xFF : Nat) = 2 ^ 8 - 1 from rfl, Nat.and_two_pow_sub_one_eq_mod]

/-! ## The end of the stream (30_encoding.md R332) -/

/-- With the padding a bit string ends at a byte boundary. -/
theorem length_append_padding_mod (bits : List Bool) : (bits ++ padding bits).length % 8 = 0 := by
  rw [List.length_append, padding, List.length_replicate]
  omega

theorem length_codeFinal_mod (lc : LCfg) (adler : Word) (p : List Bool × Tabs) : (codeFinal lc adler p).1.length % 8 = 0 := by
  have hpadded := length_append_padding_mod (codeEos lc p).1
  have htrailer : (bytesBits (trailer adler)).length = 32 := length_bytesBits _
  rw [codeFinal, List.length_append, htrailer]
  omega

/-! ## The chunk (47_parser_compress.md R628, R640) -/

section
variable {s : State} {final : Bool} {e : Enc} {hist : List Byte}

/-- What a COMPRESS stored, with the tables. -/
theorem CompressRuns.encAt (h : CompressRuns final s e) (hs : Inv s) :
    EncAt s.pend.ops.dstAddr s.pend.ops.dstCap s.mem (chunkCode final s) e :=
  (emitCompress_meets hs final).holds e h.emits

/-- The cursor ends inside the destination. -/
theorem CompressRuns.pos_le (h : CompressRuns final s e) (hs : Inv s) : e.sink.wc.pos ≤ s.pend.ops.dstCap.toNat := by
  have hcursor := (exec_inv hs (.compress final) _ h.exec_eq).wc.pos_le
  rw [complete_wc] at hcursor
  exact (h.encAt hs).sink.cap_eq ▸ hcursor

/-- The tokens of a chunk stand for it after a history that the window holds. -/
theorem expand_chunkTokens (hw : Holds (windowSize s.lcfg) hist (startWin s))
    (ht : (startWin s).total.toNat + (chunkOf s).length < 2 ^ 64) :
    expandTokens s.lcfg.dict (chunkTokens s) hist = some (hist ++ chunkOf s) :=
  hw.expand_chosenTokens s.tab ht

/-- After a chunk the window holds the history with the chunk. -/
theorem holds_compressDone (hw : Holds (windowSize s.lcfg) hist (startWin s))
    (ht : (startWin s).total.toNat + (chunkOf s).length < 2 ^ 64) :
    Holds (windowSize s.lcfg) (hist ++ chunkOf s) (compressDone s final e).win :=
  hw.appendList _ ht

/-- What a COMPRESS starts from is a window of the older bytes of its stream, and a counter that its chunk does not wrap. -/
theorem startWin_holds (hring : s.win.ring.wf = true)
    (ht : s.ctx.started = true → s.win.total.toNat + (chunkOf s).length < 2 ^ 64) :
    Holds (windowSize s.lcfg) (if s.ctx.started then windowBytes (windowSize s.lcfg) s.win else []) (startWin s) ∧
      (startWin s).total.toNat = (if s.ctx.started then s.win.total.toNat else 0) ∧
      (startWin s).total.toNat + (chunkOf s).length < 2 ^ 64 := by
  have hlen := length_chunkOf_lt s
  unfold startWin
  split
  · rename_i hstarted
    exact ⟨holds_windowBytes _ hring, rfl, ht hstarted⟩
  · exact ⟨holds_clear _ hring, rfl, by simpa using by omega⟩

end

/-- Settles O51: the output is the codes of the chosen tokens between the bits of the start and those of the end, and the tokens
stand for the chunk after what the window holds. -/
theorem compressChunkEffects : Obligations.CompressChunkEffects := by
  unfold Obligations.CompressChunkEffects
  intro s t final chunk older start hs hexec hok hchunk holder hstart hwrap
  obtain ⟨e, hruns, rfl⟩ := compressRuns_of_ok hexec hok
  obtain ⟨_, _, hdone⟩ := s.mayCompress_iff.mp hruns.may
  rw [← chunkOf] at hchunk
  rw [← header_eq, ← startBits] at hstart
  subst hchunk holder hstart
  obtain ⟨hsink, htab⟩ := hruns.encAt hs
  obtain ⟨hwin, htotal, hlen⟩ := startWin_holds (s := s) hs.ring_wf hwrap
  have hafter := holds_compressDone (final := final) (e := e) hwin hlen
  refine ⟨?_, hsink.base_eq, hsink.cap_eq, hruns.pos_le hs, ?_, ?_, ⟨chunkTokens s, _, expand_chunkTokens hwin hlen, rfl,
    ?_, ?_⟩, hsink.outside⟩
  · simp only [compressDone, hdone, Bool.false_or]
    rfl
  · rw [complete_win, compressDone, appendList_total_toNat _ _ hlen, htotal]
  · intro d hpos hring hd
    rw [← List.length_append] at hd ⊢
    exact hafter.wread d hpos hd hring
  · rintro rfl
    exact ⟨hsink.bits_eq, htab⟩
  · rintro rfl
    refine ⟨?_, htab, ?_⟩
    · have hbits := hsink.length_eq
      have hnacc := hsink.nacc_lt
      have hboundary : (chunkCode true s).1.length % 8 = 0 := length_codeFinal_mod ..
      show e.sink.wc.nacc = 0
      omega
    · rw [← bytesBits_trailer]
      exact hsink.bits_eq

end Sys2Proof.Machine
end

section
/-!
PROOFS of 47_parser_compress.md R640, the output size bound: a sound TYPE table has codes of at most 2 bits and a sound LIT table
of at most 16, and a match is chosen only when it costs no more than the literals it replaces, so each byte of a chunk costs
at most 18 bits.
-/
namespace Sys2Proof.Machine
open Sys2Proof.Safety

/-! ## Costs of sound tables (47_parser_compress.md R620, R640) -/

/-- Three codeword lengths that share out the whole code space are at most 2: two others can take three quarters of it at most,
or all of it. -/
theorem length_le_two_of_kraft {a b c : Nat} (hb : 0 < b) (hc : 0 < c)
    (h : 2 ^ (16 - a) + (2 ^ (16 - b) + 2 ^ (16 - c)) = 2 ^ 16) : a ≤ 2 := by
  have hle {x n : Nat} (hx : n ≤ x) : 2 ^ (16 - x) ≤ 2 ^ (16 - n) := Nat.pow_le_pow_right two_pos (by omega)
  by_contra hlong
  have ha : 2 ^ (16 - a) ≤ 2 ^ 13 := hle (n := 3) (by omega)
  have hapos := Nat.two_pow_pos (16 - a)
  have hbmax : 2 ^ (16 - b) ≤ 2 ^ 15 := hle (n := 1) hb
  have hcmax : 2 ^ (16 - c) ≤ 2 ^ 15 := hle (n := 1) hc
  obtain rfl | hb2 : b = 1 ∨ 2 ≤ b := by omega
  · obtain rfl | hc2 : c = 1 ∨ 2 ≤ c := by omega
    · omega
    · have : 2 ^ (16 - c) ≤ 2 ^ 14 := hle hc2
      omega
  · have : 2 ^ (16 - b) ≤ 2 ^ 14 := hle hb2
    omega

section
variable {lc : LCfg} {t : Tabs}

/-- A TYPE code has at most 2 bits. -/
theorem typ_len_le (h : TabsSound lc t) (i : Nat) : t.typ.len.getD i 0 ≤ 2 := by
  have hsound : TableSound lc 3 t.typ := h .typ
  obtain ⟨g, hg, hpos, hlen, _⟩ := hsound.built
  have hbuilt := buildLengths_lengthsFor g
  have hle := buildLengths_le (f := g) (by omega)
  rw [← hlen] at hbuilt hle
  obtain ⟨a, b, c, habc⟩ := List.length_eq_three.mp (hbuilt.length.trans hg)
  have hpresent {j : Nat} (hj : j < 3) : 0 < t.typ.len.getD j 0 := by
    rw [hbuilt.pos_iff, List.getD_eq_getElem _ _ (by omega)]
    exact hpos _ (List.getElem_mem _)
  have ha := hpresent (j := 0) (by decide)
  have hb := hpresent (j := 1) (by decide)
  have hc := hpresent (j := 2) (by decide)
  have hkraft := hbuilt.kraft (by rw [presentCount_of_pos hpos]; omega) 16 hle
  rw [habc] at ha hb hc hkraft ⊢
  simp only [List.getD_cons_zero, List.getD_cons_succ] at ha hb hc
  simp only [List.filter_cons, ha, hb, hc, decide_true, if_true, List.filter_nil, List.map_cons, List.map_nil, List.sum_cons,
    List.sum_nil, Nat.add_zero] at hkraft
  match i with
  | 0 => exact length_le_two_of_kraft hb hc hkraft
  | 1 => exact length_le_two_of_kraft (a := b) ha hc (by omega)
  | 2 => exact length_le_two_of_kraft (a := c) ha hb (by omega)
  | _ + 3 => exact Nat.zero_le 2

/-- A LIT code has at most 16 bits (43_prefix_code.md R480). -/
theorem lit_len_le (h : TabsSound lc t) (i : Nat) : t.lit.len.getD i 0 ≤ 16 :=
  (tableSound_fullCode (n := 256) (h .lit) (by decide)).kraft.getD_le i

/-- A literal costs at most 18 bits. -/
theorem costLits_le (h : TabsSound lc t) (bs : List Byte) : costLits t bs ≤ 18 * bs.length := by
  induction bs with
  | nil => exact le_rfl
  | cons b bs ih =>
    have htyp := typ_len_le h 0
    have hlit := lit_len_le h b.toNat
    rw [costLits] at ih
    rw [costLits, List.map_cons, List.sum_cons, List.length_cons]
    omega

/-- A match takes exactly its cost: the symbols of a token belong to distinct classes (47_parser_compress.md R620). -/
theorem length_codeToken_copy (lc : LCfg) (t : Tabs) (length dist : Nat) :
    (codeToken lc ([], t) (.copy length dist)).1.length = costMatch t length dist := by
  simp only [codeToken, codeValue, codeSymbol, codeBits, costMatch, minMatch, List.nil_append, List.length_append,
    length_msbBits, Tabs.get, Tabs.set]

theorem length_codeToken_lit (lc : LCfg) (t : Tabs) (b : Byte) :
    (codeToken lc ([], t) (.lit b)).1.length = t.typ.len.getD 0 0 + t.lit.len.getD b.toNat 0 := by
  simp only [codeToken, codeSymbol, codeBits, List.nil_append, List.length_append, length_msbBits, Tabs.get,
    Tabs.set]

/-- The chosen token takes at most 18 bits for each byte it stands for (47_parser_compress.md R621, R640). -/
theorem length_codeToken_nextToken (h : TabsSound lc t) (v : Win) (b : Byte) (rest : List Byte) :
    (codeToken lc ([], t) (nextToken lc t v b rest)).1.length ≤
      18 * ((b :: rest).take (tokenSize (nextToken lc t v b rest))).length := by
  obtain ⟨length, dist, _, _, hcost, htok⟩ | htok := nextToken_cases lc t v b rest <;> rw [htok]
  · rw [length_codeToken_copy]
    exact hcost.trans (costLits_le h _)
  · have htyp := typ_len_le h 0
    have hlit := lit_len_le h b.toNat
    rw [length_codeToken_lit]
    simp only [tokenSize, List.take_succ_cons, List.take_zero, List.length_singleton]
    omega

end

/-! ## The chunk (47_parser_compress.md R640) -/

section
variable {p : Config.Platform} {lc : LCfg} (hlc : LCfgOk p lc)
include hlc

theorem codeSymbol_sound {q : List Bool × Tabs} (h : TabsSound lc q.2) (c : SymClass) (sym : Nat) :
    TabsSound lc (codeSymbol lc c sym q).2 :=
  (tabsKept_update hlc q.2 c sym).sound h

/-- Coding a token keeps the tables sound (44_adaptive_codec.md R528). -/
theorem codeToken_sound {q : List Bool × Tabs} (h : TabsSound lc q.2) (tok : Token) :
    TabsSound lc (codeToken lc q tok).2 := by
  cases tok with
  | lit b => exact codeSymbol_sound hlc (codeSymbol_sound hlc h .typ 0) .lit _
  | copy length dist =>
    have hlen := codeSymbol_sound hlc (codeSymbol_sound hlc h .typ 1) .len (bucket (length - 3)).1
    exact codeSymbol_sound (q := codeValue lc .len (length - 3) (codeSymbol lc .typ 1 q)) hlc hlen .dist _

theorem codeTokens_sound (toks : List Token) {q : List Bool × Tabs} (h : TabsSound lc q.2) :
    TabsSound lc (codeTokens lc toks q).2 := by
  induction toks generalizing q with
  | nil => exact h
  | cons tok toks ih => exact ih (codeToken_sound hlc h tok)

/-- The tokens of a chunk take at most 18 bits for each of its bytes. -/
theorem length_chosenTokens (bs : List Byte) (skip : Nat) {t : Tabs} (h : TabsSound lc t) (v : Win) :
    (codeTokens lc (chosenTokens lc bs skip t v) ([], t)).1.length ≤ 18 * (bs.drop skip).length := by
  induction bs generalizing skip t v with
  | nil => cases skip <;> exact le_rfl
  | cons b rest ih =>
    cases skip with
    | succ skip => exact ih skip h v
    | zero =>
      have hfirst := length_codeToken_nextToken h v b rest
      have hrest := ih (tokenSize (nextToken lc t v b rest) - 1) (codeToken_sound hlc (q := ([], t)) h (nextToken lc t v b rest))
        (v.appendList (windowSize lc) ((b :: rest).take (tokenSize (nextToken lc t v b rest))))
      have hsplit := congrArg List.length (take_append_drop_tail b rest (nextToken_size_pos lc t v b rest))
      rw [List.length_append] at hsplit
      rw [chosenTokens, codeTokens_cons, codeTokens_eq, List.length_append, List.drop_zero]
      omega

end

theorem length_startBits_le {s : State} (h : s.wc.nacc < 8) : (startBits s).length ≤ 64 := by
  unfold startBits
  split
  · rw [length_msbBits]
    omega
  · exact (length_bytesBits _).le

/-- The output of a COMPRESS takes at most 64 bits before its tokens, 18 for each byte and 41 after them. -/
theorem length_chunkCode_le {s : State} (h : Inv s) (hmay : s.mayCompress = true) (final : Bool) :
    (chunkCode final s).1.length ≤ 105 + 18 * s.pend.ops.srcLen.toNat := by
  obtain ⟨hready, _, hdone⟩ := s.mayCompress_iff.mp hmay
  have hlc := h.lcfg hready
  have hsound : TabsSound s.lcfg s.tab := h.sound hready hdone
  have hstart := length_startBits_le h.wc.nacc_lt
  have hchunk : (chunkOf s).length = s.pend.ops.srcLen.toNat := Mem.length_readList ..
  have htoks := length_chosenTokens hlc (chunkOf s) 0 hsound (startWin s)
  have hcodes : (codeTokens s.lcfg (chunkTokens s) (startBits s, s.tab)).1.length ≤ 64 + 18 * s.pend.ops.srcLen.toNat := by
    rw [codeTokens_eq, List.length_append, chunkTokens]
    rw [List.drop_zero, hchunk] at htoks
    dsimp only
    omega
  have heos := typ_len_le (codeTokens_sound hlc (chunkTokens s) (q := (startBits s, s.tab)) hsound) 2
  unfold chunkCode codeChunk
  split
  · have htrailer : (bytesBits (trailer (endAdler s))).length = 32 := length_bytesBits _
    have hpad : (padding (codeEos s.lcfg (codeTokens s.lcfg (chunkTokens s) (startBits s, s.tab))).1).length ≤ 7 := by
      rw [padding, List.length_replicate]
      omega
    rw [codeFinal, List.length_append, List.length_append, htrailer]
    simp only [codeEos, codeSymbol, codeBits, List.length_append, length_msbBits, Tabs.get] at hpad ⊢
    omega
  · omega

/-! ## The platform's bus -/

/-- Where the bus allows an access it allows one to its first bytes only (60_exceptions.md R822). -/
theorem busRejects_prefix {p : Config.Platform} {base n len : Nat} (hn : n ≤ len) (h : busRejects p ⟨base, len⟩ = false) :
    busRejects p ⟨base, n⟩ = false := by
  rw [busRejects, List.any_eq_false] at h ⊢
  intro g hg hmeets
  refine h g hg ?_
  simp only [Region.meets, Region.overlaps, Bool.and_eq_true, decide_eq_true_eq] at hmeets ⊢
  omega

theorem busAllows_prefix {s : State} {r : Region} {base n len : Nat} (hn : n ≤ len) (h : busAllows s [r, ⟨base, len⟩]) :
    busAllows s [r, ⟨base, n⟩] := by
  rw [busAllows, busRefusal_none] at h ⊢
  simp only [List.forall_mem_cons] at h ⊢
  obtain ⟨hr, hlen, hnil⟩ := h
  exact ⟨hr, busRejects_prefix hn hlen, hnil⟩

/-- Settles O50: the output has at most 105 bits and 18 for each byte, of which the whole bytes fit in the bound. -/
theorem compressFitsItsBound : Obligations.CompressFitsItsBound := by
  unfold Obligations.CompressFitsItsBound
  intro s final hs hmay hnames hbus hcap
  have hlen := length_chunkCode_le hs hmay final
  have hmeets := emitCompress_meets hs final
  obtain ⟨e, he⟩ := hmeets.fits (by unfold Fits; omega)
  have hpos := (hmeets.holds e he).sink.length_eq
  have hruns : CompressRuns final s e := ⟨hmay, hnames, he, busAllows_prefix (by omega) hbus⟩
  exact ⟨_, hruns.exec_eq, rfl⟩

end Sys2Proof.Machine
end

section
/-!
PROOFS of 47_parser_compress.md R640, R641: the stream that a compressor's chunks make. At each chunk boundary the bytes stored so far
and the pending bits are the header and the codes of tokens that stand for the input so far.
-/
namespace Sys2Proof.Machine
open Sys2Proof.Safety

/-! ## Bits after whole bytes -/

theorem codeTokens_append_bits (lc : LCfg) (toks : List Token) (xs : List Bool) (p : List Bool × Tabs) :
    codeTokens lc toks (xs ++ p.1, p.2) = (xs ++ (codeTokens lc toks p).1, (codeTokens lc toks p).2) := by
  rw [codeTokens_eq, codeTokens_eq lc toks p, List.append_assoc]

/-- Whole bytes before a bit string do not change its padding. -/
theorem padding_bytes_append (bs : List Byte) (bits : List Bool) : padding (bytesBits bs ++ bits) = padding bits := by
  rw [padding, padding, List.length_append, length_bytesBits, Nat.mul_add_mod]

theorem codeFinal_append_bytes (lc : LCfg) (adler : Word) (bs : List Byte) (p : List Bool × Tabs) :
    codeFinal lc adler (bytesBits bs ++ p.1, p.2) =
      (bytesBits bs ++ (codeFinal lc adler p).1, (codeFinal lc adler p).2) := by
  simp only [codeFinal, codeEos, codeSymbol_append, padding_bytes_append, List.append_assoc]

theorem expandTokens_append {dict : Nat} {toks toks' : List Token} {out mid out' : List Byte}
    (h : expandTokens dict toks out = some mid) (h' : expandTokens dict toks' mid = some out') :
    expandTokens dict (toks ++ toks') out = some out' := by
  induction toks generalizing out with
  | nil =>
    obtain rfl := Option.some.inj h
    exact h'
  | cons tok toks ih =>
    obtain ⟨out1, htok, hrest⟩ := Option.bind_eq_some_iff.mp h
    exact Option.bind_eq_some_iff.mpr ⟨out1, htok, ih hrest⟩

/-! ## The stream (30_encoding.md R330 to R336) -/

/-- A whole stream of an input: the header, the codes of tokens that stand for the input, the end of the stream, and the tables
that coding them leaves. -/
def StreamOf (lc : LCfg) (input stream : List Byte) (t : Tabs) : Prop :=
  ∃ toks, expandTokens lc.dict toks [] = some input ∧
    codeFinal lc (adlerUpdate 0x00000001 input) (codeTokens lc toks (bytesBits (header lc), initTabs lc)) =
      (bytesBits stream, t)

/-- A compressor about to take a chunk, after the chunks of `input` whose stored bytes are `stream`. -/
structure Underway (lc : LCfg) (input stream : List Byte) (c : State) : Prop where
  lcfg  : c.lcfg = lc
  coded : ∃ toks, expandTokens lc.dict toks [] = some input ∧
            codeTokens lc toks (bytesBits (header lc), initTabs lc) = (bytesBits stream ++ startBits c, c.tab)
  win   : Holds (windowSize lc) input (startWin c)
  total : (startWin c).total = BitVec.ofNat 64 input.length
  adler : (if c.ctx.started then c.adler else 0x00000001) = adlerUpdate 0x00000001 input

theorem underway_start {c : State} (hc : Inv c) (h : atStreamStart c) : Underway c.lcfg [] [] c := by
  obtain ⟨hfresh, _, htab⟩ := h
  refine ⟨rfl, ⟨[], rfl, ?_⟩, ?_, ?_, ?_⟩
  · rw [htab, startBits, hfresh]
    rfl
  · rw [startWin, hfresh]
    exact holds_clear _ hc.ring_wf
  · rw [startWin, hfresh]
    rfl
  · rw [hfresh, adlerUpdate_nil]
    rfl

section
variable {lc : LCfg} {input stream : List Byte} {c : State} {final : Bool} {e : Enc}

theorem Underway.total_toNat (h : Underway lc input stream c) (hlen : input.length + (chunkOf c).length < 2 ^ 64) :
    (startWin c).total.toNat = input.length := by
  rw [h.total]
  exact Nat.mod_eq_of_lt (by omega)

/-- The bytes a successful COMPRESS stored, and those of its bits that are still pending. -/
theorem CompressRuns.storedBits (h : CompressRuns final c e) (hc : Inv c) :
    bytesBits (storedChunk c ((compressDone c final e).complete .ok)) ++ msbBits e.sink.wc.nacc e.sink.wc.acc =
      (chunkCode final c).1 := by
  have hsink := (h.encAt hc).sink
  have hpos := h.pos_le hc
  have hcap := c.pend.ops.dstCap.isLt
  have hresult : (BitVec.ofNat 32 e.sink.wc.pos).toNat = e.sink.wc.pos := Nat.mod_eq_of_lt (by omega)
  rw [← hsink.bits_eq, writtenBits, hsink.base_eq, storedChunk, complete_result, complete_mem, compressDone, hresult]

/-- The tokens and the bits so far with those of a chunk. -/
theorem Underway.chunk_coded (h : Underway lc input stream c) (hlen : input.length + (chunkOf c).length < 2 ^ 64) :
    ∃ toks, expandTokens lc.dict toks [] = some (input ++ chunkOf c) ∧
      codeTokens lc toks (bytesBits (header lc), initTabs lc) =
        (bytesBits stream ++ (codeTokens lc (chunkTokens c) (startBits c, c.tab)).1,
          (codeTokens lc (chunkTokens c) (startBits c, c.tab)).2) := by
  have htotal := h.total_toNat hlen
  obtain ⟨rfl, ⟨toks, hexpand, hcode⟩, hwin, _, _⟩ := h
  refine ⟨toks ++ chunkTokens c, expandTokens_append hexpand (expand_chunkTokens hwin (by omega)), ?_⟩
  rw [codeTokens_append, hcode]
  exact codeTokens_append_bits c.lcfg (chunkTokens c) (bytesBits stream) (startBits c, c.tab)

theorem Underway.endAdler_eq (h : Underway lc input stream c) :
    endAdler c = adlerUpdate 0x00000001 (input ++ chunkOf c) := by
  rw [endAdler, h.adler, adlerUpdate_adlerUpdate]

theorem Underway.total_after (h : Underway lc input stream c) (final : Bool) (e : Enc) :
    (compressDone c final e).win.total = BitVec.ofNat 64 (input ++ chunkOf c).length := by
  rw [compressDone, appendList_total, h.total, List.length_append, BitVec.ofNat_add]

/-- A chunk without FINAL leaves a compressor that the next chunk can take up (47_parser_compress.md R641). -/
theorem Underway.next (h : Underway lc input stream c) (hc : Inv c) (hlen : input.length + (chunkOf c).length < 2 ^ 64)
    (hruns : CompressRuns false c e) {c' : State} (hnext : continues ((compressDone c false e).complete .ok) c') :
    Underway lc (input ++ chunkOf c) (stream ++ storedChunk c ((compressDone c false e).complete .ok)) c' := by
  have htotal := h.total_toNat hlen
  have hstored := hruns.storedBits hc
  have htab := (hruns.encAt hc).tab
  have hadler := h.endAdler_eq
  have hafter := h.total_after false e
  obtain ⟨toks, hexpand, hcode⟩ := h.chunk_coded hlen
  obtain ⟨rfl, _, hwin, _, _⟩ := h
  obtain ⟨hctx, hlcfg, htab', hwin', hadler', hacc, hnacc⟩ := hnext
  have hstarted : c'.ctx.started = true := congrArg Ctx.started hctx
  have hstartWin : startWin c' = (compressDone c false e).win := by
    rw [startWin, hstarted, if_pos rfl, hwin', complete_win]
  have hstartBits : startBits c' = msbBits e.sink.wc.nacc e.sink.wc.acc := by
    rw [startBits, hstarted, if_pos rfl, hacc, hnacc]
    rfl
  refine ⟨hlcfg, ⟨toks, hexpand, ?_⟩, ?_, ?_, ?_⟩
  · rw [hcode, hstartBits, bytesBits_append, List.append_assoc, hstored, htab', complete_tab, compressDone, htab]
    rfl
  · rw [hstartWin]
    exact holds_compressDone hwin (by omega)
  · rw [hstartWin, hafter]
  · rw [hstarted, if_pos rfl, hadler', complete_adler]
    exact hadler

/-- A chunk with FINAL completes the stream (47_parser_compress.md R640). -/
theorem Underway.last (h : Underway lc input stream c) (hc : Inv c) (hlen : input.length + (chunkOf c).length < 2 ^ 64)
    (hruns : CompressRuns true c e) :
    StreamOf lc (input ++ chunkOf c) (stream ++ storedChunk c ((compressDone c true e).complete .ok)) e.tab := by
  have hstored := hruns.storedBits hc
  obtain ⟨hsink, htab⟩ := hruns.encAt hc
  obtain ⟨toks, hexpand, hcode⟩ := h.chunk_coded hlen
  have hadler := h.endAdler_eq
  have hzero : e.sink.wc.nacc = 0 := by
    have hbits := hsink.length_eq
    have hnacc := hsink.nacc_lt
    have hboundary : (chunkCode true c).1.length % 8 = 0 := length_codeFinal_mod ..
    omega
  rw [hzero, msbBits, List.append_nil] at hstored
  refine ⟨toks, hexpand, ?_⟩
  rw [hcode, codeFinal_append_bytes, bytesBits_append, hstored, htab, ← hadler, ← h.lcfg]
  rfl

end

/-- The chunks of a stream, taken one after the other, complete it. -/
theorem compressesTo_streamOf {lc : LCfg} {c t : State} {rest : List State} {input input' stream stream' : List Byte}
    (h : compressesTo c rest input' stream' t) (hc : Underway lc input stream c)
    (hlen : (input ++ input').length < 2 ^ 64) :
    StreamOf lc (input ++ input') (stream ++ stream') t.tab ∧ t.win.total = BitVec.ofNat 64 (input ++ input').length := by
  induction rest generalizing c input input' stream stream' with
  | nil =>
    obtain ⟨hinv, hexec, hok, rfl, rfl⟩ := h
    obtain ⟨e, hruns, rfl⟩ := compressRuns_of_ok hexec hok
    rw [List.length_append] at hlen
    exact ⟨hc.last hinv hlen hruns, hc.total_after true e⟩
  | cons c' rest ih =>
    obtain ⟨hinv, u, input1, stream1, hexec, hok, hnext, hrest, rfl, rfl⟩ := h
    obtain ⟨e, hruns, rfl⟩ := compressRuns_of_ok hexec hok
    rw [← List.append_assoc] at hlen ⊢
    rw [← List.append_assoc]
    have hchunk : input.length + (chunkOf c).length < 2 ^ 64 := by
      simp only [List.length_append] at hlen
      omega
    exact ih hrest (hc.next hinv hchunk hruns hnext) hlen

/-! ## Configurations of one format (48_decompress.md R662) -/

section
variable {lc lc' : LCfg} (h : sameFormat lc lc')
include h

theorem sameFormat_update (t : Table) (sym : Nat) : t.update lc sym = t.update lc' sym := by
  obtain ⟨_, _, hmaxint, hslow⟩ := h
  simp only [Table.update, grownInterval, hmaxint, hslow]

theorem sameFormat_codeSymbol (c : SymClass) (sym : Nat) : codeSymbol lc c sym = codeSymbol lc' c sym := by
  funext p
  simp only [codeSymbol, sameFormat_update h]

theorem sameFormat_codeToken : codeToken lc = codeToken lc' := by
  funext p tok
  cases tok <;> simp only [codeToken, codeValue, sameFormat_codeSymbol h]

theorem sameFormat_initTabs : initTabs lc = initTabs lc' := by
  obtain ⟨hdict, hrate, hmaxint, _⟩ := h
  simp only [initTabs, initTable, initialInterval, hdict, hrate, hmaxint]

theorem sameFormat_header : header lc = header lc' := by
  obtain ⟨hdict, hrate, hmaxint, hslow⟩ := h
  simp only [header, hdict, hrate, hmaxint, hslow]

/-- A stream is one under every configuration of its format: the level and the helpers are not in it. -/
theorem StreamOf.sameFormat {input stream : List Byte} {t : Tabs} (hs : StreamOf lc input stream t) :
    StreamOf lc' input stream t := by
  obtain ⟨toks, hexpand, hcode⟩ := hs
  refine ⟨toks, h.1 ▸ hexpand, ?_⟩
  rw [codeFinal, codeEos, codeTokens, ← sameFormat_codeSymbol h, ← sameFormat_codeToken h, ← sameFormat_initTabs h,
    ← sameFormat_header h]
  exact hcode

end

end Sys2Proof.Machine
end

section
/-!
PROOFS of 48_decompress.md R660, R663 to R665 for the source a compressor wrote: each symbol, value and token is read back from its
codes with the tables that coding left, and its bytes are produced again.
-/
namespace Sys2Proof.Machine
open Sys2Proof.Safety

/-! ## Reading bits that are known -/

theorem unreadBits_congr {r : RCur} {m m' : Mem}
    (h : ∀ i < r.len.toNat, Mem.read (r.base.toNat + i) m' = Mem.read (r.base.toNat + i) m) :
    unreadBits r m' = unreadBits r m := by
  unfold unreadBits
  rw [Mem.readList_congr fun i hi => ?_]
  rw [Nat.add_assoc]
  exact h _ (by omega)

/-- Past some of its unread bits a cursor is well placed before the others. -/
theorem unreadBits_advance {r : RCur} {m : Mem} {xs rest : List Bool} (hr : RCurOk r) (h : unreadBits r m = xs ++ rest) :
    RCurOk (advanceRead xs.length r) ∧ unreadBits (advanceRead xs.length r) m = rest := by
  induction xs generalizing r with
  | nil => rw [List.length_nil, advanceRead_zero (rcurOk_bit_lt hr)]; exact ⟨hr, h⟩
  | cons x xs ih =>
    obtain ⟨_, hok, hrest⟩ := getbit_of_unread hr h
    rw [List.length_cons, Nat.add_comm, ← advanceRead_advanceRead]
    exact ih hok hrest

/-- Bits that are all there are read as their value (41_bitstream.md R440). -/
theorem getbits_of_unread {r : RCur} {m : Mem} {xs rest : List Bool} (hr : RCurOk r) (h : unreadBits r m = xs ++ rest) :
    getbits m xs.length r = .ok (bitsValue xs, advanceRead xs.length r) := by
  have hunread : xs.length ≤ r.unread := by
    rw [← length_unreadBits r m, h, List.length_append]
    exact Nat.le_add_right _ _
  have hget : getbits m xs.length r = .ok (getbitsLoop m xs.length 0 r) := if_neg (Nat.not_lt.mpr hunread)
  rw [hget, getbits_reads_bits hget hr, h, List.take_left]

/-! ## Where a decoder stands (44_adaptive_codec.md R531) -/

theorem codeSymbol_prefix (lc : LCfg) (c : SymClass) (sym : Nat) (p : List Bool × Tabs) :
    p.1 <+: (codeSymbol lc c sym p).1 :=
  List.prefix_append ..

theorem codeValue_prefix (lc : LCfg) (c : SymClass) (v : Nat) (p : List Bool × Tabs) : p.1 <+: (codeValue lc c v p).1 :=
  (codeSymbol_prefix ..).trans (List.prefix_append ..)

theorem codeTokens_prefix (lc : LCfg) (toks : List Token) (p : List Bool × Tabs) : p.1 <+: (codeTokens lc toks p).1 :=
  codeTokens_eq lc toks p ▸ List.prefix_append ..

/-- A decoder inside a source region whose bits are `all`: it has consumed the bits of `p` and has its tables. -/
structure DecAt (base len : Word) (m : Mem) (all : List Bool) (p : List Bool × Tabs) (d : Dec) : Prop where
  base_eq : d.rc.base = base
  len_eq  : d.rc.len = len
  rc      : RCurOk d.rc
  bits    : p.1 ++ unreadBits d.rc m = all
  tab     : d.tab = p.2

section
variable {base len : Word} {m : Mem} {all : List Bool} {p : List Bool × Tabs} {d : Dec}

/-- A cursor that consumes some more of the bits. -/
theorem DecAt.advance (h : DecAt base len m all p d) {xs : List Bool} {t : Tabs} (hp : p.1 ++ xs <+: all) :
    ∃ rest, unreadBits d.rc m = xs ++ rest ∧ DecAt base len m all (p.1 ++ xs, t) ⟨advanceRead xs.length d.rc, t⟩ := by
  obtain ⟨rest, hrest⟩ := hp
  have hbits := h.bits
  rw [← hrest, List.append_assoc, List.append_cancel_left_eq] at hbits
  obtain ⟨hok, hunread⟩ := unreadBits_advance h.rc hbits
  exact ⟨rest, hbits, h.base_eq, h.len_eq, hok, by rw [hunread, hrest], rfl⟩

variable {lc : LCfg} (hdict : lc.dict ≤ 30)
include hdict

/-- Every alphabet of a legal configuration is small enough for the code builder (30_encoding.md R340). -/
theorem tabsSound_fullCode {t : Tabs} (h : TabsSound lc t) (c : SymClass) :
    FullCode (alphabetSize c lc.dict) (t.get c).len (t.get c).code :=
  tableSound_fullCode (h c) (by cases c <;> simp only [alphabetSize] <;> omega)

/-- A symbol is read back from its code (44_adaptive_codec.md R531). -/
theorem DecAt.decSym (h : DecAt base len m all p d) (hs : TabsSound lc p.2) {c : SymClass} {sym : Nat}
    (hsym : sym < alphabetSize c lc.dict) (hp : (codeSymbol lc c sym p).1 <+: all) :
    ∃ d', decSym m lc c d = .ok (sym, d') ∧ DecAt base len m all (codeSymbol lc c sym p) d' := by
  obtain ⟨hcanonical, hkraft, hpos, _⟩ := tabsSound_fullCode hdict hs c
  obtain ⟨rest, hbits, hnext⟩ := h.advance (t := (codeSymbol lc c sym p).2) hp
  rw [codeBits, length_msbBits] at hnext
  rw [hcanonical] at hbits
  have hread := decodeSym_code hkraft (hpos sym hsym) h.rc hbits
  rw [← h.tab] at hread
  refine ⟨_, decSym_of_decodeSym hread, ?_⟩
  rw [h.tab]
  exact hnext

/-- A value is read back from its symbol's code and its extra bits (30_encoding.md R344). -/
theorem DecAt.decValue (h : DecAt base len m all p d) (hs : TabsSound lc p.2) {c : SymClass} {v : Nat}
    (hv : (bucket v).1 < alphabetSize c lc.dict) (hp : (codeValue lc c v p).1 <+: all) :
    ∃ d', decValue m lc c d = .ok (v, d') ∧ DecAt base len m all (codeValue lc c v p) d' := by
  obtain ⟨hunbucket, hextra, hlt⟩ := bucketsAreInverse.1 v
  obtain ⟨d1, hsym, h1⟩ := h.decSym hdict hs hv ((List.prefix_append ..).trans hp)
  obtain ⟨rest, hbits, h2⟩ := h1.advance (t := (codeSymbol lc c (bucket v).1 p).2) hp
  have hget := getbits_of_unread h1.rc hbits
  rw [length_msbBits, bitsValue_msbBits hlt] at hget
  rw [length_msbBits] at h2
  refine ⟨_, ?_, h2⟩
  rw [Machine.decValue, hsym]
  dsimp only [bind, Except.bind]
  rw [← hextra, hget]
  dsimp only [pure, Except.pure]
  rw [hunbucket, h1.tab]

end

/-! ## One token, from its symbols (48_decompress.md R660, R663) -/

section
variable {lc : LCfg} {dst cap : Nat} {u : Unpack} {d1 d2 d3 : Dec}

theorem unpackToken_lit {b : Nat} (htyp : decSym u.mem lc .typ u.dec = .ok (0, d1))
    (hlit : decSym u.mem lc .lit d1 = .ok (b, d2)) (hroom : u.produced ≠ cap) :
    unpackToken lc dst cap u = .ok (false, emitByte lc dst (BitVec.ofNat 8 b) { u with dec := d2 }) := by
  rw [unpackToken, htyp]
  dsimp only [bind, Except.bind]
  rw [if_pos rfl, hlit]
  dsimp only
  rw [if_neg hroom]
  rfl

theorem unpackToken_copy {lv dv : Nat} (htyp : decSym u.mem lc .typ u.dec = .ok (1, d1))
    (hlength : decValue u.mem lc .len d1 = .ok (lv, d2)) (hdist : decValue u.mem lc .dist d2 = .ok (dv, d3))
    (hback : dv + 1 ≤ u.produced) (hroom : u.produced + (lv + minMatch) ≤ cap) :
    unpackToken lc dst cap u = .ok (false, copyMatch lc dst (lv + minMatch) (dv + 1) { u with dec := d3 }) := by
  rw [unpackToken, htyp]
  dsimp only [bind, Except.bind]
  rw [if_neg (by decide), if_pos rfl, hlength]
  dsimp only
  rw [hdist]
  dsimp only
  rw [if_neg (Nat.not_lt.mpr hback), if_neg (Nat.not_lt.mpr hroom)]
  rfl

theorem unpackToken_eos (htyp : decSym u.mem lc .typ u.dec = .ok (2, d1)) :
    unpackToken lc dst cap u = .ok (true, { u with dec := d1 }) := by
  rw [unpackToken, htyp]
  rfl

end

/-! ## Producing bytes (48_decompress.md R660, R661) -/

/-- No byte of the destination in flight is one of the source (20_memory.md R203). -/
def Apart (s : State) : Prop :=
  ∀ i < s.pend.ops.dstCap.toNat, ∀ j < s.pend.ops.srcLen.toNat,
    s.pend.ops.srcAddr.toNat + j ≠ s.pend.ops.dstAddr.toNat + i

theorem apart_of_not_overlaps {s : State} (h : s.srcRegion.overlaps s.dstRegion = false) : Apart s := by
  intro i hi j hj heq
  refine absurd h (Bool.not_eq_false _ ▸ Region.overlaps_of_contains (a := s.pend.ops.srcAddr.toNat + j) ?_ ?_)
  · exact Region.contains_iff.mpr ⟨Nat.le_add_right _ _, Nat.add_lt_add_left hj _⟩
  · exact Region.contains_iff.mpr ⟨heq ▸ Nat.le_add_right _ _, heq ▸ Nat.add_lt_add_left hi _⟩

/-- A decompressor that has produced `out` and consumed the bits of `p`. -/
structure UnpackAt (s : State) (all : List Bool) (p : List Bool × Tabs) (out : List Byte) (u : Unpack) : Prop where
  dec      : DecAt s.pend.ops.srcAddr s.pend.ops.srcLen u.mem all p u.dec
  win      : Holds (windowSize s.lcfg) out u.win
  total    : u.win.total = BitVec.ofNat 64 out.length
  adler    : u.adler = if s.lcfg.adlerEn then adlerUpdate 0x00000001 out else 0x00000001
  produced : u.produced = out.length
  out_eq   : u.out.reverse = out
  mem_wf   : u.mem.wf = true
  stored   : if s.lcfg.unbuf then Mem.readList s.pend.ops.dstAddr.toNat out.length u.mem = out else u.mem = s.mem

@[simp] theorem length_copyBack (n d : Nat) (out : List Byte) : (copyBack n d out).length = out.length + n := by
  induction n generalizing out with
  | zero => rfl
  | succ n ih =>
    rw [copyBack, ih, List.length_append, List.length_singleton]
    omega

section
variable {s : State} {all : List Bool} {p q : List Bool × Tabs} {out out' : List Byte} {u : Unpack}

theorem UnpackAt.withDec (h : UnpackAt s all p out u) {d : Dec}
    (hd : DecAt s.pend.ops.srcAddr s.pend.ops.srcLen u.mem all q d) : UnpackAt s all q out { u with dec := d } :=
  ⟨hd, h.win, h.total, h.adler, h.produced, h.out_eq, h.mem_wf, h.stored⟩

variable (hapart : Apart s)
include hapart

/-- A byte produced in the destination leaves the source as it is. -/
theorem UnpackAt.emitByte (h : UnpackAt s all p out u) (hroom : out.length < s.pend.ops.dstCap.toNat) (b : Byte) :
    UnpackAt s all p (out ++ [b]) (emitByte s.lcfg s.pend.ops.dstAddr.toNat b u) := by
  obtain ⟨⟨hbase, hlen, hrc, hbits, htab⟩, hwin, htotal, hadler, hproduced, hout, hmem, hstored⟩ := h
  have hcap := s.pend.ops.dstCap.isLt
  have hcount : u.win.total.toNat = out.length := by
    rw [htotal]
    exact Nat.mod_eq_of_lt (by omega)
  refine ⟨⟨hbase, hlen, hrc, ?_, htab⟩, hwin.append b (by omega), ?_, ?_, ?_, ?_, ?_, ?_⟩
  · rw [emitByte_dec, ← hbits]
    congr 1
    refine unreadBits_congr fun j hj => ?_
    rw [hlen] at hj
    unfold Machine.emitByte
    dsimp only
    split
    · rw [hbase, hproduced]
      exact Mem.read_write_other _ _ (hapart _ hroom j hj)
    · rfl
  · rw [Machine.emitByte, append_total, htotal, List.length_append, List.length_singleton, BitVec.ofNat_add]
    rfl
  · unfold Machine.emitByte
    dsimp only
    rw [hadler]
    split
    · exact adlerUpdate_adlerUpdate _ _ _
    · rfl
  · rw [List.length_append, List.length_singleton, ← hproduced]
    rfl
  · rw [← hout]
    exact List.reverse_cons
  · unfold Machine.emitByte
    dsimp only
    split
    · exact Mem.write_wf _ _ hmem
    · exact hmem
  · unfold Machine.emitByte
    dsimp only
    split at hstored <;> rename_i hmode
    · rw [if_pos hmode, if_pos hmode, hproduced, List.length_append, List.length_singleton, Mem.readList_write_end _ _ _ hmem,
        hstored]
    · rw [if_neg hmode, if_neg hmode, hstored]

/-- A match within the window is copied byte by byte from what stands before it. -/
theorem UnpackAt.copyMatch {n d : Nat} (h : UnpackAt s all p out u) (hroom : out.length + n ≤ s.pend.ops.dstCap.toNat)
    (hpos : 1 ≤ d) (hd : d ≤ min out.length (2 ^ s.lcfg.dict)) :
    UnpackAt s all p (copyBack n d out) (copyMatch s.lcfg s.pend.ops.dstAddr.toNat n d u) := by
  induction n generalizing out u with
  | zero => exact h
  | succ n ih =>
    rw [Machine.copyMatch, h.win.wread d hpos (by omega) (hd.trans (min_le_right _ _)), copyBack]
    have hone := h.emitByte hapart (by omega) (out.getD (out.length - d) 0)
    refine ih hone ?_ ?_ <;> rw [List.length_append, List.length_singleton]
    · omega
    · omega

end

/-! ## Tokens read back (30_encoding.md R341, 48_decompress.md R660) -/

theorem expand_length_le {dict : Nat} {tok : Token} {out out' : List Byte} (h : tok.expand dict out = some out') :
    out.length ≤ out'.length := by
  cases tok with
  | lit b =>
    obtain rfl := Option.some.inj h
    simp
  | copy length dist =>
    rw [Token.expand] at h
    split at h
    · obtain rfl := Option.some.inj h
      simp
    · cases h

theorem expandTokens_length_le {dict : Nat} {toks : List Token} {out out' : List Byte}
    (h : expandTokens dict toks out = some out') : out.length ≤ out'.length := by
  induction toks generalizing out with
  | nil =>
    obtain rfl := Option.some.inj h
    exact le_rfl
  | cons tok toks ih =>
    obtain ⟨out1, htok, hrest⟩ := Option.bind_eq_some_iff.mp h
    exact (expand_length_le htok).trans (ih hrest)

section
variable {s : State} {all : List Bool} {p : List Bool × Tabs} {out out' : List Byte} {u : Unpack}
variable {pl : Config.Platform} (hlc : LCfgOk pl s.lcfg) (hdict : s.lcfg.dict ≤ 30) (hapart : Apart s)
include hlc hdict hapart

/-- A token is read back and its bytes are produced, when they fit. -/
theorem UnpackAt.token (h : UnpackAt s all p out u) (hs : TabsSound s.lcfg p.2) {tok : Token}
    (htok : tok.expand s.lcfg.dict out = some out') (hroom : out'.length ≤ s.pend.ops.dstCap.toNat)
    (hp : (codeToken s.lcfg p tok).1 <+: all) :
    ∃ u', unpackToken s.lcfg s.pend.ops.dstAddr.toNat s.pend.ops.dstCap.toNat u = .ok (false, u') ∧
      UnpackAt s all (codeToken s.lcfg p tok) out' u' := by
  cases tok with
  | lit b =>
    obtain rfl := Option.some.inj htok
    rw [List.length_append, List.length_singleton] at hroom
    have hbyte : BitVec.ofNat 8 b.toNat = b := by simp
    obtain ⟨d1, htyp, h1⟩ :=
      h.dec.decSym hdict hs (c := .typ) (sym := 0) (show 0 < 3 by decide) ((codeSymbol_prefix ..).trans hp)
    obtain ⟨d2, hlit, h2⟩ := h1.decSym hdict (codeSymbol_sound hlc hs .typ 0) (c := .lit) (sym := b.toNat) b.isLt hp
    refine ⟨_, unpackToken_lit htyp hlit (by rw [h.produced]; omega), ?_⟩
    rw [hbyte]
    exact (h.withDec h2).emitByte hapart (by omega) b
  | copy length dist =>
    rw [Token.expand] at htok
    split at htok
    case isFalse => cases htok
    case isTrue hrange =>
      obtain ⟨hmin, hmax, hpos, hback⟩ := hrange
      obtain rfl := Option.some.inj htok
      rw [length_copyBack] at hroom
      have hlength : length - 3 + minMatch = length := Nat.sub_add_cancel hmin
      have hdist : dist - 1 + 1 = dist := Nat.sub_add_cancel hpos
      have hlen : (bucket (length - 3)).1 < alphabetSize .len s.lcfg.dict :=
        bucket_fst_lt (k := 8) (by decide) (by omega)
      have hfar : (bucket (dist - 1)).1 < alphabetSize .dist s.lcfg.dict :=
        bucket_fst_lt (le_trans (by decide) hlc.dict_ge) (by omega)
      have hs1 := codeSymbol_sound hlc hs .typ 1
      have hs2 : TabsSound s.lcfg (codeValue s.lcfg .len (length - 3) (codeSymbol s.lcfg .typ 1 p)).2 :=
        codeSymbol_sound hlc hs1 .len _
      have hp2 := (codeValue_prefix ..).trans hp
      obtain ⟨d1, htyp, h1⟩ :=
        h.dec.decSym hdict hs (c := .typ) (sym := 1) (show 1 < 3 by decide) ((codeValue_prefix ..).trans hp2)
      obtain ⟨d2, hlv, h2⟩ := h1.decValue hdict hs1 hlen hp2
      obtain ⟨d3, hdv, h3⟩ := h2.decValue hdict hs2 hfar hp
      have htoken := unpackToken_copy (dst := s.pend.ops.dstAddr.toNat) (cap := s.pend.ops.dstCap.toNat) htyp hlv hdv
        (by rw [h.produced]; omega) (by rw [h.produced]; omega)
      rw [hlength, hdist] at htoken
      exact ⟨_, htoken, (h.withDec h3).copyMatch hapart hroom hpos hback⟩

/-- The tokens and the end-of-stream token are read back by one round of the loop each. -/
theorem UnpackAt.loop {toks : List Token} (h : UnpackAt s all p out u) (hs : TabsSound s.lcfg p.2)
    (htoks : expandTokens s.lcfg.dict toks out = some out') (hroom : out'.length ≤ s.pend.ops.dstCap.toNat)
    (hp : (codeEos s.lcfg (codeTokens s.lcfg toks p)).1 <+: all) {n : Nat} (hn : toks.length < n) :
    ∃ u', unpackLoop s.lcfg s.pend.ops.dstAddr.toNat s.pend.ops.dstCap.toNat n u = .ok u' ∧
      UnpackAt s all (codeEos s.lcfg (codeTokens s.lcfg toks p)) out' u' := by
  obtain ⟨n, rfl⟩ := Nat.exists_eq_add_one.mpr (Nat.zero_lt_of_lt hn)
  induction toks generalizing p out u n with
  | nil =>
    obtain rfl := Option.some.inj htoks
    obtain ⟨d1, htyp, h1⟩ := h.dec.decSym hdict hs (c := .typ) (sym := 2) (show 2 < 3 by decide) hp
    refine ⟨_, ?_, h.withDec h1⟩
    rw [unpackLoop, unpackToken_eos htyp]
  | cons tok toks ih =>
    obtain ⟨out1, htok, hrest⟩ := Option.bind_eq_some_iff.mp htoks
    obtain ⟨u1, hu1, h1⟩ := h.token hlc hdict hapart hs htok ((expandTokens_length_le hrest).trans hroom)
      ((codeTokens_prefix ..).trans ((codeSymbol_prefix ..).trans hp))
    rw [List.length_cons] at hn
    obtain ⟨n, rfl⟩ := Nat.exists_eq_add_one.mpr (show 0 < n by omega)
    obtain ⟨u', hu', h'⟩ := ih h1 (codeToken_sound hlc hs tok) hrest hp n (by omega)
    refine ⟨u', ?_, h'⟩
    rw [unpackLoop, hu1]
    exact hu'

end

end Sys2Proof.Machine
end

section
/-!
PROOFS of 47_parser_compress.md R641, R643 and 48_decompress.md R660, R668 to R671: a decompressor reads back the whole stream of an
input: the header, the tokens, the padding and the trailer.
-/
namespace Sys2Proof.Machine
open Sys2Proof.Safety

/-! ## Bytes from their bits (20_memory.md R206) -/

theorem bytesBits_injective {xs ys : List Byte} (h : bytesBits xs = bytesBits ys) : xs = ys := by
  induction xs generalizing ys with
  | nil =>
    have hlen := congrArg List.length h
    rw [length_bytesBits, length_bytesBits, List.length_nil] at hlen
    exact (List.length_eq_zero_iff.mp (by omega)).symm
  | cons x xs ih =>
    cases ys with
    | nil =>
      have hlen := congrArg List.length h
      rw [length_bytesBits, length_bytesBits, List.length_nil, List.length_cons] at hlen
      omega
    | cons y ys =>
      obtain ⟨hhead, htail⟩ := List.append_inj h (by simp)
      have hvalue := congrArg bitsValue hhead
      rw [bitsValue_msbBits x.isLt, bitsValue_msbBits y.isLt] at hvalue
      rw [BitVec.eq_of_toNat_eq hvalue, ih htail]

/-- Bytes whose bits begin with those of a list of bytes begin with that list. -/
theorem take_drop_of_bytesBits {xs ys : List Byte} {bits : List Bool} (h : bytesBits xs = bytesBits ys ++ bits) :
    xs.take ys.length = ys ∧ bytesBits (xs.drop ys.length) = bits := by
  have hlen := congrArg List.length h
  rw [List.length_append, length_bytesBits, length_bytesBits] at hlen
  rw [← List.take_append_drop ys.length xs, bytesBits_append] at h
  obtain ⟨hhead, htail⟩ := List.append_inj h (by
    rw [length_bytesBits, length_bytesBits, List.length_take_of_le (by omega)])
  exact ⟨bytesBits_injective hhead, htail⟩

theorem Mem.readList_add (a n k : Nat) (m : Mem) :
    Mem.readList a (n + k) m = Mem.readList a n m ++ Mem.readList (a + n) k m := by
  simp [Mem.readList, List.range_add, Nat.add_assoc]

/-! ## The end of a stream (48_decompress.md R668 to R670) -/

theorem bitsValue_replicate_false (n : Nat) : bitsValue (List.replicate n false) = 0 := by
  have hzero := msbBits_shiftLeft 0 (Nat.le_refl n)
  rw [Nat.zero_shiftLeft] at hzero
  rw [← hzero, bitsValue_msbBits (Nat.two_pow_pos n)]

/-- Zero bits up to the next byte boundary pass the padding check (48_decompress.md R668). -/
theorem checkPadding_zeros {m : Mem} {r : RCur} {rest : List Bool} (hr : RCurOk r)
    (h : unreadBits r m = List.replicate ((8 - r.bit) % 8) false ++ rest) :
    checkPadding m r = .ok (advanceRead ((8 - r.bit) % 8) r) := by
  have hbit := rcurOk_bit_lt hr
  unfold checkPadding
  split
  · have hcount : (8 - r.bit) % 8 = 8 - r.bit := by omega
    have hget := getbits_of_unread hr h
    rw [List.length_replicate, bitsValue_replicate_false, hcount] at hget
    rw [hget, hcount]
    exact if_pos rfl
  · have hcount : (8 - r.bit) % 8 = 0 := by omega
    rw [hcount, advanceRead_zero hbit]

/-- The trailer bytes as a big-endian value (30_encoding.md R336). -/
theorem beValue_trailer (v : Word) : beValue (trailer v) = v.toNat := by
  have hv := v.isLt
  simp only [beValue, trailer, List.foldl_cons, List.foldl_nil, BitVec.extractLsb'_toNat, Nat.shiftRight_eq_div_pow]
  omega

/-- At the trailer of the checksum the cursor passes the trailer checks, to the end of the source (48_decompress.md R669). -/
theorem checkTrailer_trailer {lc : LCfg} {m : Mem} {r : RCur} {v : Word} (hr : RCurOk r) (hbit : r.bit = 0)
    (h : unreadBits r m = bytesBits (trailer v)) :
    checkTrailer lc m (if lc.adlerEn then v else 0x00000001) r = .ok { r with pos := r.len.toNat } := by
  have hplace := hr.place
  rw [unreadBits, hbit, List.drop_zero] at h
  have hbytes := bytesBits_injective h
  have hlen := congrArg List.length hbytes
  rw [Mem.length_readList] at hlen
  have hfour : r.len.toNat - r.pos = 4 := hlen
  have hend : r.pos + 4 = r.len.toNat := by omega
  rw [hfour] at hbytes
  unfold checkTrailer
  rw [if_neg (by omega), if_neg (fun hne => hne hend), hbytes, beValue_trailer, hend]
  refine if_neg ?_
  cases lc.adlerEn <;> simp

/-! ## From the header to the trailer (48_decompress.md R660) -/

/-- Each token takes at least one bit. -/
theorem length_codeToken_gt {lc : LCfg} (hdict : lc.dict ≤ 30) {p : List Bool × Tabs} (hs : TabsSound lc p.2) (tok : Token) :
    p.1.length < (codeToken lc p tok).1.length := by
  have htyp {sym : Nat} (hsym : sym < 3) : p.1.length < (codeSymbol lc .typ sym p).1.length := by
    have hpos := (tabsSound_fullCode hdict hs .typ).len_pos sym hsym
    rw [codeSymbol, List.length_append, codeBits, length_msbBits]
    exact Nat.lt_add_of_pos_right hpos
  cases tok with
  | lit b => exact (htyp (by decide)).trans_le (codeSymbol_prefix ..).length_le
  | copy length dist => exact (htyp (by decide)).trans_le ((codeValue_prefix ..).trans (codeValue_prefix ..)).length_le

theorem length_le_codeTokens {pl : Config.Platform} {lc : LCfg} (hlc : LCfgOk pl lc) (hdict : lc.dict ≤ 30)
    (toks : List Token) {p : List Bool × Tabs} (hs : TabsSound lc p.2) :
    p.1.length + toks.length ≤ (codeTokens lc toks p).1.length := by
  induction toks generalizing p with
  | nil => exact le_rfl
  | cons tok toks ih =>
    have hfirst := length_codeToken_gt hdict hs tok
    have hrest := ih (codeToken_sound hlc hs tok)
    rw [codeTokens_cons, List.length_cons]
    omega

section
variable {s : State} {input stream : List Byte} {t : Tabs}

/-- The source after its header, for a stream in the source region in flight. -/
theorem streamOf_source (h : StreamOf s.lcfg input stream t) (hsrc : chunkOf s = stream) :
    ∃ toks, expandTokens s.lcfg.dict toks [] = some input ∧ 8 ≤ s.pend.ops.srcLen.toNat ∧
      Mem.readList s.pend.ops.srcAddr.toNat 8 s.mem = header s.lcfg ∧
      codeFinal s.lcfg (adlerUpdate 0x00000001 input) (codeTokens s.lcfg toks ([], initTabs s.lcfg)) =
        (bytesBits (Mem.readList (s.pend.ops.srcAddr.toNat + 8) (s.pend.ops.srcLen.toNat - 8) s.mem), t) := by
  obtain ⟨toks, hexpand, hcode⟩ := h
  have hbytes := codeTokens_append_bits s.lcfg toks (bytesBits (header s.lcfg)) ([], initTabs s.lcfg)
  rw [List.append_nil] at hbytes
  rw [hbytes, codeFinal_append_bytes, Prod.mk.injEq, ← hsrc] at hcode
  obtain ⟨hbits, htab⟩ := hcode
  have hlen := congrArg List.length hbits
  have hheader : (header s.lcfg).length = 8 := rfl
  rw [List.length_append, length_bytesBits, length_bytesBits, chunkOf, Mem.length_readList, hheader] at hlen
  have hsplit : s.pend.ops.srcLen.toNat = 8 + (s.pend.ops.srcLen.toNat - 8) := by omega
  obtain ⟨htake, hdrop⟩ := take_drop_of_bytesBits hbits.symm
  rw [chunkOf, hsplit, Mem.readList_add, hheader] at htake hdrop
  rw [List.take_left' (Mem.length_readList ..)] at htake
  rw [List.drop_left' (Mem.length_readList ..)] at hdrop
  exact ⟨toks, hexpand, by omega, htake, Prod.ext hdrop.symm htab⟩

/-- The read cursor at the end of the source in flight. -/
def sourceEnd (s : State) : RCur :=
  { base := s.pend.ops.srcAddr, len := s.pend.ops.srcLen, pos := s.pend.ops.srcLen.toNat, bit := 0 }

/-- Decoding ends at the end of the source, past padding and trailer (48_decompress.md R660). -/
theorem UnpackAt.checkEnd {all : List Bool} {p : List Bool × Tabs} {out : List Byte} {u : Unpack}
    (h : UnpackAt s all (codeEos s.lcfg p) out u) (hall : all = (codeFinal s.lcfg (adlerUpdate 0x00000001 out) p).1) :
    checkEnd s.lcfg u = .ok (sourceEnd s) := by
  obtain ⟨hbase, hlen, hrc, hbits, _⟩ := h.dec
  have hplace := hrc.place
  have hwhole := length_codeFinal_mod s.lcfg (adlerUpdate 0x00000001 out) p
  have hcount := congrArg List.length hbits
  rw [hall, List.length_append, length_unreadBits, RCur.unread] at hcount
  have hmod : (codeEos s.lcfg p).1.length % 8 = u.dec.rc.bit := by omega
  rw [hall, codeFinal, List.append_assoc, List.append_cancel_left_eq, padding, hmod] at hbits
  obtain ⟨hok, hunread⟩ := unreadBits_advance hrc hbits
  rw [List.length_replicate] at hok hunread
  have hboundary : (advanceRead ((8 - u.dec.rc.bit) % 8) u.dec.rc).bit = 0 := by
    have hbit := rcurOk_bit_lt hrc
    simp only [advanceRead]
    omega
  have hcursor : advanceRead ((8 - u.dec.rc.bit) % 8) u.dec.rc =
      { base := s.pend.ops.srcAddr, len := s.pend.ops.srcLen
        pos := (advanceRead ((8 - u.dec.rc.bit) % 8) u.dec.rc).pos, bit := 0 } := by
    rw [← hbase, ← hlen, ← hboundary]
    rfl
  rw [Machine.checkEnd, checkPadding_zeros hrc hbits]
  dsimp only
  rw [h.adler, checkTrailer_trailer hok hboundary hunread, hcursor]
  rfl

end

/-! ## DECOMPRESS of a stream (48_decompress.md R660, R671) -/

/-- What decoding starts from once the header is read (48_decompress.md R662). -/
def pastHeader (s : State) : Unpack :=
  { unpackStart s with dec := { (unpackStart s).dec with rc := { (unpackStart s).dec.rc with pos := 8 } } }

/-- After its own header a source is decoded token by token up to its end. -/
theorem unpackStream_of_loop {s : State} {u : Unpack} {r : RCur} (hlen : 8 ≤ s.pend.ops.srcLen.toNat)
    (hheader : Mem.readList s.pend.ops.srcAddr.toNat 8 s.mem = header s.lcfg)
    (hloop : unpackLoop s.lcfg s.pend.ops.dstAddr.toNat s.pend.ops.dstCap.toNat (8 * s.pend.ops.srcLen.toNat + 1)
      (pastHeader s) = .ok u)
    (hend : checkEnd s.lcfg u = .ok r) : unpackStream s = .ok { u with dec := { u.dec with rc := r } } := by
  rw [pastHeader] at hloop
  rw [unpackStream]
  dsimp only
  rw [if_neg (Nat.not_lt.mpr hlen), if_neg (not_not_intro hheader), hloop]
  dsimp only
  rw [hend]

theorem unpackRead_sourceEnd {s : State} (h : 0 < s.pend.ops.srcLen.toNat) : unpackRead s (sourceEnd s) = s.srcRegion := by
  have hmoved : sourceEnd s ≠ (unpackStart s).dec.rc := fun heq => h.ne' (congrArg RCur.pos heq)
  rw [unpackRead, RCur.readTo, if_neg hmoved]
  rfl

/-- Past its checks a DECOMPRESS whose source decodes succeeds. -/
theorem exec_decompress_checked {s : State} {u : Unpack} (hmay : s.mayDecompress = true) (hnames : bothNameable s)
    (hu : unpackStream s = .ok u)
    (hbus : busAllows s [unpackRead s u.dec.rc, ⟨s.pend.ops.dstAddr.toNat, u.produced⟩]) :
    exec .decompress s = .next ((decompressDone s u).complete .ok) := by
  obtain ⟨⟨hsrc, hsrcSide⟩, ⟨hdst, hdstSide⟩, hdisjoint⟩ := hnames
  obtain ⟨hready, _⟩ := s.mayDecompress_iff.mp hmay
  have hopen : s.ctx.state ≠ .closed := by rw [hready]; decide
  refine (requireState_pass hopen hmay).trans ((requireRegions_pass hsrc hdst hdisjoint hsrcSide hdstSide).trans ?_)
  rw [hu]
  exact afterAccesses_pass hbus

section
variable {s : State} {input stream : List Byte} {t : Tabs}

/-- A decompressor that has read its header has produced nothing and stands before the bits after the header. -/
theorem unpackAt_pastHeader (hs : Inv s) (hstart : atStreamStart s) (hsrc : s.srcRegion.legal = true)
    (hlen : 8 ≤ s.pend.ops.srcLen.toNat) :
    UnpackAt s (bytesBits (Mem.readList (s.pend.ops.srcAddr.toNat + 8) (s.pend.ops.srcLen.toNat - 8) s.mem))
      ([], initTabs s.lcfg) [] (pastHeader s) where
  dec :=
    { base_eq := rfl
      len_eq := rfl
      rc := rcurOk_start hsrc hlen
      bits := rfl
      tab := hstart.2.2 }
  win := holds_clear _ hs.ring_wf
  total := rfl
  adler := by rw [adlerUpdate_nil, ite_self]; rfl
  produced := rfl
  out_eq := rfl
  mem_wf := hs.mem_wf
  stored := by split <;> rfl

/-- The source of a stream is decoded to its input, with its tables (48_decompress.md R660). -/
theorem unpackStream_streamOf (hs : Inv s) (hmay : s.mayDecompress = true) (hstart : atStreamStart s)
    (hnames : bothNameable s) (hsrc : chunkOf s = stream) (h : StreamOf s.lcfg input stream t)
    (hroom : input.length ≤ s.pend.ops.dstCap.toNat) :
    ∃ u all p, UnpackAt s all p input u ∧ u.dec.tab = t ∧
      unpackStream s = .ok { u with dec := { u.dec with rc := sourceEnd s } } ∧ 0 < s.pend.ops.srcLen.toNat := by
  obtain ⟨hready, _⟩ := s.mayDecompress_iff.mp hmay
  obtain ⟨⟨hlegal, _⟩, _, hdisjoint⟩ := hnames
  have hlc := hs.lcfg hready
  have hdict := hs.dict_le hready
  obtain ⟨toks, hexpand, hlen, hheader, hcode⟩ := streamOf_source h hsrc
  obtain ⟨hbits, htab⟩ := Prod.mk.inj hcode
  have hfirst := unpackAt_pastHeader hs hstart hlegal hlen
  have hprefix : (codeEos s.lcfg (codeTokens s.lcfg toks ([], initTabs s.lcfg))).1 <+:
      bytesBits (Mem.readList (s.pend.ops.srcAddr.toNat + 8) (s.pend.ops.srcLen.toNat - 8) s.mem) := by
    rw [← hbits]
    exact (List.prefix_append ..).trans (List.prefix_append ..)
  have hfuel : toks.length < 8 * s.pend.ops.srcLen.toNat + 1 := by
    have hcount := length_le_codeTokens hlc hdict toks (p := ([], initTabs s.lcfg)) (initTabs_sound hlc)
    have hwhole := ((codeSymbol_prefix ..).trans hprefix).length_le
    rw [length_bytesBits, Mem.length_readList] at hwhole
    rw [List.length_nil] at hcount
    omega
  obtain ⟨u, hloop, hu⟩ :=
    hfirst.loop hlc hdict (apart_of_not_overlaps hdisjoint) (initTabs_sound hlc) hexpand hroom hprefix hfuel
  exact ⟨u, _, _, hu, hu.dec.tab.trans htab, unpackStream_of_loop hlen hheader hloop (hu.checkEnd hbits.symm), by omega⟩

/-- The bytes produced are in the destination, in both output modes (48_decompress.md R661). -/
theorem UnpackAt.readList_done {all : List Bool} {p : List Bool × Tabs} {u : Unpack} (h : UnpackAt s all p input u) (d : Dec) :
    Mem.readList s.pend.ops.dstAddr.toNat input.length (decompressDone s { u with dec := d }).mem = input := by
  obtain ⟨_, _, _, _, _, hout, hmem, hstored⟩ := h
  rw [decompressDone_mem]
  split at hstored <;> rename_i hmode
  · rw [if_pos hmode]
    exact hstored
  · rw [if_neg hmode, hout]
    exact Mem.readList_writeList_same input _ hmem

end

theorem compressesTo_inv {c t : State} {rest : List State} {input stream : List Byte}
    (h : compressesTo c rest input stream t) : Inv c := by
  cases rest <;> exact h.1

/-- Settles O57: the compressor's chunks make a stream of the input, its tokens' codes with the tables that coding leaves, and the
decompressor reads back such a stream token by token. -/
theorem roundTrip : Obligations.RoundTrip := by
  unfold Obligations.RoundTrip
  intro c rest input stream tc d hcomp hstart hd hdstart hformat hmay hnames _ hsrc hroom hbus
  have hcap := d.pend.ops.dstCap.isLt
  obtain ⟨hstream, htotal⟩ := compressesTo_streamOf hcomp (underway_start (compressesTo_inv hcomp) hstart)
    (by rw [List.nil_append]; omega)
  rw [List.nil_append] at htotal
  rw [List.nil_append, List.nil_append] at hstream
  obtain ⟨u, all, p, hu, htab, hunpack, hlen⟩ :=
    unpackStream_streamOf hd hmay hdstart hnames hsrc (hstream.sameFormat hformat) hroom
  have hexec := exec_decompress_checked hmay hnames hunpack (by
    dsimp only
    rw [unpackRead_sourceEnd hlen, hu.produced]
    exact hbus)
  refine ⟨_, hexec, rfl, ?_, hu.readList_done _, htab, hu.total.trans htotal.symm⟩
  rw [complete_result, decompressDone_result, hu.produced]
  exact Nat.mod_eq_of_lt (by omega)

end Sys2Proof.Machine
end

section
/-!
PROOFS. The state requirement, said once of every command (49_context.md R702, R715; 40_command_model.md R406 steps 2 and 3): each
command is its requirement and then the rest. From it a closed context, which nothing but a soft reset opens again.
-/

namespace Sys2Proof.Machine

open Sys2Proof.Safety

-- Bodies are elaborated one after another, which keeps the compile's memory down.
set_option Elab.async false

/-! ## The requirement (49_context.md R702) -/

/-- Every command begins with the requirement of its row. -/
theorem exec_eq_requireState (i : Instr) (s : State) : ∃ body, exec i s = requireState (requirement i s) s body := by
  cases i <;> exact ⟨_, rfl⟩

theorem exec_closed (i : Instr) {s : State} (h : s.ctx.state = .closed) : exec i s = .next (s.complete .useAfterClose) := by
  obtain ⟨body, hexec⟩ := exec_eq_requireState i s
  rw [hexec]
  exact if_pos h

theorem exec_unmet {i : Instr} {s : State} (hopen : s.ctx.state ≠ .closed) (hunmet : requirement i s = false) :
    exec i s = .next (s.complete .invalidState) := by
  obtain ⟨body, hexec⟩ := exec_eq_requireState i s
  rw [hexec, hunmet]
  exact if_neg hopen

/-- Settles O10: the rest of the command is not reached. -/
theorem unmetRequirementIsInvalidState : Obligations.UnmetRequirementIsInvalidState := by
  unfold Obligations.UnmetRequirementIsInvalidState
  exact fun i s hunmet => ⟨fun hopen => exec_unmet hopen hunmet, exec_closed i⟩

/-! ## A closed context (49_context.md R715, 70_reset_and_hazards.md R905) -/

/-- The context is CLOSED. -/
def State.IsClosed (s : State) : Prop :=
  s.ctx.state = .closed

/-- The event is a soft reset: a write of SRST with bit 0 set (10_state.md R108). -/
def Event.IsSoftReset (e : Event) : Prop :=
  ∃ v, e = .write 32 0x14#8 v ∧ v.getLsbD 0 = true

section
variable {s : State}

theorem completion_closed (h : s.IsClosed) : Yields State.IsClosed s.completion :=
  yields_completion h fun i => by
    rw [exec_closed i h]
    exact yields_next h

theorem engineTurn_closed (h : s.IsClosed) : Yields State.IsClosed s.engineTurn := by
  unfold State.engineTurn
  split
  · exact completion_closed h
  · exact yields_next h

theorem readReg_ctx (s : State) (r : Reg) : (s.readReg r).ctx = s.ctx := by
  obtain h | ⟨_, h⟩ | ⟨_, _, _, h⟩ := readReg_cases s r <;> rw [h]

theorem readOffset_ctx (s : State) (offset : Nat) : (s.readOffset offset).ctx = s.ctx := by
  unfold State.readOffset
  split
  · exact readReg_ctx s _
  · rfl

/-- Of the register writes only the soft reset moves the context. -/
theorem writeReg_ctx (s : State) {r : Reg} (v : Word) (hr : r ≠ .srst) : (s.writeReg r v).ctx = s.ctx := by
  cases r with
  | srst => exact absurd rfl hr
  | cmd =>
    unfold State.writeReg
    dsimp only
    split <;> rfl
  | _ => rfl

/-- A write of SRST with bit 0 clear does nothing (10_state.md R108). -/
theorem writeReg_srst_clear (s : State) {v : Word} (h : v.getLsbD 0 = false) : s.writeReg .srst v = s :=
  if_neg (Bool.eq_false_iff.mp h)

theorem writeReg_srst_set (s : State) {v : Word} (h : v.getLsbD 0 = true) : s.writeReg .srst v = s.softReset :=
  if_pos h

theorem writeOffset_ctx {offset : BitVec 8} {v : Word} (h : ¬ (Event.write 32 offset v).IsSoftReset) :
    (s.writeOffset offset.toNat v).ctx = s.ctx := by
  unfold State.writeOffset
  split
  · rename_i r hr
    by_cases hsrst : offset.toNat = 0x14
    · obtain rfl : offset = 0x14#8 := BitVec.eq_of_toNat_eq hsrst
      obtain rfl : r = .srst := (Option.some.inj hr).symm
      have hclear : v.getLsbD 0 = false := Bool.eq_false_iff.mpr fun hset => h ⟨v, rfl, hset⟩
      rw [writeReg_srst_clear s hclear]
    · exact writeReg_ctx s v (regAt_ne_srst hr hsrst)
  · rfl

theorem deliver_closed (h : s.IsClosed) {e : Event} (he : ¬ e.IsSoftReset) : Yields State.IsClosed (s.deliver e) := by
  cases e with
  | engine => exact engineTurn_closed h
  | wait => exact yields_next ((congrArg Ctx.state (readReg_ctx s _)).trans h)
  | read bits offset =>
    unfold State.deliver
    dsimp only
    split
    · exact yields_next ((congrArg Ctx.state (readOffset_ctx s _)).trans h)
    · exact yields_refused _
  | write bits offset v =>
    unfold State.deliver
    dsimp only
    split
    · rename_i hshape
      obtain ⟨rfl, _⟩ := (accessShapeOk_iff bits offset.toNat).mp hshape
      exact yields_next ((congrArg Ctx.state (writeOffset_ctx he)).trans h)
    · exact yields_refused _
  | clearAtCompletion v => exact engineTurn_closed h
  | memRead a =>
    intro t ht
    obtain ⟨_, ht⟩ := unlessRefused_next ht
    split at ht <;>
      (injection ht with ht
       exact ht ▸ h)
  | memWrite a b =>
    intro t ht
    obtain ⟨_, ht⟩ := unlessRefused_next ht
    split at ht
    · cases ht
    · injection ht with ht
      exact ht ▸ h

theorem step_closed (h : s.IsClosed) (hinputs : ∀ e ∈ s.inputs.head?, ¬ e.IsSoftReset) :
    Yields State.IsClosed (step s) := by
  unfold step State.turn
  split
  · exact engineTurn_closed h
  · split
    · exact completion_closed h
    · exact yields_next ((congrArg Ctx.state (readReg_ctx _ _)).trans h)
  · rename_i e rest _ hevents
    exact deliver_closed (s := { s with inputs := rest }) h (hinputs e (by rw [hevents]; rfl))

/-- A write of SRST, at once and whether or not a command is in flight (70_reset_and_hazards.md R902). -/
theorem step_write_srst {v : Word} {rest : List Event} (h : s.inputs = .write 32 0x14#8 v :: rest) :
    step s = .next (State.writeReg .srst v { s with inputs := rest }) := by
  rw [step_write h, if_pos (by decide)]
  rfl

end

/-- Settles O9: every event but a soft reset keeps a closed context closed. -/
theorem closedUntilReset : Obligations.ClosedUntilReset := by
  unfold Obligations.ClosedUntilReset
  refine ⟨fun i s => exec_closed i, fun s t hclosed hstep => ?_⟩
  by_cases hreset : ∃ e ∈ s.inputs.head?, e.IsSoftReset
  · obtain ⟨_, hhead, v, rfl, hset⟩ := hreset
    obtain ⟨rest, hinputs⟩ : ∃ rest, s.inputs = .write 32 0x14#8 v :: rest :=
      ⟨_, List.eq_cons_of_mem_head? hhead⟩
    rw [step_write_srst hinputs, writeReg_srst_set _ hset] at hstep
    injection hstep with hstep
    exact .inr ⟨v, rest, hinputs, hset, hstep ▸ rfl⟩
  · exact .inl (step_closed hclosed (fun e he hr => hreset ⟨e, he, hr⟩) t hstep)

end Sys2Proof.Machine
end

section
/-!
PROOFS. The soft reset (10_state.md R108, R160; 70_reset_and_hazards.md R902, R903) and the register reads while a command is in
flight (R921).
-/

namespace Sys2Proof.Machine

open Sys2Proof.Safety

-- Bodies are elaborated one after another, which keeps the compile's memory down.
set_option Elab.async false

/-- The block's own fields at their reset values; host memory, the platform and the host's fields are free. -/
theorem resetValues_of_block (mem : Mem) (plat : Config.Platform) (inputs : List Event) (rdata : Word) (mdata : Byte)
    (draws : Nat) :
    ResetValues { State.reset with
      mem := mem, plat := plat, inputs := inputs, rdata := rdata, mdata := mdata, draws := draws } where
  status := by
    obtain ⟨_, _, hreset⟩ := statusFields
    exact hreset
  irqEn := rfl
  irqPend := rfl
  cfg := rfl
  ops := rfl
  result := rfl
  res0 := rfl
  res1 := rfl
  adler := rfl
  wc := rfl
  rc := rfl
  total := rfl
  ctx := rfl
  busy := rfl
  irq := by simp [State.irq, State.reset]

theorem resetValues_reset : ResetValues State.reset := resetValues_of_block [] .reference [] 0 0 0

theorem resetValues_softReset (s : State) : ResetValues s.softReset := resetValues_of_block ..

theorem softReset_mem_idle {s : State} (h : s.busy = false) : s.softReset.mem = s.mem := by
  simp [State.softReset, h]

/-- A soft reset frees no byte outside the destination of the command it aborts (70_reset_and_hazards.md R903). -/
theorem softReset_mem_outside {s : State} {a : Nat} (h : s.flightRegions.2.contains a = false) :
    Mem.read a s.softReset.mem = Mem.read a s.mem := by
  unfold State.softReset
  dsimp only
  split
  · exact freeRegion_other _ h
  · rfl

/-- Settles O22: the next state of an SRST write is `softReset`, whose block fields are those of the reset state. -/
theorem softReset : Obligations.SoftReset := by
  unfold Obligations.SoftReset
  refine ⟨resetValues_reset, fun s v rest hinputs => ?_⟩
  rw [step_write_srst hinputs]
  refine ⟨fun hclear => by rw [writeReg_srst_clear _ hclear], fun hset => ?_⟩
  rw [writeReg_srst_set _ hset]
  exact ⟨_, rfl, resetValues_softReset _, rfl, rfl, fun hidle => softReset_mem_idle hidle,
    fun a ha => softReset_mem_outside ha⟩

theorem readReg_status_busy {s : State} (h : s.busy = true) :
    s.readReg .status =
      { s with rdata := s.statusWith (freeBit s.draws 0) (freeBit s.draws 1), draws := s.draws + 1 } := by
  simp [State.readReg, Reg.openWhileBusy, h]

theorem readReg_open_busy {s : State} {r : Reg} (h : s.busy = true) (hr : r.openWhileBusy = true) :
    s.readReg r =
      { s with rdata := BitVec.ofNat 32 ((freeWord s.draws 0).toNat % 2 ^ r.width), draws := s.draws + 1 } := by
  simp [State.readReg, h, hr]

/-- Settles O20: the registers of the first list are open to no free value, and those of the last all are. -/
theorem readsWhileBusy : Obligations.ReadsWhileBusy := by
  unfold Obligations.ReadsWhileBusy
  refine fun s r hbusy => ⟨fun hr => ?_, ?_, fun hr => ?_⟩
  · have hfixed : ∀ q ∈ [Reg.id, .irqEn, .irqPend, .cfgDictLog2, .cfgLevel, .cfgUpdateRate, .cfgMaxInterval, .cfgSlowRate,
        .cfgHelpers, .cfgDflags, .srcAddr, .srcLen, .dstAddr, .dstCap, .arg0, .arg1],
        q.openWhileBusy = false ∧ q ≠ .status := by decide
    obtain ⟨hclosed, hstatus⟩ := hfixed r hr
    exact readReg_closed s hclosed hstatus
  · rintro rfl
    exact ⟨_, _, readReg_status_busy hbusy⟩
  · have hopen : ∀ q ∈ [Reg.result, .res0, .res1, .adler, .wcPos, .wcNbits, .wcAcc, .rcPos, .rcBit, .winTotalLo,
        .winTotalHi], q.openWhileBusy = true := by decide
    exact ⟨_, readReg_open_busy hbusy (hopen r hr)⟩

end Sys2Proof.Machine
end

section
/-!
PROOFS of 49_context.md R704, R710 to R714: CINIT, DINIT, REINIT and CLOSE past the state requirement, with the configuration in
range and out of it.
-/

namespace Sys2Proof.Machine

open Sys2Proof.Safety

-- Bodies are elaborated one after another, which keeps the compile's memory down.
set_option Elab.async false

theorem sharedCfgOk_iff (p : Config.Platform) (c : CfgRegs) : sharedCfgOk p c = true ↔ sharedConfigLegal p c := by
  simp only [sharedCfgOk, Bool.and_eq_true, decide_eq_true_eq, and_assoc]
  rfl

theorem compCfgOk_iff (p : Config.Platform) (c : CfgRegs) : compCfgOk p c = true ↔ compConfigLegal p c := by
  simp only [compCfgOk, Bool.and_eq_true, decide_eq_true_eq, and_assoc, sharedCfgOk_iff]
  rfl

/-- A configuration value out of range is InvalidConfig (40_command_model.md R406 step 6). -/
theorem requireConfig_fail {ok : Bool} {s : State} {body : Result} (h : ¬ ok = true) :
    requireConfig ok s body = .next (s.complete .invalidConfig) :=
  if_neg h

/-- A command that needs UNINIT goes past the state requirement there. -/
theorem requireState_uninit {s : State} {body : Result} (h : s.ctx.state = .uninit) :
    requireState s.isUninit s body = body :=
  requireState_pass (by rw [h]; decide) (s.isUninit_iff.mpr h)

/-- Settles O27: the configuration decides between the fresh compressor and InvalidConfig. -/
theorem cinitCompletes : Obligations.CinitCompletes := by
  unfold Obligations.CinitCompletes
  refine fun s huninit => ⟨fun hlegal => ?_, fun hbad => ?_⟩
  · exact (requireState_uninit huninit).trans (requireConfig_pass ((compCfgOk_iff _ _).mpr hlegal))
  · exact (requireState_uninit huninit).trans (requireConfig_fail (mt (compCfgOk_iff _ _).mp hbad))

/-- Settles O28: the shared part of the configuration decides between the fresh decompressor and InvalidConfig. -/
theorem dinitCompletes : Obligations.DinitCompletes := by
  unfold Obligations.DinitCompletes
  refine fun s huninit => ⟨fun hlegal => ?_, fun hbad => ?_⟩
  · exact (requireState_uninit huninit).trans (requireConfig_pass ((sharedCfgOk_iff _ _).mpr hlegal))
  · exact (requireState_uninit huninit).trans (requireConfig_fail (mt (sharedCfgOk_iff _ _).mp hbad))

section
variable {s : State}

theorem exec_reinit_comp (hready : s.ctx.state = .ready) (hrole : s.ctx.role = .comp) :
    exec .reinit s = .next (s.freshStream.complete .ok) := by
  refine (requireState_ready (s.isReady_iff.mpr ⟨hready, .inl hrole⟩)).trans (if_neg ?_)
  rw [hrole]
  decide

theorem exec_reinit_decomp (hready : s.ctx.state = .ready) (hrole : s.ctx.role = .decomp) :
    exec .reinit s = requireConfig (sharedCfgOk s.plat s.pend.cfg) s
      (.next (State.complete .ok (State.freshStream { s with lcfg := decompLCfg s.pend.cfg }))) :=
  (requireState_ready (s.isReady_iff.mpr ⟨hready, .inr hrole⟩)).trans (if_pos hrole)

/-- A fresh stream of a READY context keeps its role (49_context.md R714). -/
theorem freshStream_ctx_of_ready {role : Role} (hready : s.ctx.state = .ready) (hrole : s.ctx.role = role) :
    s.freshStream.ctx = { state := .ready, role := role, started := false, done := false } := by
  rw [← hready, ← hrole]
  rfl

end

/-- Settles O29: by role; a decompressor's configuration decides between the fresh stream and InvalidConfig. -/
theorem reinitCompletes : Obligations.ReinitCompletes := by
  unfold Obligations.ReinitCompletes
  refine fun s hready => ⟨fun hrole => ?_, fun hrole hlegal => ?_, fun hrole hbad => ?_⟩
  · rw [exec_reinit_comp hready hrole, ← freshStream_ctx_of_ready hready hrole]
    rfl
  · rw [exec_reinit_decomp hready hrole, requireConfig_pass ((sharedCfgOk_iff _ _).mpr hlegal),
      ← freshStream_ctx_of_ready hready hrole]
    rfl
  · exact (exec_reinit_decomp hready hrole).trans (requireConfig_fail (mt (sharedCfgOk_iff _ _).mp hbad))

/-- Settles O30: CLOSE in an open context has no check left. -/
theorem closeCompletes : Obligations.CloseCompletes := by
  unfold Obligations.CloseCompletes
  intro s hopen
  have hnot : s.ctx.state ≠ .closed := by
    obtain h | h := hopen <;> (rw [h]; decide)
  exact ⟨_, _, _, _, _, requireState_pass hnot (s.isOpen_iff.mpr hopen)⟩

end Sys2Proof.Machine
end

section
/-!
PROOFS. Which codes a command gives and where it leaves the context (49_context.md R701; 60_exceptions.md R805), said once of every
command: a report with a code of its row, its effects with OK, or, for COMPRESS and DECOMPRESS, a broken stream with a code of
its row. The rules `yields_require…` above ask the property of a completion with any code; here each check is held to its own.
-/

namespace Sys2Proof.Machine

open Sys2Proof.Safety

-- Bodies are elaborated one after another, which keeps the compile's memory down.
set_option Elab.async false

/-! ## One rule for each check, with the code it gives (40_command_model.md R406) -/

section
variable {P : State → Prop} {s : State} {body : Result}

theorem yields_requireState_codes {ok : Bool} (hclosed : P (s.complete .useAfterClose))
    (hunmet : P (s.complete .invalidState)) (hb : ok = true → Yields P body) : Yields P (requireState ok s body) := by
  intro t h
  obtain ⟨_, rfl⟩ | ⟨_, _, rfl⟩ | ⟨_, ho, h⟩ := requireState_next h
  · exact hclosed
  · exact hunmet
  · exact hb ho t h

theorem yields_requireOperand_code {ok : Bool} (he : P (s.complete .illegalCommand)) (hb : Yields P body) :
    Yields P (requireOperand ok s body) := by
  intro t h
  obtain ⟨_, rfl⟩ | ⟨_, h⟩ := requireOperand_next h
  · exact he
  · exact hb t h

theorem yields_requireConfig_code {ok : Bool} (he : P (s.complete .invalidConfig)) (hb : Yields P body) :
    Yields P (requireConfig ok s body) := by
  intro t h
  obtain ⟨_, rfl⟩ | ⟨_, h⟩ := requireConfig_next h
  · exact he
  · exact hb t h

theorem yields_requireRegion_code {r : Region} (he : P (s.complete .rangeError)) (hb : Yields P body) :
    Yields P (requireRegion r s body) := by
  intro t h
  obtain ⟨_, rfl⟩ | ⟨_, _, h⟩ := requireRegion_next h
  · exact he
  · exact hb t h

theorem yields_requireRegions_code {src dst : Region} (he : P (s.complete .rangeError)) (hb : Yields P body) :
    Yields P (requireRegions src dst s body) := by
  intro t h
  obtain ⟨_, rfl⟩ | ⟨_, _, _, _, _, h⟩ := requireRegions_next h
  · exact he
  · exact hb t h

theorem yields_finishStore_code {r : Except Full State} (he : P (s.complete .outputBufferTooSmall))
    (hok : ∀ u, r = .ok u → P (u.complete .ok)) : Yields P (finishStore r s) := by
  intro t h
  obtain ⟨_, _, rfl⟩ | ⟨u, hu, rfl, _⟩ := finishStore_next h
  · exact he
  · exact hok u hu

theorem yields_finishRead_code {α : Type} {x : Except ReadStop α} {f : α → State}
    (he : ∀ e, x = .error e → P (s.complete e.err)) (hok : ∀ a, x = .ok a → P ((f a).complete .ok)) :
    Yields P (finishRead (x.map f) s) := by
  intro t h
  cases x with
  | error e =>
    obtain ⟨_, hx, rfl⟩ | ⟨_, hx, _⟩ := finishRead_next h
    · cases hx
      exact he e rfl
    · cases hx
  | ok a =>
    obtain ⟨_, hx, _⟩ | ⟨_, hx, rfl⟩ := finishRead_next h
    · cases hx
    · cases hx
      exact hok a rfl

end

/-! ## Every command -/

/-- Where a command that succeeds leaves the context (49_context.md R701). -/
def ctxAfter (i : Instr) (c : Ctx) : Ctx → Prop :=
  match i with
  | .cinit => fun c' => c.state = .uninit ∧ c' = { state := .ready, role := .comp, started := false, done := false }
  | .dinit => fun c' => c.state = .uninit ∧ c' = { state := .ready, role := .decomp, started := false, done := false }
  | .close => fun c' => (c.state = .uninit ∨ c.state = .ready) ∧
      c' = { state := .closed, role := .none, started := false, done := false }
  | .reinit => fun c' => c.state = .ready ∧ c' = { c with started := false, done := false }
  | _ => fun c' => c'.state = c.state ∧ c'.role = c.role

/-- The ways a command ends, with its code and its context. -/
inductive CommandEnds (i : Instr) (s : State) : State → Prop
  | report (e : ErrCode) (hrow : e ∈ .useAfterClose :: .invalidState :: furtherErrors i) : CommandEnds i s (s.complete e)
  | effects (u : State) (hctx : ctxAfter i s.ctx u.ctx) : CommandEnds i s (u.complete .ok)
  | broken (u : State) (e : ErrCode) (hrow : e ∈ furtherErrors i) (hstate : u.ctx.state = s.ctx.state)
      (hrole : u.ctx.role = s.ctx.role) : CommandEnds i s (u.complete e)

theorem ok_not_mem_furtherErrors (i : Instr) : ErrCode.ok ∉ furtherErrors i := by
  cases i <;> simp [furtherErrors]

section
variable {i : Instr} {s : State} {body : Result}

/-- The state requirement, which any command can fail. -/
theorem commandEnds_requireState {ok : Bool} (hb : ok = true → Yields (CommandEnds i s) body) :
    Yields (CommandEnds i s) (requireState ok s body) :=
  yields_requireState_codes (.report _ (by simp)) (.report _ (by simp)) hb

/-- A report of a code of the command's row. -/
theorem CommandEnds.of_row {e : ErrCode} (h : e ∈ furtherErrors i) : CommandEnds i s (s.complete e) :=
  .report e (List.mem_cons_of_mem _ (List.mem_cons_of_mem _ h))

end

theorem exec_commandEnds_compress (final : Bool) (s : State) :
    Yields (CommandEnds (.compress final) s) (exec (.compress final) s) := by
  refine commandEnds_requireState fun _ => yields_requireRegions_code (.of_row (by simp [furtherErrors])) ?_
  have hbroken : CommandEnds (.compress final) s ((compressBroken s).complete .outputBufferTooSmall) :=
    .broken _ _ (by simp [furtherErrors]) rfl rfl
  split
  · exact yields_afterAccesses (yields_next hbroken)
  · split
    · exact yields_afterAccesses (yields_next hbroken)
    · rename_i u hu
      obtain ⟨k1, e, _, _, rfl⟩ := compressChunk_ok hu
      exact yields_afterAccesses (yields_next (.effects _ ⟨rfl, rfl⟩))

theorem exec_commandEnds_decompress (s : State) : Yields (CommandEnds .decompress s) (exec .decompress s) := by
  refine commandEnds_requireState fun _ => yields_requireRegions_code (.of_row (by simp [furtherErrors])) ?_
  have hreads := unpackStream_reads s
  split
  · exact yields_afterAccesses (yields_next (.effects _ ⟨rfl, rfl⟩))
  · rename_i x u hu
    rw [hu] at hreads
    have hrow : x.err ∈ furtherErrors .decompress := List.mem_cons_of_mem _ hreads.code
    exact yields_afterAccesses (yields_next (.broken _ _ hrow rfl rfl))

theorem exec_commandEnds (i : Instr) (s : State) : Yields (CommandEnds i s) (exec i s) := by
  cases i with
  | cinit | dinit =>
    exact commandEnds_requireState fun huninit =>
      yields_requireConfig_code (.of_row (by simp [furtherErrors]))
        (yields_next (.effects _ ⟨s.isUninit_iff.mp huninit, rfl⟩))
  | reinit =>
    refine commandEnds_requireState fun hr => ?_
    obtain ⟨hready, _⟩ := s.isReady_iff.mp hr
    split
    · exact yields_requireConfig_code (.of_row (by simp [furtherErrors])) (yields_next (.effects _ ⟨hready, rfl⟩))
    · exact yields_next (.effects _ ⟨hready, rfl⟩)
  | close => exact commandEnds_requireState fun hopen => yields_next (.effects _ ⟨s.isOpen_iff.mp hopen, rfl⟩)
  | compress final => exact exec_commandEnds_compress final s
  | decompress => exact exec_commandEnds_decompress s
  | hbuild =>
    refine commandEnds_requireState fun _ => yields_requireOperand_code (.of_row (by simp [furtherErrors]))
      (yields_requireRegions_code (.of_row (by simp [furtherErrors])) ?_)
    split
    · exact yields_next (.of_row (by simp [furtherErrors]))
    · exact yields_afterAccesses (yields_next (.effects _ ⟨rfl, rfl⟩))
  | treset c | tstat c | ralign | wput | ainit =>
    exact commandEnds_requireState fun _ => yields_next (.effects _ ⟨rfl, rfl⟩)
  | tcost c | tread c | wget =>
    exact commandEnds_requireState fun _ =>
      yields_requireOperand_code (.of_row (by simp [furtherErrors])) (yields_next (.effects _ ⟨rfl, rfl⟩))
  | wsetup | rsetup =>
    exact commandEnds_requireState fun _ =>
      yields_requireRegion_code (.of_row (by simp [furtherErrors])) (yields_next (.effects _ ⟨rfl, rfl⟩))
  | mfind | aupdate =>
    exact commandEnds_requireState fun _ => yields_requireRegion_code (.of_row (by simp [furtherErrors]))
      (yields_afterAccesses (yields_next (.effects _ ⟨rfl, rfl⟩)))
  | cost =>
    exact commandEnds_requireState fun _ => yields_requireOperand_code (.of_row (by simp [furtherErrors]))
      (yields_requireRegion_code (.of_row (by simp [furtherErrors]))
        (yields_afterAccesses (yields_next (.effects _ ⟨rfl, rfl⟩))))
  | tenc c | putbits =>
    refine commandEnds_requireState fun _ => yields_requireOperand_code (.of_row (by simp [furtherErrors]))
      (yields_finishStore_code (.of_row (by simp [furtherErrors])) fun u hu => ?_)
    obtain ⟨_, _, rfl⟩ := map_ok hu
    exact .effects _ ⟨rfl, rfl⟩
  | wflush =>
    refine commandEnds_requireState fun _ =>
      yields_finishStore_code (.of_row (by simp [furtherErrors])) fun u hu => ?_
    obtain ⟨_, _, rfl⟩ := map_ok hu
    exact .effects _ ⟨rfl, rfl⟩
  | tdec c =>
    refine commandEnds_requireState fun _ => yields_finishRead_code (fun e he => .of_row ?_)
      fun _ _ => .effects _ ⟨rfl, rfl⟩
    simpa [furtherErrors] using decSym_error he
  | getbits =>
    refine commandEnds_requireState fun _ => yields_requireOperand_code (.of_row (by simp [furtherErrors]))
      (yields_finishRead_code (fun e he => .of_row ?_) fun _ _ => .effects _ ⟨rfl, rfl⟩)
    obtain ⟨rfl, _⟩ := getbits_error he
    simp [furtherErrors]

/-- Settles O15: every end of a command has OK or a code of its row. -/
theorem errorsByCommand : Obligations.ErrorsByCommand := by
  unfold Obligations.ErrorsByCommand
  intro i s t h
  cases exec_commandEnds i s t h with
  | report e hrow => exact List.mem_cons_of_mem _ hrow
  | effects u _ => exact List.mem_cons_self
  | broken u e hrow _ _ =>
    exact List.mem_cons_of_mem _ (List.mem_cons_of_mem _ (List.mem_cons_of_mem _ hrow))

/-- A command that does not end in OK keeps the state and the role. -/
theorem CommandEnds.ctx_of_error {i : Instr} {s t : State} (h : CommandEnds i s t) (herr : t.err ≠ .ok) :
    t.ctx.state = s.ctx.state ∧ t.ctx.role = s.ctx.role := by
  cases h with
  | report e _ => exact ⟨rfl, rfl⟩
  | effects u _ => exact absurd rfl herr
  | broken u e _ hstate hrole => exact ⟨hstate, hrole⟩

/-- A command that ends in OK leaves the context of R701. -/
theorem CommandEnds.ctx_of_ok {i : Instr} {s t : State} (h : CommandEnds i s t) (hok : t.err = .ok) :
    ctxAfter i s.ctx t.ctx := by
  cases h with
  | report e hrow =>
    obtain rfl : e = .ok := hok
    simp [ok_not_mem_furtherErrors] at hrow
  | effects u hctx => exact hctx
  | broken u e hrow _ _ =>
    obtain rfl : e = .ok := hok
    exact absurd hrow (ok_not_mem_furtherErrors i)

/-- A command other than CINIT, DINIT and CLOSE that ends in OK keeps the state and the role. -/
theorem ctxAfter_keeps {i : Instr} {c c' : Ctx} (h : ctxAfter i c c') (hcinit : i ≠ .cinit) (hdinit : i ≠ .dinit)
    (hclose : i ≠ .close) : c'.state = c.state ∧ c'.role = c.role := by
  cases i with
  | cinit => exact absurd rfl hcinit
  | dinit => exact absurd rfl hdinit
  | close => exact absurd rfl hclose
  | reinit =>
    obtain ⟨_, rfl⟩ := h
    exact ⟨rfl, rfl⟩
  | _ => exact h

/-- Settles O26: the context at each end of a command. -/
theorem contextTransitions : Obligations.ContextTransitions := by
  unfold Obligations.ContextTransitions
  intro i s t h
  have hends := exec_commandEnds i s t h
  refine ⟨hends.ctx_of_error, fun hok => ?_⟩
  have hctx := hends.ctx_of_ok hok
  refine ⟨?_, ?_, ?_, ?_, ctxAfter_keeps hctx⟩
  all_goals
    rintro rfl
    exact hctx

end Sys2Proof.Machine
end

section
/-!
PROOFS of 48_decompress.md R661, R662, R672: the ways a DECOMPRESS ends, what one token can do, and which bytes are stored by the time
the decoding ends or fails.
-/

namespace Sys2Proof.Machine

open Sys2Proof.Safety

-- Bodies are elaborated one after another, which keeps the compile's memory down.
set_option Elab.async false

/-! ## The ways a DECOMPRESS ends -/

/-- Past its checks a DECOMPRESS has the outcome of its decoding, unless the bus rejects one of its accesses. -/
theorem exec_decompress_eq {s : State} (hmay : s.mayDecompress = true) (hnames : bothNameable s) :
    exec .decompress s =
      match unpackStream s with
      | .ok u =>
        afterAccesses [unpackRead s u.dec.rc, ⟨s.pend.ops.dstAddr.toNat, u.produced⟩] s
          (.next ((decompressDone s u).complete .ok))
      | .error (x, u) =>
        afterAccesses [unpackRead s x.reach, ⟨s.pend.ops.dstAddr.toNat, if s.lcfg.unbuf then u.produced else 0⟩] s
          (.next ((decompressBroken s u).complete x.err)) := by
  obtain ⟨⟨hsrc, hsrcSide⟩, ⟨hdst, hdstSide⟩, hdisjoint⟩ := hnames
  obtain ⟨hready, _⟩ := s.mayDecompress_iff.mp hmay
  have hopen : s.ctx.state ≠ .closed := by rw [hready]; decide
  exact (requireState_pass hopen hmay).trans (requireRegions_pass hsrc hdst hdisjoint hsrcSide hdstSide)

/-- With an error of the check steps, with the whole stream decoded, or with a broken stream. -/
inductive DecompressEnds (s : State) : State → Prop
  | report (e : ErrCode) (hearly : earlyError e = true) : DecompressEnds s (s.complete e)
  | done {u : Unpack} (hmay : s.mayDecompress = true) (hnames : bothNameable s) (hu : unpackStream s = .ok u) :
      DecompressEnds s ((decompressDone s u).complete .ok)
  | broken {x : ReadStop} {u : Unpack} (hu : unpackStream s = .error (x, u)) :
      DecompressEnds s ((decompressBroken s u).complete x.err)

theorem exec_decompress_ends (s : State) : Yields (DecompressEnds s) (exec .decompress s) := by
  intro t h
  obtain ⟨_, rfl⟩ | ⟨_, _, rfl⟩ | ⟨_, hmay, hchecked⟩ := requireState_next h
  · exact .report _ rfl
  · exact .report _ rfl
  obtain ⟨_, rfl⟩ | ⟨hsrc, hdst, hdisjoint, hsrcSide, hdstSide, _⟩ := requireRegions_next hchecked
  · exact .report _ rfl
  have hnames : bothNameable s := ⟨⟨hsrc, hsrcSide⟩, ⟨hdst, hdstSide⟩, hdisjoint⟩
  rw [exec_decompress_eq hmay hnames] at h
  split at h
  · rename_i u hu
    obtain ⟨_, h⟩ := afterAccesses_next h
    injection h with h
    exact h ▸ .done hmay hnames hu
  · rename_i x u hu
    obtain ⟨_, h⟩ := afterAccesses_next h
    injection h with h
    exact h ▸ .broken hu

/-! ## One token (48_decompress.md R660, R663 to R665) -/

/-- What a token that is read does: a literal or a match, whose bytes fit, or the end of the stream. -/
inductive TokenRead (lc : LCfg) (dst cap : Nat) (u : Unpack) : Bool × Unpack → Prop
  | lit {b : Nat} {d1 d2 : Dec} (htyp : decSym u.mem lc .typ u.dec = .ok (0, d1))
      (hlit : decSym u.mem lc .lit d1 = .ok (b, d2)) (hroom : u.produced ≠ cap) :
      TokenRead lc dst cap u (false, emitByte lc dst (BitVec.ofNat 8 b) { u with dec := d2 })
  | copy {lv dv : Nat} {d1 d2 d3 : Dec} (htyp : decSym u.mem lc .typ u.dec = .ok (1, d1))
      (hlength : decValue u.mem lc .len d1 = .ok (lv, d2)) (hdist : decValue u.mem lc .dist d2 = .ok (dv, d3))
      (hback : dv + 1 ≤ u.produced) (hroom : u.produced + (lv + minMatch) ≤ cap) :
      TokenRead lc dst cap u (false, copyMatch lc dst (lv + minMatch) (dv + 1) { u with dec := d3 })
  | eos {sym : Nat} {d1 : Dec} (htyp : decSym u.mem lc .typ u.dec = .ok (sym, d1)) (hlit : sym ≠ 0) (hcopy : sym ≠ 1) :
      TokenRead lc dst cap u (true, { u with dec := d1 })

theorem unpackToken_read {lc : LCfg} {dst cap : Nat} {u : Unpack} {q : Bool × Unpack}
    (h : unpackToken lc dst cap u = .ok q) : TokenRead lc dst cap u q := by
  obtain ⟨⟨sym, d1⟩, htyp, h⟩ := bind_ok h
  dsimp only at h
  split at h
  · rename_i hzero
    subst hzero
    obtain ⟨⟨b, d2⟩, hlit, h⟩ := bind_ok h
    dsimp only at h
    split at h
    · cases h
    · rename_i hroom
      injection h with h
      exact h ▸ .lit htyp hlit hroom
  · rename_i hzero
    split at h
    · rename_i hone
      subst hone
      obtain ⟨⟨lv, d2⟩, hlength, h⟩ := bind_ok h
      obtain ⟨⟨dv, d3⟩, hdist, h⟩ := bind_ok h
      dsimp only at h
      split at h
      · cases h
      · rename_i hback
        split at h
        · cases h
        · rename_i hroom
          injection h with h
          exact h ▸ .copy htyp hlength hdist (Nat.le_of_not_gt hback) (Nat.le_of_not_gt hroom)
    · rename_i hone
      injection h with h
      exact h ▸ .eos htyp hzero hone

/-! ## What every byte produced keeps -/

/-- A property of the decoding that holds of the bytes produced within the capacity, that the read side does not touch, and that a
byte produced below the capacity keeps. -/
structure UnpackRule (lc : LCfg) (dst cap : Nat) (P : Unpack → Prop) : Prop where
  fits    : ∀ {u}, P u → u.produced ≤ cap
  withDec : ∀ {u} d, P u → P { u with dec := d }
  emit    : ∀ {u} b, P u → u.produced < cap → P (emitByte lc dst b u)

/-- The property of decoding's outcome: of the whole stream, or of what stood before its error. -/
def Unpacked (P : Unpack → Prop) : Except (ReadStop × Unpack) Unpack → Prop
  | .ok u => P u
  | .error e => P e.2

section
variable {lc : LCfg} {dst cap : Nat} {P : Unpack → Prop} {u : Unpack}

theorem UnpackRule.copyMatch (hR : UnpackRule lc dst cap P) {n d : Nat} (hu : P u) (hroom : u.produced + n ≤ cap) :
    P (copyMatch lc dst n d u) := by
  induction n generalizing u with
  | zero => exact hu
  | succ n ih =>
    refine ih (hR.emit _ hu (by omega)) ?_
    show u.produced + 1 + n ≤ cap
    omega

theorem UnpackRule.token (hR : UnpackRule lc dst cap P) {q : Bool × Unpack} (hu : P u)
    (h : unpackToken lc dst cap u = .ok q) : P q.2 := by
  have hfits := hR.fits hu
  cases unpackToken_read h with
  | lit _ _ hroom => exact hR.emit _ (hR.withDec _ hu) (Nat.lt_of_le_of_ne hfits hroom)
  | copy _ _ _ _ hroom => exact hR.copyMatch (hR.withDec _ hu) hroom
  | eos _ _ _ => exact hR.withDec _ hu

theorem UnpackRule.loop (hR : UnpackRule lc dst cap P) {n : Nat} (hu : P u) : Unpacked P (unpackLoop lc dst cap n u) := by
  induction n generalizing u with
  | zero => exact hu
  | succ n ih =>
    rw [unpackLoop]
    split
    · exact hu
    · rename_i u1 htoken
      exact hR.token hu htoken
    · rename_i u1 htoken
      exact ih (hR.token hu htoken)

end

theorem UnpackRule.stream {s : State} {P : Unpack → Prop}
    (hR : UnpackRule s.lcfg s.pend.ops.dstAddr.toNat s.pend.ops.dstCap.toNat P) (hstart : P (unpackStart s)) :
    Unpacked P (unpackStream s) := by
  unfold unpackStream
  dsimp only
  split
  · exact hstart
  · split
    · exact hstart
    · have hloop := hR.loop (n := 8 * s.pend.ops.srcLen.toNat + 1)
        (hR.withDec { (unpackStart s).dec with rc := { (unpackStart s).dec.rc with pos := 8 } } hstart)
      split
      · rename_i e he
        rw [he] at hloop
        exact hloop
      · rename_i u1 hu1
        rw [hu1] at hloop
        split
        · exact hloop
        · exact hR.withDec _ hloop

/-! ## The bytes stored (48_decompress.md R661, R672) -/

/-- The bytes produced fit and are staged; memory has changed only below their end, and in buffered mode not at all. -/
structure StoredBelow (lc : LCfg) (dst cap : Nat) (m : Mem) (u : Unpack) : Prop where
  fits     : u.produced ≤ cap
  staged   : u.out.length = u.produced
  outside  : ∀ a, (a < dst ∨ dst + u.produced ≤ a) → Mem.read a u.mem = Mem.read a m
  buffered : lc.unbuf = false → u.mem = m

theorem storedBelow_rule (lc : LCfg) (dst cap : Nat) (m : Mem) : UnpackRule lc dst cap (StoredBelow lc dst cap m) where
  fits h := h.fits
  withDec _ h := ⟨h.fits, h.staged, h.outside, h.buffered⟩
  emit {u} b h hroom := by
    refine ⟨hroom, congrArg (· + 1) h.staged, fun a ha => ?_, fun hmode => ?_⟩
    · have ha' : a < dst ∨ dst + (u.produced + 1) ≤ a := ha
      rw [← h.outside a (by omega)]
      unfold emitByte
      dsimp only
      split
      · exact Mem.read_write_other _ _ (by omega)
      · rfl
    · simp only [emitByte, hmode, Bool.false_eq_true, if_false, h.buffered hmode]

theorem unpackStream_storedBelow (s : State) :
    Unpacked (StoredBelow s.lcfg s.pend.ops.dstAddr.toNat s.pend.ops.dstCap.toNat s.mem) (unpackStream s) :=
  (storedBelow_rule ..).stream ⟨Nat.zero_le _, rfl, fun _ _ => rfl, fun _ => rfl⟩

section
variable {s : State} {u : Unpack}

/-- RESULT is the count of the bytes produced, which fits in its 32 bits. -/
theorem StoredBelow.result_toNat (h : StoredBelow s.lcfg s.pend.ops.dstAddr.toNat s.pend.ops.dstCap.toNat s.mem u) :
    (BitVec.ofNat 32 u.produced).toNat = u.produced :=
  Nat.mod_eq_of_lt (Nat.lt_of_le_of_lt h.fits s.pend.ops.dstCap.isLt)

/-- No byte outside the first RESULT bytes of the destination changes, in either output mode (48_decompress.md R671). -/
theorem StoredBelow.decompressDone_outside
    (h : StoredBelow s.lcfg s.pend.ops.dstAddr.toNat s.pend.ops.dstCap.toNat s.mem u) {a : Nat}
    (ha : a < s.pend.ops.dstAddr.toNat ∨ s.pend.ops.dstAddr.toNat + u.produced ≤ a) :
    Mem.read a (decompressDone s u).mem = Mem.read a s.mem := by
  rw [decompressDone_mem, ← h.outside a ha]
  split
  · rfl
  · exact Mem.read_writeList_other _ _ _ (by rw [List.length_reverse, h.staged]; exact ha)

end

/-! ## The errors of the header (48_decompress.md R662) -/

section
variable {s : State}

theorem unpackStream_short (h : s.pend.ops.srcLen.toNat < 8) :
    unpackStream s = .error (⟨.truncatedStream, (unpackStart s).dec.rc⟩, unpackStart s) :=
  if_pos h

theorem unpackStream_other_header (hlen : 8 ≤ s.pend.ops.srcLen.toNat)
    (h : Mem.readList s.pend.ops.srcAddr.toNat 8 s.mem ≠ header s.lcfg) :
    unpackStream s = .error (⟨.corruptStream, { (unpackStart s).dec.rc with pos := 8 }⟩, unpackStart s) :=
  (if_neg (Nat.not_lt.mpr hlen)).trans (if_pos h)

theorem busAllows_empty (s : State) (base : Nat) : busAllows s [⟨base, 0⟩] := by
  simp [busAllows, busRefusal]

/-- Beside other accesses an empty one changes nothing. -/
theorem busAllows_with_empty {r : Region} (h : busAllows s [r]) (base : Nat) : busAllows s [r, ⟨base, 0⟩] := by
  have hr := busRefusal_none.mp h r (List.mem_singleton_self r)
  simp [busAllows, busRefusal, hr]

/-- A DECOMPRESS that stops at its header stores nothing; it has read what the bus must allow. -/
theorem exec_decompress_header_error {x : ReadStop} (hmay : s.mayDecompress = true) (hnames : bothNameable s)
    (hu : unpackStream s = .error (x, unpackStart s)) (hread : busAllows s [unpackRead s x.reach]) :
    ∃ t, exec .decompress s = .next t ∧ t.err = x.err ∧ t.result = 0 ∧ t.mem = s.mem := by
  have hbus := busAllows_with_empty hread s.pend.ops.dstAddr.toNat
  have hempty : (if s.lcfg.unbuf then (unpackStart s).produced else 0) = 0 := ite_self 0
  rw [← hempty] at hbus
  rw [exec_decompress_eq hmay hnames, hu]
  exact ⟨_, afterAccesses_pass hbus, rfl, rfl, rfl⟩

/-- Nothing is read of a source shorter than a header. -/
theorem busAllows_nothing_read (s : State) : busAllows s [unpackRead s (unpackStart s).dec.rc] := by
  have hnone : unpackRead s (unpackStart s).dec.rc = ⟨s.pend.ops.srcAddr.toNat, 0⟩ := by
    rw [unpackRead, RCur.readTo, if_pos rfl]
    rfl
  rw [hnone]
  exact busAllows_empty s _

theorem unpackRead_header (s : State) :
    unpackRead s { (unpackStart s).dec.rc with pos := 8 } = ⟨s.pend.ops.srcAddr.toNat, 8⟩ := by
  have hmoved : { (unpackStart s).dec.rc with pos := 8 } ≠ (unpackStart s).dec.rc := fun heq =>
    absurd (congrArg RCur.pos heq) (by simp [unpackStart])
  rw [unpackRead, RCur.readTo, if_neg hmoved]
  rfl

end

/-- Settles O56: the header's errors stop before any byte is produced, and of any error the bytes stored are those produced. -/
theorem decompressErrorState : Obligations.DecompressErrorState := by
  unfold Obligations.DecompressErrorState
  refine ⟨fun s hmay hnames => ⟨fun hshort => ?_, fun hlen hread hheader => ?_⟩, fun s t h herr => ?_⟩
  · exact exec_decompress_header_error hmay hnames (unpackStream_short hshort) (busAllows_nothing_read s)
  · rw [← header_eq] at hheader
    refine exec_decompress_header_error hmay hnames (unpackStream_other_header hlen hheader) ?_
    rw [unpackRead_header]
    exact hread
  · have hlate := streamErrors_late t.err herr
    cases exec_decompress_ends s t h with
    | report e hearly => exact absurd (hearly.symm.trans hlate) (by decide)
    | done _ _ _ => exact absurd herr (show ErrCode.ok ∉ streamErrors by decide)
    | @broken x u hu =>
      have hstored := unpackStream_storedBelow s
      rw [hu] at hstored
      obtain hstored : StoredBelow s.lcfg s.pend.ops.dstAddr.toNat s.pend.ops.dstCap.toNat s.mem u := hstored
      refine ⟨rfl, ?_, hstored.buffered, fun a ha => hstored.outside a ?_⟩
      · rw [complete_result, decompressBroken_result, hstored.result_toNat]
        exact hstored.fits
      · rwa [complete_result, decompressBroken_result, hstored.result_toNat] at ha

end Sys2Proof.Machine
end

section
/-!
PROOFS of 48_decompress.md R660, R663 for whatever source: a symbol, value or token that is read stood in the source as its code.
The unread bits, filled up with zeros, begin with the code of some symbol (43_prefix_code.md R484 (a)); where they end inside
it the read stops, so a read that succeeds found it whole.
-/

namespace Sys2Proof.Machine

open Sys2Proof.Safety

-- Bodies are elaborated one after another, which keeps the compile's memory down.
set_option Elab.async false

/-! ## Symbols (43_prefix_code.md R490) -/

/-- A complete code has a codeword at the head of any bits, which they begin with or end inside. -/
theorem FullCode.exists_code {n : Nat} {len code : List Nat} (h : FullCode n len code) (hn : 2 ≤ n) (bits : List Bool) :
    ∃ i < n, codeBits len code i <+: bits ∨ ∃ missing, missing ≠ [] ∧ bits ++ missing = codeBits len code i := by
  obtain ⟨i, hi, hcode⟩ := h.complete hn ((bits ++ List.replicate 16 false).take 16) (by simp)
  refine ⟨i, hi, ?_⟩
  obtain hwhole | ⟨missing, hinside⟩ :=
    List.prefix_or_prefix_of_prefix (hcode.trans (List.take_prefix ..)) (List.prefix_append bits _)
  · exact .inl hwhole
  · by_cases hnone : missing = []
    · subst hnone
      rw [List.append_nil] at hinside
      exact .inl (hinside ▸ List.prefix_rfl)
    · exact .inr ⟨missing, hnone, hinside⟩

/-- A symbol that is read is one of the alphabet, and the unread bits began with its code. -/
theorem FullCode.decodeSym_ok {n : Nat} {len code : List Nat} (h : FullCode n len code) (hn : 2 ≤ n) {m : Mem} {r : RCur}
    (hr : RCurOk r) {q : Nat × RCur} (hread : decodeSym m len r = .ok q) :
    q.1 < n ∧ codeBits len code q.1 <+: unreadBits r m := by
  obtain ⟨i, hi, ⟨rest, hwhole⟩ | ⟨missing, hne, hinside⟩⟩ := h.exists_code hn (unreadBits r m)
  · have hbits := hwhole.symm
    rw [h.code_eq] at hbits
    rw [decodeSym_code h.kraft (h.len_pos i hi) hr hbits] at hread
    injection hread with hread
    exact hread ▸ ⟨hi, rest, hwhole⟩
  · rw [h.code_eq] at hinside
    rw [decodeSym_truncated h.kraft (h.len_pos i hi) hr hne hinside] at hread
    cases hread

theorem two_le_alphabetSize {pl : Config.Platform} {lc : LCfg} (hlc : LCfgOk pl lc) (c : SymClass) :
    2 ≤ alphabetSize c lc.dict := by
  have hdict := hlc.dict_ge
  cases c <;> simp only [alphabetSize, dictLog2Min] at * <;> omega

/-! ## Values (30_encoding.md R344) -/

/-- Bits that are read were the next ones unread, and the value read has no more of them (41_bitstream.md R440). -/
theorem getbits_ok_bits {m : Mem} {n x : Nat} {r r' : RCur} (h : getbits m n r = .ok (x, r')) (hr : RCurOk r) :
    x < 2 ^ n ∧ msbBits n x <+: unreadBits r m ∧ r' = advanceRead n r := by
  obtain ⟨hunread, _⟩ := getbits_ok h
  obtain ⟨rfl, hmoved⟩ := Prod.mk.inj (getbits_reads_bits h hr)
  have htaken : ((unreadBits r m).take n).length = n := List.length_take_of_le (by rwa [length_unreadBits])
  have hlt := bitsValue_lt ((unreadBits r m).take n)
  have hbits := msbBits_bitsValue ((unreadBits r m).take n)
  rw [htaken] at hlt hbits
  exact ⟨hlt, by rw [hbits]; exact List.take_prefix .., hmoved⟩

/-- A value whose symbol is below `2 * k` is below `2^k` (30_encoding.md R342). -/
theorem lt_two_pow_of_bucket {v k : Nat} (hk : 2 ≤ k) (h : (bucket v).1 < 2 * k) : v < 2 ^ k := by
  obtain hv | hv := Nat.lt_or_ge v 4
  · exact hv.trans_le (Nat.pow_le_pow_right two_pos hk)
  · obtain ⟨j, b, x, hj, hb, hx, rfl⟩ := exists_value_form hv
    rw [bucket_form hj hb hx] at h
    have hexp : j + 2 ≤ k := by
      dsimp only at h
      omega
    have htop : (2 + b) * 2 ^ j ≤ 3 * 2 ^ j := Nat.mul_le_mul_right _ (by omega)
    have hpow : 2 ^ (j + 2) = 4 * 2 ^ j := by rw [pow_add]; ring
    have hmono : 2 ^ (j + 2) ≤ 2 ^ k := Nat.pow_le_pow_right two_pos hexp
    omega

section
variable {base len : Word} {m : Mem} {all : List Bool} {p : List Bool × Tabs} {d : Dec}
variable {pl : Config.Platform} {lc : LCfg} (hlc : LCfgOk pl lc) (hdict : lc.dict ≤ 30)
include hlc hdict

/-- A symbol that is read was coded there (44_adaptive_codec.md R531). -/
theorem DecAt.decSym_ok (h : DecAt base len m all p d) (hs : TabsSound lc p.2) {c : SymClass} {q : Nat × Dec}
    (hread : Machine.decSym m lc c d = .ok q) :
    q.1 < alphabetSize c lc.dict ∧ DecAt base len m all (codeSymbol lc c q.1 p) q.2 := by
  obtain ⟨hsym, _⟩ := Machine.decSym_ok hread
  rw [h.tab] at hsym
  obtain ⟨hlt, hcode⟩ := (tabsSound_fullCode hdict hs c).decodeSym_ok (two_le_alphabetSize hlc c) h.rc hsym
  have hprefix : (codeSymbol lc c q.1 p).1 <+: all := h.bits ▸ (List.prefix_append_right_inj _).mpr hcode
  obtain ⟨d', hread', hat⟩ := h.decSym hdict hs hlt hprefix
  have hsame : d' = q.2 := congrArg Prod.snd (Except.ok.inj (hread'.symm.trans hread))
  exact ⟨hlt, hsame ▸ hat⟩

/-- A value that is read was coded there, as its symbol and its extra bits. -/
theorem DecAt.decValue_ok (h : DecAt base len m all p d) (hs : TabsSound lc p.2) {c : SymClass} {q : Nat × Dec}
    (hread : Machine.decValue m lc c d = .ok q) :
    (bucket q.1).1 < alphabetSize c lc.dict ∧ DecAt base len m all (codeValue lc c q.1 p) q.2 := by
  obtain ⟨⟨sym, d1⟩, hsym, hrest⟩ := bind_ok hread
  obtain ⟨⟨x, r⟩, hextra, hrest⟩ := bind_ok hrest
  injection hrest with hrest
  obtain ⟨hlt, h1⟩ := h.decSym_ok hlc hdict hs hsym
  obtain ⟨hx, hbits, _⟩ := getbits_ok_bits hextra h1.rc
  have hvalue : q.1 = unbucket sym x := congrArg Prod.fst hrest.symm
  have hbucket := bucket_unbucket hx
  rw [← hvalue] at hbucket
  have hlt' : (bucket q.1).1 < alphabetSize c lc.dict := by rw [hbucket]; exact hlt
  have hprefix : (codeValue lc c q.1 p).1 <+: all := by
    rw [codeValue, hbucket, ← h1.bits]
    exact (List.prefix_append_right_inj _).mpr hbits
  obtain ⟨d', hread', hat⟩ := h.decValue hdict hs hlt' hprefix
  have hsame : d' = q.2 := congrArg Prod.snd (Except.ok.inj (hread'.symm.trans hread))
  exact ⟨hlt', hsame ▸ hat⟩

end

/-! ## Tokens (30_encoding.md R341) -/

section
variable {s : State} {all : List Bool} {p : List Bool × Tabs} {out : List Byte} {u u' : Unpack}
variable {pl : Config.Platform} (hlc : LCfgOk pl s.lcfg) (hdict : s.lcfg.dict ≤ 30)
include hlc hdict

/-- An end-of-stream token that is read was coded there. -/
theorem UnpackAt.eos_ok (h : UnpackAt s all p out u) (hs : TabsSound s.lcfg p.2)
    (hread : unpackToken s.lcfg s.pend.ops.dstAddr.toNat s.pend.ops.dstCap.toNat u = .ok (true, u')) :
    UnpackAt s all (codeEos s.lcfg p) out u' := by
  generalize hq : (true, u') = q at hread
  cases unpackToken_read hread with
  | lit _ _ _ => cases hq
  | copy _ _ _ _ _ => cases hq
  | @eos sym d1 htyp hlit hcopy =>
    obtain rfl := congrArg Prod.snd hq
    obtain ⟨hlt, h1⟩ := h.dec.decSym_ok hlc hdict hs htyp
    have hthree : sym < 3 := hlt
    obtain rfl : sym = 2 := by omega
    exact h.withDec h1

variable (hapart : Apart s)
include hapart

/-- A token that is read, but for the end of the stream, was coded there, and what it stands for is produced and fits. -/
theorem UnpackAt.token_ok (h : UnpackAt s all p out u) (hs : TabsSound s.lcfg p.2)
    (hfits : out.length ≤ s.pend.ops.dstCap.toNat)
    (hread : unpackToken s.lcfg s.pend.ops.dstAddr.toNat s.pend.ops.dstCap.toNat u = .ok (false, u')) :
    ∃ tok out', tok.expand s.lcfg.dict out = some out' ∧ out'.length ≤ s.pend.ops.dstCap.toNat ∧
      UnpackAt s all (codeToken s.lcfg p tok) out' u' := by
  have hproduced := h.produced
  generalize hq : (false, u') = q at hread
  cases unpackToken_read hread with
  | @lit b d1 d2 htyp hlit hroom =>
    obtain rfl := congrArg Prod.snd hq
    obtain ⟨_, h1⟩ := h.dec.decSym_ok hlc hdict hs htyp
    obtain ⟨hb, h2⟩ := h1.decSym_ok hlc hdict (codeSymbol_sound hlc hs .typ 0) hlit
    have hbyte : (BitVec.ofNat 8 b).toNat = b := Nat.mod_eq_of_lt hb
    have hlt : out.length < s.pend.ops.dstCap.toNat := by omega
    refine ⟨.lit (BitVec.ofNat 8 b), _, rfl, by simpa using hlt, ?_⟩
    rw [codeToken, hbyte]
    exact (h.withDec h2).emitByte hapart hlt _
  | @copy lv dv d1 d2 d3 htyp hlength hdist hback hroom =>
    obtain rfl := congrArg Prod.snd hq
    obtain ⟨_, h1⟩ := h.dec.decSym_ok hlc hdict hs htyp
    have hs1 := codeSymbol_sound hlc hs .typ 1
    obtain ⟨hlen, h2⟩ := h1.decValue_ok hlc hdict hs1 hlength
    obtain ⟨hfar, h3⟩ := h2.decValue_ok hlc hdict (codeSymbol_sound hlc hs1 .len _) hdist
    have hlv : lv < 2 ^ 8 := lt_two_pow_of_bucket (by decide) hlen
    have hdv : dv < 2 ^ s.lcfg.dict := lt_two_pow_of_bucket (le_trans (by decide) hlc.dict_ge) hfar
    have hwithin : dv + 1 ≤ min out.length (2 ^ s.lcfg.dict) := by omega
    have hlt : out.length + (lv + minMatch) ≤ s.pend.ops.dstCap.toNat := by omega
    have hmin : minMatch = 3 := rfl
    refine ⟨.copy (lv + minMatch) (dv + 1), _, if_pos ⟨by omega, by omega, by omega, hwithin⟩, by simpa using hlt, ?_⟩
    exact (h.withDec h3).copyMatch hapart hlt (by omega) hwithin
  | eos _ _ _ => cases hq

/-- A stream whose tokens are read to their end held the codes of tokens that stand for what was produced. -/
theorem UnpackAt.loop_ok {n : Nat} (h : UnpackAt s all p out u) (hs : TabsSound s.lcfg p.2)
    (hfits : out.length ≤ s.pend.ops.dstCap.toNat)
    (hread : unpackLoop s.lcfg s.pend.ops.dstAddr.toNat s.pend.ops.dstCap.toNat n u = .ok u') :
    ∃ toks out', expandTokens s.lcfg.dict toks out = some out' ∧ out'.length ≤ s.pend.ops.dstCap.toNat ∧
      UnpackAt s all (codeEos s.lcfg (codeTokens s.lcfg toks p)) out' u' := by
  induction n generalizing p out u with
  | zero => cases hread
  | succ n ih =>
    rw [unpackLoop] at hread
    split at hread
    · cases hread
    · rename_i u1 htoken
      injection hread with hread
      exact ⟨[], out, rfl, hfits, hread ▸ h.eos_ok hlc hdict hs htoken⟩
    · rename_i u1 htoken
      obtain ⟨tok, out1, hexpand, hfits1, h1⟩ := h.token_ok hlc hdict hapart hs hfits htoken
      obtain ⟨toks, out', hrest, hfits', h'⟩ := ih h1 (codeToken_sound hlc hs tok) hfits1 hread
      exact ⟨tok :: toks, out', Option.bind_eq_some_iff.mpr ⟨out1, hexpand, hrest⟩, hfits', h'⟩

end

end Sys2Proof.Machine
end

section
/-!
PROOFS of 48_decompress.md R660, R662, R668 to R671: what a DECOMPRESS that succeeds found in its source, from the header to the
trailer, and what it leaves.
-/

namespace Sys2Proof.Machine

open Sys2Proof.Safety

-- Bodies are elaborated one after another, which keeps the compile's memory down.
set_option Elab.async false

/-! ## The end of the stream (48_decompress.md R668 to R670) -/

/-- A padding check that passes found zero bits up to the next byte boundary. -/
theorem checkPadding_ok_zeros {m : Mem} {r r' : RCur} (hr : RCurOk r) (h : checkPadding m r = .ok r') :
    r' = advanceRead ((8 - r.bit) % 8) r ∧ List.replicate ((8 - r.bit) % 8) false <+: unreadBits r m := by
  have hbit := rcurOk_bit_lt hr
  unfold checkPadding at h
  split at h
  · have hcount : (8 - r.bit) % 8 = 8 - r.bit := by omega
    split at h
    · cases h
    · rename_i x r1 hget
      obtain ⟨_, hbits, hmoved⟩ := getbits_ok_bits hget hr
      split at h
      · rename_i hzero
        injection h with h
        have hzeros := msbBits_shiftLeft 0 (Nat.le_refl (8 - r.bit))
        rw [Nat.zero_shiftLeft] at hzeros
        rw [hzero, hzeros] at hbits
        rw [hcount]
        exact ⟨h ▸ hmoved, hbits⟩
      · cases h
  · have hcount : (8 - r.bit) % 8 = 0 := by omega
    injection h with h
    rw [hcount, advanceRead_zero hbit]
    exact ⟨h.symm, List.nil_prefix⟩

/-- Trailer checks that pass found the last four bytes of the source, and, when it is checked, the checksum in them. -/
theorem checkTrailer_ok_bytes {lc : LCfg} {m : Mem} {a : Word} {r r' : RCur} (h : checkTrailer lc m a r = .ok r') :
    r.pos + 4 = r.len.toNat ∧ r' = { r with pos := r.len.toNat } ∧
      (lc.adlerEn = true → beValue (Mem.readList (r.base.toNat + r.pos) 4 m) = a.toNat) := by
  unfold checkTrailer at h
  split at h
  · cases h
  · split at h
    · cases h
    · rename_i hend
      have hlast : r.pos + 4 = r.len.toNat := not_not.mp hend
      split at h
      · cases h
      · rename_i hsum
        injection h with h
        refine ⟨hlast, hlast ▸ h.symm, fun hchecked => ?_⟩
        by_contra hne
        exact hsum (by simp [hchecked, hne])

/-- An end that is accepted is the padding and four bytes, up to the end of the source. -/
theorem checkEnd_ok_bits {lc : LCfg} {u : Unpack} {r : RCur} (hrc : RCurOk u.dec.rc) (h : checkEnd lc u = .ok r) :
    r = { u.dec.rc with pos := u.dec.rc.len.toNat, bit := 0 } ∧
      ∃ last : List Byte, last.length = 4 ∧
        unreadBits u.dec.rc u.mem = List.replicate ((8 - u.dec.rc.bit) % 8) false ++ bytesBits last ∧
        (lc.adlerEn = true → beValue last = u.adler.toNat) := by
  unfold checkEnd at h
  split at h
  · cases h
  rename_i r1 hpadding
  obtain ⟨hr1, rest, hrest⟩ := checkPadding_ok_zeros hrc hpadding
  obtain ⟨_, hboundary⟩ := checkPadding_ok hpadding hrc
  obtain ⟨hlast, hr, hsum⟩ := checkTrailer_ok_bytes h
  have hfour : r1.len.toNat - r1.pos = 4 := by omega
  obtain ⟨_, hunread⟩ := unreadBits_advance hrc hrest.symm
  rw [List.length_replicate, ← hr1, unreadBits, hboundary, List.drop_zero, hfour] at hunread
  refine ⟨?_, _, Mem.length_readList .., hunread ▸ hrest.symm, hsum⟩
  rw [hr, ← hboundary, hr1]
  rfl

/-- The bytes of the source between the header and the trailer. -/
def sourceBody (s : State) : List Byte :=
  Mem.readList (s.pend.ops.srcAddr.toNat + 8) (s.pend.ops.srcLen.toNat - 12) s.mem

/-- The last four bytes of the source. -/
def sourceTrailer (s : State) : List Byte :=
  Mem.readList (s.pend.ops.srcAddr.toNat + (s.pend.ops.srcLen.toNat - 4)) 4 s.mem

/-- The bytes of the source after its header. -/
def sourceRest (s : State) : List Byte :=
  Mem.readList (s.pend.ops.srcAddr.toNat + 8) (s.pend.ops.srcLen.toNat - 8) s.mem

theorem sourceRest_eq {s : State} (h : 12 ≤ s.pend.ops.srcLen.toNat) : sourceRest s = sourceBody s ++ sourceTrailer s := by
  have hlen : s.pend.ops.srcLen.toNat - 8 = s.pend.ops.srcLen.toNat - 12 + 4 := by omega
  have hlast : s.pend.ops.srcAddr.toNat + 8 + (s.pend.ops.srcLen.toNat - 12) =
      s.pend.ops.srcAddr.toNat + (s.pend.ops.srcLen.toNat - 4) := by omega
  rw [sourceRest, hlen, Mem.readList_add, hlast]
  rfl

section
variable {s : State}

/-- Past the end-of-stream token, a source whose end is accepted holds the padding of the bits before it and four bytes, with the
checksum in them when it is checked. -/
theorem UnpackAt.checkEnd_ok {p : List Bool × Tabs} {out : List Byte} {u : Unpack} {r : RCur}
    (h : UnpackAt s (bytesBits (sourceRest s)) p out u) (hend : Machine.checkEnd s.lcfg u = .ok r) :
    r = sourceEnd s ∧ 12 ≤ s.pend.ops.srcLen.toNat ∧ bytesBits (sourceBody s) = p.1 ++ padding p.1 ∧
      (s.lcfg.adlerEn = true → beValue (sourceTrailer s) = u.adler.toNat) := by
  obtain ⟨hbase, hlen, hrc, hbits, _⟩ := h.dec
  have hplace := hrc.place
  obtain ⟨hr, last, hfour, hunread, hsum⟩ := checkEnd_ok_bits hrc hend
  have hcount := congrArg List.length hbits
  rw [List.length_append, length_unreadBits, RCur.unread, length_bytesBits] at hcount
  have hmod : p.1.length % 8 = u.dec.rc.bit := by omega
  have hpad : padding p.1 = List.replicate ((8 - u.dec.rc.bit) % 8) false := by rw [padding, hmod]
  rw [hunread, ← hpad, ← List.append_assoc] at hbits
  have hwhole := congrArg List.length hbits
  rw [List.length_append, length_bytesBits, length_bytesBits, sourceRest, Mem.length_readList, hfour] at hwhole
  have htwelve : 12 ≤ s.pend.ops.srcLen.toNat := by omega
  rw [sourceRest_eq htwelve, bytesBits_append] at hbits
  obtain ⟨hbody, htrailer⟩ := List.append_inj' hbits (by simp [sourceTrailer, hfour])
  refine ⟨?_, htwelve, hbody.symm, bytesBits_injective htrailer ▸ hsum⟩
  rw [hr, sourceEnd, ← hbase, ← hlen]

/-! ## From the header to the trailer (48_decompress.md R660, R671) -/

/-- A stream that is decoded has its own header, its tokens up to the end-of-stream token, and an end that is accepted. -/
theorem unpackStream_ok {u : Unpack} (h : unpackStream s = .ok u) :
    8 ≤ s.pend.ops.srcLen.toNat ∧ Mem.readList s.pend.ops.srcAddr.toNat 8 s.mem = header s.lcfg ∧
      ∃ u1 r, unpackLoop s.lcfg s.pend.ops.dstAddr.toNat s.pend.ops.dstCap.toNat (8 * s.pend.ops.srcLen.toNat + 1)
          (pastHeader s) = .ok u1 ∧
        checkEnd s.lcfg u1 = .ok r ∧ u = { u1 with dec := { u1.dec with rc := r } } := by
  unfold unpackStream at h
  dsimp only at h
  split at h
  · cases h
  · rename_i hlen
    split at h
    · cases h
    · rename_i hheader
      split at h
      · cases h
      · rename_i u1 hloop
        split at h
        · cases h
        · rename_i r hend
          injection h with h
          exact ⟨Nat.le_of_not_lt hlen, not_not.mp hheader, u1, r, hloop, hend, h.symm⟩

/-- Past its header a decompressor has produced nothing and has its tables as the stream began. -/
theorem unpackAt_afterHeader (hs : Inv s) (hsrc : s.srcRegion.legal = true) (hlen : 8 ≤ s.pend.ops.srcLen.toNat) :
    UnpackAt s (bytesBits (sourceRest s)) ([], s.tab) [] (pastHeader s) where
  dec :=
    { base_eq := rfl
      len_eq := rfl
      rc := rcurOk_start hsrc hlen
      bits := rfl
      tab := rfl }
  win := holds_clear _ hs.ring_wf
  total := rfl
  adler := by rw [adlerUpdate_nil, ite_self]; rfl
  produced := rfl
  out_eq := rfl
  mem_wf := hs.mem_wf
  stored := by split <;> rfl

/-- A stream that has not started is not done, so the tables of a decompressor about to decode are sound. -/
theorem tabsSound_of_mayDecompress (hs : Inv s) (hmay : s.mayDecompress = true) : TabsSound s.lcfg s.tab := by
  obtain ⟨hready, _, hfresh⟩ := s.mayDecompress_iff.mp hmay
  refine hs.sound hready ?_
  obtain ⟨_, _, _, hdone⟩ | ⟨_, _, _, hdone⟩ | ⟨_, _, hdone⟩ := hs.ctx
  · exact hdone
  · exact hdone
  · exact Bool.eq_false_iff.mpr fun h => absurd (hfresh.symm.trans (hdone h)) (by decide)

/-- What a decoded stream of the source region in flight was: tokens that stand for the bytes produced, their codes with the
end-of-stream token's and the padding, and the trailer. -/
structure Decoded (s : State) (toks : List Token) (out : List Byte) (u : Unpack) : Prop where
  expands : expandTokens s.lcfg.dict toks [] = some out
  fits    : out.length ≤ s.pend.ops.dstCap.toNat
  at_end  : UnpackAt s (bytesBits (sourceRest s)) (codeEos s.lcfg (codeTokens s.lcfg toks ([], s.tab))) out u
  len     : 12 ≤ s.pend.ops.srcLen.toNat
  header  : Mem.readList s.pend.ops.srcAddr.toNat 8 s.mem = header s.lcfg
  body    : bytesBits (sourceBody s) =
              (codeEos s.lcfg (codeTokens s.lcfg toks ([], s.tab))).1 ++
                padding (codeEos s.lcfg (codeTokens s.lcfg toks ([], s.tab))).1
  trailer : s.lcfg.adlerEn = true → beValue (sourceTrailer s) = u.adler.toNat

theorem unpackStream_decoded (hs : Inv s) (hmay : s.mayDecompress = true) (hnames : bothNameable s) {u : Unpack}
    (h : unpackStream s = .ok u) :
    ∃ toks out u1, Decoded s toks out u1 ∧ u = { u1 with dec := { u1.dec with rc := sourceEnd s } } := by
  obtain ⟨hready, _⟩ := s.mayDecompress_iff.mp hmay
  obtain ⟨⟨hsrc, _⟩, _, hdisjoint⟩ := hnames
  obtain ⟨hlen, hheader, u1, r, hloop, hend, rfl⟩ := unpackStream_ok h
  obtain ⟨toks, out, hexpand, hfits, hat⟩ := (unpackAt_afterHeader hs hsrc hlen).loop_ok (hs.lcfg hready)
    (hs.dict_le hready) (apart_of_not_overlaps hdisjoint) (tabsSound_of_mayDecompress hs hmay) (Nat.zero_le _) hloop
  obtain ⟨rfl, htwelve, hbody, htrailer⟩ := hat.checkEnd_ok hend
  exact ⟨toks, out, u1, ⟨hexpand, hfits, hat, htwelve, hheader, hbody, htrailer⟩, rfl⟩

section
variable {toks : List Token} {out : List Byte} {u : Unpack}

/-- The end-of-stream token takes at least one bit, so a byte stands between the header and the trailer. -/
theorem Decoded.body_pos (h : Decoded s toks out u) (hs : Inv s) (hmay : s.mayDecompress = true) :
    13 ≤ s.pend.ops.srcLen.toNat := by
  obtain ⟨hready, _⟩ := s.mayDecompress_iff.mp hmay
  have hsound := codeTokens_sound (hs.lcfg hready) toks (q := ([], s.tab)) (tabsSound_of_mayDecompress hs hmay)
  have hone := (tabsSound_fullCode (hs.dict_le hready) hsound .typ).len_pos 2 (show 2 < 3 by decide)
  have hcount := congrArg List.length h.body
  rw [length_bytesBits, sourceBody, Mem.length_readList, List.length_append, codeEos, codeSymbol, List.length_append,
    codeBits, length_msbBits] at hcount
  omega

/-- RESULT is the length of the output, which is what stands in the destination. -/
theorem Decoded.result_toNat (h : Decoded s toks out u) : (BitVec.ofNat 32 u.produced).toNat = out.length := by
  have hcap := s.pend.ops.dstCap.isLt
  have hfits := h.fits
  rw [h.at_end.produced]
  exact Nat.mod_eq_of_lt (by omega)

theorem Decoded.total_toNat (h : Decoded s toks out u) : u.win.total.toNat = out.length := by
  have hcap := s.pend.ops.dstCap.isLt
  have hfits := h.fits
  rw [h.at_end.total]
  exact Nat.mod_eq_of_lt (by omega)

end

end

/-- Settles O55: a decoded stream's tokens, bits and trailer, and the state that DECOMPRESS then leaves. -/
theorem decompressSuccess : Obligations.DecompressSuccess := by
  unfold Obligations.DecompressSuccess
  rintro s t out hs h hok hout
  cases exec_decompress_ends s t h with
  | report e hearly =>
    obtain rfl : e = .ok := hok
    cases hearly
  | broken hu =>
    have hreads := unpackStream_reads s
    rw [hu] at hreads
    exact absurd (hok ▸ hreads.code) (show ErrCode.ok ∉ streamErrors by decide)
  | @done u hmay hnames hu =>
    have hstored := unpackStream_storedBelow s
    rw [hu] at hstored
    obtain hstored : StoredBelow s.lcfg s.pend.ops.dstAddr.toNat s.pend.ops.dstCap.toNat s.mem u := hstored
    obtain ⟨toks, out', u1, hdecoded, rfl⟩ := unpackStream_decoded hs hmay hnames hu
    have hresult := hdecoded.result_toNat
    have hat := hdecoded.at_end
    obtain rfl : out = out' := by
      rw [hout, complete_result, decompressDone_result, hresult]
      exact hat.readList_done _
    refine ⟨?_, ?_, hdecoded.body_pos hs hmay, header_eq s.lcfg ▸ hdecoded.header,
      ⟨toks, _, hdecoded.expands, rfl, hat.dec.tab, hdecoded.body⟩, hdecoded.trailer, hdecoded.total_toNat,
      fun d hpos hd hring => hat.win.wread d hpos hd hring, fun a ha => hstored.decompressDone_outside ?_⟩
    · rw [← hat.adler]
      rfl
    · rw [complete_result, decompressDone_result, hresult]
      exact hdecoded.fits
    · rwa [complete_result, decompressDone_result, hstored.result_toNat] at ha

end Sys2Proof.Machine
end

section
/-!
PROOFS of 48_decompress.md R660 (example): the stream of no data is the header, the end-of-stream code of the initial tables padded
to the byte 0x00, and the checksum of nothing.
-/

namespace Sys2Proof.Machine

open Sys2Proof.Safety

-- Bodies are elaborated one after another, which keeps the compile's memory down.
set_option Elab.async false

/-- The end-of-stream token's code in the initial tables is the single bit 0 (44_adaptive_codec.md R550). -/
theorem codeEos_initTabs (lc : LCfg) (bits : List Bool) :
    codeEos lc (bits, initTabs lc) = (bits ++ [false], (initTabs lc).set .typ ((initTabs lc).typ.update lc 2)) := by
  obtain ⟨hlen, hcode, _⟩ := initialTables lc
  have hbits : codeBits ((initTabs lc).get .typ).len ((initTabs lc).get .typ).code 2 = [false] := by
    rw [initTabs_get, alphabetSize, hlen, hcode]
    rfl
  rw [codeEos, codeSymbol, hbits]
  rfl

/-- The bits after the header of the stream of no data. -/
theorem codeFinal_empty (lc : LCfg) :
    (codeFinal lc (adlerUpdate 0x00000001 []) ([], initTabs lc)).1 = bytesBits [0x00, 0x00, 0x00, 0x00, 0x01] := by
  rw [codeFinal, codeEos_initTabs, adlerUpdate_nil]
  rfl

section
variable {s : State}

/-- The source of a stream of no data: thirteen bytes, the header and then the five of `codeFinal_empty`. -/
theorem sourceRest_empty (hlen : s.pend.ops.srcLen = 13)
    (hsrc : Mem.readList s.pend.ops.srcAddr.toNat 13 s.mem = header s.lcfg ++ [0x00, 0x00, 0x00, 0x00, 0x01]) :
    Mem.readList s.pend.ops.srcAddr.toNat 8 s.mem = header s.lcfg ∧ sourceRest s = [0x00, 0x00, 0x00, 0x00, 0x01] := by
  have hrest : sourceRest s = Mem.readList (s.pend.ops.srcAddr.toNat + 8) 5 s.mem := by rw [sourceRest, hlen]; rfl
  rw [hrest]
  rw [show 13 = 8 + 5 from rfl, Mem.readList_add] at hsrc
  exact List.append_inj hsrc (Mem.length_readList ..)

/-- Its tokens end at once: one round of the loop reads the end-of-stream token and produces nothing. -/
theorem unpackLoop_empty (hs : Inv s) (hmay : s.mayDecompress = true) (hstart : atStreamStart s)
    (hlegal : s.srcRegion.legal = true) (hlen : s.pend.ops.srcLen = 13)
    (hrest : sourceRest s = [0x00, 0x00, 0x00, 0x00, 0x01]) :
    ∃ d, unpackLoop s.lcfg s.pend.ops.dstAddr.toNat s.pend.ops.dstCap.toNat (8 * s.pend.ops.srcLen.toNat + 1)
        (pastHeader s) = .ok { pastHeader s with dec := d } ∧
      UnpackAt s (bytesBits (sourceRest s)) (codeEos s.lcfg ([], initTabs s.lcfg)) [] { pastHeader s with dec := d } := by
  obtain ⟨hready, _⟩ := s.mayDecompress_iff.mp hmay
  have hfirst := unpackAt_pastHeader hs hstart hlegal (by rw [hlen]; decide)
  have hprefix : (codeEos s.lcfg ([], initTabs s.lcfg)).1 <+: bytesBits (sourceRest s) := by
    rw [hrest, ← codeFinal_empty s.lcfg]
    exact (List.prefix_append ..).trans (List.prefix_append ..)
  obtain ⟨d, htyp, hd⟩ := hfirst.dec.decSym (hs.dict_le hready) (initTabs_sound (hs.lcfg hready)) (c := .typ) (sym := 2)
    (show 2 < 3 by decide) hprefix
  refine ⟨d, ?_, hfirst.withDec hd⟩
  rw [unpackLoop, unpackToken_eos htyp]

/-- What a DECOMPRESS that produces nothing leaves, in both output modes. -/
theorem decompressDone_empty (s : State) (d : Dec) :
    decompressDone s { pastHeader s with dec := d } =
      { s with
        ctx := { s.ctx with started := true, done := true }
        rc := d.rc, tab := d.tab
        win := { ring := s.win.ring, total := 0 }
        adler := 0x00000001, result := 0, res0 := s.pend.ops.srcLen } := by
  have hmem : (decompressDone s { pastHeader s with dec := d }).mem = s.mem := ite_self s.mem
  rw [← hmem]
  rfl

end

/-- Settles O54: the one token is the end of the stream, so nothing is produced, and the bytes after it are its padding and the
checksum of nothing. -/
theorem decompressEmptyStream : Obligations.DecompressEmptyStream := by
  unfold Obligations.DecompressEmptyStream
  intro s hs hmay hstart hnames hbus hlen hsrc
  have hbytes : Mem.readList s.pend.ops.srcAddr.toNat 13 s.mem = header s.lcfg ++ [0x00, 0x00, 0x00, 0x00, 0x01] := by
    rw [header_eq]
    exact hsrc
  have hcount : s.pend.ops.srcLen.toNat = 13 := by rw [hlen]; rfl
  obtain ⟨hheader, hrest⟩ := sourceRest_empty hlen hbytes
  obtain ⟨⟨hlegal, _⟩, _⟩ := id hnames
  obtain ⟨d, hloop, hat⟩ := unpackLoop_empty hs hmay hstart hlegal hlen hrest
  have hend := hat.checkEnd (by rw [hrest, codeFinal_empty])
  have htab : d.tab = (codeEos s.lcfg ([], initTabs s.lcfg)).2 := hat.dec.tab
  have hunpack := unpackStream_of_loop (by omega) hheader hloop hend
  have hexec := exec_decompress_checked hmay hnames hunpack (by
    rw [unpackRead_sourceEnd (by omega)]
    exact busAllows_with_empty hbus _)
  obtain ⟨_, _, hinit⟩ := hstart
  rw [codeEos_initTabs, ← hinit] at htab
  have hcursor : sourceEnd s = { base := s.pend.ops.srcAddr, len := 13, pos := 13, bit := 0 } := by
    rw [sourceEnd, hcount, hlen]
  rw [decompressDone_empty, hcursor, hlen] at hexec
  refine ⟨_, hexec, rfl, ?_⟩
  rw [complete_tab, htab]
  exact ⟨rfl, rfl, rfl, rfl⟩

end Sys2Proof.Machine
end
